-- ==== Sys2Proof/Word.lean ====
section
/-! DEFINITION. The bit-vector types of the part: a byte on a line and a 12-bit channel sample. -/

namespace Sys2Proof

/-- A byte of a frame. -/
abbrev Byte := BitVec 8

/-- A raw channel sample, 0..4095 (R8). -/
abbrev Raw := BitVec 12

end Sys2Proof
end

