-- ==== Sys2Proof/Config.lean ====
section
/-! DEFINITION. What an implementation fixes, and the one value the manual leaves open, a free value; the periods and capacities the rules state stand beside the operations that use them, under Machine/. -/

namespace Sys2Proof.Config

/-- Family code answered by IDENTIFY (R182). -/
def familyCode : Byte := 0x2C#8

/-- Part code answered by IDENTIFY (R182). -/
def partCode : Byte := 0x04#8

/-- Silicon revision of the parts the manual describes (R182). -/
def siliconRevision : Byte := 1#8

/-- The reason byte that a status frame carries while no SETUP_FAULT cause is present: 12, section 12.5 states none, so it
is a free value, one for each status frame built (assumption log, entry 32). -/
opaque freeReason : Nat → Byte

end Sys2Proof.Config
end

