-- ==== Sys2Proof/Syntax.lean ====
section
/-! DEFINITION. The commands of the block: one constructor for each row of spec/opcode_table.json, with its operands. -/

namespace Sys2Proof

/-- The two axles; also the two steering servos and the two records of SERVO_END (R47). -/
inductive Axle where
  | front
  | rear
deriving DecidableEq, Repr

/-- The blocks that take one channel update event, each for itself (R11, R197), and RTX, which takes the trigger of a
status frame (R173, R174). -/
inductive Taker where
  | stm
  | drm
  | wnc
  | mdc
  | atx
  | rtx
deriving DecidableEq, Repr

/-- The blocks that take one evaluation completion, each for itself (R139, R142, R149, R151). -/
inductive EvalTaker where
  | alt
  | drm
  | wnc
  | lsq
  | mdc
  | bga
deriving DecidableEq, Repr

/-- What the measurement unit reports at a completion (R131): four cell taps and the pack terminal in mV, the pack
current in mA. A reading beyond its range is taken at the range's end. -/
structure Readings where
  v1 : Nat
  v2 : Nat
  v3 : Nat
  v4 : Nat
  vpack : Nat
  current : Nat
deriving DecidableEq, Repr

/-- The commands. `order` operands give the order in which the blocks concerned take the event the command issues:
those listed first, in the order given, then the others (assumption log, entries 1 and 2). A setup command carries its
qualifier byte `q` and the bytes `ps` that follow it on the line. -/
inductive Instr where
  /-- CONTROL_FRAME_ACCEPTED (R5, R9, R10). -/
  | controlFrameAccepted (payload : Vector Byte 19) (order : List Taker)
  /-- SETUP_FRAME_ACCEPTED (R6). -/
  | setupFrameAccepted (payload : List Byte)
  /-- CANDIDATE_DISCARDED (R2, R3): the byte that makes the candidate fail. -/
  | candidateDiscarded (b : Byte) (order : List Taker)
  /-- FAULTED_CHARACTER (R4). -/
  | faultedCharacter
  /-- ENTRY_INTO_HOLD (R13). -/
  | entryIntoHold (order : List Taker)
  /-- ENTRY_INTO_FAILSAFE (R14). -/
  | entryIntoFailsafe (order : List Taker)
  /-- REFRESH (R15). -/
  | refresh (order : List Taker)
  /-- ARMING_TIMER_EXPIRY (R62). -/
  | armingTimerExpiry
  /-- REVERSE_DELAY_EXPIRY (R70) of one axle's timer. -/
  | reverseDelayExpiry (axle : Axle)
  /-- PULSE_START (R51). -/
  | pulseStart
  /-- SPOOL_PULSE (R92): a pulse on the spool input that began at the instant `start` and lasted `lasts`, both in µs. -/
  | spoolPulse (start lasts : Nat)
  /-- LIGHT_TIMEBASE_EVENT (R124). -/
  | lightTimebaseEvent
  /-- BRAKE_HOLD_EXPIRY (R113). -/
  | brakeHoldExpiry
  /-- MEASUREMENT_COMPLETION (R131). -/
  | measurementCompletion (r : Readings) (order : List EvalTaker)
  /-- END_OF_START_UP_WINDOW (R141). -/
  | endOfStartUpWindow
  /-- FOLDBACK_TIMER_EXPIRY (R144). -/
  | foldbackTimerExpiry
  /-- CUTOFF_TIMER_EXPIRY (R198). -/
  | cutoffTimerExpiry
  /-- PARK_TIMER_EXPIRY (R196). -/
  | parkTimerExpiry
  /-- RETURN_TRANSMIT_COMPLETION (R172, R186). -/
  | returnTransmitCompletion
  /-- ACCESSORY_TRANSMIT_COMPLETION (R178). -/
  | accessoryTransmitCompletion
  /-- STORE_COMPLETION (R191). -/
  | storeCompletion
  /-- COLD_RESET (R199): power-on or the supply supervisor. -/
  | coldReset
  /-- WARM_RESET (R199): the reset pin. -/
  | warmReset
  /-- RESET_RELEASE (R200), with the level of the BENCH pin: low selects bench mode (R201). -/
  | resetRelease (benchLow : Bool)
  /-- IDENTIFY (R182). -/
  | identify (q : Byte) (ps : List Byte)
  /-- READ_TABLE (R182): table id, then the record index. -/
  | readTable (q : Byte) (ps : List Byte)
  /-- WRITE_TABLE (R183): table id, then the record index and the record. -/
  | writeTable (q : Byte) (ps : List Byte)
  /-- READ_SWITCHES (R188): base, then the count. -/
  | readSwitches (q : Byte) (ps : List Byte)
  /-- WRITE_SWITCHES (R188): base, then the count and a byte for each bit. -/
  | writeSwitches (q : Byte) (ps : List Byte)
  /-- SET_SWITCH (R188): the bit. -/
  | setSwitch (q : Byte) (ps : List Byte)
  /-- CLEAR_SWITCH (R188): the bit. -/
  | clearSwitch (q : Byte) (ps : List Byte)
  /-- DRIVE_INHIBIT (R61, R63): SUP writes bit 0. -/
  | driveInhibit (v : Bool)
  /-- WINCH_INHIBIT (R84, R85): SUP writes bit 1. -/
  | winchInhibit (v : Bool)
  /-- PARK_REQUEST (R196, R197): SUP writes bit 3. -/
  | parkRequest (v : Bool)
  /-- OVERRIDE (R119): SUP writes bits 4..11, the bit of L0 lowest. -/
  | override (bits : Byte)
  /-- RESET_CHARGE (R136): SUP fires the strobe, bit 12. -/
  | resetCharge
  /-- BOOST_DISABLE (R103, R104): SUP writes bit 13. -/
  | boostDisable (v : Bool)
  /-- CAPTURE_FAILSAFE (R19): qualifier not read, then the channel mask. -/
  | captureFailsafe (q : Byte) (ps : List Byte)
  /-- WINCH_RUN (R88): direction, then count and duty. -/
  | winchRun (q : Byte) (ps : List Byte)
  /-- WINCH_STOP (R90). -/
  | winchStop (q : Byte) (ps : List Byte)
  /-- WINCH_ZERO (R93). -/
  | winchZero (q : Byte) (ps : List Byte)
  /-- WINCH_FREE (R96): 0 OFF, 1 ON. -/
  | winchFree (q : Byte) (ps : List Byte)
  /-- ACK_ALERT (R166, R167): a code 1..12, or 0xFF for ALL. -/
  | ackAlert (q : Byte) (ps : List Byte)
  /-- STORE (R190): the store group with qualifier 1. -/
  | store (ps : List Byte)
  /-- RESTORE (R192): the store group with qualifier 2. -/
  | restore (ps : List Byte)
  /-- DEFAULTS (R193): the store group with qualifier 3. -/
  | defaults (ps : List Byte)
  /-- SOFT_RESTART (R186). -/
  | softRestart (q : Byte) (ps : List Byte)
  /-- UNASSIGNED_COMMAND (R204): code 15, or (`storeGroup`) code 13 with a qualifier that names no command. -/
  | unassignedCommand (storeGroup : Bool) (q : Byte) (ps : List Byte)
  /-- UPLINK_BYTE_TAKEN (R1). -/
  | uplinkByteTaken (b : Byte) (order : List Taker)
  /-- SERVO_PULSE_END (R51, R52) of one servo output. -/
  | servoPulseEnd (axle : Axle)
deriving DecidableEq, Repr

end Sys2Proof
end

