-- ==== Sys2Proof/Decode.lean ====
section
/-! DEFINITION. The table gives its rows no bits, so no word spells a command. -/

namespace Sys2Proof

/-- The command that an instruction word spells: none, since no row of spec/opcode_table.json gives bits. -/
def decodeTableWord (_nbits _w : Nat) : Option Instr := none

end Sys2Proof
end

