-- ==== Sys2Proof/Machine/Tables.lean ====
section
/-! DEFINITION. The fifteen tables (R183): the record of each, the steer, drive and light codes they hold, and the factory
values. -/

namespace Sys2Proof.Machine

/-- Steer modes (R38). -/
inductive SteerMode where
  | front
  | rear
  | counter
  | crab
deriving DecidableEq, Repr

/-- Drive modes (R59). -/
inductive DriveMode where
  | all
  | frontDig
  | rearDig
deriving DecidableEq, Repr

/-- Main light levels (R33). -/
inductive MainLight where
  | off
  | running
  | full
deriving DecidableEq, Repr

/-- A CHANNEL_CAL record (R24): raw units for centre and half-span, per-mille for the deadband. -/
structure ChannelCal where
  centre : Nat
  halfSpan : Nat
  deadband : Nat
  reverse : Bool
deriving DecidableEq, Repr

/-- A role-map entry (R26): a channel, or NONE. -/
abbrev Role := Option (Fin 12)

/-- The ROLE_MAP record (R26). -/
structure RoleMap where
  steer : Role
  throttle : Role
  winch : Role
  steerSel : Role
  driveSel : Role
  profileSel : Role
  lightSel : Role
  auxSel : Role
deriving DecidableEq, Repr

/-- The two kinds of switch (R29). -/
inductive SwitchKind where
  | two
  | three
deriving DecidableEq, Repr

/-- A SWITCH_DEF record (R29); the map entries are codes 0..3. -/
structure SwitchDef where
  kind : SwitchKind
  t1 : Int
  t2 : Int
  hyst : Nat
  map0 : Nat
  map1 : Nat
  map2 : Nat
deriving DecidableEq, Repr

/-- A CURVE record (R35): the nine points. -/
abbrev Curve := Vector Int 9

/-- A PROFILE record (R34). -/
structure Profile where
  throttleCurve : Fin 4
  steeringCurve : Fin 4
  rearRatio : Nat
  speedLimit : Nat
  reverseDelay : Nat
  dragBrake : Nat
  slew : Nat
deriving DecidableEq, Repr

/-- A SERVO_END record (R46), in µs. -/
structure ServoEnd where
  left : Nat
  centre : Nat
  right : Nat
deriving DecidableEq, Repr

/-- The DRIVE_CFG record (R76, R112, R115); Ifs in whole amperes. -/
structure DriveCfg where
  ifsFront : Nat
  ifsRear : Nat
  armingTime : Nat
  failsafeBrake : Nat
  winchCap : Nat
  brakeHold : Nat
  turnThreshold : Nat
deriving DecidableEq, Repr

/-- The WINCH_CFG record (R105); Ifs in whole amperes. -/
structure WinchCfg where
  ifs : Nat
  pmax : Nat
  jogThreshold : Nat
  jogMax : Nat
  stallWindow : Nat
  stallFloor : Nat
  creepLimit : Nat
  aMax : Nat
deriving DecidableEq, Repr

/-- What a source wants an output to show (06, section 6.6). -/
inductive ActionCode where
  | none
  | steady
  | blink
deriving DecidableEq, Repr

/-- The side a TURN action carries (R115). -/
inductive Side where
  | left
  | right
deriving DecidableEq, Repr

/-- One output's action in a scene (R121). -/
structure Action where
  code : ActionCode
  side : Side
  pattern : Fin 4
  level : Byte
deriving DecidableEq, Repr

/-- A LIGHT_SCENE record (R121). -/
structure Scene where
  priority : Nat
  actions : Vector Action 8
deriving DecidableEq, Repr

/-- A PATTERN record 0..3 (R123), in 10 ms steps. -/
structure Pattern where
  period : Nat
  onTime : Nat
deriving DecidableEq, Repr

/-- The PROTECT record (R147). -/
structure Protect where
  cellCount : Nat
  rint : Nat
  vLow : Nat
  vCrit : Nat
  vCut : Nat
  hysteresis : Nat
  capacity : Nat
  percent : Nat
  lowCap : Nat
  critCap : Nat
  iTrip : Nat
  foldbackTime : Nat
  iFold : Nat
  bNormal : Nat
  bLow : Nat
  bCrit : Nat
deriving DecidableEq, Repr

/-- The BUDGET record (R160). -/
structure Budget where
  reservation : Nat
  driveWeight : Nat
  winchWeight : Nat
  lightWeight : Nat
deriving DecidableEq, Repr

/-- The LINK record (R183, R184); the park delay in seconds. -/
structure LinkCfg where
  unitAddress : Fin 16
  tHold : Nat
  tFs : Nat
  statusN : Nat
  parkDelay : Nat
  maskLevel : Nat
  window : Nat
deriving DecidableEq, Repr

/-- The fifteen tables, in id order (R183). -/
structure Tables where
  channelCal : Vector ChannelCal 12
  roleMap : RoleMap
  switchDef : Vector SwitchDef 5
  curve : Vector Curve 4
  profile : Vector Profile 3
  servoFront : ServoEnd
  servoRear : ServoEnd
  driveCfg : DriveCfg
  winchCfg : WinchCfg
  lightOut : Vector Nat 8
  scene : Vector Scene 10
  pattern : Vector Pattern 4
  alertMap : Vector (Fin 4) 3
  protect : Protect
  budget : Budget
  link : LinkCfg
  failsafe : Vector (Option Raw) 12
deriving DecidableEq, Repr

/-- The endpoint record of an axle: index 0 is the front axle, index 1 the rear (R47). -/
def Tables.servoEnd (t : Tables) : Axle → ServoEnd
  | .front => t.servoFront
  | .rear => t.servoRear

/-! The factory values. -/

/-- Factory CHANNEL_CAL (02, section 2.2). -/
def factoryCal : ChannelCal := { centre := 2048, halfSpan := 1600, deadband := 20, reverse := false }

/-- Factory ROLE_MAP (02, section 2.3). -/
def factoryRoles : RoleMap :=
  { steer := some 0, throttle := some 1, winch := some 2, steerSel := some 3, driveSel := some 4,
    profileSel := some 5, lightSel := some 6, auxSel := some 7 }

/-- A factory three-position switch with its map (02, section 2.4). -/
def factorySwitch (m0 m1 m2 : Nat) : SwitchDef :=
  { kind := .three, t1 := -333, t2 := 333, hyst := 30, map0 := m0, map1 := m1, map2 := m2 }

/-- Factory SWITCH_DEF (02, section 2.4): STEER_SEL, DRIVE_SEL, PROFILE_SEL, LIGHT_SEL, AUX_SEL. -/
def factorySwitches : Vector SwitchDef 5 :=
  #v[factorySwitch 0 2 3, factorySwitch 0 1 2, factorySwitch 0 1 2, factorySwitch 0 1 2,
    { kind := .two, t1 := 0, t2 := 1000, hyst := 30, map0 := 0, map1 := 1, map2 := 0 }]

/-- The linear curve (R35). -/
def linearCurve : Curve := #v[-1000, -750, -500, -250, 0, 250, 500, 750, 1000]

/-- Factory PROFILE with its throttle curve (02, section 2.5). -/
def factoryProfile (throttle : Fin 4) : Profile :=
  { throttleCurve := throttle, steeringCurve := 3, rearRatio := 1000, speedLimit := 1000, reverseDelay := 0,
    dragBrake := 1000, slew := 0 }

/-- Factory SERVO_END (03, section 3.4). -/
def factoryServo : ServoEnd := { left := 1100, centre := 1500, right := 1900 }

/-- Factory DRIVE_CFG (04, section 4.7; R112; R115). -/
def factoryDriveCfg : DriveCfg :=
  { ifsFront := 12, ifsRear := 12, armingTime := 500, failsafeBrake := 1000, winchCap := 400, brakeHold := 500,
    turnThreshold := 600 }

/-- Factory WINCH_CFG (05, section 5.11). -/
def factoryWinchCfg : WinchCfg :=
  { ifs := 10, pmax := 4000, jogThreshold := 150, jogMax := 800, stallWindow := 50, stallFloor := 150,
    creepLimit := 20, aMax := 100 }

/-- An action of a factory scene that lights nothing; the fields NONE does not use are 0 and LEFT (DESIGN CHOICE,
assumption log, entry 24). -/
def noAction : Action := { code := .none, side := .left, pattern := 0, level := 0#8 }

/-- A factory STEADY action (06, section 6.6). -/
def steadyAction (level : Byte) : Action := { code := .steady, side := .left, pattern := 0, level := level }

/-- A factory BLINK action (06, section 6.6). -/
def blinkAction (pattern : Fin 4) (level : Byte) (side : Side) : Action :=
  { code := .blink, side := side, pattern := pattern, level := level }

/-- Factory LIGHT_SCENE (06, section 6.6), in source index order. -/
def factoryScenes : Vector Scene 10 :=
  #v[
    { priority := 1, actions := #v[steadyAction 96, steadyAction 96, steadyAction 64, steadyAction 64, noAction,
        steadyAction 64, noAction, noAction] },
    { priority := 2, actions := #v[steadyAction 255, steadyAction 255, noAction, noAction, steadyAction 255, noAction,
        noAction, noAction] },
    { priority := 2, actions := #v[noAction, noAction, noAction, noAction, noAction, noAction,
        blinkAction 3 255 .left, noAction] },
    { priority := 4, actions := #v[noAction, noAction, steadyAction 255, steadyAction 255, noAction, noAction, noAction,
        noAction] },
    { priority := 3, actions := #v[noAction, noAction, steadyAction 180, steadyAction 180, noAction, noAction, noAction,
        noAction] },
    { priority := 5, actions := #v[blinkAction 1 255 .left, blinkAction 1 255 .right, blinkAction 1 255 .left,
        blinkAction 1 255 .right, noAction, noAction, noAction, noAction] },
    { priority := 3, actions := #v[noAction, noAction, noAction, noAction, noAction, noAction, noAction,
        steadyAction 255] },
    { priority := 6, actions := #v[noAction, noAction, noAction, noAction, noAction, noAction,
        blinkAction 0 255 .left, noAction] },
    { priority := 7, actions := #v[blinkAction 2 128 .left, blinkAction 2 128 .left, blinkAction 2 128 .left,
        blinkAction 2 128 .left, noAction, noAction, noAction, noAction] },
    { priority := 7, actions := #v[steadyAction 255, steadyAction 255, steadyAction 255, steadyAction 255,
        steadyAction 255, steadyAction 255, steadyAction 255, steadyAction 255] }]

/-- Factory PATTERN records 0..3 (06, section 6.8). -/
def factoryPatterns : Vector Pattern 4 :=
  #v[{ period := 20, onTime := 10 }, { period := 50, onTime := 25 }, { period := 100, onTime := 50 },
    { period := 100, onTime := 10 }]

/-- Factory PROTECT (07, section 7.11). -/
def factoryProtect : Protect :=
  { cellCount := 0, rint := 0, vLow := 3500, vCrit := 3300, vCut := 3100, hysteresis := 100, capacity := 0,
    percent := 80, lowCap := 600, critCap := 300, iTrip := 40000, foldbackTime := 2000, iFold := 10000,
    bNormal := 20000, bLow := 12000, bCrit := 6000 }

/-- Factory BUDGET (08, section 8.7). -/
def factoryBudget : Budget := { reservation := 3000, driveWeight := 4, winchWeight := 3, lightWeight := 2 }

/-- Factory LINK (10, section 10.3). -/
def factoryLink : LinkCfg :=
  { unitAddress := 1, tHold := 100, tFs := 900, statusN := 5, parkDelay := 30, maskLevel := 5, window := 100 }

/-- The factory values of all fifteen tables (R193). -/
def factoryTables : Tables :=
  { channelCal := Vector.replicate 12 factoryCal
    roleMap := factoryRoles
    switchDef := factorySwitches
    curve := Vector.replicate 4 linearCurve
    profile := #v[factoryProfile 0, factoryProfile 1, factoryProfile 2]
    servoFront := factoryServo
    servoRear := factoryServo
    driveCfg := factoryDriveCfg
    winchCfg := factoryWinchCfg
    lightOut := Vector.replicate 8 300
    scene := factoryScenes
    pattern := factoryPatterns
    alertMap := #v[0, 1, 2]
    protect := factoryProtect
    budget := factoryBudget
    link := factoryLink
    failsafe := Vector.replicate 12 none }

end Sys2Proof.Machine
end

