-- ==== Sys2Proof/Machine/State.lean ====
section
/-! DEFINITION. The state of the part as plain data, block by block (00_scope.md), the queue of commands, and the state
right after reset. -/

namespace Sys2Proof.Machine

/-- The manual describes no stop of the part, so there is no fault (INVENTORY.md, Faults). -/
inductive Fault where
deriving DecidableEq, Repr

/-- Why a command has no meaning. -/
inductive Refusal where
  /-- Raised by a refused arm of exec, for a command that is not modelled yet; safe. No arm raises it. -/
  | notModelled (mnemonic : String)
deriving DecidableEq, Repr

/-! ### ULR and CHT (01) -/

/-- Hunt states (R1). -/
inductive HuntState where
  | hunt
  | kind
  | payload
  | check
deriving DecidableEq, Repr

/-- Link states (R12 to R16). -/
inductive LinkState where
  | await
  | live
  | hold
  | failsafe
deriving DecidableEq, Repr

/-- The Uplink Receiver: hunt state and bytes held since the sync (R1), link supervision (R12 to R17). Timers hold the
instant, in ms of the clock, at which they expire. -/
structure Ulr where
  hunt : HuntState
  bytes : List Byte
  link : LinkState
  linkTimer : Option Nat
  refreshDue : Option Nat
  ordinal : Nat
deriving DecidableEq, Repr

/-- Tags (R8). -/
inductive Tag where
  | empty
  | fresh
  | held
  | failsafe
deriving DecidableEq, Repr

/-- A slot: a tag, and a raw value unless the tag is EMPTY (R8). -/
inductive Slot where
  | empty
  | fresh (raw : Raw)
  | held (raw : Raw)
  | failsafe (raw : Raw)
deriving DecidableEq, Repr

/-! ### CDC (02) -/

/-- A switch's position and whether its latest decode was ordered (R30). -/
structure SwitchPos where
  pos : Fin 3
  ordered : Bool
deriving DecidableEq, Repr

/-- The decode that stands (R22). -/
structure Decode where
  steer : Int
  throttle : Int
  winch : Int
  switches : Vector SwitchPos 5
  steerSel : SteerMode
  driveSel : DriveMode
  profile : Fin 3
  mainLight : MainLight
  beacon : Bool
deriving DecidableEq, Repr

/-! ### STM (03) -/

/-- The Steering Mixer (03). A width or pulse is in µs; `schedule` is the instant of the next pulse start while the
schedule runs; `pulseFront` and `pulseRear` are the latched widths of running pulses. -/
structure Stm where
  command : Int
  active : SteerMode
  pending : Option SteerMode
  first : Bool
  front : Option Nat
  rear : Option Nat
  pulsing : Bool
  schedule : Option Nat
  pulseFront : Option Nat
  pulseRear : Option Nat
deriving DecidableEq, Repr

/-! ### DRM (04) -/

/-- Arming states (R60 to R63). -/
inductive Arming where
  | disarmed
  | arming
  | armed
deriving DecidableEq, Repr

/-- Axle states (04, section 4.5). -/
inductive AxleState where
  | off
  | idle
  | forward
  | reverse
  | reversing
  | digLocked
  | failsafeBrake
deriving DecidableEq, Repr

/-- The directions an axle can leave into REVERSING (R69). -/
inductive Direction where
  | forward
  | reverse
deriving DecidableEq, Repr

/-- Bridge modes (00_scope.md, Units). -/
inductive Bridge where
  | coast
  | brake
  | fwd
  | rev
deriving DecidableEq, Repr

/-- An axle record (04). -/
structure AxleRec where
  state : AxleState
  timer : Option Nat
  left : Option Direction
  effective : Nat
  output : Nat
deriving DecidableEq, Repr

/-- The Drive Mixer (04): d, drive mode, arming, the request a and the axle request, the axles, demand and grant. -/
structure Drm where
  command : Int
  mode : DriveMode
  arming : Arming
  armTimer : Option Nat
  request : Int
  axleRequest : Int
  front : AxleRec
  rear : AxleRec
  demand : Nat
  grant : Nat
deriving DecidableEq, Repr

/-! ### WNC (05) -/

/-- Winch states (R83). -/
inductive WinchState where
  | idle
  | jogIn
  | jogOut
  | runIn
  | runOut
  | free
  | stalled
  | locked
deriving DecidableEq, Repr

/-- Directions of a run. -/
inductive WinchDir where
  | inward
  | outward
deriving DecidableEq, Repr

/-- The run request and the run remaining R, present only during a run (R88, R89). -/
structure Run where
  dir : WinchDir
  count : Nat
  duty : Nat
  remaining : Nat
deriving DecidableEq, Repr

/-- Kinds of a last-operation record (R91). -/
inductive OpKind where
  | runIn
  | runOut
  | jogIn
  | jogOut
deriving DecidableEq, Repr

/-- Outcomes (R91). -/
inductive OpOutcome where
  | done
  | aborted
  | stalled
  | limit
  | locked
deriving DecidableEq, Repr

/-- The last-operation record (R91); the requested count is absent for a jog. -/
structure LastOp where
  kind : OpKind
  requested : Option Nat
  counts : Nat
  outcome : OpOutcome
deriving DecidableEq, Repr

/-- The winch record (05). `boostAtStart` tells whether the boost flag stood set at the start of the running budget
period (R104). -/
structure Winch where
  state : WinchState
  position : Nat
  referenced : Bool
  run : Option Run
  opCount : Nat
  holdOff : Bool
  requested : Nat
  effective : Nat
  stallTimer : Nat
  creep : Nat
  creepReported : Bool
  demand : Nat
  grant : Nat
  allowance : Nat
  boost : Bool
  boostAtStart : Bool
  recharge : Nat
  lastOp : Option LastOp
deriving DecidableEq, Repr

/-! ### LSQ (06) -/

/-- The ten light sources (06, section 6.2). -/
inductive Source where
  | mainRun
  | mainFull
  | aux
  | brake
  | reverse
  | turn
  | winch
  | alert
  | failsafe
  | override
deriving DecidableEq, Repr

/-- The Light Sequencer (06): activity in source index order, per-output winner, raw level and level. `granted` tells whether
a grant event has come since the latest reset (R129). -/
structure Lsq where
  active : Vector Bool 10
  brakeHold : Option Nat
  timebase : BitVec 32
  nextEvent : Option Nat
  winner : Vector (Option Source) 8
  raw : Vector Nat 8
  level : Vector Nat 8
  demand : Nat
  grant : Nat
  granted : Bool
deriving DecidableEq, Repr

/-! ### BTM and BGA (07, 08) -/

/-- Protection levels, in order of severity (07, section 7.5). -/
inductive Level where
  | normal
  | low
  | critical
  | cutoff
deriving DecidableEq, Repr

/-- The Battery Monitor (07). `cells` is n; `vf` holds the filtered voltages of cells 1..n; `readings` are those of the
latest measurement; `window` is the end of the open start-up window; `lastMeas` is the instant of the previous
completion, or of the reset release; `nextMeas` that of the next completion. -/
structure Btm where
  cells : Option Nat
  vf : List Nat
  readings : Option Readings
  vc : Nat
  charge : Nat
  acc : Nat
  capForce : Bool
  level : Level
  startLow : Option Nat
  startCrit : Option Nat
  startCut : Option Nat
  recovery : Option Nat
  overcurrent : Option Nat
  foldback : Option Nat
  window : Option Nat
  budget : Option Nat
  lastMeas : Nat
  nextMeas : Option Nat
deriving DecidableEq, Repr

/-- The Budget Arbiter (08): the budget in force and the four grants. -/
structure Bga where
  budget : Nat
  steer : Nat
  drive : Nat
  winch : Nat
  lights : Nat
deriving DecidableEq, Repr

/-! ### ALT, SUP, RTX, ATX, TBS, MDC (09, 10, 11) -/

/-- Reply statuses (12, section 12.4). -/
inductive Status where
  | ok
  | clamped
  | ignored
  | retained
  | busy
  | refusedUnknown
  | refusedAddress
  | refusedLength
  | refusedOrder
  | refusedArmed
  | refusedState
deriving DecidableEq, Repr

/-- The reason of a setup fault (R165). -/
inductive FaultReason where
  | refused (status : Status)
  | queueFull
deriving DecidableEq, Repr

/-- The SETUP_FAULT cause record (R165): a command code 0..15 and a reason. -/
structure FaultCause where
  command : Fin 16
  reason : FaultReason
deriving DecidableEq, Repr

/-- The Alert Latches (09): bit c − 1 of `latched` is the latch of code c, and of `causes` its cause flag. -/
structure Alt where
  latched : BitVec 12
  causes : BitVec 12
  fault : Option FaultCause
deriving DecidableEq, Repr

/-- The Setup Processor (10): the setup queue holds payloads, oldest first; `switches` holds the read/write bits of the
switch space in their places; `store` is the instant at which the STORE in flight started. -/
structure Sup where
  queue : List (List Byte)
  restart : Bool
  switches : BitVec 32
  store : Option Nat
deriving DecidableEq, Repr

/-- A reply (12, section 12.4): byte 0, the status and the data. -/
structure Reply where
  head : Byte
  status : Status
  data : List Byte
deriving DecidableEq, Repr

/-- What the return line can carry: a reply, or a status frame with its payload. -/
inductive ReturnFrame where
  | reply (r : Reply)
  | status (payload : List Byte)
deriving DecidableEq, Repr

/-- The Return Transmitter (09). `free` is the model's own: how many status frames have been built, which is where the
free value of the next one is taken from (assumption log, entry 32). -/
structure Rtx where
  replies : List Reply
  slot : Option (List Byte)
  sending : Option ReturnFrame
  count : Nat
  free : Nat
deriving DecidableEq, Repr

/-- What the accessory line can carry: a pass-through setup frame or an accessory frame, each with its payload. -/
inductive AccessoryFrame where
  | forward (payload : List Byte)
  | accessory (payload : List Byte)
deriving DecidableEq, Repr

/-- The Accessory Transmitter (09): the forward queue holds payloads, oldest first. -/
structure Atx where
  queue : List (List Byte)
  slot : Option (List Byte)
  sending : Option AccessoryFrame
deriving DecidableEq, Repr

/-- The nonvolatile image (R189): blank mark, table copy, check value. `torn` says that a STORE has begun to rewrite it
and has not completed, so that copy and check do not agree (R190, R191; assumption log, entry 22). -/
structure Image where
  blank : Bool
  copy : Tables
  check : BitVec 16
  torn : Bool
deriving DecidableEq, Repr

/-- The Table Store (10): the image, and the snapshot a STORE in flight is writing (R190). -/
structure Tbs where
  image : Image
  snapshot : Option Tables
deriving DecidableEq, Repr

/-- Operating modes (R195). -/
inductive Mode where
  | active
  | parked
  | dormant
deriving DecidableEq, Repr

/-- The Mode Controller (11). `bench` tells whether the strap value selects bench mode. -/
structure Mdc where
  mode : Mode
  parkTimer : Option Nat
  cutoffTimer : Option Nat
  bench : Bool
deriving DecidableEq, Repr

/-- The kinds of reset (R199). -/
inductive ResetKind where
  | cold
  | warm
deriving DecidableEq, Repr

/-- Everything but the queue: the clock in ms, the instant (µs) of the latest spool pulse taken (R92), the reset now
held, the tables and the fifteen blocks. -/
structure Chip where
  now : Nat
  spoolStart : Option Nat
  held : Option ResetKind
  tables : Tables
  ulr : Ulr
  slots : Vector Slot 12
  cdc : Decode
  stm : Stm
  drm : Drm
  wnc : Winch
  lsq : Lsq
  btm : Btm
  bga : Bga
  alt : Alt
  sup : Sup
  rtx : Rtx
  atx : Atx
  tbs : Tbs
  mdc : Mdc
deriving DecidableEq, Repr

/-- The part, and the commands waiting for it, first in, first out. -/
structure State where
  pending : List Instr
  chip : Chip
deriving DecidableEq, Repr

/-- The state with its part changed and its queue kept. -/
def State.onChip (s : State) (f : Chip → Chip) : State := { s with chip := f s.chip }

/-! ### After reset -/

/-- A new part's image: blank (R189). What stands behind the blank mark is never read. -/
def blankImage : Image := { blank := true, copy := factoryTables, check := 0#16, torn := false }

/-- An axle right after reset, outside bench mode (R81). -/
def resetAxle : AxleRec :=
  { state := .failsafeBrake, timer := none, left := none, effective := 0, output := 1000 }

/-- The light picture at the reset release of a part with factory tables (R129): FAILSAFE wins L0..L3 in the on part of
its pattern, and every level is 0 until the first grant event. -/
def resetLsq : Lsq :=
  { active := #v[false, false, false, true, false, false, false, false, true, false]
    brakeHold := none
    timebase := 0#32
    nextEvent := some 10
    winner := #v[some .failsafe, some .failsafe, some .failsafe, some .failsafe, none, none, none, none]
    raw := #v[128, 128, 128, 128, 0, 0, 0, 0]
    level := Vector.replicate 8 0
    demand := 602
    grant := 0
    granted := false }

/-- The part right after the release of a cold reset, with a blank image and the BENCH pin open (R200; assumption log,
entry 12). -/
def Chip.reset : Chip :=
  { now := 0
    spoolStart := none
    held := none
    tables := factoryTables
    ulr := { hunt := .hunt, bytes := [], link := .await, linkTimer := none, refreshDue := none, ordinal := 0 }
    slots := Vector.replicate 12 .empty
    cdc := { steer := 0, throttle := 0, winch := 0, switches := Vector.replicate 5 { pos := 0, ordered := false },
             steerSel := .front, driveSel := .all, profile := 0, mainLight := .off, beacon := false }
    stm := { command := 0, active := .front, pending := none, first := true, front := none, rear := none,
             pulsing := false, schedule := none, pulseFront := none, pulseRear := none }
    drm := { command := 0, mode := .all, arming := .disarmed, armTimer := none, request := 0, axleRequest := 0,
             front := resetAxle, rear := resetAxle, demand := 0, grant := 0 }
    wnc := { state := .locked, position := 0, referenced := false, run := none, opCount := 0, holdOff := true,
             requested := 0, effective := 0, stallTimer := 50, creep := 0, creepReported := false, demand := 0,
             grant := 0, allowance := 100, boost := false, boostAtStart := false, recharge := 0, lastOp := none }
    lsq := resetLsq
    btm := { cells := none, vf := [], readings := none, vc := 0, charge := 0, acc := 0, capForce := false,
             level := .normal, startLow := none, startCrit := none, startCut := none, recovery := none,
             overcurrent := none, foldback := none, window := some 200, budget := none, lastMeas := 0,
             nextMeas := some 10 }
    bga := { budget := 0, steer := 0, drive := 0, winch := 0, lights := 0 }
    alt := { latched := 0#12, causes := 0#12, fault := none }
    sup := { queue := [], restart := false, switches := 0#32, store := none }
    rtx := { replies := [], slot := none, sending := none, count := 0, free := 0 }
    atx := { queue := [], slot := none, sending := none }
    tbs := { image := blankImage, snapshot := none }
    mdc := { mode := .active, parkTimer := some 30000, cutoffTimer := none, bench := false } }

/-- The machine right after reset: the part as above, and no command waiting. -/
def State.reset : State := { pending := [], chip := Chip.reset }

end Sys2Proof.Machine
end

