-- ==== Sys2Proof/Machine/Ops.lean ====
section
/-! DEFINITION. The shared operations: arithmetic and rounding, bytes of a frame and its check, the characters of a line, the
clock, and the order in which blocks take an event. -/

namespace Sys2Proof.Machine

/-! ### Arithmetic (00_scope.md, Rounding) -/

/-- Clamp to lo..hi. -/
def clampNat (lo hi x : Nat) : Nat := max lo (min hi x)

/-- Clamp a signed value to lo..hi. -/
def clampInt (lo hi x : Int) : Int := max lo (min hi x)

/-- Division rounded to the nearest integer, ties away from zero. -/
def divNearest (num : Int) (den : Nat) : Int :=
  if 0 ≤ num then ((2 * num.natAbs + den) / (2 * den) : Nat) else -((2 * num.natAbs + den) / (2 * den) : Nat)

/-- The scaling of R75, R101 and R126: `x` when the demand is at most the grant, else floor(x × k / 1000) with
k = floor(grant × 1000 / demand). -/
def scaleTo (grant demand x : Nat) : Nat :=
  if demand ≤ grant then x else x * (grant * 1000 / demand) / 1000

/-! ### Bytes (12) -/

/-- Byte i of a frame or record as a number; 0 beyond its end. -/
def byteAt (bs : List Byte) (i : Nat) : Nat := (bs.getD i 0#8).toNat

/-- The two-byte field at offset i, least significant byte first (12). -/
def wordAt (bs : List Byte) (i : Nat) : Nat := byteAt bs i + 256 * byteAt bs (i + 1)

/-- The signed two-byte field at offset i, two's complement (12). -/
def intAt (bs : List Byte) (i : Nat) : Int := (BitVec.ofNat 16 (wordAt bs i)).toInt

/-- A one-byte field. -/
def byteOf (n : Nat) : List Byte := [BitVec.ofNat 8 n]

/-- A two-byte field, least significant byte first. -/
def wordOf (n : Nat) : List Byte := [BitVec.ofNat 8 n, BitVec.ofNat 8 (n / 256)]

/-- A signed two-byte field. -/
def intOf (z : Int) : List Byte := wordOf (BitVec.ofInt 16 z).toNat

/-- A flag as a byte. -/
def boolByte (b : Bool) : Byte := if b then 1#8 else 0#8

/-! ### The check byte (R2, R203) -/

/-- One shift of the CRC: generator 0xA7, most significant bit first. -/
def crcShift (x : Byte) : Byte := if x.msb then (x <<< 1) ^^^ 0xA7#8 else x <<< 1

/-- One covered byte. -/
def crcByte (x b : Byte) : Byte := (List.range 8).foldl (fun y _ => crcShift y) (x ^^^ b)

/-- The CRC-8 of the covered bytes, initial value 0. -/
def crc8 (bs : List Byte) : Byte := bs.foldl crcByte 0#8

/-- The sync byte (01, section 1.1). -/
def syncByte : Byte := 0x5C#8

/-- A frame as it stands on a line: sync, kind and length, payload, check (R203). -/
def wireFrame (kind : Nat) (payload : List Byte) : List Byte :=
  let body := BitVec.ofNat 8 (64 * kind + payload.length) :: payload
  syncByte :: body ++ [crc8 body]

/-! ### Characters (R202) -/

/-- The ten levels of the character of a byte: a low start bit, eight data bits, least significant first, and a high stop
bit. -/
def characterBits (b : Byte) : List Bool := false :: (List.range 8).map b.getLsbD ++ [true]

/-- The levels of bytes sent one after another. -/
def lineBits (bs : List Byte) : List Bool := bs.flatMap characterBits

/-- What a receiver makes of ten levels of a line: nothing where the first is high, as on an idle line; else a character,
whole where its stop bit is high and faulted where it is low (R202). -/
inductive Character where
  | idle
  | faulted
  | byte (b : Byte)
deriving DecidableEq, Repr

/-- The byte of eight data bits, least significant first. -/
def byteOfBits (bits : List Bool) : Byte :=
  (List.range 8).foldr (fun i b => (if bits.getD i false then 1#8 <<< i else 0#8) ||| b) 0#8

/-- Ten levels read as a character (R202). -/
def Character.read (levels : List Bool) : Character :=
  if levels.getD 0 true then .idle
  else if levels.getD 9 true then .byte (byteOfBits (levels.drop 1))
  else .faulted

/-! ### The clock (00_scope.md, Time and events) -/

/-- One millisecond goes by. -/
def Chip.tick (c : Chip) : Chip := { c with now := c.now + 1 }

/-- The clock at the instant a schedule names, or now where that instant has gone by (assumption log, entry 4). -/
def Chip.atInstant (c : Chip) (due : Option Nat) : Chip := { c with now := max c.now (due.getD 0) }

/-- The part takes events: no reset is held and the mode is not DORMANT (R195, R199). -/
def Chip.running (c : Chip) : Bool := decide (c.held = none) && decide (c.mdc.mode ≠ .dormant)

/-- An event of the running part: it does nothing while a reset is held or in DORMANT (R195, R199). -/
def Chip.whenRunning (c : Chip) (f : Chip → Chip) : Chip := if c.running then f c else c

/-- The event of a schedule or timer: it needs the running part and the schedule running, and it is taken at the instant
the schedule names (assumption log, entries 4 and 5). -/
def Chip.whenDue (c : Chip) (due : Option Nat) (f : Chip → Chip) : Chip :=
  if c.running && due.isSome then f (c.atInstant due) else c

/-! ### The order of the blocks (R11, R139) -/

/-- The blocks of `all` in the order in which they take an event: those `order` names first, then the others. -/
def fullOrder {α : Type} [DecidableEq α] (all order : List α) : List α :=
  order.eraseDups ++ all.filter fun x => !order.contains x

/-- The blocks that take a channel update, in their order. -/
def takers (order : List Taker) : List Taker := fullOrder [.stm, .drm, .wnc, .mdc, .atx, .rtx] order

/-- The blocks that take an evaluation completion, in their order. -/
def evalTakers (order : List EvalTaker) : List EvalTaker := fullOrder [.alt, .drm, .wnc, .lsq, .mdc, .bga] order

end Sys2Proof.Machine
end

