-- ==== Sys2Proof/Machine/Operands.lean ====
section
/-! DEFINITION. The operand forms: the samples and flags of a control payload, the fields of a setup payload, slots and
axles. -/

namespace Sys2Proof.Machine

/-! ### Control payload (01, section 1.3; 12, section 12.2) -/

/-- The sample of a channel: two channels are packed to three bytes. -/
def sampleAt (payload : List Byte) (ch : Nat) : Raw :=
  let k := ch / 2
  if ch % 2 = 0 then BitVec.ofNat 12 (byteAt payload (3 * k) + 256 * (byteAt payload (3 * k + 1) % 16))
  else BitVec.ofNat 12 (byteAt payload (3 * k + 1) / 16 + 16 * byteAt payload (3 * k + 2))

/-- RXHOLD: bit 0 of the flags byte. -/
def rxHold (payload : List Byte) : Bool := decide (byteAt payload 18 % 2 = 1)

/-! ### Setup payload (12, section 12.3) -/

/-- The unit address: upper nibble of byte 0 (R6). -/
def unitOf (payload : List Byte) : Nat := byteAt payload 0 / 16

/-- The command code: lower nibble of byte 0. -/
def codeOf (payload : List Byte) : Fin 16 := ⟨byteAt payload 0 % 16, by omega⟩

/-- A setup payload: unit address and command code, qualifier, parameters. -/
def setupPayload (unit code : Nat) (q : Byte) (ps : List Byte) : List Byte :=
  BitVec.ofNat 8 (16 * unit + code) :: q :: ps

/-! ### Slots -/

/-- The tag of a slot (R8). -/
def Slot.tag : Slot → Tag
  | .empty => .empty
  | .fresh _ => .fresh
  | .held _ => .held
  | .failsafe _ => .failsafe

/-- The raw value of a slot; an EMPTY slot has none (R8). -/
def Slot.raw : Slot → Option Raw
  | .empty => none
  | .fresh r => some r
  | .held r => some r
  | .failsafe r => some r

/-- The slot a role names, or an EMPTY one where the role is NONE (R28, R30). -/
def Chip.roleSlot (c : Chip) : Role → Slot
  | none => .empty
  | some ch => c.slots[ch]

/-! ### Axles -/

/-- An axle's record. -/
def Drm.axle (d : Drm) : Axle → AxleRec
  | .front => d.front
  | .rear => d.rear

/-- The drive mixer with one axle's record replaced. -/
def Drm.setAxle (d : Drm) (a : Axle) (r : AxleRec) : Drm :=
  match a with
  | .front => { d with front := r }
  | .rear => { d with rear := r }

/-- The axle a drive mode locks (R59). -/
def DriveMode.locks : DriveMode → Axle → Bool
  | .all, _ => false
  | .frontDig, .front => false
  | .frontDig, .rear => true
  | .rearDig, .front => true
  | .rearDig, .rear => false

/-- An axle's full-scale current in whole amperes (R73). -/
def DriveCfg.ifs (cfg : DriveCfg) : Axle → Nat
  | .front => cfg.ifsFront
  | .rear => cfg.ifsRear

end Sys2Proof.Machine
end

