-- ==== Sys2Proof/Machine/Flags.lean ====
section
/-! DEFINITION. The flags: the alert latches and the top alert (09), and the bits of the switch space (10, section 10.5). -/

namespace Sys2Proof.Machine

/-! ### Alerts (09, section 9.1) -/

/-- The twelve alerts, in code order. -/
inductive Alert where
  | linkFailsafe
  | battCutoff
  | battCritical
  | overcurrent
  | battLow
  | winchStall
  | linkHold
  | winchCreep
  | capacity
  | lineEnd
  | setupFault
  | storeFault
deriving DecidableEq, Repr

namespace Alert

/-- All alerts, in code order. -/
def all : List Alert :=
  [linkFailsafe, battCutoff, battCritical, overcurrent, battLow, winchStall, linkHold, winchCreep, capacity, lineEnd,
    setupFault, storeFault]

/-- The code 1..12. -/
def code : Alert → Nat
  | linkFailsafe => 1
  | battCutoff => 2
  | battCritical => 3
  | overcurrent => 4
  | battLow => 5
  | winchStall => 6
  | linkHold => 7
  | winchCreep => 8
  | capacity => 9
  | lineEnd => 10
  | setupFault => 11
  | storeFault => 12

/-- The level, 1 the most severe. -/
def level : Alert → Nat
  | linkFailsafe => 1
  | battCutoff => 1
  | battCritical => 2
  | overcurrent => 2
  | battLow => 3
  | winchStall => 3
  | linkHold => 4
  | winchCreep => 4
  | capacity => 5
  | lineEnd => 5
  | setupFault => 6
  | storeFault => 6

/-- Condition alerts; the others are event alerts. -/
def isCondition : Alert → Bool
  | linkFailsafe => true
  | battCutoff => true
  | battCritical => true
  | overcurrent => false
  | battLow => true
  | winchStall => true
  | linkHold => false
  | winchCreep => false
  | capacity => true
  | lineEnd => false
  | setupFault => false
  | storeFault => false

/-- The alert a code names. -/
def ofCode (n : Nat) : Option Alert := all.find? fun a => a.code == n

/-- The alert's bit among the latches. -/
def mask (a : Alert) : BitVec 12 := 1#12 <<< (a.code - 1)

end Alert

/-- The latch of an alert is set. -/
def Alt.has (t : Alt) (a : Alert) : Bool := t.latched.getLsbD (a.code - 1)

/-- The cause flag of an alert is set. -/
def Alt.caused (t : Alt) (a : Alert) : Bool := t.causes.getLsbD (a.code - 1)

/-- An event alert is raised (R163). -/
def Alt.raise (t : Alt) (a : Alert) : Alt := { t with latched := t.latched ||| a.mask }

/-- The cause of a condition alert, as its owner reports it: beginning sets cause flag and latch, ending clears the cause
flag and leaves the latch (R163). -/
def Alt.cause (t : Alt) (a : Alert) (holds : Bool) : Alt :=
  if holds then { t with causes := t.causes ||| a.mask, latched := t.latched ||| a.mask }
  else { t with causes := t.causes &&& ~~~a.mask }

/-- SETUP_FAULT is raised with its cause record (R165). -/
def Alt.setupFault (t : Alt) (command : Fin 16) (reason : FaultReason) : Alt :=
  { t.raise .setupFault with fault := some { command := command, reason := reason } }

/-- A latch that an acknowledge does not clear: a condition alert whose cause flag is set (R166). -/
def Alt.retains (t : Alt) (a : Alert) : Bool := a.isCondition && t.caused a

/-- A latch is cleared; with SETUP_FAULT goes its cause record (R165). -/
def Alt.clear (t : Alt) (a : Alert) : Alt :=
  { t with latched := t.latched &&& ~~~a.mask, fault := if a = .setupFault then none else t.fault }

/-- An acknowledge of one alert, and its status (R166). -/
def Alt.ack (t : Alt) (a : Alert) : Alt × Status :=
  if !t.has a then (t, .ignored)
  else if t.retains a then (t, .retained)
  else (t.clear a, .ok)

/-- An acknowledge of all alerts, and its status (R167). -/
def Alt.ackAll (t : Alt) : Alt × Status :=
  let t' := Alert.all.foldl (fun u a => (u.ack a).1) t
  (t', if t'.latched ≠ 0#12 then .retained else if t.latched ≠ 0#12 then .ok else .ignored)

/-- A latch is eligible: its level is at most M, or is 1 (R168). -/
def Alert.eligible (a : Alert) (m : Nat) : Bool := decide (a.level ≤ m) || decide (a.level = 1)

/-- The more severe of the alert found so far and the next in code order; the earlier stays at equal levels (R168). -/
def Alert.better (best : Option Alert) (a : Alert) : Option Alert :=
  match best with
  | none => some a
  | some b => if a.level < b.level then some a else some b

/-- The top alert: the most severe eligible latch, the lowest code among equals (R168). -/
def Alt.top (t : Alt) (m : Nat) : Option Alert :=
  (Alert.all.filter fun a => t.has a && a.eligible m).foldl Alert.better none

/-- The latched set in two bytes, code c in bit c − 1 (12, section 12.4). -/
def Alt.latchedBytes (t : Alt) : List Byte := wordOf t.latched.toNat

/-- The top alert as it stands, under the mask level of LINK. -/
def Chip.topAlert (c : Chip) : Option Alert := c.alt.top c.tables.link.maskLevel

/-! ### Switch space (10, section 10.5) -/

/-- A bit of the switch space as SUP holds it. -/
def Chip.switchBit (c : Chip) (n : Nat) : Bool := c.sup.switches.getLsbD n

/-- DRIVE_INHIBIT. -/
def Chip.driveInhibit (c : Chip) : Bool := c.switchBit 0

/-- WINCH_INHIBIT. -/
def Chip.winchInhibit (c : Chip) : Bool := c.switchBit 1

/-- SERVO_QUIET_FS. -/
def Chip.servoQuiet (c : Chip) : Bool := c.switchBit 2

/-- PARK_REQUEST. -/
def Chip.parkRequest (c : Chip) : Bool := c.switchBit 3

/-- OVERRIDE of output o. -/
def Chip.overrideBit (c : Chip) (o : Fin 8) : Bool := c.switchBit (4 + o.val)

/-- BOOST_DISABLE. -/
def Chip.boostDisable (c : Chip) : Bool := c.switchBit 13

/-- REAR_STEER_LOCK. -/
def Chip.rearSteerLock (c : Chip) : Bool := c.switchBit 14

/-- The read/write bits: 0..11, 13 and 14 (R187). -/
def writableBits : BitVec 32 := 0x00006FFF#32

/-- The strobe RESET_CHARGE, bit 12 (R136). -/
def strobeBit : BitVec 32 := 0x00001000#32

/-- The bits `mask` of the switch space written with `value`; only read/write bits change (R188). -/
def mergeSwitches (old mask value : BitVec 32) : BitVec 32 :=
  (old &&& ~~~(mask &&& writableBits)) ||| (value &&& mask &&& writableBits)

/-- The 32 bits as a read gives them: BENCH, ARMED and STORE_BUSY are read from their owners (R187). -/
def Chip.switchSpace (c : Chip) : BitVec 32 :=
  c.sup.switches
    ||| (if c.mdc.bench then 0x00008000#32 else 0#32)
    ||| (if c.drm.arming = .armed then 0x00010000#32 else 0#32)
    ||| (if c.sup.store.isSome then 0x00020000#32 else 0#32)

/-- The 32 bits in 4 bytes; bit n is bit n mod 8 of byte n / 8 (12, section 12.4). -/
def bytesOf32 (v : BitVec 32) : List Byte :=
  [v.extractLsb' 0 8, v.extractLsb' 8 8, v.extractLsb' 16 8, v.extractLsb' 24 8]

/-! ### Statuses (12, section 12.4) -/

/-- The status code. -/
def Status.code : Status → Nat
  | .ok => 0
  | .clamped => 1
  | .ignored => 2
  | .retained => 3
  | .busy => 4
  | .refusedUnknown => 5
  | .refusedAddress => 6
  | .refusedLength => 7
  | .refusedOrder => 8
  | .refusedArmed => 9
  | .refusedState => 10

/-- A REFUSED_ status (R181). -/
def Status.refused (s : Status) : Bool := decide (5 ≤ s.code)

/-- The reason's code in a status frame: a status code, or 11 for QUEUE_FULL (12, section 12.5). -/
def FaultReason.code : FaultReason → Nat
  | .refused s => s.code
  | .queueFull => 11

end Sys2Proof.Machine
end

