-- ==== Sys2Proof/Machine/Records.lean ====
section
/-! DEFINITION. The byte layouts of the table records (12, section 12.6): reading a record with its clamps (R183, R204),
writing one out, the structural checks, the table copy and the image (R189). -/

namespace Sys2Proof.Machine

/-! ### Enumeration bytes (R204) -/

/-- A flag byte other than 0 is on. -/
def flagAt (bs : List Byte) (i : Nat) : Bool := byteAt bs i != 0

/-- A role-map byte: 0..11 a channel, anything else NONE. -/
def roleAt (bs : List Byte) (i : Nat) : Role :=
  if h : byteAt bs i < 12 then some ⟨byteAt bs i, h⟩ else none

/-- A role as a byte; 0xFF is NONE. -/
def roleByte : Role → List Byte
  | some ch => byteOf ch.val
  | none => byteOf 255

/-- A field clamped to 0..3. -/
def fin4At (bs : List Byte) (i : Nat) : Fin 4 := ⟨min 3 (byteAt bs i), by omega⟩

/-- A failsafe entry: 0xFFFF is absent, 4096..65534 is clamped to 4095 (R204). -/
def entryAt (bs : List Byte) (i : Nat) : Option Raw :=
  if wordAt bs i = 65535 then none else some (BitVec.ofNat 12 (min 4095 (wordAt bs i)))

/-- A failsafe entry in two bytes. -/
def entryBytes : Option Raw → List Byte
  | none => wordOf 65535
  | some r => wordOf r.toNat

/-- A light action code: 3 is written as NONE (R204). -/
def actionCodeAt (bs : List Byte) (i : Nat) : ActionCode :=
  match byteAt bs i % 4 with
  | 1 => .steady
  | 2 => .blink
  | _ => .none

/-- The code of a light action. -/
def ActionCode.code : ActionCode → Nat
  | .none => 0
  | .steady => 1
  | .blink => 2

/-! ### Records -/

/-- CHANNEL_CAL (R25). -/
def ChannelCal.read (bs : List Byte) : ChannelCal :=
  { centre := clampNat 1024 3072 (wordAt bs 0), halfSpan := clampNat 256 2047 (wordAt bs 2),
    deadband := clampNat 0 200 (wordAt bs 4), reverse := flagAt bs 6 }

/-- CHANNEL_CAL. -/
def ChannelCal.bytes (r : ChannelCal) : List Byte :=
  wordOf r.centre ++ wordOf r.halfSpan ++ wordOf r.deadband ++ [boolByte r.reverse]

/-- ROLE_MAP (R26). -/
def RoleMap.read (bs : List Byte) : RoleMap :=
  { steer := roleAt bs 0, throttle := roleAt bs 1, winch := roleAt bs 2, steerSel := roleAt bs 3,
    driveSel := roleAt bs 4, profileSel := roleAt bs 5, lightSel := roleAt bs 6, auxSel := roleAt bs 7 }

/-- ROLE_MAP. -/
def RoleMap.bytes (r : RoleMap) : List Byte :=
  roleByte r.steer ++ roleByte r.throttle ++ roleByte r.winch ++ roleByte r.steerSel ++ roleByte r.driveSel
    ++ roleByte r.profileSel ++ roleByte r.lightSel ++ roleByte r.auxSel

/-- The highest map entry of a switch, by record index (R29). -/
def mapLimit (index : Nat) : Nat :=
  match index with
  | 0 => 3
  | 4 => 1
  | _ => 2

/-- SWITCH_DEF (R29, R204). -/
def SwitchDef.read (index : Nat) (bs : List Byte) : SwitchDef :=
  { kind := if byteAt bs 0 < 3 then .two else .three
    t1 := clampInt (-1000) 1000 (intAt bs 1), t2 := clampInt (-1000) 1000 (intAt bs 3)
    hyst := clampNat 0 100 (byteAt bs 5)
    map0 := clampNat 0 (mapLimit index) (byteAt bs 6), map1 := clampNat 0 (mapLimit index) (byteAt bs 7)
    map2 := clampNat 0 (mapLimit index) (byteAt bs 8) }

/-- SWITCH_DEF. -/
def SwitchDef.bytes (r : SwitchDef) : List Byte :=
  byteOf (match r.kind with | .two => 2 | .three => 3) ++ intOf r.t1 ++ intOf r.t2 ++ byteOf r.hyst
    ++ byteOf r.map0 ++ byteOf r.map1 ++ byteOf r.map2

/-- The structural check of SWITCH_DEF (R29). -/
def SwitchDef.ordered (r : SwitchDef) : Bool :=
  match r.kind with
  | .two => true
  | .three => decide (r.t1 < r.t2)

/-- CURVE (R35). -/
def Curve.read (bs : List Byte) : Curve := Vector.ofFn fun i => clampInt (-1000) 1000 (intAt bs (2 * i.val))

/-- CURVE. -/
def Curve.bytes (r : Curve) : List Byte := r.toList.flatMap intOf

/-- PROFILE (R34). -/
def Profile.read (bs : List Byte) : Profile :=
  { throttleCurve := fin4At bs 0, steeringCurve := fin4At bs 1, rearRatio := clampNat 0 1000 (wordAt bs 2),
    speedLimit := clampNat 100 1000 (wordAt bs 4), reverseDelay := clampNat 0 500 (wordAt bs 6),
    dragBrake := clampNat 0 1000 (wordAt bs 8), slew := byteAt bs 10 }

/-- PROFILE. -/
def Profile.bytes (r : Profile) : List Byte :=
  byteOf r.throttleCurve.val ++ byteOf r.steeringCurve.val ++ wordOf r.rearRatio ++ wordOf r.speedLimit
    ++ wordOf r.reverseDelay ++ wordOf r.dragBrake ++ byteOf r.slew

/-- SERVO_END (R47). -/
def ServoEnd.read (bs : List Byte) : ServoEnd :=
  { left := clampNat 800 2200 (wordAt bs 0), centre := clampNat 800 2200 (wordAt bs 2),
    right := clampNat 800 2200 (wordAt bs 4) }

/-- SERVO_END. -/
def ServoEnd.bytes (r : ServoEnd) : List Byte := wordOf r.left ++ wordOf r.centre ++ wordOf r.right

/-- The structural check of SERVO_END (R47). -/
def ServoEnd.ordered (r : ServoEnd) : Bool := decide (r.left ≤ r.centre) && decide (r.centre ≤ r.right)

/-- DRIVE_CFG (R76, R112, R115). -/
def DriveCfg.read (bs : List Byte) : DriveCfg :=
  { ifsFront := clampNat 1 30 (byteAt bs 0), ifsRear := clampNat 1 30 (byteAt bs 1),
    armingTime := clampNat 100 2000 (wordAt bs 2), failsafeBrake := clampNat 0 1000 (wordAt bs 4),
    winchCap := clampNat 0 1000 (wordAt bs 6), brakeHold := clampNat 0 2000 (wordAt bs 8),
    turnThreshold := clampNat 0 1000 (wordAt bs 10) }

/-- DRIVE_CFG. -/
def DriveCfg.bytes (r : DriveCfg) : List Byte :=
  byteOf r.ifsFront ++ byteOf r.ifsRear ++ wordOf r.armingTime ++ wordOf r.failsafeBrake ++ wordOf r.winchCap
    ++ wordOf r.brakeHold ++ wordOf r.turnThreshold

/-- WINCH_CFG (R105). -/
def WinchCfg.read (bs : List Byte) : WinchCfg :=
  { ifs := clampNat 1 30 (byteAt bs 0), pmax := clampNat 100 65535 (wordAt bs 1),
    jogThreshold := clampNat 50 500 (wordAt bs 3), jogMax := clampNat 100 1000 (wordAt bs 5),
    stallWindow := clampNat 5 255 (byteAt bs 7), stallFloor := clampNat 0 1000 (wordAt bs 8),
    creepLimit := clampNat 1 255 (byteAt bs 10), aMax := byteAt bs 11 }

/-- WINCH_CFG. -/
def WinchCfg.bytes (r : WinchCfg) : List Byte :=
  byteOf r.ifs ++ wordOf r.pmax ++ wordOf r.jogThreshold ++ wordOf r.jogMax ++ byteOf r.stallWindow
    ++ wordOf r.stallFloor ++ byteOf r.creepLimit ++ byteOf r.aMax

/-- An action of a scene at offset i; bits 2 to 6 of its first byte are not read (R121, R204). -/
def Action.read (bs : List Byte) (i : Nat) : Action :=
  { code := actionCodeAt bs i, side := if byteAt bs i / 128 = 1 then .right else .left, pattern := fin4At bs (i + 1),
    level := bs.getD (i + 2) 0#8 }

/-- An action of a scene. -/
def Action.bytes (a : Action) : List Byte :=
  byteOf (a.code.code + match a.side with | .left => 0 | .right => 128) ++ byteOf a.pattern.val ++ [a.level]

/-- LIGHT_SCENE (R121). -/
def Scene.read (bs : List Byte) : Scene :=
  { priority := clampNat 1 7 (byteAt bs 0), actions := Vector.ofFn fun i => Action.read bs (1 + 3 * i.val) }

/-- LIGHT_SCENE. -/
def Scene.bytes (r : Scene) : List Byte := byteOf r.priority ++ r.actions.toList.flatMap Action.bytes

/-- PATTERN 0..3: the on-time is clamped to 1..period with the period as clamped (R123). -/
def Pattern.read (bs : List Byte) : Pattern :=
  { period := clampNat 10 200 (byteAt bs 0), onTime := clampNat 1 (clampNat 10 200 (byteAt bs 0)) (byteAt bs 1) }

/-- PATTERN 0..3. -/
def Pattern.bytes (r : Pattern) : List Byte := byteOf r.period ++ byteOf r.onTime

/-- PATTERN 4, the level→pattern map (R117). -/
def alertMapRead (bs : List Byte) : Vector (Fin 4) 3 := Vector.ofFn fun i => fin4At bs i.val

/-- PATTERN 4. -/
def alertMapBytes (m : Vector (Fin 4) 3) : List Byte := m.toList.flatMap fun p => byteOf p.val

/-- A cell count of 1 is written as 2, and one above 4 as 4 (R147). -/
def clampCells (n : Nat) : Nat := if n = 0 then 0 else clampNat 2 4 n

/-- PROTECT (R147). -/
def Protect.read (bs : List Byte) : Protect :=
  { cellCount := clampCells (byteAt bs 0), rint := clampNat 0 100 (byteAt bs 1),
    vLow := clampNat 2500 4200 (wordAt bs 2), vCrit := clampNat 2500 4200 (wordAt bs 4),
    vCut := clampNat 2500 4200 (wordAt bs 6), hysteresis := clampNat 0 500 (wordAt bs 8), capacity := wordAt bs 10,
    percent := clampNat 1 100 (byteAt bs 12), lowCap := clampNat 0 1000 (wordAt bs 13),
    critCap := clampNat 0 1000 (wordAt bs 15), iTrip := clampNat 1000 60000 (wordAt bs 17),
    foldbackTime := clampNat 100 10000 (wordAt bs 19), iFold := clampNat 0 60000 (wordAt bs 21),
    bNormal := clampNat 0 60000 (wordAt bs 23), bLow := clampNat 0 60000 (wordAt bs 25),
    bCrit := clampNat 0 60000 (wordAt bs 27) }

/-- PROTECT. -/
def Protect.bytes (r : Protect) : List Byte :=
  byteOf r.cellCount ++ byteOf r.rint ++ wordOf r.vLow ++ wordOf r.vCrit ++ wordOf r.vCut ++ wordOf r.hysteresis
    ++ wordOf r.capacity ++ byteOf r.percent ++ wordOf r.lowCap ++ wordOf r.critCap ++ wordOf r.iTrip
    ++ wordOf r.foldbackTime ++ wordOf r.iFold ++ wordOf r.bNormal ++ wordOf r.bLow ++ wordOf r.bCrit

/-- The structural check of PROTECT (R147). -/
def Protect.ordered (r : Protect) : Bool := decide (r.vCut < r.vCrit) && decide (r.vCrit < r.vLow)

/-- BUDGET (R160). -/
def Budget.read (bs : List Byte) : Budget :=
  { reservation := clampNat 0 10000 (wordAt bs 0), driveWeight := clampNat 1 6 (byteAt bs 2),
    winchWeight := clampNat 1 6 (byteAt bs 3), lightWeight := clampNat 1 6 (byteAt bs 4) }

/-- BUDGET. -/
def Budget.bytes (r : Budget) : List Byte :=
  wordOf r.reservation ++ byteOf r.driveWeight ++ byteOf r.winchWeight ++ byteOf r.lightWeight

/-- LINK (R184). -/
def LinkCfg.read (bs : List Byte) : LinkCfg :=
  { unitAddress := ⟨min 15 (byteAt bs 0), by omega⟩, tHold := clampNat 20 1000 (wordAt bs 1),
    tFs := clampNat 100 5000 (wordAt bs 3), statusN := clampNat 1 50 (byteAt bs 5),
    parkDelay := clampNat 5 600 (wordAt bs 6), maskLevel := clampNat 1 6 (byteAt bs 8),
    window := clampNat 0 300 (wordAt bs 9) }

/-- LINK. -/
def LinkCfg.bytes (r : LinkCfg) : List Byte :=
  byteOf r.unitAddress.val ++ wordOf r.tHold ++ wordOf r.tFs ++ byteOf r.statusN ++ wordOf r.parkDelay
    ++ byteOf r.maskLevel ++ wordOf r.window

/-- FAILSAFE (R18). -/
def failsafeRead (bs : List Byte) : Vector (Option Raw) 12 := Vector.ofFn fun i => entryAt bs (2 * i.val)

/-- FAILSAFE. -/
def failsafeBytes (f : Vector (Option Raw) 12) : List Byte := f.toList.flatMap entryBytes

/-! ### Tables by id and index (R181, R183, R204) -/

/-- The number of records of a table (R183); no table has another id. -/
def recordCount (id : Nat) : Nat :=
  match id with
  | 1 => 12
  | 3 => 5
  | 4 => 4
  | 5 => 3
  | 6 => 2
  | 9 => 8
  | 10 => 10
  | 11 => 5
  | _ => 1

/-- The record length of a table in bytes; that of PATTERN follows the index (R204). -/
def recordLength (id index : Nat) : Nat :=
  match id with
  | 1 => 7
  | 2 => 8
  | 3 => 9
  | 4 => 18
  | 5 => 11
  | 6 => 6
  | 7 => 12
  | 8 => 12
  | 9 => 2
  | 10 => 25
  | 11 => if index = 4 then 3 else 2
  | 12 => 29
  | 13 => 5
  | 14 => 11
  | _ => 24

/-- The layout of the record that stands at a table id and index. -/
def Tables.recordBytes (t : Tables) (id index : Nat) : List Byte :=
  match id with
  | 1 => (t.channelCal[index]?.map ChannelCal.bytes).getD []
  | 2 => t.roleMap.bytes
  | 3 => (t.switchDef[index]?.map SwitchDef.bytes).getD []
  | 4 => (t.curve[index]?.map Curve.bytes).getD []
  | 5 => (t.profile[index]?.map Profile.bytes).getD []
  | 6 => if index = 0 then t.servoFront.bytes else t.servoRear.bytes
  | 7 => t.driveCfg.bytes
  | 8 => t.winchCfg.bytes
  | 9 => (t.lightOut[index]?.map wordOf).getD []
  | 10 => (t.scene[index]?.map Scene.bytes).getD []
  | 11 => if index = 4 then alertMapBytes t.alertMap else (t.pattern[index]?.map Pattern.bytes).getD []
  | 12 => t.protect.bytes
  | 13 => t.budget.bytes
  | 14 => t.link.bytes
  | _ => failsafeBytes t.failsafe

/-- The tables with a record written whole, after its clamps (R183). -/
def Tables.writeRecord (t : Tables) (id index : Nat) (bs : List Byte) : Tables :=
  match id with
  | 1 => { t with channelCal := t.channelCal.setIfInBounds index (ChannelCal.read bs) }
  | 2 => { t with roleMap := RoleMap.read bs }
  | 3 => { t with switchDef := t.switchDef.setIfInBounds index (SwitchDef.read index bs) }
  | 4 => { t with curve := t.curve.setIfInBounds index (Curve.read bs) }
  | 5 => { t with profile := t.profile.setIfInBounds index (Profile.read bs) }
  | 6 => if index = 0 then { t with servoFront := ServoEnd.read bs } else { t with servoRear := ServoEnd.read bs }
  | 7 => { t with driveCfg := DriveCfg.read bs }
  | 8 => { t with winchCfg := WinchCfg.read bs }
  | 9 => { t with lightOut := t.lightOut.setIfInBounds index (clampNat 0 2000 (wordAt bs 0)) }
  | 10 => { t with scene := t.scene.setIfInBounds index (Scene.read bs) }
  | 11 =>
    if index = 4 then { t with alertMap := alertMapRead bs }
    else { t with pattern := t.pattern.setIfInBounds index (Pattern.read bs) }
  | 12 => { t with protect := Protect.read bs }
  | 13 => { t with budget := Budget.read bs }
  | 14 => { t with link := LinkCfg.read bs }
  | _ => { t with failsafe := failsafeRead bs }

/-- The structural check of the record a write sends, made on its clamped values (R183). -/
def structureHolds (id index : Nat) (bs : List Byte) : Bool :=
  match id with
  | 3 => (SwitchDef.read index bs).ordered
  | 6 => (ServoEnd.read bs).ordered
  | 12 => (Protect.read bs).ordered
  | _ => true

/-- The bytes of a record as far as they are read: bits 2 to 6 of a light action byte count as 0 (R204). -/
def readBytes (id : Nat) (bs : List Byte) : List Byte :=
  if id = 10 then bs.mapIdx fun i b => if i % 3 = 1 then b &&& 0x83#8 else b else bs

/-- A field was clamped: the record as written differs from the bytes that were read (R183, R204). -/
def wasClamped (t : Tables) (id index : Nat) (bs : List Byte) : Bool :=
  decide ((t.writeRecord id index bs).recordBytes id index ≠ readBytes id bs)

/-! ### The image (R189; 12, section 12.6) -/

/-- The table copy: every record of tables 1 to 15, in id order and index order. -/
def Tables.copyBytes (t : Tables) : List Byte :=
  (List.range 15).flatMap fun i => (List.range (recordCount (i + 1))).flatMap fun k => t.recordBytes (i + 1) k

/-- The check value: the sum of the table copy's bytes modulo 65536, complemented. -/
def Tables.checkValue (t : Tables) : BitVec 16 :=
  ~~~(BitVec.ofNat 16 (t.copyBytes.foldl (fun n b => n + b.toNat) 0))

/-- The image checks good: not blank, and its check value is that of its table copy (R189). An image being rewritten does
not (R190). -/
def Image.checksGood (m : Image) : Bool := !m.blank && !m.torn && decide (m.check = m.copy.checkValue)

/-- The 627 bytes of an image that is not being rewritten. -/
def Image.bytes (m : Image) : List Byte :=
  (if m.blank then 0xFF#8 else 0x00#8) :: m.copy.copyBytes ++ wordOf m.check.toNat

end Sys2Proof.Machine
end

