-- ==== Sys2Proof/Machine/Channels.lean ====
section
/-! DEFINITION. CDC (02): normalization, the switch functions, the decode of a channel update, and the curves. -/

namespace Sys2Proof.Machine

/-! ### Normalization (R24) -/

/-- Step 1, Scale. -/
def ChannelCal.scale (cal : ChannelCal) (raw : Raw) : Int :=
  clampInt (-1000) 1000 ((((raw.toNat : Int) - (cal.centre : Int)) * 1000).tdiv (cal.halfSpan : Int))

/-- Step 2, Deadband. -/
def ChannelCal.deaden (cal : ChannelCal) (u : Int) : Int :=
  if u.natAbs ≤ cal.deadband then 0
  else (u.sign * ((u.natAbs : Int) - (cal.deadband : Int)) * 1000).tdiv (1000 - (cal.deadband : Int))

/-- u of a raw value; step 3 reverses it. -/
def ChannelCal.normalize (cal : ChannelCal) (raw : Raw) : Int :=
  let u := cal.deaden (cal.scale raw)
  if cal.reverse then -u else u

/-- u of the channel a role names; none where the role is NONE or its slot is EMPTY (R28, R30). -/
def Chip.roleU (c : Chip) : Role → Option Int
  | none => none
  | some ch => (c.slots[ch]).raw.map fun r => (c.tables.channelCal[ch]).normalize r

/-! ### Switch functions (R29 to R33) -/

/-- A plain decode, which ignores hysteresis and the position before (R31). -/
def SwitchDef.plain (d : SwitchDef) (u : Int) : Fin 3 :=
  match d.kind with
  | .two => if u < d.t1 then 0 else 1
  | .three => if u < d.t1 then 0 else if u < d.t2 then 1 else 2

/-- A later ordered decode, with hysteresis: the first test of R32 that holds decides. -/
def SwitchDef.move (d : SwitchDef) (pos : Fin 3) (u : Int) : Fin 3 :=
  let hy : Int := d.hyst
  match d.kind with
  | .two =>
    match pos with
    | 0 => if u ≥ d.t1 + hy then 1 else 0
    | 1 => if u < d.t1 - hy then 0 else 1
    | 2 => 2
  | .three =>
    match pos with
    | 0 => if u ≥ d.t2 + hy then 2 else if u ≥ d.t1 + hy then 1 else 0
    | 1 => if u ≥ d.t2 + hy then 2 else if u < d.t1 - hy then 0 else 1
    | 2 => if u < d.t1 - hy then 0 else if u < d.t2 - hy then 1 else 2

/-- The decode of one switch (R30 to R32); `none` is UNORDERED. -/
def SwitchDef.decode (d : SwitchDef) (before : SwitchPos) : Option Int → SwitchPos
  | none => { pos := 0, ordered := false }
  | some u => { pos := if before.ordered then d.move before.pos u else d.plain u, ordered := true }

/-- The map entry of a position (R33). -/
def SwitchDef.entry (d : SwitchDef) : Fin 3 → Nat
  | 0 => d.map0
  | 1 => d.map1
  | 2 => d.map2

/-- A STEER_SEL entry (02, section 2.4; the codes of 12, section 12.5). -/
def SteerMode.ofEntry : Nat → SteerMode
  | 0 => .front
  | 1 => .rear
  | 2 => .counter
  | _ => .crab

/-- A DRIVE_SEL entry. -/
def DriveMode.ofEntry : Nat → DriveMode
  | 0 => .all
  | 1 => .frontDig
  | _ => .rearDig

/-- A PROFILE_SEL entry. -/
def profileOfEntry (n : Nat) : Fin 3 := ⟨min 2 n, by omega⟩

/-- A LIGHT_SEL entry. -/
def MainLight.ofEntry : Nat → MainLight
  | 0 => .off
  | 1 => .running
  | _ => .full

/-- An AUX_SEL entry. -/
def beaconOfEntry (n : Nat) : Bool := n != 0

/-! ### The decode (R22) -/

/-- The decode with the positions given, and the mapped results of those positions (R33). -/
def decodeWith (t : Tables) (steer throttle winch : Int) (sw : Vector SwitchPos 5) : Decode :=
  { steer := steer, throttle := throttle, winch := winch, switches := sw
    steerSel := SteerMode.ofEntry ((t.switchDef[0]).entry (sw[0]).pos)
    driveSel := DriveMode.ofEntry ((t.switchDef[1]).entry (sw[1]).pos)
    profile := profileOfEntry ((t.switchDef[2]).entry (sw[2]).pos)
    mainLight := MainLight.ofEntry ((t.switchDef[3]).entry (sw[3]).pos)
    beacon := beaconOfEntry ((t.switchDef[4]).entry (sw[4]).pos) }

/-- The decode after a reset: u values 0, every switch UNORDERED at position 0 (R22, R30). -/
def resetDecode (t : Tables) : Decode :=
  decodeWith t 0 0 0 (Vector.replicate 5 { pos := 0, ordered := false })

/-- The decode of a channel update, from the slots and tables as they stand (R22). -/
def Chip.decode (c : Chip) : Decode :=
  let r := c.tables.roleMap
  let def_ := c.tables.switchDef
  let old := c.cdc.switches
  decodeWith c.tables ((c.roleU r.steer).getD 0) ((c.roleU r.throttle).getD 0) ((c.roleU r.winch).getD 0)
    #v[(def_[0]).decode old[0] (c.roleU r.steerSel), (def_[1]).decode old[1] (c.roleU r.driveSel),
      (def_[2]).decode old[2] (c.roleU r.profileSel), (def_[3]).decode old[3] (c.roleU r.lightSel),
      (def_[4]).decode old[4] (c.roleU r.auxSel)]

/-- A switch whose next ordered decode is plain, where `plain` says so: its ordered flag is cleared (R31). -/
def SwitchPos.forget (p : SwitchPos) (plain : Bool) : SwitchPos := { p with ordered := p.ordered && !plain }

/-- After a table write: the switches named are next decoded plainly (R26, R29, R31, R192). -/
def Decode.forget (d : Decode) (plain : Vector Bool 5) : Decode :=
  { d with switches := Vector.ofFn fun i => (d.switches[i]).forget plain[i] }

/-- The profile record in force (R34). -/
def Chip.profile (c : Chip) : Profile := c.tables.profile[c.cdc.profile]

/-! ### Curves (R36) -/

/-- The segment k. -/
def curveSegment (u : Int) : Fin 8 := ⟨min 7 ((u + 1000) / 250).toNat, by omega⟩

/-- The output of a curve at an input in −1000..1000. -/
def Curve.eval (y : Curve) (u : Int) : Int :=
  let k := curveSegment u
  let t := u + 1000 - 250 * (k.val : Int)
  y[k.val] + divNearest ((y[k.val + 1] - y[k.val]) * t) 250

end Sys2Proof.Machine
end

