-- ==== Sys2Proof/Machine/Lights.lean ====
section
/-! DEFINITION. LSQ (06): sources, eligibility, arbitration, patterns, demand and ceiling; the light picture that every LSQ
event forms anew, and the meanings of LSQ's own two events. -/

namespace Sys2Proof.Machine

/-- The ten sources, in index order (06, section 6.2). -/
def Source.all : List Source :=
  [.mainRun, .mainFull, .aux, .brake, .reverse, .turn, .winch, .alert, .failsafe, .override]

/-- The index of a source, which is the index of its scene record (R121). -/
def Source.index : Source → Fin 10
  | .mainRun => 0
  | .mainFull => 1
  | .aux => 2
  | .brake => 3
  | .reverse => 4
  | .turn => 5
  | .winch => 6
  | .alert => 7
  | .failsafe => 8
  | .override => 9

/-- An axle is in one of two states. -/
def Drm.anyAxle (d : Drm) (p q : AxleState) : Bool :=
  decide (d.front.state = p) || decide (d.front.state = q) || decide (d.rear.state = p) || decide (d.rear.state = q)

/-- The levels of the top alert that light ALERT (R117). -/
def Chip.topLevel (c : Chip) : Nat := (c.topAlert.map Alert.level).getD 0

/-- The activity of a source, from its inputs as they stand (R111 to R119). -/
def Chip.sourceActive (c : Chip) : Source → Bool
  | .mainRun => decide (c.cdc.mainLight ≠ .off)
  | .mainFull => decide (c.cdc.mainLight = .full)
  | .aux => c.cdc.beacon
  | .brake => c.drm.anyAxle .reversing .failsafeBrake || c.lsq.brakeHold.isSome
  | .reverse => c.drm.anyAxle .reverse .reverse
  | .turn => decide (c.tables.driveCfg.turnThreshold ≤ c.stm.command.natAbs) && c.drm.anyAxle .forward .reverse
  | .winch =>
    match c.wnc.state with
    | .jogIn | .jogOut | .runIn | .runOut | .free => true
    | .idle | .stalled | .locked => false
  | .alert => decide (1 ≤ c.topLevel) && decide (c.topLevel ≤ 3)
  | .failsafe => decide (c.ulr.link = .await) || decide (c.ulr.link = .failsafe)
  | .override => decide (c.sup.switches.extractLsb' 4 8 ≠ 0#8)

/-- Eligibility by operating mode and protection level (R120). -/
def Chip.sourceEligible (c : Chip) (src : Source) : Bool :=
  match c.mdc.mode, c.btm.level with
  | .dormant, _ => false
  | _, .cutoff => false
  | .active, .normal => true
  | .active, .low => true
  | .active, .critical => decide (src = .alert) || decide (src = .failsafe)
  | .parked, _ => decide (src = .alert) || decide (src = .failsafe)

/-- The side of TURN: RIGHT for positive s, LEFT for negative, none at 0 (R115). -/
def turnSide (s : Int) : Option Side := if 0 < s then some .right else if s < 0 then some .left else none

/-- A source's action for an output, after the side treatment of TURN (R115) and the bit treatment of OVERRIDE (R119);
`none` where the action is NONE. -/
def Chip.actionFor (c : Chip) (src : Source) (o : Fin 8) : Option Action :=
  let a := (c.tables.scene[src.index]).actions[o]
  let treated : Bool :=
    match src with
    | .turn => decide (turnSide c.stm.command = some a.side)
    | .override => c.overrideBit o
    | _ => true
  if treated && decide (a.code ≠ .none) then some a else none

/-- The candidates for an output, in index order (R122). -/
def Chip.candidates (c : Chip) (o : Fin 8) : List Source :=
  Source.all.filter fun src => c.sourceActive src && c.sourceEligible src && (c.actionFor src o).isSome

/-- The better of the candidate found so far and the next: the higher priority, the earlier index among equals (R122). -/
def Tables.betterSource (t : Tables) (best : Option Source) (src : Source) : Option Source :=
  match best with
  | none => some src
  | some b => if (t.scene[b.index]).priority < (t.scene[src.index]).priority then some src else some b

/-- The winner of an output (R122). -/
def Chip.winnerOf (c : Chip) (o : Fin 8) : Option Source :=
  (c.candidates o).foldl (Tables.betterSource c.tables) none

/-- A pattern is on while its phase is less than its on-time (R124). -/
def Pattern.on (p : Pattern) (timebase : BitVec 32) : Bool := decide (timebase.toNat % p.period < p.onTime)

/-- The pattern of a BLINK action; that of ALERT comes from the level→pattern map (R117). -/
def Chip.patternOf (c : Chip) (src : Source) (a : Action) : Fin 4 :=
  if src = .alert then
    match c.topLevel with
    | 0 | 1 => c.tables.alertMap[0]
    | 2 => c.tables.alertMap[1]
    | _ => c.tables.alertMap[2]
  else a.pattern

/-- The raw level of an output under its winner (R124). -/
def Chip.rawOf (c : Chip) (o : Fin 8) : Option Source → Nat
  | none => 0
  | some src =>
    match c.actionFor src o with
    | none => 0
    | some a =>
      match a.code with
      | .none => 0
      | .steady => a.level.toNat
      | .blink => if (c.tables.pattern[c.patternOf src a]).on c.lsq.timebase then a.level.toNat else 0

/-- The current of a set of levels: the sum of level × Ifs over 255, floored once (R125). -/
def lightCurrent (ifs : Vector Nat 8) (levels : Vector Nat 8) : Nat :=
  (((List.finRange 8).map fun o => levels[o] * ifs[o]).sum) / 255

/-- An output level from its raw level and the demand: 0 until the first grant event after a reset (R129), and from then on the
raw level scaled to the held grant (R126). That R129 goes before R126's formula where the demand is 0 is assumption log, entry
37. -/
def Lsq.levelUnder (l : Lsq) (demand raw : Nat) : Nat := if l.granted then scaleTo l.grant demand raw else 0

/-- LSQ with the whole light picture formed anew from its inputs as they stand (R109). -/
def Chip.picture (c : Chip) : Lsq :=
  let winner : Vector (Option Source) 8 := Vector.ofFn fun o => c.winnerOf o
  let raw : Vector Nat 8 := Vector.ofFn fun o => c.rawOf o winner[o]
  let demand := lightCurrent c.tables.lightOut raw
  { c.lsq with
    active := #v[c.sourceActive .mainRun, c.sourceActive .mainFull, c.sourceActive .aux, c.sourceActive .brake,
      c.sourceActive .reverse, c.sourceActive .turn, c.sourceActive .winch, c.sourceActive .alert,
      c.sourceActive .failsafe, c.sourceActive .override]
    winner := winner
    raw := raw
    demand := demand
    level := Vector.ofFn fun o => c.lsq.levelUnder demand raw[o] }

/-- An LSQ event with nothing specific to it: the picture is formed anew. -/
def Chip.relight (c : Chip) : Chip := { c with lsq := c.picture }

/-- An LSQ event where a condition says that there is one. -/
def Chip.relightIf (c : Chip) (event : Bool) : Chip := { c with lsq := if event then c.picture else c.lsq }

/-- The brake-hold timer stopped without expiring (R113). -/
def Chip.stopBrakeHold (c : Chip) : Chip := { c with lsq := { c.lsq with brakeHold := none } }

/-- LSQ takes the light grant of a grant event and forms the picture under it (R126); the levels are lit from the first one
on (R129). -/
def Chip.takeLightGrant (c : Chip) (g : Nat) : Chip := { c with lsq := { c.lsq with grant := g, granted := true } }.relight

/-! ### Meanings -/

/-- T advances by 1, the next timebase event is 10 ms on, and the picture is formed (R124). -/
def Chip.advanceTimebase (c : Chip) : Chip :=
  { c with lsq := { c.lsq with timebase := c.lsq.timebase + 1#32, nextEvent := c.lsq.nextEvent.map (· + 10) } }.relight

/-- LIGHT_TIMEBASE_EVENT (R124). -/
def execLightTimebaseEvent (s : State) : Host.Outcome State Fault Refusal :=
  .next (s.onChip fun c => c.whenDue c.lsq.nextEvent Chip.advanceTimebase)

/-- BRAKE_HOLD_EXPIRY (R113): the timer stops and the picture is formed. -/
def execBrakeHoldExpiry (s : State) : Host.Outcome State Fault Refusal :=
  .next (s.onChip fun c => c.whenDue c.lsq.brakeHold fun d => d.stopBrakeHold.relight)

end Sys2Proof.Machine
end

