-- ==== Sys2Proof/Machine/Alerts.lean ====
section
/-! DEFINITION. ALT at work (09): an event changes latches, and a change of the top alert is announced to LSQ (R169). -/

namespace Sys2Proof.Machine

/-- ALT takes all the changes of one event together and decides the top alert once, after them (R163); LSQ forms its
picture anew when the top alert changes (R169). -/
def Chip.alert (c : Chip) (f : Alt → Alt) : Chip :=
  { c with alt := f c.alt }.relightIf (decide ({ c with alt := f c.alt }.topAlert ≠ c.topAlert))

/-- A refusal or a queue-full discard latches SETUP_FAULT with its cause (R165, R180, R181). -/
def Chip.setupFault (c : Chip) (command : Fin 16) (reason : FaultReason) : Chip :=
  c.alert fun t => t.setupFault command reason

end Sys2Proof.Machine
end

