-- ==== Sys2Proof/Machine/Steering.lean ====
section
/-! DEFINITION. STM (03): the steering command, the active and pending modes, the mixing, the slew and the servo pulses. -/

namespace Sys2Proof.Machine

/-- The selected steer mode (R38). -/
def Chip.selectedSteer (c : Chip) : SteerMode := if c.rearSteerLock then .front else c.cdc.steerSel

/-- The steering command of an update (R37). -/
def Chip.steerCommand (c : Chip) : Int := (c.tables.curve[c.profile.steeringCurve]).eval c.cdc.steer

/-- The active and pending modes after an update (R39, R40). -/
def steerModes (first : Bool) (active selected : SteerMode) (s : Int) (window : Nat) : SteerMode × Option SteerMode :=
  if first then (selected, none)
  else if selected = active then (active, none)
  else if s.natAbs ≤ window then (selected, none)
  else (active, some selected)

/-- The product s × ρ / 1000, toward zero (R44). -/
def rearProduct (s : Int) (ratio : Nat) : Int := (s * (ratio : Int)).tdiv 1000

/-- The front target (R44). -/
def frontTarget (mode : SteerMode) (s : Int) : Int :=
  match mode with
  | .front | .counter | .crab => s
  | .rear => 0

/-- The rear target (R44). -/
def rearTarget (mode : SteerMode) (s : Int) (ratio : Nat) : Int :=
  match mode with
  | .front => 0
  | .rear | .counter => -(rearProduct s ratio)
  | .crab => rearProduct s ratio

/-- The target width of a target: the offset to the nearest µs, halves away from the centre pulse (R46). -/
def ServoEnd.width (e : ServoEnd) (x : Int) : Int :=
  if 0 ≤ x then e.centre + divNearest (x * ((e.right : Int) - e.centre)) 1000
  else e.centre + divNearest (x * ((e.centre : Int) - e.left)) 1000

/-- The commanded width after an update (R48). -/
def ServoEnd.slewed (e : ServoEnd) (slew : Nat) (before : Option Nat) (target : Int) : Nat :=
  match before with
  | none => target.toNat
  | some w =>
    let next := if slew = 0 then target else (w : Int) + clampInt (-(slew : Int)) slew (target - w)
    (clampInt e.left e.right next).toNat

/-- The steering output state an update sets (R50). -/
def Chip.pulsingNow (c : Chip) : Bool :=
  match c.ulr.link with
  | .await => false
  | .live => true
  | .hold => true
  | .failsafe => !c.servoQuiet

/-- The width latched at a pulse start (R51). -/
def ServoEnd.latch (e : ServoEnd) (w : Option Nat) : Option Nat := w.map (clampNat e.left e.right)

/-- Both servo outputs begin a pulse, and the next start is due at the instant given (R51); a pulse that still runs is
replaced (assumption log, entry 25). -/
def Stm.startPulse (m : Stm) (t : Tables) (next : Nat) : Stm :=
  { m with pulseFront := t.servoFront.latch m.front, pulseRear := t.servoRear.latch m.rear, schedule := some next }

/-- The steering output becomes SILENT: the schedule stops and a running pulse runs on (R52). -/
def Stm.silence (m : Stm) : Stm := { m with pulsing := false, schedule := none }

/-- The output state is set: SILENT to PULSING starts the schedule with a pulse at once (R51), which replaces one still running
from before the silence (assumption log, entry 25); PULSING to SILENT stops it (R52). -/
def Stm.setOutput (m : Stm) (t : Tables) (now : Nat) (pulse : Bool) : Stm :=
  if pulse then (if m.pulsing then m else { m with pulsing := true }.startPulse t (now + 20)) else m.silence

/-- Command, modes and commanded widths of an update (R37 to R48). -/
def Chip.steerMix (c : Chip) : Stm :=
  let s := c.steerCommand
  let modes := steerModes c.stm.first c.stm.active c.selectedSteer s c.tables.link.window
  let p := c.profile
  { c.stm with
    command := s
    active := modes.1
    pending := modes.2
    first := false
    front := some (c.tables.servoFront.slewed p.slew c.stm.front (c.tables.servoFront.width (frontTarget modes.1 s)))
    rear := some (c.tables.servoRear.slewed p.slew c.stm.rear
      (c.tables.servoRear.width (rearTarget modes.1 s p.rearRatio))) }

/-- STM takes a channel update; in PARKED and DORMANT it takes none (R37). -/
def Chip.steerUpdate (c : Chip) : Chip :=
  { c with stm := if c.mdc.mode = .active then c.steerMix.setOutput c.tables c.now c.pulsingNow else c.stm }

/-- The steering output becomes SILENT (R50, R52). -/
def Chip.steerSilence (c : Chip) : Chip := { c with stm := c.stm.silence }

/-! ### Meanings -/

/-- PULSE_START (R51): both outputs begin a pulse; the next is due 20 ms after this one was. -/
def execPulseStart (s : State) : Host.Outcome State Fault Refusal :=
  .next (s.onChip fun c => c.whenDue c.stm.schedule fun d =>
    { d with stm := d.stm.startPulse d.tables (c.stm.schedule.getD 0 + 20) })

/-- A running pulse of one output ends. -/
def Stm.endPulse (m : Stm) : Axle → Stm
  | .front => { m with pulseFront := none }
  | .rear => { m with pulseRear := none }

/-- SERVO_PULSE_END (R51, R52): a running pulse reaches its latched width and the output falls low; a pulse that was
running when PARKED, DORMANT or a warm reset began ends in the same way. -/
def execServoPulseEnd (axle : Axle) (s : State) : Host.Outcome State Fault Refusal :=
  .next (s.onChip fun c => { c with stm := c.stm.endPulse axle })

end Sys2Proof.Machine
end

