-- ==== Sys2Proof/Machine/Drive.lean ====
section
/-! DEFINITION. DRM (04): arming, request and caps, the axle state machines, demand and grant scaling. -/

namespace Sys2Proof.Machine

/-! ### Request and caps (R64, R65) -/

/-- The drive command of an update (R58). -/
def Chip.driveCommand (c : Chip) : Int := (c.tables.curve[c.profile.throttleCurve]).eval c.cdc.throttle

/-- The request a = d × L / 1000, toward zero (R64). -/
def driveRequest (d : Int) (limit : Nat) : Int := (d * (limit : Int)).tdiv 1000

/-- The driven states of the winch (R83). -/
def WinchState.driven : WinchState → Bool
  | .jogIn | .jogOut | .runIn | .runOut => true
  | .idle | .free | .stalled | .locked => false

/-- The protection cap of the level that stands (R65). -/
def Protect.cap (p : Protect) : Level → Nat
  | .normal => 1000
  | .low => p.lowCap
  | .critical => p.critCap
  | .cutoff => 0

/-- The smaller of the protection cap and, while the winch is driven, the winch cap (R65). -/
def Chip.driveCap (c : Chip) : Nat :=
  if c.wnc.state.driven then min (c.tables.protect.cap c.btm.level) c.tables.driveCfg.winchCap
  else c.tables.protect.cap c.btm.level

/-- The magnitude limited to a cap, the sign kept (R65). -/
def capRequest (cap : Nat) (a : Int) : Int := a.sign * (min a.natAbs cap : Nat)

/-! ### Axle states (R67 to R71) -/

/-- The direction of a request from standstill: IDLE for 0 (R68). -/
def AxleState.ofRequest (req : Int) : AxleState :=
  if 0 < req then .forward else if req < 0 then .reverse else .idle

/-- An axle record in a state in which no reversal is in progress. -/
def AxleRec.rest (r : AxleRec) (st : AxleState) : AxleRec := { r with state := st, timer := none, left := none }

/-- A request of the opposite sign: the new direction at once when the reverse delay is 0, otherwise REVERSING with the
timer started and the direction left recorded (R69). -/
def AxleRec.turn (r : AxleRec) (now delay : Nat) (left : Direction) (st : AxleState) : AxleRec :=
  if delay = 0 then r.rest st
  else { r with state := .reversing, timer := some (now + delay), left := some left }

/-- Row 5 of R67: an unlocked axle of an ARMED drive moves by its request (R68, R69). -/
def AxleRec.follow (r : AxleRec) (now delay : Nat) (req : Int) : AxleRec :=
  match r.state with
  | .forward => if req < 0 then r.turn now delay .forward .reverse else r.rest (AxleState.ofRequest req)
  | .reverse => if 0 < req then r.turn now delay .reverse .forward else r.rest (AxleState.ofRequest req)
  | .reversing =>
    match r.left with
    | some .forward => if 0 < req then r.rest .forward else r
    | some .reverse => if req < 0 then r.rest .reverse else r
    | none => r
  | .idle | .off | .digLocked | .failsafeBrake => r.rest (AxleState.ofRequest req)

/-- The state of an axle at an event at which DRM handles the axles: the first row of R67 that holds. -/
def Chip.axleNext (c : Chip) (d : Drm) (a : Axle) : AxleRec :=
  let r := d.axle a
  if c.mdc.mode = .dormant ∨ c.mdc.bench then r.rest .off
  else if c.ulr.link = .await ∨ c.ulr.link = .failsafe then r.rest .failsafeBrake
  else if d.arming ≠ .armed then r.rest .off
  else if d.mode.locks a then r.rest .digLocked
  else r.follow c.now c.profile.reverseDelay d.axleRequest

/-! ### Demand and scaling (R73, R75) -/

/-- An axle is driving. -/
def AxleState.driving : AxleState → Bool
  | .forward | .reverse => true
  | .off | .idle | .reversing | .digLocked | .failsafeBrake => false

/-- What one axle adds to the demand (R73). -/
def Drm.axleDemand (d : Drm) (cfg : DriveCfg) (a : Axle) : Nat :=
  if (d.axle a).state.driving then d.axleRequest.natAbs * cfg.ifs a else 0

/-- The drive demand in mA (R73). -/
def Drm.demandOf (d : Drm) (cfg : DriveCfg) : Nat := d.axleDemand cfg .front + d.axleDemand cfg .rear

/-- The effective duty of an axle: its request magnitude scaled to the held grant, 0 unless driving (R75). -/
def Drm.dutyOf (d : Drm) (demand : Nat) (a : Axle) : Nat :=
  if (d.axle a).state.driving then scaleTo d.grant demand d.axleRequest.natAbs else 0

/-- The output duty of an axle state (04, section 4.5; R72). -/
def outputDuty (st : AxleState) (effective drag failsafe : Nat) : Nat :=
  match st with
  | .off => 0
  | .idle => drag
  | .forward | .reverse => effective
  | .reversing | .digLocked => 1000
  | .failsafeBrake => failsafe

/-- Demand, effective duties and output duties set anew, brake duties read as they stand (R72, R73, R75). -/
def Drm.settle (d : Drm) (cfg : DriveCfg) (drag : Nat) : Drm :=
  let demand := d.demandOf cfg
  let set (a : Axle) : AxleRec :=
    { d.axle a with
      effective := d.dutyOf demand a
      output := outputDuty (d.axle a).state (d.dutyOf demand a) drag cfg.failsafeBrake }
  { d with front := set .front, rear := set .rear, demand := demand }

/-- Demand and effective duties set anew, with the output duties of driving axles; braking duties stand (R74, R76). -/
def Drm.rescale (d : Drm) (cfg : DriveCfg) : Drm :=
  let demand := d.demandOf cfg
  let set (a : Axle) : AxleRec :=
    { d.axle a with
      effective := d.dutyOf demand a
      output := if (d.axle a).state.driving then d.dutyOf demand a else (d.axle a).output }
  { d with front := set .front, rear := set .rear, demand := demand }

/-! ### Announcements (R77, R112) -/

/-- An axle entered IDLE from FORWARD or REVERSE, which starts the brake-hold timer (R112). -/
def stopsDriving (old new : AxleState) : Bool := decide (new = .idle) && old.driving

/-- The mixer's new record takes its place; changes of axle state are announced to LSQ, which starts the brake-hold timer
where an axle has stopped driving and forms its picture (R77, R109, R112). With a brake-hold time of 0 the timer is not
started, and one that runs from before keeps its expiry (assumption log, entry 38). -/
def Chip.setDrive (c : Chip) (d : Drm) : Chip :=
  let stopped := stopsDriving c.drm.front.state d.front.state || stopsDriving c.drm.rear.state d.rear.state
  let hold := c.tables.driveCfg.brakeHold
  let changed := decide (c.drm.front.state ≠ d.front.state) || decide (c.drm.rear.state ≠ d.rear.state)
  let timer := if stopped && decide (0 < hold) then some (c.now + hold) else c.lsq.brakeHold
  { c with drm := d, lsq := { c.lsq with brakeHold := timer } }.relightIf changed

/-- DRM handles the axles (R67) with the mixer record given, then sets demand and duties. -/
def Chip.handleAxles (c : Chip) (d : Drm) : Chip :=
  c.setDrive (({ d with front := c.axleNext d .front, rear := c.axleNext d .rear } : Drm).settle c.tables.driveCfg
    c.profile.dragBrake)

/-! ### Arming (R60 to R63) -/

/-- THROTTLE names a channel whose slot is FRESH (R60). -/
def Chip.throttleFresh (c : Chip) : Bool := decide ((c.roleSlot c.tables.roleMap.throttle).tag = .fresh)

/-- The drive disarmed, the arming timer stopped (R63). -/
def Drm.disarm (d : Drm) : Drm := { d with arming := .disarmed, armTimer := none }

/-- The conditions of R60 at an update with drive command d. -/
def Chip.armingConditions (c : Chip) (d : Int) : Bool :=
  decide (c.ulr.link = .live) && c.throttleFresh && decide (d = 0) && !c.driveInhibit && !c.mdc.bench

/-- Arming at a channel update (R60, R61, R63), with d already formed. -/
def Chip.armingStep (c : Chip) (d : Drm) : Drm :=
  match d.arming with
  | .disarmed =>
    if c.armingConditions d.command then
      { d with arming := .arming, armTimer := some (c.now + c.tables.driveCfg.armingTime) }
    else d
  | .arming => if d.command ≠ 0 ∨ !c.throttleFresh then d.disarm else d
  | .armed => if c.ulr.link = .failsafe then d.disarm else d

/-! ### DRM's events (R57) -/

/-- The mixer record of an update in ACTIVE: d, drive mode, arming, request and axle request (R58 to R65). -/
def Chip.driveFormed (c : Chip) : Drm :=
  let d := c.driveCommand
  let a := driveRequest d c.profile.speedLimit
  c.armingStep
    { c.drm with command := d, mode := c.cdc.driveSel, request := a, axleRequest := capRequest c.driveCap a }

/-- DRM takes a channel update; in PARKED for the axle states alone (R57, R79). -/
def Chip.driveUpdate (c : Chip) : Chip :=
  c.handleAxles (if c.mdc.mode = .active then c.driveFormed else c.drm)

/-- The caps applied anew to the request held (R66); DRM forms no request in PARKED and DORMANT (R79). -/
def Chip.recap (c : Chip) : Chip :=
  c.handleAxles { c.drm with axleRequest := capRequest c.driveCap c.drm.request }

/-- A cap change, where a condition says that there is one (R66); one that comes after the return to ACTIVE is acted on before
DRM's first update too (R79; assumption log, entry 41). -/
def Chip.recapIf (c : Chip) (event : Bool) : Chip := if event && decide (c.mdc.mode = .active) then c.recap else c

/-- DRM takes the drive grant of a grant event and rescales (R74); in PARKED it takes none (R79). One that comes after the
return to ACTIVE is taken before DRM's first update too (assumption log, entry 41). -/
def Chip.takeDriveGrant (c : Chip) (g : Nat) : Chip :=
  { c with drm := if c.mdc.mode = .active then { c.drm with grant := g }.rescale c.tables.driveCfg else c.drm }

/-- The drive disarms and the axles take their DISARMED states (R61, R63, R79). -/
def Chip.disarmDrive (c : Chip) : Chip := c.handleAxles c.drm.disarm

/-! ### Meanings -/

/-- The arming timer expires while ARMING (R62). -/
def Chip.arm (c : Chip) : Chip :=
  if c.drm.arming = .arming then c.handleAxles { c.drm with arming := .armed, armTimer := none } else c

/-- ARMING_TIMER_EXPIRY (R62). -/
def execArmingTimerExpiry (s : State) : Host.Outcome State Fault Refusal :=
  .next (s.onChip fun c => c.whenDue c.drm.armTimer Chip.arm)

/-- The record of an axle whose reversal ends: the direction of the axle request held, the recorded direction cleared; in
IDLE it brakes at the drag brake (R70, R72). -/
def AxleRec.reversed (r : AxleRec) (req : Int) (drag : Nat) : AxleRec :=
  { r.rest (AxleState.ofRequest req) with output := outputDuty (AxleState.ofRequest req) 0 drag 0 }

/-- An axle's reverse-delay timer expires while REVERSING; demand and scaling are set anew (R70). -/
def Chip.endReversal (c : Chip) (a : Axle) : Chip :=
  if (c.drm.axle a).state = .reversing then
    c.setDrive ((c.drm.setAxle a ((c.drm.axle a).reversed c.drm.axleRequest c.profile.dragBrake)).rescale
      c.tables.driveCfg)
  else c

/-- REVERSE_DELAY_EXPIRY (R70). -/
def execReverseDelayExpiry (axle : Axle) (s : State) : Host.Outcome State Fault Refusal :=
  .next (s.onChip fun c => c.whenDue (c.drm.axle axle).timer fun d => d.endReversal axle)

end Sys2Proof.Machine
end

