-- ==== Sys2Proof/Machine/Winch.lean ====
section
/-! DEFINITION. WNC (05): lock, jog, counted runs, line position, creep, stall, demand and boost, and the meaning of a spool
pulse. -/

namespace Sys2Proof.Machine

/-! ### The record (R83, R89, R91, R97) -/

/-- The states that pull in: JOG_IN and RUN_IN (R92, R103). -/
def WinchState.pullsIn : WinchState → Bool
  | .jogIn | .runIn => true
  | .idle | .jogOut | .runOut | .free | .stalled | .locked => false

/-- The bridge mode of the winch stage (R83). -/
def WinchState.bridge : WinchState → Bridge
  | .idle | .stalled | .locked => .brake
  | .jogIn | .runIn => .fwd
  | .jogOut | .runOut => .rev
  | .free => .coast

/-- The output duty of the winch stage (R83). -/
def Winch.output (w : Winch) : Nat :=
  match w.state with
  | .idle | .stalled | .locked => 1000
  | .jogIn | .runIn | .jogOut | .runOut => w.effective
  | .free => 0

/-- The kind a driven state gives a last-operation record (R91). -/
def WinchState.kind : WinchState → Option OpKind
  | .runIn => some .runIn
  | .runOut => some .runOut
  | .jogIn => some .jogIn
  | .jogOut => some .jogOut
  | .idle | .free | .stalled | .locked => none

/-- Counts done: the count less R for a run, the operation count for a jog (R91). -/
def Winch.countsDone (w : Winch) : Nat :=
  match w.run with
  | some r => r.count - r.remaining
  | none => w.opCount

/-- A run or jog in progress ends with an outcome: the last-operation record is written, the run request and R go (R91). -/
def Winch.finish (w : Winch) (outcome : OpOutcome) : Winch :=
  { w with
    run := none
    lastOp :=
      match w.state.kind with
      | some k => some { kind := k, requested := w.run.map Run.count, counts := w.countsDone, outcome := outcome }
      | none => w.lastOp }

/-- Entry into IDLE: the creep count returns to 0 and the creep-reported flag is cleared (R85, R97). -/
def Winch.toIdle (w : Winch) : Winch :=
  { w with state := .idle, run := none, requested := 0, creep := 0, creepReported := false }

/-- Entry into LOCKED, where the winch is not LOCKED already (R84): a further lock cause changes nothing, the hold-off among it,
so a hold-off that an update cleared in LOCKED stays clear through PARKED (assumption log, entry 34). -/
def Winch.toLocked (w : Winch) : Winch :=
  if w.state = .locked then w else { w.finish .locked with state := .locked, requested := 0, holdOff := true }

/-- Entry into STALLED (R99). -/
def Winch.toStalled (w : Winch) : Winch :=
  { w.finish .stalled with state := .stalled, requested := 0, holdOff := true }

/-- The line is referenced and at its in end (R94). -/
def Winch.atInEnd (w : Winch) : Bool := w.referenced && decide (w.position = 0)

/-- The line is referenced and at its out end (R94). -/
def Winch.atOutEnd (w : Winch) (cfg : WinchCfg) : Bool := w.referenced && decide (w.position = cfg.pmax)

/-- The requested duty of a jog (R87). -/
def jogDuty (cfg : WinchCfg) (u : Int) : Nat := (u.natAbs - cfg.jogThreshold) * cfg.jogMax / (1000 - cfg.jogThreshold)

/-- A jog begins: the stall timer is loaded and the operation count is 0 (R87, R98). -/
def Winch.startJog (w : Winch) (cfg : WinchCfg) (st : WinchState) (u : Int) : Winch :=
  { w with state := st, run := none, requested := jogDuty cfg u, stallTimer := cfg.stallWindow, opCount := 0 }

/-- The winch stands in IDLE: an entry into IDLE, unless it is there already. -/
def Winch.standIdle (w : Winch) : Winch := if w.state = .idle then w else w.toIdle

/-- A jog inward, unless the line is at that end: then IDLE (R87, R94). -/
def Winch.jogInward (w : Winch) (cfg : WinchCfg) (u : Int) : Winch :=
  if w.atInEnd then w.standIdle else w.startJog cfg .jogIn u

/-- A jog outward, unless the line is at that end: then IDLE (R87, R94). -/
def Winch.jogOutward (w : Winch) (cfg : WinchCfg) (u : Int) : Winch :=
  if w.atOutEnd cfg then w.standIdle else w.startJog cfg .jogOut u

/-- The driven state of a run (R89). -/
def WinchDir.runState : WinchDir → WinchState
  | .inward => .runIn
  | .outward => .runOut

/-- A run is taken: run request and R, requested duty, operation count 0, stall timer loaded (R89). -/
def Winch.startRun (w : Winch) (cfg : WinchCfg) (dir : WinchDir) (count duty : Nat) : Winch :=
  { w with
    state := dir.runState
    run := some { dir := dir, count := count, duty := duty, remaining := count }
    requested := duty
    opCount := 0
    stallTimer := cfg.stallWindow }

/-- Demand and effective duty set anew; boost ends where the winch no longer pulls in (R100, R101, R104). -/
def Winch.settle (w : Winch) (cfg : WinchCfg) : Winch :=
  let demand := if w.state.driven then w.requested * cfg.ifs else 0
  { w with
    demand := demand
    effective := if w.state.driven then scaleTo w.grant demand w.requested else 0
    boost := w.boost && w.state.pullsIn }

/-! ### Announcements (R106) -/

/-- The winch record given takes its place, with demand and duty set anew; the end or beginning of STALLED goes to ALT, a
change between driven and not driven to DRM, any change of state to LSQ (R99, R106). -/
def Chip.setWinch (c : Chip) (w : Winch) : Chip :=
  let old := c.wnc.state
  (({ c with wnc := w.settle c.tables.winchCfg }.alert fun t => t.cause .winchStall (decide (w.state = WinchState.stalled))).recapIf
    (decide (old.driven ≠ w.state.driven))).relightIf (decide (old ≠ w.state))

/-! ### Lock (R84, R85) -/

/-- A lock cause holds, from link state, protection level, switch space, strap value and mode as they stand (R84). -/
def Chip.winchLockCause (c : Chip) : Bool :=
  decide (c.btm.level = .critical) || decide (c.btm.level = .cutoff) || decide (c.ulr.link = .failsafe)
    || decide (c.ulr.link = .await) || c.winchInhibit || c.mdc.bench || decide (c.mdc.mode = .parked)

/-- A cause that holds locks the winch; a LOCKED winch enters IDLE where none holds (R84, R85). -/
def Winch.lockTest (w : Winch) (cause : Bool) : Winch :=
  if cause then w.toLocked else if w.state = .locked then w.toIdle else w

/-- WNC acts on an event at which a lock cause can begin or end (R84, R85). -/
def Chip.winchLockTest (c : Chip) : Chip := c.setWinch (c.wnc.lockTest c.winchLockCause)

/-! ### Channel update (R82, R86, R87) -/

/-- The winch control is deflected in. -/
def deflectedIn (cfg : WinchCfg) (u : Int) : Bool := decide ((cfg.jogThreshold : Int) < u)

/-- The winch control is deflected out. -/
def deflectedOut (cfg : WinchCfg) (u : Int) : Bool := decide (u < -(cfg.jogThreshold : Int))

/-- The winch control is released. -/
def winchReleased (cfg : WinchCfg) (u : Int) : Bool := decide (u.natAbs ≤ cfg.jogThreshold)

/-- A released winch control clears the jog hold-off in any state (R86). -/
def Winch.clearHoldOff (w : Winch) (cfg : WinchCfg) (u : Int) : Winch :=
  { w with holdOff := w.holdOff && !winchReleased cfg u }

/-- The winch control deflected, by side, moves the winch (R87). -/
def Winch.deflect (w : Winch) (cfg : WinchCfg) (u : Int) : Winch :=
  let inward := deflectedIn cfg u
  let jog (v : Winch) : Winch := if inward then v.jogInward cfg u else v.jogOutward cfg u
  match w.state with
  | .idle => jog w
  | .jogIn => if inward then { w with requested := jogDuty cfg u } else jog (w.finish .done)
  | .jogOut => if inward then jog (w.finish .done) else { w with requested := jogDuty cfg u }
  | .runIn | .runOut => jog (w.finish .aborted)
  | .stalled => jog w.toIdle
  | .free | .locked => w

/-- The winch control released ends a jog (R87). -/
def Winch.release (w : Winch) : Winch :=
  match w.state with
  | .jogIn | .jogOut => (w.finish .done).toIdle
  | .idle | .runIn | .runOut | .free | .stalled | .locked => w

/-- What the winch control does at an update (R86, R87). -/
def Winch.follow (w : Winch) (cfg : WinchCfg) (u : Int) : Winch :=
  let w := w.clearHoldOff cfg u
  if w.holdOff then w else if winchReleased cfg u then w.release else w.deflect cfg u

/-- WNC takes a channel update in ACTIVE: lock, hold-off, jog and run, demand and scaling (R82). -/
def Chip.winchUpdate (c : Chip) : Chip :=
  if c.mdc.mode = .active then
    c.setWinch ((c.wnc.lockTest c.winchLockCause).follow c.tables.winchCfg c.cdc.winch)
  else c

/-! ### Level change, grant event and boost (R98 to R104) -/

/-- WNC acts on a change of protection level: lock or release, and boost ends away from NORMAL (R84, R85, R104). -/
def Chip.winchLevelChange (c : Chip) : Chip :=
  c.setWinch { c.wnc.lockTest c.winchLockCause with boost := c.wnc.boost && decide (c.btm.level = .normal) }

/-- The stall test on the duty that stands (R98, R99). -/
def Winch.stallTest (w : Winch) (cfg : WinchCfg) : Winch :=
  if w.state.driven ∧ cfg.stallFloor ≤ w.effective then
    if w.stallTimer - 1 = 0 then { w with stallTimer := 0 }.toStalled else { w with stallTimer := w.stallTimer - 1 }
  else w

/-- The boost accounting at the end of a budget period (R104). -/
def Winch.account (w : Winch) (cfg : WinchCfg) : Winch :=
  if w.boostAtStart then
    { w with allowance := w.allowance - 1, boost := w.boost && decide (w.allowance - 1 ≠ 0) }
  else if w.recharge + 1 = 4 then
    { w with recharge := 0, allowance := if cfg.aMax ≤ w.allowance then w.allowance else w.allowance + 1 }
  else { w with recharge := w.recharge + 1 }

/-- The conditions for boost to become active (R103). -/
def Winch.boostConditions (w : Winch) (level : Level) (disabled : Bool) : Bool :=
  w.state.pullsIn && decide (level = .normal) && !disabled && decide (0 < w.allowance) && decide (w.grant < w.demand)

/-- Boost activation, after the accounting; the flag then stands for the period that begins (R103, R104). -/
def Winch.activate (w : Winch) (level : Level) (disabled : Bool) : Winch :=
  if w.boostConditions level disabled then { w with boost := true, boostAtStart := true, recharge := 0 }
  else { w with boostAtStart := w.boost }

/-- WNC takes a grant event: stall test, the new grant and the scaling, boost accounting and activation (R102). -/
def Winch.takeGrant (w : Winch) (cfg : WinchCfg) (g : Nat) (level : Level) (disabled : Bool) : Winch :=
  (({ w.stallTest cfg with grant := g }.settle cfg).account cfg).activate level disabled

/-- WNC takes the winch grant of a grant event (R102). -/
def Chip.takeWinchGrant (c : Chip) (g : Nat) : Chip :=
  c.setWinch (c.wnc.takeGrant c.tables.winchCfg g c.btm.level c.boostDisable)

/-! ### WINCH_CFG write (R95, R100, R104) -/

/-- A write of WINCH_CFG acts on P and A_b; an outward operation whose P is brought down to a referenced out end ends
LIMIT (R95, R104). -/
def Winch.reconfigure (w : Winch) (cfg : WinchCfg) : Winch :=
  let w' : Winch :=
    { w with
      position := min w.position cfg.pmax
      allowance := min w.allowance cfg.aMax
      boost := w.boost && decide (min w.allowance cfg.aMax ≠ 0) }
  if cfg.pmax < w.position ∧ w.referenced = true ∧ (w.state = .jogOut ∨ w.state = .runOut) then (w'.finish .limit).toIdle
  else w'

/-- WNC acts on a write of WINCH_CFG, the new record standing in the tables (R82, R183). -/
def Chip.winchReconfigure (c : Chip) : Chip := c.setWinch (c.wnc.reconfigure c.tables.winchCfg)

/-! ### Spool pulses (R92, R94, R97) -/

/-- The pulse would take P past an end (R94). -/
def Winch.pressesEnd (w : Winch) (cfg : WinchCfg) : Bool :=
  if w.state.pullsIn then decide (w.position = 0) else decide (cfg.pmax ≤ w.position)

/-- P after a pulse: down in JOG_IN and RUN_IN, up in every other state, saturating at 0 and Pmax (R92). -/
def Winch.pulsePosition (w : Winch) (cfg : WinchCfg) : Nat :=
  if w.state.pullsIn then w.position - 1 else min cfg.pmax (w.position + 1)

/-- The pulse raises LINE_END: it presses an end of a referenced line (R94). -/
def Winch.raisesLineEnd (w : Winch) (cfg : WinchCfg) : Bool := w.referenced && w.pressesEnd cfg

/-- The pulse brings a driven, referenced line exactly to the end it moves to (R94). A pulse that finds the line at that end
already presses it: it raises LINE_END and the jog or run goes on (assumption log, entry 36). -/
def Winch.reachesEnd (w : Winch) (cfg : WinchCfg) : Bool :=
  w.referenced && w.state.driven && !w.pressesEnd cfg
    && decide (w.pulsePosition cfg = if w.state.pullsIn then 0 else cfg.pmax)

/-- The creep count after a pulse in IDLE, STALLED or LOCKED; it stops increasing once it exceeds the limit (R97). -/
def Winch.creepAfter (w : Winch) (cfg : WinchCfg) : Nat := if w.creep ≤ cfg.creepLimit then w.creep + 1 else w.creep

/-- The winch holds its line: IDLE, STALLED or LOCKED (R97). -/
def WinchState.holds : WinchState → Bool
  | .idle | .stalled | .locked => true
  | .jogIn | .jogOut | .runIn | .runOut | .free => false

/-- The pulse raises WINCH_CREEP (R97). -/
def Winch.raisesCreep (w : Winch) (cfg : WinchCfg) : Bool :=
  w.state.holds && decide (cfg.creepLimit < w.creepAfter cfg) && !w.creepReported

/-- A pulse counted in a driven state, before any end of the operation: P, R, the stall timer and the operation count
(R92). -/
def Winch.countDriven (w : Winch) (cfg : WinchCfg) : Winch :=
  { w with
    position := w.pulsePosition cfg
    run := w.run.map fun r => { r with remaining := r.remaining - 1 }
    stallTimer := cfg.stallWindow
    opCount := min 65535 (w.opCount + 1) }

/-- The pulse brings R to 0 (R89). -/
def Winch.lastPulse (w : Winch) : Bool :=
  match w.run with
  | some r => decide (r.remaining - 1 = 0)
  | none => false

/-- The winch record after a spool pulse (R92); a run ending DONE and LIMIT at one pulse records DONE (R91). -/
def Winch.pulse (w : Winch) (cfg : WinchCfg) : Winch :=
  if w.state.driven then
    if w.lastPulse then ((w.countDriven cfg).finish .done).toIdle
    else if w.reachesEnd cfg then ((w.countDriven cfg).finish .limit).toIdle
    else w.countDriven cfg
  else if w.state.holds then
    { w with
      position := w.pulsePosition cfg
      creep := w.creepAfter cfg
      creepReported := w.creepReported || w.raisesCreep cfg }
  else { w with position := w.pulsePosition cfg }

/-- A pulse on the input is a spool pulse when it lasts 50 µs or longer and begins at least 200 µs after the start of the
latest spool pulse taken (R92). -/
def Chip.validPulse (c : Chip) (start lasts : Nat) : Bool :=
  decide (50 ≤ lasts) && (match c.spoolStart with | none => true | some t => decide (t + 200 ≤ start))

/-- WNC takes a spool pulse (R92, R94, R97). -/
def Chip.spoolPulse (c : Chip) (start : Nat) : Chip :=
  let cfg := c.tables.winchCfg
  let lineEnd := c.wnc.raisesLineEnd cfg
  let creep := c.wnc.raisesCreep cfg
  ({ c with spoolStart := some start }.alert fun t =>
    let t := if lineEnd then t.raise .lineEnd else t
    if creep then t.raise .winchCreep else t).setWinch (c.wnc.pulse cfg)

/-! ### Meanings -/

/-- SPOOL_PULSE (R92). A pulse that is no spool pulse does nothing. -/
def execSpoolPulse (start lasts : Nat) (s : State) : Host.Outcome State Fault Refusal :=
  .next (s.onChip fun c => c.whenRunning fun c => if c.validPulse start lasts then c.spoolPulse start else c)

end Sys2Proof.Machine
end

