-- ==== Sys2Proof/Machine/Budget.lean ====
section
/-! DEFINITION. BGA (08): effective weights, the weighted division in rounds, and the grant event. -/

namespace Sys2Proof.Machine

/-- One number for each of the three divided classes: drive, winch, lights. -/
structure Shares where
  drive : Nat
  winch : Nat
  lights : Nat
deriving DecidableEq, Repr

/-- The sum over the three classes. -/
def Shares.total (x : Shares) : Nat := x.drive + x.winch + x.lights

/-- Which of the three classes are in S (R154). -/
structure Members where
  drive : Bool
  winch : Bool
  lights : Bool
deriving DecidableEq, Repr

/-- A number for the members of S, 0 for the others. -/
def Shares.within (x : Shares) (m : Members) : Shares :=
  { drive := if m.drive then x.drive else 0, winch := if m.winch then x.winch else 0,
    lights := if m.lights then x.lights else 0 }

/-- Two disjoint grants together. -/
def Shares.plus (x y : Shares) : Shares :=
  { drive := x.drive + y.drive, winch := x.winch + y.winch, lights := x.lights + y.lights }

/-- The shares of a round: floor(A × w / W), W the sum of the weights in S (R154). -/
def sharesOf (a : Nat) (weights : Shares) (s : Members) : Shares :=
  let w := (weights.within s).total
  { drive := a * weights.drive / w, winch := a * weights.winch / w, lights := a * weights.lights / w }

/-- The members of S whose demand is at most their share, who leave (R154). -/
def leaversOf (demands shares : Shares) (s : Members) : Members :=
  { drive := s.drive && decide (demands.drive ≤ shares.drive)
    winch := s.winch && decide (demands.winch ≤ shares.winch)
    lights := s.lights && decide (demands.lights ≤ shares.lights) }

/-- S without those who leave. -/
def Members.without (s l : Members) : Members :=
  { drive := s.drive && !l.drive, winch := s.winch && !l.winch, lights := s.lights && !l.lights }

/-- S has no member. -/
def Members.isEmpty (s : Members) : Bool := !s.drive && !s.winch && !s.lights

/-- At most n rounds of the division (R154). -/
def rounds (demands weights : Shares) : Nat → Nat → Members → Shares
  | 0, _, _ => { drive := 0, winch := 0, lights := 0 }
  | n + 1, a, s =>
    let shares := sharesOf a weights s
    let l := leaversOf demands shares s
    if l.isEmpty then shares.within s
    else (demands.within l).plus (rounds demands weights n (a - (demands.within l).total) (s.without l))

/-- The weighted division of A (R154): demands that fit are granted whole, otherwise at most three rounds. -/
def divideBudget (a : Nat) (demands weights : Shares) : Shares :=
  if demands.total ≤ a then demands
  else rounds demands weights 3 a
    { drive := decide (0 < demands.drive), winch := decide (0 < demands.winch), lights := decide (0 < demands.lights) }

/-- The three demands as they stand (R151). -/
def Chip.demands (c : Chip) : Shares := { drive := c.drm.demand, winch := c.wnc.demand, lights := c.lsq.demand }

/-- ALT holds an eligible latch of level 3 or more severe (R153). -/
def Chip.alertRaise (c : Chip) : Bool :=
  Alert.all.any fun a => c.alt.has a && a.eligible c.tables.link.maskLevel && decide (a.level ≤ 3)

/-- The effective weights of a division whose B was formed at a level (R152, R153). -/
def Chip.weights (c : Chip) (level : Level) : Shares :=
  let b := c.tables.budget
  { drive := b.driveWeight
    winch := if c.wnc.boost && decide (level = .normal) then 7 else b.winchWeight
    lights := if c.alertRaise then max b.lightWeight 4 else b.lightWeight }

/-- The steering grant (R150). -/
def Chip.steerGrant (c : Chip) (b : Nat) : Nat := if c.stm.pulsing then min c.tables.budget.reservation b else 0

/-- BGA makes a division against the level budget B formed at a level (R149, R150). -/
def Chip.division (c : Chip) (b : Nat) (level : Level) : Bga :=
  let g := divideBudget (b - c.steerGrant b) c.demands (c.weights level)
  { budget := b, steer := c.steerGrant b, drive := g.drive, winch := g.winch, lights := g.lights }

/-- A consumer takes its grant of the grant event (R157); the other blocks take none. -/
def Chip.takeGrantOf (c : Chip) (t : EvalTaker) : Chip :=
  match t with
  | .drm => c.takeDriveGrant c.bga.drive
  | .wnc => c.takeWinchGrant c.bga.winch
  | .lsq => c.takeLightGrant c.bga.lights
  | .alt | .mdc | .bga => c

/-- The grant event: each consumer takes its grant, in an order (R157). -/
def Chip.grantEvent (c : Chip) (order : List EvalTaker) : Chip := (evalTakers order).foldl Chip.takeGrantOf c

end Sys2Proof.Machine
end

