-- ==== Sys2Proof/Machine/Battery.lean ====
section
/-! DEFINITION. BTM (07): measurement, filter, sag compensation, charge, overcurrent, protection level and level budget; the
evaluation completion and what each block does at it. -/

namespace Sys2Proof.Machine

/-- A reading beyond its range is reported at the range's end (R131). -/
def clampReadings (r : Readings) : Readings :=
  { v1 := min 5000 r.v1, v2 := min 5000 r.v2, v3 := min 5000 r.v3, v4 := min 5000 r.v4, vpack := min 20000 r.vpack,
    current := min 60000 r.current }

/-- The four cell readings. -/
def cellsOf (r : Readings) : List Nat := [r.v1, r.v2, r.v3, r.v4]

/-- The cell count from the PROTECT field and Vpack (R132). -/
def cellCountOf (field vpack : Nat) : Nat :=
  if field = 0 then (if vpack ≤ 2 * 4350 then 2 else if vpack ≤ 3 * 4350 then 3 else 4) else field

/-- One filter step (R133). -/
def filterStep (vf v : Nat) : Nat :=
  let diff : Int := (v : Int) - (vf : Int)
  let step := diff.tdiv 8
  ((vf : Int) + (if step = 0 then diff.sign else step)).toNat

/-- The filter of the counted cells: seeded at the first measurement, one step at every later one (R133). -/
def filterCells (vf : List Nat) (readings : List Nat) : List Nat :=
  if vf.isEmpty then readings else List.zipWith filterStep vf readings

/-- The lowest filtered cell; 0 before the first measurement (R134). -/
def lowestCell : List Nat → Nat
  | [] => 0
  | v :: vs => vs.foldl min v

/-- The sag compensation (R134). -/
def sagComp (current rint : Nat) : Nat := current * rint / 1000

/-- One mAh in mA·ms (R135). -/
def mAhUnit : Nat := 3600000

/-- Steps 1 to 4 of R131: cell count, filter, Vc, charge. -/
def Btm.sense (b : Btm) (p : Protect) (now : Nat) (r : Readings) : Btm :=
  let n := b.cells.getD (cellCountOf p.cellCount r.vpack)
  let vf := filterCells b.vf ((cellsOf r).take n)
  let acc := b.acc + r.current * (now - b.lastMeas)
  { b with
    cells := some n
    vf := vf
    readings := some r
    vc := lowestCell vf + sagComp r.current p.rint
    charge := min 65535 (b.charge + acc / mAhUnit)
    acc := acc % mAhUnit
    lastMeas := now }

/-- The capacity condition (R137). -/
def Btm.capacityHolds (b : Btm) (p : Protect) : Bool :=
  decide (p.capacity ≠ 0) && decide (p.capacity * p.percent ≤ b.charge * 100)

/-- The overcurrent trips at a measurement (R143). -/
def Btm.trips (b : Btm) (p : Protect) (now current : Nat) : Bool :=
  decide (p.iTrip < current) && (match b.overcurrent with | none => false | some t => decide (t + 100 ≤ now))

/-- Steps 5 and 6 of R131: the capacity force and the overcurrent test (R137, R143, R144). -/
def Btm.guard (b : Btm) (p : Protect) (now current : Nat) : Btm :=
  { b with
    capForce := b.capForce || b.capacityHolds p
    overcurrent :=
      if p.iTrip < current then (if b.trips p now current then none else some (b.overcurrent.getD now)) else none
    foldback := if b.trips p now current then some (now + p.foldbackTime) else b.foldback }

/-! ### The level (R138 to R141) -/

/-- Severity: NORMAL 0 to CUTOFF 3. -/
def Level.severity : Level → Nat
  | .normal => 0
  | .low => 1
  | .critical => 2
  | .cutoff => 3

/-- An entry start after a measurement: set where the condition holds for a level more severe than the one that stands,
cleared otherwise (R138). -/
def entryStart (applies below : Bool) (start : Option Nat) (now : Nat) : Option Nat :=
  if applies && below then some (start.getD now) else none

/-- A start that lies at least a time before now. -/
def dueAfter (start : Option Nat) (time now : Nat) : Bool :=
  match start with
  | none => false
  | some t => decide (t + time ≤ now)

/-- The level seeded in the start-up window (R141). -/
def seedLevel (p : Protect) (level : Level) (vc : Nat) (force : Bool) : Level :=
  if level = .cutoff ∨ vc < p.vCut then .cutoff
  else if vc < p.vCrit then .critical
  else if vc < p.vLow ∨ force = true then .low
  else .normal

/-- The entry starts after the tests of a measurement (R138). -/
def Btm.testEntries (b : Btm) (p : Protect) (now : Nat) : Btm :=
  { b with
    startLow := entryStart (decide (b.level.severity < 1)) (decide (b.vc < p.vLow)) b.startLow now
    startCrit := entryStart (decide (b.level.severity < 2)) (decide (b.vc < p.vCrit)) b.startCrit now
    startCut := entryStart (decide (b.level.severity < 3)) (decide (b.vc < p.vCut)) b.startCut now }

/-- The level after the entries of a measurement: the most severe level due, and LOW in place of NORMAL under the
capacity force (R138). -/
def Btm.entered (b : Btm) (now : Nat) : Level :=
  if dueAfter b.startCut 500 now then .cutoff
  else if dueAfter b.startCrit 1000 now then .critical
  else if dueAfter b.startLow 2000 now then .low
  else if b.capForce && decide (b.level = .normal) then .low
  else b.level

/-- The recovery condition of the level that stands (R140). -/
def Btm.recovers (b : Btm) (p : Protect) : Bool :=
  match b.level with
  | .low => decide (p.vLow + p.hysteresis ≤ b.vc) && !b.capForce
  | .critical => decide (p.vCrit + p.hysteresis ≤ b.vc)
  | .normal | .cutoff => false

/-- The level recovery leads to (R140). -/
def Level.recovered : Level → Level
  | .critical => .low
  | .low => .normal
  | .normal => .normal
  | .cutoff => .cutoff

/-- A change of level: the recovery start is cleared, and so are the entry starts of the levels no more severe than the
new one (R139, R140). -/
def Btm.changeLevel (b : Btm) (level : Level) : Btm :=
  { b with
    level := level
    recovery := none
    startLow := if 1 ≤ level.severity then none else b.startLow
    startCrit := if 2 ≤ level.severity then none else b.startCrit
    startCut := if 3 ≤ level.severity then none else b.startCut }

/-- The level state machine at one measurement (R138 to R140). -/
def Btm.levelStep (b : Btm) (p : Protect) (now : Nat) : Btm :=
  let b := b.testEntries p now
  if b.entered now ≠ b.level then b.changeLevel (b.entered now)
  else if b.recovers p then
    if dueAfter b.recovery 5000 now then b.changeLevel b.level.recovered
    else { b with recovery := some (b.recovery.getD now) }
  else { b with recovery := none }

/-- Step 7 of R131: seeding while the start-up window is open, the level state machine afterwards. -/
def Btm.decideLevel (b : Btm) (p : Protect) (now : Nat) : Btm :=
  if b.window.isSome then { b with level := seedLevel p b.level b.vc b.capForce } else b.levelStep p now

/-- The level's own budget (R145). -/
def Protect.levelBudget (p : Protect) : Level → Nat
  | .normal => p.bNormal
  | .low => p.bLow
  | .critical => p.bCrit
  | .cutoff => 0

/-- The level budget B (R145). -/
def Btm.levelBudget (b : Btm) (p : Protect) : Nat :=
  if b.foldback.isSome then min (p.levelBudget b.level) p.iFold else p.levelBudget b.level

/-- A measurement handled whole, steps 1 to 8 (R131). -/
def Btm.measure (b : Btm) (p : Protect) (now : Nat) (r : Readings) : Btm :=
  let b := ((b.sense p now (clampReadings r)).guard p now (clampReadings r).current).decideLevel p now
  { b with budget := some (b.levelBudget p) }

/-- The interval of measurements in the operating mode (R130). -/
def Mode.measurementInterval : Mode → Nat
  | .active => 10
  | .parked => 100
  | .dormant => 100

/-- The battery causes as the level and the capacity force give them (R142), and the raise of OVERCURRENT (R143). -/
def Alt.battery (t : Alt) (level : Level) (force trip : Bool) : Alt :=
  let t := if trip then t.raise .overcurrent else t
  (((t.cause .battLow (decide (1 ≤ level.severity))).cause .battCritical (decide (2 ≤ level.severity))).cause .battCutoff
    (decide (level = .cutoff))).cause .capacity force

/-- MDC starts the cutoff timer at the evaluation completion that enters CUTOFF (R198). -/
def Chip.startCutoff (c : Chip) (entered : Bool) : Chip :=
  { c with mdc := { c.mdc with cutoffTimer := if entered then some (c.now + 200) else c.mdc.cutoffTimer } }

/-- One block takes the evaluation completion (R139, R142, R149). `before` is the level before it; DRM, WNC, LSQ and MDC
act where the level changed. -/
def Chip.takeEvaluation (before : Level) (trip : Bool) (order : List EvalTaker) (c : Chip) (t : EvalTaker) : Chip :=
  let changed := decide (c.btm.level ≠ before)
  match t with
  | .alt => c.alert fun a => a.battery c.btm.level c.btm.capForce trip
  | .drm => c.recapIf changed
  | .wnc => if changed then c.winchLevelChange else c
  | .lsq => c.relightIf changed
  | .mdc => c.startCutoff (changed && decide (c.btm.level = .cutoff))
  | .bga => ({ c with bga := c.division (c.btm.budget.getD 0) c.btm.level }).grantEvent order

/-- The evaluation completion: each block takes it for itself, in an order (R131, R139). -/
def Chip.evaluate (c : Chip) (before : Level) (trip : Bool) (order : List EvalTaker) : Chip :=
  (evalTakers order).foldl (Chip.takeEvaluation before trip order) c

/-- BTM handles a measurement, and its evaluation completion follows (R131). The next completion is due an interval
later (R130). -/
def Chip.measurement (c : Chip) (r : Readings) (order : List EvalTaker) : Chip :=
  let b := c.btm.measure c.tables.protect c.now r
  let trip := c.btm.trips c.tables.protect c.now (clampReadings r).current
  { c with btm := { b with nextMeas := some (c.now + c.mdc.mode.measurementInterval) } }.evaluate c.btm.level trip order

/-- The strobe RESET_CHARGE: charge, accumulator and capacity force are cleared, and the cause of CAPACITY ends (R136). -/
def Chip.resetCharge (c : Chip) : Chip :=
  { c with btm := { c.btm with charge := 0, acc := 0, capForce := false } }.alert fun t => t.cause .capacity false

/-- The start-up window ends: every entry start and the recovery start are absent (R141). -/
def Btm.endWindow (b : Btm) : Btm :=
  { b with window := none, startLow := none, startCrit := none, startCut := none, recovery := none }

/-! ### Meanings -/

/-- MEASUREMENT_COMPLETION (R131). -/
def execMeasurementCompletion (r : Readings) (order : List EvalTaker) (s : State) :
    Host.Outcome State Fault Refusal :=
  .next (s.onChip fun c => c.whenDue c.btm.nextMeas fun d => d.measurement r order)

/-- END_OF_START_UP_WINDOW (R141). -/
def execEndOfStartUpWindow (s : State) : Host.Outcome State Fault Refusal :=
  .next (s.onChip fun c => c.whenDue c.btm.window fun d => { d with btm := d.btm.endWindow })

/-- FOLDBACK_TIMER_EXPIRY (R144): the timer stops; later evaluations carry the level's own budget. -/
def execFoldbackTimerExpiry (s : State) : Host.Outcome State Fault Refusal :=
  .next (s.onChip fun c => c.whenDue c.btm.foldback fun d => { d with btm := { d.btm with foldback := none } })

end Sys2Proof.Machine
end

