-- ==== Sys2Proof/Machine/Telemetry.lean ====
section
/-! DEFINITION. RTX and ATX (09; 12, sections 12.1, 12.4 and 12.5): what a status frame and an accessory frame carry, the
choice of the next frame, the triggers, and the meaning of the end of an accessory transmission. -/

namespace Sys2Proof.Machine

/-! ### State codes (12, section 12.5) -/

/-- The code of a link state. -/
def LinkState.code : LinkState → Nat
  | .await => 0
  | .live => 1
  | .hold => 2
  | .failsafe => 3

/-- The code of an operating mode; no status frame is built in DORMANT (R195), which has no code. -/
def Mode.code : Mode → Nat
  | .active => 0
  | .parked => 1
  | .dormant => 2

/-- The code of a steer mode. -/
def SteerMode.code : SteerMode → Nat
  | .front => 0
  | .rear => 1
  | .counter => 2
  | .crab => 3

/-- The code of a pending steer mode: 15 where absent. -/
def pendingCode : Option SteerMode → Nat
  | none => 15
  | some m => m.code

/-- The code of an arming state. -/
def Arming.code : Arming → Nat
  | .disarmed => 0
  | .arming => 1
  | .armed => 2

/-- The code of an axle state. -/
def AxleState.code : AxleState → Nat
  | .off => 0
  | .idle => 1
  | .forward => 2
  | .reverse => 3
  | .reversing => 4
  | .digLocked => 5
  | .failsafeBrake => 6

/-- The code of a bridge mode. -/
def Bridge.code : Bridge → Nat
  | .coast => 0
  | .brake => 1
  | .fwd => 2
  | .rev => 3

/-- The code of a winch state. -/
def WinchState.code : WinchState → Nat
  | .idle => 0
  | .jogIn => 1
  | .jogOut => 2
  | .runIn => 3
  | .runOut => 4
  | .free => 5
  | .stalled => 6
  | .locked => 7

/-- The bridge mode of an axle state (04, section 4.5). -/
def AxleState.bridge : AxleState → Bridge
  | .off => .coast
  | .forward => .fwd
  | .reverse => .rev
  | .idle | .reversing | .digLocked | .failsafeBrake => .brake

/-! ### Payloads (R174, R177) -/

/-- The pack current of the latest measurement; 0 before the first (R148). -/
def Btm.current (b : Btm) : Nat := (b.readings.map Readings.current).getD 0

/-- The SETUP_FAULT cause in two bytes; 0xFF in place of the command code where absent, with a
free value beside it (assumption log, entry 32). -/
def faultBytes (free : Nat) : Option FaultCause → List Byte
  | none => byteOf 255 ++ [Config.freeReason free]
  | some f => byteOf f.command.val ++ byteOf f.reason.code

/-- The payload of a status frame, the items as they stand (R174). -/
def Chip.statusPayload (c : Chip) : List Byte :=
  byteOf c.ulr.link.code ++ byteOf c.mdc.mode.code ++ byteOf c.btm.level.severity
    ++ wordOf c.btm.vc ++ wordOf (lowestCell c.btm.vf) ++ wordOf c.btm.current ++ wordOf c.btm.charge
    ++ byteOf (c.stm.active.code + 16 * pendingCode c.stm.pending)
    ++ byteOf c.drm.arming.code ++ byteOf c.drm.front.state.code ++ byteOf c.drm.rear.state.code
    ++ wordOf c.drm.front.effective ++ wordOf c.drm.rear.effective
    ++ byteOf c.wnc.state.code ++ wordOf c.wnc.position ++ [boolByte c.wnc.referenced]
    ++ wordOf c.bga.budget ++ wordOf c.bga.steer ++ wordOf c.bga.drive ++ wordOf c.bga.winch ++ wordOf c.bga.lights
    ++ byteOf ((c.topAlert.map Alert.code).getD 0) ++ c.alt.latchedBytes ++ faultBytes c.rtx.free c.alt.fault

/-- The width an accessory frame carries: 0 while the steering output is SILENT or the width is absent (R55). -/
def Stm.shownWidth (m : Stm) (w : Option Nat) : Nat := if m.pulsing then w.getD 0 else 0

/-- An axle's bridge mode and output duty. -/
def AxleRec.shown (r : AxleRec) : List Byte := byteOf r.state.bridge.code ++ wordOf r.output

/-- The payload of an accessory frame, the items as they stand (R177). -/
def Chip.accessoryPayload (c : Chip) : List Byte :=
  wordOf (c.stm.shownWidth c.stm.front) ++ wordOf (c.stm.shownWidth c.stm.rear)
    ++ c.drm.front.shown ++ c.drm.rear.shown ++ byteOf c.wnc.state.code
    ++ c.lsq.level.toList.flatMap byteOf ++ byteOf c.btm.level.severity ++ byteOf c.ulr.link.code

/-- The payload of a reply (12, section 12.4). -/
def Reply.payload (r : Reply) : List Byte := r.head :: BitVec.ofNat 8 r.status.code :: r.data

/-! ### Frames on the lines (R203) -/

/-- The bytes of a frame on the return line: kind 10 a reply, kind 11 a status frame. -/
def ReturnFrame.wire : ReturnFrame → List Byte
  | .reply r => wireFrame 2 r.payload
  | .status payload => wireFrame 3 payload

/-- The bytes of a frame on the accessory line: kind 10 a pass-through setup frame as received, whose bytes are fixed by
its payload (R2, R6), kind 11 an accessory frame. -/
def AccessoryFrame.wire : AccessoryFrame → List Byte
  | .forward payload => wireFrame 2 payload
  | .accessory payload => wireFrame 3 payload

/-! ### The return line (R171 to R174) -/

/-- The choice of what to send on an idle return line: the oldest reply, else the status frame, else nothing (R172). -/
def Rtx.choose (x : Rtx) : Rtx :=
  match x.sending with
  | some _ => x
  | none =>
    match x.replies with
    | r :: rs => { x with replies := rs, sending := some (.reply r) }
    | [] => { x with slot := none, sending := x.slot.map ReturnFrame.status }

/-- A status frame is built: it replaces an unsent one in the slot, and an idle line starts it (R171, R172, R174). -/
def Rtx.putStatus (x : Rtx) (payload : List Byte) : Rtx := { x with slot := some payload, free := x.free + 1 }.choose

/-- A reply is placed at the tail of the reply queue, and an idle line starts it (R171, R172). -/
def Rtx.putReply (x : Rtx) (r : Reply) : Rtx := { x with replies := x.replies ++ [r] }.choose

/-- The frame in transmission has been sent (R172). -/
def Rtx.complete (x : Rtx) : Rtx := { x with sending := none }.choose

/-- RTX takes an accepted control frame: the count goes up, and at N or more a status frame is built and the count returns
to 0 (R173). -/
def Chip.countControl (c : Chip) : Chip :=
  { c with
    rtx :=
      if c.tables.link.statusN ≤ c.rtx.count + 1 then { c.rtx with count := 0 }.putStatus c.statusPayload
      else { c.rtx with count := c.rtx.count + 1 } }

/-- RTX takes a refresh: a status frame is built at every fifth ordinal (R15, R173). -/
def Chip.refreshStatus (c : Chip) : Chip :=
  { c with rtx := if c.ulr.ordinal % 5 = 0 then c.rtx.putStatus c.statusPayload else c.rtx }

/-! ### The accessory line (R176 to R178) -/

/-- The choice of what to send on an idle accessory line: the oldest pass-through frame, else the accessory frame, else
nothing (R178). -/
def Atx.choose (x : Atx) : Atx :=
  match x.sending with
  | some _ => x
  | none =>
    match x.queue with
    | p :: ps => { x with queue := ps, sending := some (.forward p) }
    | [] => { x with slot := none, sending := x.slot.map AccessoryFrame.accessory }

/-- A pass-through frame joins the forward queue, or is discarded silently while it holds 2 (R176). -/
def Atx.putForward (x : Atx) (payload : List Byte) : Atx :=
  if x.queue.length < 2 then { x with queue := x.queue ++ [payload] }.choose else x

/-- An accessory frame is placed in the slot, replacing an unsent one (R177). -/
def Atx.putAccessory (x : Atx) (payload : List Byte) : Atx := { x with slot := some payload }.choose

/-- The frame in transmission has been sent (R178). -/
def Atx.complete (x : Atx) : Atx := { x with sending := none }.choose

/-- ATX takes a channel update (R177). -/
def Chip.buildAccessory (c : Chip) : Chip := { c with atx := c.atx.putAccessory c.accessoryPayload }

/-! ### Meanings -/

/-- ACCESSORY_TRANSMIT_COMPLETION (R178); nothing where no frame is in transmission (assumption log, entry 5). -/
def execAccessoryTransmitCompletion (s : State) : Host.Outcome State Fault Refusal :=
  .next (s.onChip fun c => c.whenRunning fun c =>
    { c with atx := if c.atx.sending.isSome then c.atx.complete else c.atx })

end Sys2Proof.Machine
end

