-- ==== Sys2Proof/Machine/Modes.lean ====
section
/-! DEFINITION. MDC (11): entering PARKED and DORMANT, the return to ACTIVE, the resets and the reset release, and what the
output pins show. -/

namespace Sys2Proof.Machine

/-! ### PARKED and ACTIVE (R195 to R197) -/

/-- The next completion after a change to an operating mode: an interval after the latest one, but at the return to ACTIVE an
interval after the return where that instant is not later than the return (R130). Before the first measurement there is no
latest one, and the first completion stays 10 ms after the release. At an entry into PARKED the instant can have gone by; the
completion is then due at once (assumption log, entry 21). -/
def Btm.nextAfter (b : Btm) (now : Nat) (m : Mode) : Option Nat :=
  let due := b.lastMeas + m.measurementInterval
  if b.readings.isNone then b.nextMeas
  else some (if m = .active ∧ due ≤ now then now + m.measurementInterval else due)

/-- The measurement schedule changes with the operating mode (R130). -/
def Chip.reschedule (c : Chip) : Chip :=
  { c with btm := { c.btm with nextMeas := c.btm.nextAfter c.now c.mdc.mode } }

/-- The operating mode is set. -/
def Chip.setMode (c : Chip) (m : Mode) : Chip := { c with mdc := { c.mdc with mode := m } }

/-- MDC enters PARKED: servos silent (R50), drive disarmed (R79), winch locked (R84), brake hold stopped and the picture
formed under the new eligibility (R128), measurements every 100 ms (R130). -/
def Chip.enterParked (c : Chip) : Chip :=
  (c.setMode .parked).steerSilence.disarmDrive.winchLockTest.stopBrakeHold.relight.reschedule

/-- DRM handles the axles with its record as it stands (R67). -/
def Chip.rehandle (c : Chip) : Chip := c.handleAxles c.drm

/-- MDC returns to ACTIVE: the axles are handled (R67), the winch tests its lock causes (R85), every source is eligible again
(R128), measurements come every 10 ms (R130). The drive and the steering resume at the next update they take (R79,
R197). -/
def Chip.returnActive (c : Chip) : Chip := (c.setMode .active).rehandle.winchLockTest.relight.reschedule

/-- The conditions under which PARKED is left (R197). -/
def Chip.leavesParked (c : Chip) : Bool :=
  decide (c.mdc.mode = .parked) && decide (c.ulr.link = .live) && decide (c.cdc.throttle = 0) && !c.parkRequest

/-- MDC tests the conditions of R197. -/
def Chip.parkExitTest (c : Chip) : Chip := if c.leavesParked then c.returnActive else c

/-- The park timer starts with the park delay as it stands (R196). -/
def Chip.startPark (c : Chip) : Chip :=
  { c with mdc := { c.mdc with parkTimer := some (c.now + 1000 * c.tables.link.parkDelay) } }

/-! ### DORMANT (R198) -/

/-- WNC at entry into DORMANT: no boost, no demand, not referenced; the record keeps its state (R107). -/
def Winch.sleep (w : Winch) : Winch := { w with boost := false, demand := 0, referenced := false }

/-- MDC enters DORMANT: every timer and schedule stops, both transmit lines are cut off, and every output takes its DORMANT
value (R7, R52, R63, R79, R107, R128, R130, R175, R178, R198). -/
def Chip.enterDormant (c : Chip) : Chip :=
  let c := (c.setMode .dormant).steerSilence.disarmDrive
  { c with
    ulr := { c.ulr with linkTimer := none, refreshDue := none }
    wnc := c.wnc.sleep
    lsq := { c.lsq with brakeHold := none, nextEvent := none }
    btm := { c.btm with foldback := none, nextMeas := none }
    rtx := { c.rtx with sending := none }
    atx := { c.atx with sending := none }
    mdc := { c.mdc with parkTimer := none, cutoffTimer := none } }.relight

/-! ### Resets (R199, R200) -/

/-- The tables after a reset (R194). -/
def Chip.tablesAfter (c : Chip) : ResetKind → Tables
  | .warm => c.tables
  | .cold => if c.tbs.image.checksGood then c.tbs.image.copy else factoryTables

/-- A cold reset finds a bad image: neither blank nor good (R194). -/
def Chip.storeFault (c : Chip) : ResetKind → Bool
  | .warm => false
  | .cold => !c.tbs.image.blank && !c.tbs.image.checksGood

/-- What a warm reset keeps and a cold reset sets (R199). -/
def ResetKind.keep {α : Type} (kind : ResetKind) (kept fresh : α) : α :=
  match kind with
  | .warm => kept
  | .cold => fresh

/-- An axle held by a reset (R81). -/
def heldAxle (cfg : DriveCfg) : AxleRec :=
  { state := .failsafeBrake, timer := none, left := none, effective := 0, output := cfg.failsafeBrake }

/-- An axle after a release in bench mode (R80, R81). -/
def benchAxle : AxleRec := { state := .off, timer := none, left := none, effective := 0, output := 0 }

/-- ULR after a reset (R1, R12). -/
def Ulr.cleared : Ulr :=
  { hunt := .hunt, bytes := [], link := .await, linkTimer := none, refreshDue := none, ordinal := 0 }

/-- STM after a reset (R56); at a warm reset a running pulse runs on, at a cold reset the outputs fall low (R52). -/
def Stm.reset (m : Stm) (kind : ResetKind) (active : SteerMode) : Stm :=
  { command := 0, active := active, pending := none, first := true, front := none, rear := none, pulsing := false,
    schedule := none, pulseFront := kind.keep m.pulseFront none, pulseRear := kind.keep m.pulseRear none }

/-- DRM after a reset (R81). -/
def Drm.reset (cfg : DriveCfg) (mode : DriveMode) : Drm :=
  { command := 0, mode := mode, arming := .disarmed, armTimer := none, request := 0, axleRequest := 0,
    front := heldAxle cfg, rear := heldAxle cfg, demand := 0, grant := 0 }

/-- WNC after a reset (R108). -/
def Winch.reset (w : Winch) (kind : ResetKind) (cfg : WinchCfg) : Winch :=
  { state := .locked, position := kind.keep w.position 0, referenced := kind.keep w.referenced false, run := none,
    opCount := 0, holdOff := true, requested := 0, effective := 0, stallTimer := cfg.stallWindow, creep := 0,
    creepReported := false, demand := 0, grant := 0, allowance := kind.keep w.allowance cfg.aMax, boost := false,
    boostAtStart := false, recharge := 0, lastOp := none }

/-- LSQ while a reset is held (R129); the release forms the picture. R129 gives no activity, winner, raw level or demand
for the time between the reset input and the release: none, none, 0 and 0 are the model's choice (assumption log,
entry 40). -/
def Lsq.cleared : Lsq :=
  { active := Vector.replicate 10 false, brakeHold := none, timebase := 0#32, nextEvent := none,
    winner := Vector.replicate 8 none, raw := Vector.replicate 8 0, level := Vector.replicate 8 0, demand := 0,
    grant := 0, granted := false }

/-- BTM after a reset (R135, R148); the start-up window and the schedule start at the release. -/
def Btm.reset (b : Btm) (kind : ResetKind) : Btm :=
  { cells := none, vf := [], readings := none, vc := 0, charge := kind.keep b.charge 0, acc := kind.keep b.acc 0,
    capForce := false, level := .normal, startLow := none, startCrit := none, startCut := none, recovery := none,
    overcurrent := none, foldback := none, window := none, budget := none, lastMeas := b.lastMeas, nextMeas := none }

/-- ALT after a reset: all clear, then STORE_FAULT where a cold reset found a bad image (R170). -/
def Alt.reset (bad : Bool) : Alt :=
  { latched := if bad then Alert.storeFault.mask else 0#12, causes := 0#12, fault := none }

/-- A reset of a kind takes hold: every block takes the values its rules give, and no event but a reset input is taken until
the release (R199; assumption log, entry 27). -/
def Chip.resetTo (c : Chip) (kind : ResetKind) : Chip :=
  let t := c.tablesAfter kind
  let d := resetDecode t
  { now := c.now
    spoolStart := c.spoolStart
    held := some kind
    tables := t
    ulr := Ulr.cleared
    slots := Vector.replicate 12 .empty
    cdc := d
    stm := c.stm.reset kind d.steerSel
    drm := Drm.reset t.driveCfg d.driveSel
    wnc := c.wnc.reset kind t.winchCfg
    lsq := Lsq.cleared
    btm := c.btm.reset kind
    bga := { budget := 0, steer := 0, drive := 0, winch := 0, lights := 0 }
    alt := Alt.reset (c.storeFault kind)
    sup := { queue := [], restart := false, switches := 0#32, store := none }
    rtx := { replies := [], slot := none, sending := none, count := 0, free := c.rtx.free }
    atx := { queue := [], slot := none, sending := none }
    tbs := { image := c.tbs.image, snapshot := none }
    mdc := { c.mdc with parkTimer := none, cutoffTimer := none } }

/-- A warm cause: a cold reset that is held stays cold (R199). -/
def Chip.warmCause (c : Chip) : Chip := if c.held = some .cold then c else c.resetTo .warm

/-- The release of the reset that is held (R200, R201): ACTIVE, the strap value, the park timer, the start-up window, the
light timebase, the measurement schedule and the light picture. -/
def Chip.release (c : Chip) (bench : Bool) : Chip :=
  { c with
    held := none
    drm := if bench then { c.drm with front := benchAxle, rear := benchAxle } else c.drm
    lsq := { c.lsq with nextEvent := some (c.now + 10) }
    btm := { c.btm with window := some (c.now + 200), lastMeas := c.now, nextMeas := some (c.now + 10) }
    mdc := { mode := .active, parkTimer := some (c.now + 1000 * c.tables.link.parkDelay), cutoffTimer := none,
             bench := bench } }.relight

/-! ### The pins (11, section 11.6) -/

/-- The outputs stand at rest: a reset is held, or the part is DORMANT (R198, R199). -/
def Chip.atRest (c : Chip) : Bool := decide (c.held ≠ none) || decide (c.mdc.mode = .dormant)

/-- A servo line is high while its pulse runs (R51, R52). -/
def Chip.servoLine (c : Chip) : Axle → Bool
  | .front => c.stm.pulseFront.isSome
  | .rear => c.stm.pulseRear.isSome

/-- The bridge mode and duty of an axle stage. -/
def Chip.axleStage (c : Chip) (a : Axle) : Bridge × Nat :=
  if c.atRest then (.coast, 0) else ((c.drm.axle a).state.bridge, (c.drm.axle a).output)

/-- The bridge mode and duty of the winch stage. -/
def Chip.winchStage (c : Chip) : Bridge × Nat :=
  if c.atRest then (.coast, 0) else (c.wnc.state.bridge, c.wnc.output)

/-- The level of a light output. -/
def Chip.lightPin (c : Chip) (o : Fin 8) : Nat := if c.atRest then 0 else c.lsq.level[o]

/-- The bytes of the frame on the return line, if any. -/
def Chip.returnLine (c : Chip) : Option (List Byte) := c.rtx.sending.map ReturnFrame.wire

/-- The bytes of the frame on the accessory line, if any. -/
def Chip.accessoryLine (c : Chip) : Option (List Byte) := c.atx.sending.map AccessoryFrame.wire

/-- The level of a line in the n-th bit time of the frame on it; high where it carries none and after the frame's end
(R202). -/
def lineLevel (line : Option (List Byte)) (n : Nat) : Bool := (lineBits (line.getD [])).getD n true

/-- The level of the return line, in bit times from the start of the frame on it (R202). -/
def Chip.returnLevel (c : Chip) (n : Nat) : Bool := lineLevel c.returnLine n

/-- The level of the accessory line, in bit times from the start of the frame on it (R202). -/
def Chip.accessoryLevel (c : Chip) (n : Nat) : Bool := lineLevel c.accessoryLine n

/-! ### Meanings -/

/-- CUTOFF_TIMER_EXPIRY (R198). -/
def execCutoffTimerExpiry (s : State) : Host.Outcome State Fault Refusal :=
  .next (s.onChip fun c => c.whenDue c.mdc.cutoffTimer Chip.enterDormant)

/-- The park timer's expiry stops it, and enters PARKED where the mode is ACTIVE (R196). -/
def Chip.parkExpiry (c : Chip) : Chip :=
  let d : Chip := { c with mdc := { c.mdc with parkTimer := none } }
  if c.mdc.mode = .active then d.enterParked else d

/-- PARK_TIMER_EXPIRY (R196). -/
def execParkTimerExpiry (s : State) : Host.Outcome State Fault Refusal :=
  .next (s.onChip fun c => c.whenDue c.mdc.parkTimer Chip.parkExpiry)

/-- COLD_RESET (R194, R199). -/
def execColdReset (s : State) : Host.Outcome State Fault Refusal := .next (s.onChip fun c => c.resetTo .cold)

/-- WARM_RESET (R199). -/
def execWarmReset (s : State) : Host.Outcome State Fault Refusal := .next (s.onChip Chip.warmCause)

/-- RESET_RELEASE (R200, R201); nothing where no reset is held (assumption log, entry 5). -/
def execResetRelease (benchLow : Bool) (s : State) : Host.Outcome State Fault Refusal :=
  .next (s.onChip fun c => if c.held.isSome then c.release benchLow else c)

end Sys2Proof.Machine
end

