-- ==== Sys2Proof/Machine/Switches.lean ====
section
/-! DEFINITION. A write of the switch space (10, section 10.5): SUP's bits change in one step and every consumer that acts at
the write acts; and the meanings of the rows that name one such write. -/

namespace Sys2Proof.Machine

/-- A write to a bit of the switch space. -/
def writesBit (mask value : BitVec 32) (n : Nat) (v : Bool) : Bool := mask.getLsbD n && value.getLsbD n == v

/-- DRM at a write that sets DRIVE_INHIBIT: an ARMING or ARMED drive disarms (R61, R63). -/
def Chip.driveSwitch (c : Chip) (set : Bool) : Chip :=
  if set && decide (c.drm.arming ≠ .disarmed) then c.disarmDrive else c

/-- The winch record after a write that changed WINCH_INHIBIT or BOOST_DISABLE (R84, R85, R104). -/
def Winch.switched (w : Winch) (inhibitChanged cause boostDisabled : Bool) : Winch :=
  { (if inhibitChanged then w.lockTest cause else w) with boost := w.boost && !boostDisabled }

/-- WNC at a write that changed WINCH_INHIBIT or BOOST_DISABLE (R82). -/
def Chip.winchSwitch (c : Chip) (inhibit boost : Bool) : Chip :=
  if inhibit || boost then c.setWinch (c.wnc.switched inhibit c.winchLockCause c.boostDisable) else c

/-- BTM at a write that fires the strobe (R136). -/
def Chip.chargeSwitch (c : Chip) (fires : Bool) : Chip := if fires then c.resetCharge else c

/-- MDC at a write of PARK_REQUEST: 1 enters PARKED from ACTIVE (R196), 0 tests the exit (R197). -/
def Chip.parkSwitch (c : Chip) (sets clears : Bool) : Chip :=
  if sets && decide (c.mdc.mode = .active) then c.enterParked else if clears then c.parkExitTest else c

/-- SUP writes bits of the switch space in one step, and each consumer concerned takes one event, in the order DRM, WNC, BTM,
MDC, LSQ (R187, R188; assumption log, entry 35). -/
def Chip.putSwitches (c : Chip) (mask value : BitVec 32) : Chip :=
  let new := mergeSwitches c.sup.switches mask value
  let changed := c.sup.switches ^^^ new
  (((({ c with sup := { c.sup with switches := new } }.driveSwitch (writesBit mask value 0 true)).winchSwitch
    (changed.getLsbD 1) (changed.getLsbD 13)).chargeSwitch (writesBit mask value 12 true)).parkSwitch
    (writesBit mask value 3 true) (writesBit mask value 3 false)).relightIf
    (decide (changed.extractLsb' 4 8 ≠ 0#8))

/-- The status of a write: OK when it changed a read/write bit or fired the strobe, else IGNORED (R188). -/
def Chip.switchStatus (c : Chip) (mask value : BitVec 32) : Status :=
  if mergeSwitches c.sup.switches mask value ≠ c.sup.switches ∨ writesBit mask value 12 true = true then .ok
  else .ignored

/-- One bit of the 32. -/
def oneBit (n : Nat) : BitVec 32 := BitVec.ofNat 32 (2 ^ n)

/-- The bits of a run from base. -/
def runMask (base count : Nat) : BitVec 32 := BitVec.ofNat 32 ((2 ^ count - 1) * 2 ^ base)

/-- The value a write of one bit carries. -/
def bitValue (n : Nat) (v : Bool) : BitVec 32 := if v then oneBit n else 0#32

/-! ### Meanings -/

/-- DRIVE_INHIBIT: SUP writes bit 0 (R61, R63; assumption log, entry 7). -/
def execDriveInhibit (v : Bool) (s : State) : Host.Outcome State Fault Refusal :=
  .next (s.onChip fun c => c.whenRunning fun c => c.putSwitches (oneBit 0) (bitValue 0 v))

/-- WINCH_INHIBIT: SUP writes bit 1 (R84, R85). -/
def execWinchInhibit (v : Bool) (s : State) : Host.Outcome State Fault Refusal :=
  .next (s.onChip fun c => c.whenRunning fun c => c.putSwitches (oneBit 1) (bitValue 1 v))

/-- PARK_REQUEST: SUP writes bit 3 (R196, R197). -/
def execParkRequest (v : Bool) (s : State) : Host.Outcome State Fault Refusal :=
  .next (s.onChip fun c => c.whenRunning fun c => c.putSwitches (oneBit 3) (bitValue 3 v))

/-- OVERRIDE: SUP writes bits 4..11 (R119). -/
def execOverride (bits : Byte) (s : State) : Host.Outcome State Fault Refusal :=
  .next (s.onChip fun c => c.whenRunning fun c => c.putSwitches (runMask 4 8) (BitVec.ofNat 32 (bits.toNat * 16)))

/-- RESET_CHARGE: SUP fires the strobe, bit 12 (R136). -/
def execResetCharge (s : State) : Host.Outcome State Fault Refusal :=
  .next (s.onChip fun c => c.whenRunning fun c => c.putSwitches (oneBit 12) (bitValue 12 true))

/-- BOOST_DISABLE: SUP writes bit 13 (R103, R104). -/
def execBoostDisable (v : Bool) (s : State) : Host.Outcome State Fault Refusal :=
  .next (s.onChip fun c => c.whenRunning fun c => c.putSwitches (oneBit 13) (bitValue 13 v))

end Sys2Proof.Machine
end

