-- ==== Sys2Proof/Machine/Setup.lean ====
section
/-! DEFINITION. SUP and TBS (10): taking a setup frame, the checks of R181, the sixteen commands with their replies, the
routing of an accepted setup frame, the STORE completion and the end of a return transmission. -/

namespace Sys2Proof.Machine

/-! ### Checks and answers (R181) -/

/-- What carrying out a command gives: the part after it, the status and the data of the reply. -/
structure Answer where
  chip : Chip
  status : Status
  data : List Byte
deriving DecidableEq, Repr

/-- The status of the first check that fails (R181). -/
def firstFailure : List (Bool × Status) → Option Status
  | [] => none
  | (holds, st) :: rest => if holds then firstFailure rest else some st

/-- A command under its checks: the first that fails decides the reply, and nothing is changed (R181). -/
def Chip.checked (c : Chip) (checks : List (Bool × Status)) (go : Answer) : Answer :=
  match firstFailure checks with
  | some st => { chip := c, status := st, data := [] }
  | none => go

/-- A reply of status BUSY, or of a REFUSED_ status, carries no data (R181). -/
def Status.carriesData (s : Status) : Bool := decide (s.code < 4)

/-- No STORE is in flight. -/
def Chip.storeIdle (c : Chip) : Bool := c.sup.store.isNone

/-- The drive is not ARMED. -/
def Chip.notArmed (c : Chip) : Bool := decide (c.drm.arming ≠ .armed)

/-- The payload has the length of its layout (R204). -/
def lengthIs (p : List Byte) (n : Nat) : Bool × Status := (decide (p.length = n), .refusedLength)

/-! ### Tables (R182, R183, R192, R193) -/

/-- The channel of a switch role, by SWITCH_DEF record index. -/
def RoleMap.switchRole (m : RoleMap) (i : Fin 5) : Role :=
  match i with
  | 0 => m.steerSel
  | 1 => m.driveSel
  | 2 => m.profileSel
  | 3 => m.lightSel
  | 4 => m.auxSel

/-- The switches whose record or role channel differs (R26, R31, R192). -/
def movedSwitches (old new : Tables) : Vector Bool 5 :=
  Vector.ofFn fun i =>
    decide (old.switchDef[i] ≠ new.switchDef[i]) || decide (old.roleMap.switchRole i ≠ new.roleMap.switchRole i)

/-- The tables are replaced: the switches named are next decoded plainly, ALT decides the top alert under the mask level that
now stands (R168, R169), and WNC acts on a WINCH_CFG record (R95, R100, R104). -/
def Chip.setTables (c : Chip) (t : Tables) (plain : Vector Bool 5) (winch : Bool) : Chip :=
  let d : Chip := { c with tables := t, cdc := c.cdc.forget plain }
  let d := d.relightIf (decide (d.topAlert ≠ c.topAlert))
  if winch then d.winchReconfigure else d

/-- The switches that a written record makes decode plainly next: a written SWITCH_DEF record's own, and those whose role
channel moved (R26, R29, R31). -/
def plainAfterWrite (old new : Tables) (id index : Nat) : Vector Bool 5 :=
  Vector.ofFn fun i => (movedSwitches old new)[i] || (decide (id = 3) && decide (i.val = index))

/-- A table id names a table (R181). -/
def tableKnown (id : Nat) : Bool := decide (1 ≤ id) && decide (id ≤ 15)

/-- READ_TABLE (R182). -/
def Chip.doReadTable (c : Chip) (p : List Byte) : Answer :=
  let id := byteAt p 1
  let index := byteAt p 2
  c.checked [lengthIs p 3, (tableKnown id, .refusedUnknown), (decide (index < recordCount id), .refusedAddress)]
    { chip := c, status := .ok, data := byteOf id ++ byteOf index ++ c.tables.recordBytes id index }

/-- The length check of WRITE_TABLE: passed where the table id defines no length (R204). -/
def writeLength (p : List Byte) (id index : Nat) : Bool :=
  !tableKnown id || (decide (3 ≤ p.length) && decide (p.length = 3 + recordLength id index))

/-- The part with a record written (R183). -/
def Chip.writeRecord (c : Chip) (id index : Nat) (bs : List Byte) : Chip :=
  let t := c.tables.writeRecord id index bs
  c.setTables t (plainAfterWrite c.tables t id index) (decide (id = 8))

/-- WRITE_TABLE (R27, R181, R183); the reply echoes the record as written. -/
def Chip.doWriteTable (c : Chip) (p : List Byte) : Answer :=
  let id := byteAt p 1
  let index := byteAt p 2
  let bs := p.drop 3
  c.checked
    [(writeLength p id index, .refusedLength), (tableKnown id, .refusedUnknown),
      (decide (index < recordCount id), .refusedAddress), (c.storeIdle, .busy),
      (decide (id ≠ 2) || c.notArmed, .refusedArmed), (structureHolds id index bs, .refusedOrder)]
    { chip := c.writeRecord id index bs
      status := if wasClamped c.tables id index bs then .clamped else .ok
      data := byteOf id ++ byteOf index ++ (c.tables.writeRecord id index bs).recordBytes id index }

/-- IDENTIFY (R182). -/
def Chip.doIdentify (c : Chip) (p : List Byte) : Answer :=
  c.checked [lengthIs p 2]
    { chip := c, status := .ok, data := [Config.familyCode, Config.partCode, Config.siliconRevision] }

/-! ### Switch space (R188) -/

/-- A count within 1..16. -/
def countFits (count : Nat) : Bool := decide (1 ≤ count) && decide (count ≤ 16)

/-- A base, and a run from it, within the 32 bits. -/
def runFits (base count : Nat) : Bool := decide (base ≤ 31) && decide (base + count ≤ 32)

/-- READ_SWITCHES (R188). The count is checked before the base and the run (assumption log, entry 39). -/
def Chip.doReadSwitches (c : Chip) (p : List Byte) : Answer :=
  let base := byteAt p 1
  let count := byteAt p 2
  c.checked [lengthIs p 3, (countFits count, .refusedLength), (runFits base count, .refusedAddress)]
    { chip := c, status := .ok
      data := byteOf base ++ byteOf count
        ++ (List.range count).map fun i => boolByte (c.switchSpace.getLsbD (base + i)) }

/-- The values of a WRITE_SWITCHES in their places: a byte other than 0 sets its bit (R204). -/
def runValue (p : List Byte) (base count : Nat) : BitVec 32 :=
  (List.range count).foldl (fun v i => v ||| bitValue (base + i) (byteAt p (3 + i) != 0)) 0#32

/-- A switch write answered: its status, and the 32 bits after it (R188). -/
def Chip.switchAnswer (c : Chip) (mask value : BitVec 32) : Answer :=
  { chip := c.putSwitches mask value
    status := c.switchStatus mask value
    data := bytesOf32 (c.putSwitches mask value).switchSpace }

/-- WRITE_SWITCHES (R188). -/
def Chip.doWriteSwitches (c : Chip) (p : List Byte) : Answer :=
  let base := byteAt p 1
  let count := byteAt p 2
  c.checked
    [(decide (3 ≤ p.length) && countFits count && decide (p.length = 3 + count), .refusedLength),
      (runFits base count, .refusedAddress)]
    (c.switchAnswer (runMask base count) (runValue p base count))

/-- SET_SWITCH (R188). -/
def Chip.doSetSwitch (c : Chip) (p : List Byte) : Answer :=
  let n := byteAt p 1
  c.checked [lengthIs p 2, (decide (n ≤ 31), .refusedAddress)] (c.switchAnswer (oneBit n) (bitValue n true))

/-- CLEAR_SWITCH (R188). -/
def Chip.doClearSwitch (c : Chip) (p : List Byte) : Answer :=
  let n := byteAt p 1
  c.checked [lengthIs p 2, (decide (n ≤ 31), .refusedAddress)] (c.switchAnswer (oneBit n) (bitValue n false))

/-! ### Failsafe capture (R19) -/

/-- The failsafe record with the slots of a mask captured; an EMPTY slot gives an absent entry. -/
def Chip.captured (c : Chip) (mask : Nat) : Vector (Option Raw) 12 :=
  Vector.ofFn fun i => if mask.testBit i then (c.slots[i]).raw else c.tables.failsafe[i]

/-- CAPTURE_FAILSAFE (R19); the mask's bits above the twelfth are not read. -/
def Chip.doCapture (c : Chip) (p : List Byte) : Answer :=
  let mask := wordAt p 2 % 4096
  c.checked [lengthIs p 4, (c.storeIdle, .busy)]
    { chip := { c with tables := { c.tables with failsafe := c.captured mask } }
      status := if mask = 0 then .ignored else .ok
      data := [] }

/-! ### Winch commands (R88, R90, R91, R93, R96) -/

/-- The code of a kind (12, section 12.4). -/
def OpKind.code : OpKind → Nat
  | .runIn => 0
  | .runOut => 1
  | .jogIn => 2
  | .jogOut => 3

/-- The code of an outcome. -/
def OpOutcome.code : OpOutcome → Nat
  | .done => 0
  | .aborted => 1
  | .stalled => 2
  | .limit => 3
  | .locked => 4

/-- The last-operation record in 7 bytes (12, section 12.4). -/
def lastOpBytes : Option LastOp → List Byte
  | none => List.replicate 7 0#8
  | some op =>
    byteOf 1 ++ byteOf op.kind.code ++ wordOf (op.requested.getD 0) ++ wordOf op.counts ++ byteOf op.outcome.code

/-- A winch command answered with the record it leaves and the last-operation record after it (R91). -/
def Chip.winchAnswer (c : Chip) (w : Winch) (st : Status) : Answer :=
  { chip := c.setWinch w, status := st, data := lastOpBytes (c.setWinch w).wnc.lastOp }

/-- A winch command that changes nothing (R90, R96). -/
def Chip.winchIgnored (c : Chip) : Answer := { chip := c, status := .ignored, data := lastOpBytes c.wnc.lastOp }

/-- The line stands at the end that a direction leads to (R94). -/
def Winch.atEndOf (w : Winch) (cfg : WinchCfg) : WinchDir → Bool
  | .inward => w.atInEnd
  | .outward => w.atOutEnd cfg

/-- The state takes a WINCH_RUN, with the winch control as the decode has it (R88). -/
def WinchState.takesRun (st : WinchState) (released : Bool) : Bool :=
  match st with
  | .idle | .runIn | .runOut => true
  | .jogIn | .jogOut => released
  | .free | .stalled | .locked => false

/-- What a taken run ends: a jog DONE, a run ABORTED (R88). -/
def Winch.cutShort (w : Winch) : Winch :=
  match w.state with
  | .jogIn | .jogOut => w.finish .done
  | .runIn | .runOut => w.finish .aborted
  | .idle | .free | .stalled | .locked => w

/-- The direction a code names: 1 IN, 2 OUT. -/
def windDirection : Nat → Option WinchDir
  | 1 => some .inward
  | 2 => some .outward
  | _ => none

/-- WINCH_RUN in a direction (R88, R89). The jog threshold that judges the winch control released is the one that stands at the
command (assumption log, entry 42), and the decode is that of the latest whole update (assumption log, entry 43). -/
def Chip.runWinch (c : Chip) (dir : WinchDir) (count duty : Nat) : Answer :=
  let cfg := c.tables.winchCfg
  c.checked
    [(c.wnc.state.takesRun (winchReleased cfg c.cdc.winch), .refusedState), (!c.wnc.atEndOf cfg dir, .refusedState)]
    (c.winchAnswer (c.wnc.cutShort.startRun cfg dir (max 1 count) (clampNat 100 1000 duty))
      (if count = 0 ∨ clampNat 100 1000 duty ≠ duty then .clamped else .ok))

/-- WINCH_RUN (R88). -/
def Chip.doWinchRun (c : Chip) (p : List Byte) : Answer :=
  c.checked [lengthIs p 6]
    (match windDirection (byteAt p 1) with
    | some dir => c.runWinch dir (wordAt p 2) (wordAt p 4)
    | none => { chip := c, status := .refusedUnknown, data := [] })

/-- The winch record after a WINCH_STOP (R90). -/
def Winch.stop (w : Winch) : Winch :=
  match w.state with
  | .runIn | .runOut => (w.finish .aborted).toIdle
  | .jogIn | .jogOut => { (w.finish .aborted).toIdle with holdOff := true }
  | .free | .stalled => w.toIdle
  | .idle | .locked => w

/-- WINCH_STOP (R90). -/
def Chip.doWinchStop (c : Chip) (p : List Byte) : Answer :=
  c.checked [lengthIs p 2]
    (if c.wnc.state = .idle ∨ c.wnc.state = .locked then c.winchIgnored else c.winchAnswer c.wnc.stop .ok)

/-- WINCH_ZERO (R93). -/
def Chip.doWinchZero (c : Chip) (p : List Byte) : Answer :=
  c.checked [lengthIs p 2, (!c.wnc.state.driven, .refusedState)]
    (c.winchAnswer { c.wnc with position := 0, referenced := true } .ok)

/-- WINCH_FREE is taken with ON in IDLE, STALLED and FREE (R96). -/
def WinchState.takesFree : WinchState → Bool
  | .idle | .stalled | .free => true
  | .jogIn | .jogOut | .runIn | .runOut | .locked => false

/-- WINCH_FREE ON (R96). -/
def Chip.freeOn (c : Chip) : Answer :=
  c.checked [(c.wnc.state.takesFree, .refusedState)]
    (if c.wnc.state = .free then c.winchIgnored else c.winchAnswer { c.wnc with state := .free } .ok)

/-- WINCH_FREE OFF (R96). -/
def Chip.freeOff (c : Chip) : Answer :=
  if c.wnc.state = .free then c.winchAnswer c.wnc.toIdle .ok else c.winchIgnored

/-- WINCH_FREE (R96): 0 OFF, 1 ON. -/
def Chip.doWinchFree (c : Chip) (p : List Byte) : Answer :=
  c.checked [lengthIs p 2]
    (match byteAt p 1 with
    | 0 => c.freeOff
    | 1 => c.freeOn
    | _ => { chip := c, status := .refusedUnknown, data := [] })

/-! ### Acknowledge (R166, R167) -/

/-- An acknowledge answered with the latched set after it. -/
def Chip.ackAnswer (c : Chip) (r : Alt × Status) : Answer :=
  { chip := c.alert fun _ => r.1, status := r.2, data := r.1.latchedBytes }

/-- ACK_ALERT (R166, R167): a code 1..12, or 0xFF for ALL. -/
def Chip.doAckAlert (c : Chip) (p : List Byte) : Answer :=
  c.checked [lengthIs p 2]
    (if byteAt p 1 = 255 then c.ackAnswer c.alt.ackAll
    else
      match Alert.ofCode (byteAt p 1) with
      | some a => c.ackAnswer (c.alt.ack a)
      | none => { chip := c, status := .refusedUnknown, data := [] })

/-! ### The table store and the restart (R186, R190 to R193) -/

/-- The tables are snapshotted and the image is being rewritten (R190). -/
def Chip.startStore (c : Chip) : Chip :=
  { c with
    sup := { c.sup with store := some c.now }
    tbs := { image := { c.tbs.image with blank := false, torn := true }, snapshot := some c.tables } }

/-- STORE (R190). -/
def Chip.doStore (c : Chip) (p : List Byte) : Answer :=
  c.checked [lengthIs p 2, (c.storeIdle, .busy), (decide (c.btm.level ≠ .cutoff), .refusedState)]
    { chip := c.startStore, status := .ok, data := [] }

/-- All fifteen tables replaced at once (R192, R193). -/
def Chip.loadTables (c : Chip) (t : Tables) : Chip := c.setTables t (movedSwitches c.tables t) true

/-- RESTORE (R192). -/
def Chip.doRestore (c : Chip) (p : List Byte) : Answer :=
  c.checked
    [lengthIs p 2, (c.storeIdle, .busy), (c.notArmed, .refusedArmed), (c.tbs.image.checksGood, .refusedState)]
    { chip := c.loadTables c.tbs.image.copy, status := .ok, data := [] }

/-- DEFAULTS (R193). -/
def Chip.doDefaults (c : Chip) (p : List Byte) : Answer :=
  c.checked [lengthIs p 2, (c.storeIdle, .busy), (c.notArmed, .refusedArmed)]
    { chip := c.loadTables factoryTables, status := .ok, data := [] }

/-- SOFT_RESTART (R186). -/
def Chip.doSoftRestart (c : Chip) (p : List Byte) : Answer :=
  c.checked [lengthIs p 2] { chip := { c with sup := { c.sup with restart := true } }, status := .ok, data := [] }

/-- A frame that names no command (R181, R204). -/
def Chip.doUnassigned (c : Chip) : Answer := { chip := c, status := .refusedUnknown, data := [] }

/-! ### Taking a frame (R179, R181) -/

/-- The store group, by qualifier (12, section 12.3). -/
def Chip.doStoreGroup (c : Chip) (p : List Byte) : Answer :=
  match byteAt p 1 with
  | 1 => c.doStore p
  | 2 => c.doRestore p
  | 3 => c.doDefaults p
  | _ => c.doUnassigned

/-- The command of a payload, by code (12, section 12.3). -/
def Chip.carryOut (c : Chip) (p : List Byte) : Answer :=
  match (codeOf p).val with
  | 0 => c.doIdentify p
  | 1 => c.doReadTable p
  | 2 => c.doWriteTable p
  | 3 => c.doReadSwitches p
  | 4 => c.doWriteSwitches p
  | 5 => c.doSetSwitch p
  | 6 => c.doClearSwitch p
  | 7 => c.doCapture p
  | 8 => c.doWinchRun p
  | 9 => c.doWinchStop p
  | 10 => c.doWinchZero p
  | 11 => c.doWinchFree p
  | 12 => c.doAckAlert p
  | 13 => c.doStoreGroup p
  | 14 => c.doSoftRestart p
  | _ => c.doUnassigned

/-- The reply to a payload: byte 0 as received, the status, and the data unless the status carries none (R181; 12, section
12.4; assumption log, entry 14). -/
def Answer.reply (a : Answer) (p : List Byte) : Reply :=
  { head := p.headD 0#8, status := a.status, data := if a.status.carriesData then a.data else [] }

/-- A refusal latches SETUP_FAULT with the command code and the refusal (R165, R181). -/
def Chip.faultIfRefused (c : Chip) (command : Fin 16) (st : Status) : Chip :=
  if st.refused then c.setupFault command (.refused st) else c

/-- The answer to a payload is given: the refusal latched, the reply at the tail of the reply queue (R179, R181). -/
def Answer.give (a : Answer) (p : List Byte) : Chip :=
  let c := a.chip.faultIfRefused (codeOf p) a.status
  { c with rtx := c.rtx.putReply (a.reply p) }

/-- SUP takes the head frame: removed, carried out and answered with no other event between (R179). -/
def Chip.takeSetup (c : Chip) : Chip :=
  match c.sup.queue with
  | [] => c
  | p :: rest => (({ c with sup := { c.sup with queue := rest } } : Chip).carryOut p).give p

/-- SUP can take a frame (R179). -/
def Chip.canTake (c : Chip) : Bool :=
  decide (c.sup.queue ≠ []) && decide (c.rtx.replies.length < 4) && !c.sup.restart

/-- SUP takes frames one after another until a condition fails, at most n of them (R179). -/
def Chip.takeSetups : Nat → Chip → Chip
  | 0, c => c
  | n + 1, c => if c.canTake then Chip.takeSetups n c.takeSetup else c

/-- SUP acts on an event at which it checks its conditions (R179). -/
def Chip.supRun (c : Chip) : Chip := c.takeSetups c.sup.queue.length

/-! ### Routing (R6, R176, R179, R180) -/

/-- A frame routed to the setup queue: it joins the tail, or is discarded with SETUP_FAULT while the queue holds 4. -/
def Chip.joinSetup (c : Chip) (p : List Byte) : Chip :=
  if c.sup.queue.length < 4 then ({ c with sup := { c.sup with queue := c.sup.queue ++ [p] } } : Chip).supRun
  else c.setupFault (codeOf p) .queueFull

/-- An accepted setup frame is routed by its unit address (R6). -/
def Chip.routeSetup (c : Chip) (p : List Byte) : Chip :=
  if unitOf p = c.tables.link.unitAddress.val then c.joinSetup p else { c with atx := c.atx.putForward p }

/-- The event setup frame accepted: a payload of 2..63 bytes (R2, R6). -/
def Chip.acceptSetup (c : Chip) (p : List Byte) : Chip :=
  if 2 ≤ p.length ∧ p.length ≤ 63 then c.routeSetup p else c

/-- A setup command addressed to this unit is accepted from the uplink (assumption log, entry 6). -/
def Chip.setupCommand (c : Chip) (code : Nat) (q : Byte) (ps : List Byte) : Chip :=
  c.whenRunning fun c => c.acceptSetup (setupPayload c.tables.link.unitAddress.val code q ps)

/-! ### Completions (R172, R186, R191) -/

/-- The check value is written: the image holds the snapshot and checks good, and no STORE is in flight (R191). -/
def Chip.completeStore (c : Chip) : Chip :=
  { c with
    sup := { c.sup with store := none }
    tbs :=
      match c.tbs.snapshot with
      | some t => { image := { blank := false, copy := t, check := t.checkValue, torn := false }, snapshot := none }
      | none => c.tbs }

/-- The frame in transmission is the OK reply of the SOFT_RESTART that set restart pending (R186). -/
def Chip.restartDue (c : Chip) : Bool :=
  match c.rtx.sending with
  | some (.reply r) => c.sup.restart && decide (r.head.toNat % 16 = 14) && decide (r.status = .ok)
  | _ => false

/-- The frame on the return line has been sent: a pending restart begins a warm reset (R186); otherwise RTX chooses the next
frame (R172), and SUP takes frames where a reply has left the queue (R179). -/
def Chip.returnSent (c : Chip) : Chip :=
  if c.restartDue then c.resetTo .warm
  else if c.rtx.sending.isSome then ({ c with rtx := c.rtx.complete } : Chip).supRun
  else c

/-! ### Meanings -/

/-- RETURN_TRANSMIT_COMPLETION (R172, R186); nothing where no frame is in transmission (assumption log, entry 5). -/
def execReturnTransmitCompletion (s : State) : Host.Outcome State Fault Refusal :=
  .next (s.onChip fun c => c.whenRunning Chip.returnSent)

/-- STORE_COMPLETION (R191), 40 ms after the take. -/
def execStoreCompletion (s : State) : Host.Outcome State Fault Refusal :=
  .next (s.onChip fun c => c.whenDue (c.sup.store.map (· + 40)) Chip.completeStore)

/-- SETUP_FRAME_ACCEPTED (R6), from the uplink in HUNT: the candidate is released (R1). -/
def execSetupFrameAccepted (payload : List Byte) (s : State) : Host.Outcome State Fault Refusal :=
  .next (s.onChip fun c => c.whenRunning fun c =>
    ({ c with ulr := { c.ulr with hunt := .hunt, bytes := [] } } : Chip).acceptSetup payload)

/-- IDENTIFY, code 0 (R182). -/
def execIdentify (q : Byte) (ps : List Byte) (s : State) : Host.Outcome State Fault Refusal :=
  .next (s.onChip fun c => c.setupCommand 0 q ps)

/-- READ_TABLE, code 1 (R182). -/
def execReadTable (q : Byte) (ps : List Byte) (s : State) : Host.Outcome State Fault Refusal :=
  .next (s.onChip fun c => c.setupCommand 1 q ps)

/-- WRITE_TABLE, code 2 (R183). -/
def execWriteTable (q : Byte) (ps : List Byte) (s : State) : Host.Outcome State Fault Refusal :=
  .next (s.onChip fun c => c.setupCommand 2 q ps)

/-- READ_SWITCHES, code 3 (R188). -/
def execReadSwitches (q : Byte) (ps : List Byte) (s : State) : Host.Outcome State Fault Refusal :=
  .next (s.onChip fun c => c.setupCommand 3 q ps)

/-- WRITE_SWITCHES, code 4 (R188). -/
def execWriteSwitches (q : Byte) (ps : List Byte) (s : State) : Host.Outcome State Fault Refusal :=
  .next (s.onChip fun c => c.setupCommand 4 q ps)

/-- SET_SWITCH, code 5 (R188). -/
def execSetSwitch (q : Byte) (ps : List Byte) (s : State) : Host.Outcome State Fault Refusal :=
  .next (s.onChip fun c => c.setupCommand 5 q ps)

/-- CLEAR_SWITCH, code 6 (R188). -/
def execClearSwitch (q : Byte) (ps : List Byte) (s : State) : Host.Outcome State Fault Refusal :=
  .next (s.onChip fun c => c.setupCommand 6 q ps)

/-- CAPTURE_FAILSAFE, code 7 (R19). -/
def execCaptureFailsafe (q : Byte) (ps : List Byte) (s : State) : Host.Outcome State Fault Refusal :=
  .next (s.onChip fun c => c.setupCommand 7 q ps)

/-- WINCH_RUN, code 8 (R88, R89). -/
def execWinchRun (q : Byte) (ps : List Byte) (s : State) : Host.Outcome State Fault Refusal :=
  .next (s.onChip fun c => c.setupCommand 8 q ps)

/-- WINCH_STOP, code 9 (R90). -/
def execWinchStop (q : Byte) (ps : List Byte) (s : State) : Host.Outcome State Fault Refusal :=
  .next (s.onChip fun c => c.setupCommand 9 q ps)

/-- WINCH_ZERO, code 10 (R93). -/
def execWinchZero (q : Byte) (ps : List Byte) (s : State) : Host.Outcome State Fault Refusal :=
  .next (s.onChip fun c => c.setupCommand 10 q ps)

/-- WINCH_FREE, code 11 (R96). -/
def execWinchFree (q : Byte) (ps : List Byte) (s : State) : Host.Outcome State Fault Refusal :=
  .next (s.onChip fun c => c.setupCommand 11 q ps)

/-- ACK_ALERT, code 12 (R166, R167). -/
def execAckAlert (q : Byte) (ps : List Byte) (s : State) : Host.Outcome State Fault Refusal :=
  .next (s.onChip fun c => c.setupCommand 12 q ps)

/-- STORE, code 13 with qualifier 1 (R190). -/
def execStore (ps : List Byte) (s : State) : Host.Outcome State Fault Refusal :=
  .next (s.onChip fun c => c.setupCommand 13 1#8 ps)

/-- RESTORE, code 13 with qualifier 2 (R192). -/
def execRestore (ps : List Byte) (s : State) : Host.Outcome State Fault Refusal :=
  .next (s.onChip fun c => c.setupCommand 13 2#8 ps)

/-- DEFAULTS, code 13 with qualifier 3 (R193). -/
def execDefaults (ps : List Byte) (s : State) : Host.Outcome State Fault Refusal :=
  .next (s.onChip fun c => c.setupCommand 13 3#8 ps)

/-- SOFT_RESTART, code 14 (R186). -/
def execSoftRestart (q : Byte) (ps : List Byte) (s : State) : Host.Outcome State Fault Refusal :=
  .next (s.onChip fun c => c.setupCommand 14 q ps)

/-- The command code of an UNASSIGNED_COMMAND (R204). -/
def unassignedCode (storeGroup : Bool) : Nat := if storeGroup then 13 else 15

/-- UNASSIGNED_COMMAND (R204). -/
def execUnassignedCommand (storeGroup : Bool) (q : Byte) (ps : List Byte) (s : State) :
    Host.Outcome State Fault Refusal :=
  .next (s.onChip fun c => c.setupCommand (unassignedCode storeGroup) q ps)

end Sys2Proof.Machine
end

