-- ==== Sys2Proof/Machine/Uplink.lean ====
section
/-! DEFINITION. ULR and CHT (01): the hunt states and the re-examination of held bytes, accepted control frames, the link
state, the refreshes, and the channel update event. -/

namespace Sys2Proof.Machine

/-! ### Delineation (R1 to R4) -/

/-- The kind: the upper two bits of the kind/length byte. -/
def frameKind (k : Byte) : Nat := k.toNat / 64

/-- The payload length: the lower six bits of the kind/length byte. -/
def frameLength (k : Byte) : Nat := k.toNat % 64

/-- The kind/length byte passes KIND (R2): CONTROL of length 19, or SETUP of length 2 or more. -/
def kindPasses (k : Byte) : Bool :=
  (decide (frameKind k = 1) && decide (frameLength k = 19)) || (decide (frameKind k = 2) && decide (2 ≤ frameLength k))

/-- What the bytes that follow a sync amount to: a candidate still being assembled, one that fails, or one that passes, with
its kind/length byte and payload (R2). -/
inductive Trial where
  | open
  | bad
  | good (frame : List Byte)
deriving DecidableEq, Repr

/-- The bytes after a sync judged as a candidate (R1, R2). -/
def trial : List Byte → Trial
  | [] => .open
  | k :: rest =>
    if !kindPasses k then .bad
    else
      match rest[frameLength k]? with
      | none => .open
      | some chk => if crc8 (k :: rest.take (frameLength k)) = chk then .good (k :: rest.take (frameLength k)) else .bad

/-- The hunt state of an open candidate with the bytes it holds (R1). -/
def huntOf : List Byte → HuntState
  | [] => .kind
  | k :: rest => if rest.length < frameLength k then .payload else .check

/-- What bytes taken from the line lead to: the hunt state and the bytes held then, and the frames accepted on the way, in
order. -/
structure Intake where
  hunt : HuntState
  bytes : List Byte
  frames : List (List Byte)
deriving DecidableEq, Repr

/-- A frame accepted before the others. -/
def Intake.accept (r : Intake) (frame : List Byte) : Intake := { r with frames := frame :: r.frames }

/-- The bytes are taken from HUNT, after `skip` of them that belong to an accepted frame: each 0x5C is tried as the start of
a candidate, and a failed one is given up at its sync (R3). -/
def examine : Nat → List Byte → Intake
  | _, [] => { hunt := .hunt, bytes := [], frames := [] }
  | n + 1, _ :: rest => examine n rest
  | 0, b :: rest =>
    if b = syncByte then
      match trial rest with
      | .open => { hunt := huntOf rest, bytes := rest, frames := [] }
      | .bad => examine 0 rest
      | .good frame => (examine (frame.length + 1) rest).accept frame
    else examine 0 rest

/-- One byte taken from the line (R1), and whether it made the candidate fail (R2); then the held bytes are taken again
(R3). -/
def Ulr.take (u : Ulr) (b : Byte) : Intake × Bool :=
  let held := u.bytes ++ [b]
  match u.hunt with
  | .hunt => ({ hunt := if b = syncByte then .kind else .hunt, bytes := [], frames := [] }, false)
  | .kind =>
    if kindPasses b then ({ hunt := if frameLength b = 0 then .check else .payload, bytes := held, frames := [] }, false)
    else (examine 0 held, true)
  | .payload =>
    ({ hunt := if held.length = 1 + frameLength (held.headD 0#8) then .check else .payload, bytes := held, frames := [] },
      false)
  | .check =>
    if crc8 u.bytes = b then ({ hunt := .hunt, bytes := [], frames := [u.bytes] }, false) else (examine 0 held, true)

/-! ### Channel updates (R11) -/

/-- One block takes a channel update; RTX takes the trigger of its status frame. -/
def Chip.takeUpdate (status : Chip → Chip) (c : Chip) : Taker → Chip
  | .stm => c.steerUpdate
  | .drm => c.driveUpdate
  | .wnc => c.winchUpdate
  | .mdc => c.parkExitTest
  | .atx => c.buildAccessory
  | .rtx => status c

/-- The decode of the update that now stands (R22). -/
def Chip.decodeNow (c : Chip) : Chip := { c with cdc := c.decode }

/-- A channel update event: CDC forms the decode, and each block takes it for itself, in an order (R11, R22; assumption log,
entry 1). Decode and turns are one command, so the WINCH_RUN of R88 between the decode and WNC's turn is not reached: the
model's choice (assumption log, entry 43). -/
def Chip.channelUpdate (c : Chip) (status : Chip → Chip) (order : List Taker) : Chip :=
  (takers order).foldl (Chip.takeUpdate status) c.decodeNow

/-! ### Control frames (R9, R10, R16) -/

/-- A control frame with RXHOLD clear writes the slots and makes the link LIVE; the refresh schedule and the park timer stop
(R9, R16, R196). -/
def Chip.freshSlots (c : Chip) (payload : List Byte) : Chip :=
  { c with
    slots := Vector.ofFn fun i => .fresh (sampleAt payload i.val)
    ulr := { c.ulr with link := .live, linkTimer := some (c.now + c.tables.link.tHold), refreshDue := none, ordinal := 0 }
    mdc := { c.mdc with parkTimer := none } }

/-- The link becomes LIVE: the cause of LINK_FAILSAFE ends (R16), and a change of link state is announced to LSQ (R109),
both before the blocks take the frame's update (assumption log, entry 33). -/
def Chip.goLive (c : Chip) (payload : List Byte) : Chip :=
  ((c.freshSlots payload).alert fun t => t.cause .linkFailsafe false).relightIf (decide (c.ulr.link ≠ .live))

/-- The event control frame accepted (R5, R9, R10). -/
def Chip.acceptControl (c : Chip) (order : List Taker) (payload : List Byte) : Chip :=
  if rxHold payload then c.countControl else (c.goLive payload).channelUpdate Chip.countControl order

/-- A frame accepted from the line, by kind (R5). -/
def Chip.acceptFrame (order : List Taker) (c : Chip) : List Byte → Chip
  | [] => c
  | k :: payload => if frameKind k = 1 then c.acceptControl order payload else c.acceptSetup payload

/-- The hunt state and bytes an intake leaves, and its frames handed on in order. Where one byte's re-examination accepts two
control frames, the blocks take both updates in the one order that the byte's command carries (assumption log, entry 1). -/
def Chip.handOn (c : Chip) (order : List Taker) (r : Intake) : Chip :=
  r.frames.foldl (Chip.acceptFrame order) { c with ulr := { c.ulr with hunt := r.hunt, bytes := r.bytes } }

/-- The candidate in progress is released or dropped: HUNT, and no bytes held (R1, R4). -/
def Chip.clearHunt (c : Chip) : Chip := { c with ulr := { c.ulr with hunt := .hunt, bytes := [] } }

/-! ### Link supervision (R13 to R15) -/

/-- A FRESH slot becomes HELD (R13). -/
def Slot.hold : Slot → Slot
  | .fresh r => .held r
  | .empty => .empty
  | .held r => .held r
  | .failsafe r => .failsafe r

/-- The link state, timer and refresh schedule at the entry into HOLD; the entry's own refresh makes the ordinal 1 (R13,
R15). -/
def Chip.holdSlots (c : Chip) : Chip :=
  { c with
    slots := Vector.ofFn fun i => (c.slots[i]).hold
    ulr := { c.ulr with link := .hold, linkTimer := some (c.now + c.tables.link.tFs), refreshDue := some (c.now + 20),
                        ordinal := 1 } }

/-- Entry into HOLD (R13); ALT latches LINK_HOLD before the blocks take the entry's refresh (assumption log, entry 33). -/
def Chip.enterHold (c : Chip) (order : List Taker) : Chip :=
  ((c.holdSlots.alert fun t => t.raise .linkHold).relight).channelUpdate Chip.refreshStatus order

/-- A slot under its failsafe entry (R14). -/
def Slot.fallBack (s : Slot) : Option Raw → Slot
  | some r => .failsafe r
  | none => s

/-- The slots, link state, timer and refresh schedule at the entry into FAILSAFE; the ordinal goes on (R14, R15). -/
def Chip.failsafeSlots (c : Chip) : Chip :=
  { c with
    slots := Vector.ofFn fun i => (c.slots[i]).fallBack c.tables.failsafe[i]
    ulr := { c.ulr with link := .failsafe, linkTimer := none, refreshDue := some (c.now + 20), ordinal := c.ulr.ordinal + 1 } }

/-- Entry into FAILSAFE (R14); MDC starts the park timer (R196), and ALT latches LINK_FAILSAFE before the blocks, RTX with
its status frame among them, take the entry's refresh (assumption log, entry 33). -/
def Chip.enterFailsafe (c : Chip) (order : List Taker) : Chip :=
  (((c.failsafeSlots.startPark).alert fun t => t.cause .linkFailsafe true).relight).channelUpdate Chip.refreshStatus order

/-- A refresh: the schedule goes on 20 ms after the instant it names, the ordinal goes up, and the update re-presents the
slots (R15). -/
def Chip.refreshed (c : Chip) (order : List Taker) : Chip :=
  ({ c with ulr := { c.ulr with refreshDue := c.ulr.refreshDue.map (· + 20), ordinal := c.ulr.ordinal + 1 } } : Chip).channelUpdate
    Chip.refreshStatus order

/-! ### Meanings -/

/-- The command that ten levels of the uplink line stand for: UPLINK_BYTE_TAKEN for a character, FAULTED_CHARACTER for one
whose stop bit is low, none for an idle line (R4, R202). -/
def uplinkCommand (order : List Taker) (levels : List Bool) : Option Instr :=
  match Character.read levels with
  | .idle => none
  | .faulted => some .faultedCharacter
  | .byte b => some (.uplinkByteTaken b order)

/-- CONTROL_FRAME_ACCEPTED (R5, R9, R10), from the uplink in HUNT: the candidate is released (R1). -/
def execControlFrameAccepted (payload : Vector Byte 19) (order : List Taker) (s : State) :
    Host.Outcome State Fault Refusal :=
  .next (s.onChip fun c => c.whenRunning fun c => c.clearHunt.acceptControl order payload.toList)

/-- UPLINK_BYTE_TAKEN (R1): the hunt state advances by one byte; a byte that completes or fails a candidate has all the
effects of R2, R3 and R5 (assumption log, entry 8). -/
def execUplinkByteTaken (b : Byte) (order : List Taker) (s : State) : Host.Outcome State Fault Refusal :=
  .next (s.onChip fun c => c.whenRunning fun c => c.handOn order (c.ulr.take b).1)

/-- CANDIDATE_DISCARDED (R2, R3): the byte that fails the candidate; nothing where it would not fail (assumption log, entry
5). -/
def execCandidateDiscarded (b : Byte) (order : List Taker) (s : State) : Host.Outcome State Fault Refusal :=
  .next (s.onChip fun c => c.whenRunning fun c => if (c.ulr.take b).2 then c.handOn order (c.ulr.take b).1 else c)

/-- FAULTED_CHARACTER (R4). -/
def execFaultedCharacter (s : State) : Host.Outcome State Fault Refusal :=
  .next (s.onChip fun c => c.whenRunning Chip.clearHunt)

/-- ENTRY_INTO_HOLD (R13): the link timer expires in LIVE. -/
def execEntryIntoHold (order : List Taker) (s : State) : Host.Outcome State Fault Refusal :=
  .next (s.onChip fun c => if c.ulr.link = .live then c.whenDue c.ulr.linkTimer fun d => d.enterHold order else c)

/-- ENTRY_INTO_FAILSAFE (R14): the link timer expires in HOLD. -/
def execEntryIntoFailsafe (order : List Taker) (s : State) : Host.Outcome State Fault Refusal :=
  .next (s.onChip fun c => if c.ulr.link = .hold then c.whenDue c.ulr.linkTimer fun d => d.enterFailsafe order else c)

/-- REFRESH (R15). -/
def execRefresh (order : List Taker) (s : State) : Host.Outcome State Fault Refusal :=
  .next (s.onChip fun c => c.whenDue c.ulr.refreshDue fun d => d.refreshed order)

end Sys2Proof.Machine
end

