-- ==== Sys2Proof/Machine/Dispatch.lean ====
section
/-! DEFINITION. exec: one arm for each command, each one call of its meaning. -/

namespace Sys2Proof.Machine

/-- The effect of a command on everything but the queue. -/
def exec (i : Instr) (s : State) : Host.Outcome State Fault Refusal :=
  match i with
  | .controlFrameAccepted payload order => Sys2Proof.Machine.execControlFrameAccepted payload order s
  | .setupFrameAccepted payload => Sys2Proof.Machine.execSetupFrameAccepted payload s
  | .candidateDiscarded b order => Sys2Proof.Machine.execCandidateDiscarded b order s
  | .faultedCharacter => Sys2Proof.Machine.execFaultedCharacter s
  | .entryIntoHold order => Sys2Proof.Machine.execEntryIntoHold order s
  | .entryIntoFailsafe order => Sys2Proof.Machine.execEntryIntoFailsafe order s
  | .refresh order => Sys2Proof.Machine.execRefresh order s
  | .armingTimerExpiry => Sys2Proof.Machine.execArmingTimerExpiry s
  | .reverseDelayExpiry axle => Sys2Proof.Machine.execReverseDelayExpiry axle s
  | .pulseStart => Sys2Proof.Machine.execPulseStart s
  | .spoolPulse start lasts => Sys2Proof.Machine.execSpoolPulse start lasts s
  | .lightTimebaseEvent => Sys2Proof.Machine.execLightTimebaseEvent s
  | .brakeHoldExpiry => Sys2Proof.Machine.execBrakeHoldExpiry s
  | .measurementCompletion r order => Sys2Proof.Machine.execMeasurementCompletion r order s
  | .endOfStartUpWindow => Sys2Proof.Machine.execEndOfStartUpWindow s
  | .foldbackTimerExpiry => Sys2Proof.Machine.execFoldbackTimerExpiry s
  | .cutoffTimerExpiry => Sys2Proof.Machine.execCutoffTimerExpiry s
  | .parkTimerExpiry => Sys2Proof.Machine.execParkTimerExpiry s
  | .returnTransmitCompletion => Sys2Proof.Machine.execReturnTransmitCompletion s
  | .accessoryTransmitCompletion => Sys2Proof.Machine.execAccessoryTransmitCompletion s
  | .storeCompletion => Sys2Proof.Machine.execStoreCompletion s
  | .coldReset => Sys2Proof.Machine.execColdReset s
  | .warmReset => Sys2Proof.Machine.execWarmReset s
  | .resetRelease benchLow => Sys2Proof.Machine.execResetRelease benchLow s
  | .identify q ps => Sys2Proof.Machine.execIdentify q ps s
  | .readTable q ps => Sys2Proof.Machine.execReadTable q ps s
  | .writeTable q ps => Sys2Proof.Machine.execWriteTable q ps s
  | .readSwitches q ps => Sys2Proof.Machine.execReadSwitches q ps s
  | .writeSwitches q ps => Sys2Proof.Machine.execWriteSwitches q ps s
  | .setSwitch q ps => Sys2Proof.Machine.execSetSwitch q ps s
  | .clearSwitch q ps => Sys2Proof.Machine.execClearSwitch q ps s
  | .driveInhibit v => Sys2Proof.Machine.execDriveInhibit v s
  | .winchInhibit v => Sys2Proof.Machine.execWinchInhibit v s
  | .parkRequest v => Sys2Proof.Machine.execParkRequest v s
  | .override bits => Sys2Proof.Machine.execOverride bits s
  | .resetCharge => Sys2Proof.Machine.execResetCharge s
  | .boostDisable v => Sys2Proof.Machine.execBoostDisable v s
  | .captureFailsafe q ps => Sys2Proof.Machine.execCaptureFailsafe q ps s
  | .winchRun q ps => Sys2Proof.Machine.execWinchRun q ps s
  | .winchStop q ps => Sys2Proof.Machine.execWinchStop q ps s
  | .winchZero q ps => Sys2Proof.Machine.execWinchZero q ps s
  | .winchFree q ps => Sys2Proof.Machine.execWinchFree q ps s
  | .ackAlert q ps => Sys2Proof.Machine.execAckAlert q ps s
  | .store ps => Sys2Proof.Machine.execStore ps s
  | .restore ps => Sys2Proof.Machine.execRestore ps s
  | .defaults ps => Sys2Proof.Machine.execDefaults ps s
  | .softRestart q ps => Sys2Proof.Machine.execSoftRestart q ps s
  | .unassignedCommand storeGroup q ps => Sys2Proof.Machine.execUnassignedCommand storeGroup q ps s
  | .uplinkByteTaken b order => Sys2Proof.Machine.execUplinkByteTaken b order s
  | .servoPulseEnd axle => Sys2Proof.Machine.execServoPulseEnd axle s

end Sys2Proof.Machine
end

