-- ==== Sys2Proof/Machine/Step.lean ====
section
/-! DEFINITION. The step: the command at the front of the queue, or one millisecond of the clock where none waits. -/

namespace Sys2Proof.Machine

/-- One step: the command at the front is run on the state with the queue's rest; on an empty queue one millisecond goes by
(assumption log, entry 3). -/
def step (s : State) : Host.Outcome State Fault Refusal :=
  match s.pending with
  | i :: rest => exec i { s with pending := rest }
  | [] => .next (s.onChip Chip.tick)

/-- The state with the command that a word spells at the front of its queue; no word spells a command. -/
def State.withFetchWord (s : State) (nbits w : Nat) : State :=
  match decodeTableWord nbits w with
  | some i => { s with pending := i :: s.pending }
  | none => s

end Sys2Proof.Machine
end

