-- ==== Sys2Proof/Safety.lean ====
section
/-! DEFINITION. The invariants of the part, and the conditions and shapes its statements are written with. Each invariant is
one sentence of the spec about every state, said of Chip. -/

namespace Sys2Proof.Machine

/-! ### The link (01, section 1.4) -/

/-- Every slot has one of two tags. -/
def Chip.tagsIn (c : Chip) (p q : Tag) : Prop := ∀ i : Fin 12, (c.slots[i]).tag = p ∨ (c.slots[i]).tag = q

/-- The tags a link state goes with: a row of the link state table (R20). -/
def Chip.tagsMatch (c : Chip) : Prop :=
  match c.ulr.link with
  | .await => c.tagsIn .empty .empty
  | .live => c.tagsIn .fresh .fresh
  | .hold => c.tagsIn .held .held
  | .failsafe => c.tagsIn .failsafe .held

/-- The part is DORMANT and no reset is held: its timers do not run (R7, R198). -/
def Chip.asleep (c : Chip) : Prop := c.held = none ∧ c.mdc.mode = .dormant

/-- The link timer runs in LIVE and HOLD, the refresh schedule in HOLD and FAILSAFE (01, section 1.4). -/
def Chip.linkTimersMatch (c : Chip) : Prop :=
  (c.ulr.linkTimer.isSome ↔ c.ulr.link = .live ∨ c.ulr.link = .hold)
    ∧ (c.ulr.refreshDue.isSome ↔ c.ulr.link = .hold ∨ c.ulr.link = .failsafe)

/-- Tags, link timer and refresh schedule match one row of the link state table (R20). -/
def Chip.LinkOk (c : Chip) : Prop := c.tagsMatch ∧ (¬c.asleep → c.linkTimersMatch)

/-! ### The drive (R63, R67) -/

/-- The link is LIVE or HOLD. -/
def Chip.linkUp (c : Chip) : Prop := c.ulr.link = .live ∨ c.ulr.link = .hold

/-- The states an axle has only while the drive is ARMED: rows 4 and 5 of R67. -/
def AxleState.armedOnly : AxleState → Bool
  | .idle | .forward | .reverse | .reversing | .digLocked => true
  | .off | .failsafeBrake => false

/-- One axle: in a state of rows 4 and 5 only while ARMED, and driving only away from CUTOFF (R67). -/
def Chip.axleOk (c : Chip) (a : Axle) : Prop :=
  ((c.drm.axle a).state.armedOnly = true → c.drm.arming = .armed)
    ∧ ((c.drm.axle a).state.driving = true → c.btm.level ≠ .cutoff)

/-- The drive is ARMED or ARMING only in ACTIVE, outside bench mode, on a LIVE or HOLD link and with no reset held; at CUTOFF
its axle request is 0 (R60, R63, R65). -/
def Chip.armingOk (c : Chip) : Prop :=
  c.drm.arming ≠ .disarmed →
    c.held = none ∧ c.mdc.mode = .active ∧ c.mdc.bench = false ∧ c.linkUp ∧ (c.btm.level = .cutoff → c.drm.axleRequest = 0)

/-- An axle bridge is in FWD or REV only while the drive is ARMED, the mode is ACTIVE, the part is not in bench mode, the link
is LIVE or HOLD, and the level is not CUTOFF (R67). -/
def Chip.DriveOk (c : Chip) : Prop := c.armingOk ∧ c.axleOk .front ∧ c.axleOk .rear

/-! ### The winch (R89, R92, R95, R104) -/

/-- The state of a counted run. -/
def WinchState.running : WinchState → Bool
  | .runIn | .runOut => true
  | .idle | .jogIn | .jogOut | .free | .stalled | .locked => false

/-- P within 0..Pmax, A_b within 0..A_max, a run request present exactly in a RUN state with the run remaining at most its
count (R89, R95, R104). -/
def Winch.Ok (w : Winch) (cfg : WinchCfg) : Prop :=
  w.position ≤ cfg.pmax ∧ w.allowance ≤ cfg.aMax ∧ (w.run.isSome = true ↔ w.state.running = true)
    ∧ ∀ r, w.run = some r → r.remaining ≤ r.count

/-- The winch record against WINCH_CFG as it stands. -/
def Chip.WinchOk (c : Chip) : Prop := c.wnc.Ok c.tables.winchCfg

/-! ### Queues (R171, R172, R176, R178, R179) -/

/-- The queues within their capacities. -/
def Chip.queuesFit (c : Chip) : Prop := c.sup.queue.length ≤ 4 ∧ c.rtx.replies.length ≤ 4 ∧ c.atx.queue.length ≤ 2

/-- An idle line has nothing waiting for it (R172, R178). -/
def Chip.linesBusy (c : Chip) : Prop :=
  (c.rtx.sending = none → c.rtx.replies = [] ∧ c.rtx.slot = none)
    ∧ (c.atx.sending = none → c.atx.queue = [] ∧ c.atx.slot = none)

/-- A setup frame waits only while SUP cannot take it: the reply queue is full, or restart pending is set (R179). -/
def Chip.setupWaits (c : Chip) : Prop :=
  c.sup.queue ≠ [] → c.rtx.replies.length = 4 ∨ c.sup.restart = true

/-- The queues as a running part holds them. -/
def Chip.QueuesOk (c : Chip) : Prop := c.queuesFit ∧ (¬c.asleep → c.linesBusy ∧ c.setupWaits)

/-! ### The store (R190, R191) -/

/-- A STORE is in flight exactly while there is a snapshot; the tables stay equal to it, and the image is being rewritten
(R190). -/
def Chip.StoreOk (c : Chip) : Prop :=
  (c.sup.store.isSome = true ↔ c.tbs.snapshot.isSome = true)
    ∧ ∀ t, c.tbs.snapshot = some t → c.tables = t ∧ c.tbs.image.torn = true ∧ c.tbs.image.blank = false

/-! ### Alerts (R163, R165) -/

/-- A cause flag stands only for a condition alert whose latch is set, and the SETUP_FAULT cause record is present exactly
while its latch is set (R163, R165). -/
def Alt.Ok (t : Alt) : Prop :=
  (∀ a, t.caused a = true → a.isCondition = true ∧ t.has a = true) ∧ (t.fault.isSome = true ↔ t.has .setupFault = true)

/-! ### Grants (R155) -/

/-- The four grants together never exceed the budget in force (R155). -/
def Bga.Ok (b : Bga) : Prop := b.steer + b.drive + b.winch + b.lights ≤ b.budget

/-! ### The switch space (R187) -/

/-- SUP holds no bit but the read/write ones: 0..11, 13 and 14 (R187). -/
def Sup.SwitchesOk (u : Sup) : Prop := u.switches &&& ~~~writableBits = 0#32

/-! ### Table records (the range tables of 02 to 10) -/

/-- CHANNEL_CAL within its ranges (R24). -/
def ChannelCal.Ok (r : ChannelCal) : Prop :=
  (1024 ≤ r.centre ∧ r.centre ≤ 3072) ∧ (256 ≤ r.halfSpan ∧ r.halfSpan ≤ 2047) ∧ r.deadband ≤ 200

/-- SWITCH_DEF within its ranges and in order (R29). -/
def SwitchDef.Ok (index : Nat) (r : SwitchDef) : Prop :=
  (-1000 ≤ r.t1 ∧ r.t1 ≤ 1000) ∧ (-1000 ≤ r.t2 ∧ r.t2 ≤ 1000) ∧ r.hyst ≤ 100
    ∧ (r.map0 ≤ mapLimit index ∧ r.map1 ≤ mapLimit index ∧ r.map2 ≤ mapLimit index) ∧ r.ordered = true

/-- CURVE within its range (R35). -/
def Curve.Ok (r : Curve) : Prop := ∀ i : Fin 9, -1000 ≤ r[i] ∧ r[i] ≤ 1000

/-- PROFILE within its ranges (R34). -/
def Profile.Ok (r : Profile) : Prop :=
  r.rearRatio ≤ 1000 ∧ (100 ≤ r.speedLimit ∧ r.speedLimit ≤ 1000) ∧ r.reverseDelay ≤ 500 ∧ r.dragBrake ≤ 1000
    ∧ r.slew ≤ 255

/-- SERVO_END within its range and in order (R47). -/
def ServoEnd.Ok (r : ServoEnd) : Prop := 800 ≤ r.left ∧ r.left ≤ r.centre ∧ r.centre ≤ r.right ∧ r.right ≤ 2200

/-- DRIVE_CFG within its ranges (04, section 4.7; R112, R115). -/
def DriveCfg.Ok (r : DriveCfg) : Prop :=
  (1 ≤ r.ifsFront ∧ r.ifsFront ≤ 30) ∧ (1 ≤ r.ifsRear ∧ r.ifsRear ≤ 30) ∧ (100 ≤ r.armingTime ∧ r.armingTime ≤ 2000)
    ∧ r.failsafeBrake ≤ 1000 ∧ r.winchCap ≤ 1000 ∧ r.brakeHold ≤ 2000 ∧ r.turnThreshold ≤ 1000

/-- WINCH_CFG within its ranges (05, section 5.11). -/
def WinchCfg.Ok (r : WinchCfg) : Prop :=
  (1 ≤ r.ifs ∧ r.ifs ≤ 30) ∧ (100 ≤ r.pmax ∧ r.pmax ≤ 65535) ∧ (50 ≤ r.jogThreshold ∧ r.jogThreshold ≤ 500)
    ∧ (100 ≤ r.jogMax ∧ r.jogMax ≤ 1000) ∧ (5 ≤ r.stallWindow ∧ r.stallWindow ≤ 255) ∧ r.stallFloor ≤ 1000
    ∧ (1 ≤ r.creepLimit ∧ r.creepLimit ≤ 255) ∧ r.aMax ≤ 255

/-- LIGHT_SCENE within its range (R121). -/
def Scene.Ok (r : Scene) : Prop := 1 ≤ r.priority ∧ r.priority ≤ 7

/-- PATTERN 0..3 within its ranges (R123). -/
def Pattern.Ok (r : Pattern) : Prop := (10 ≤ r.period ∧ r.period ≤ 200) ∧ (1 ≤ r.onTime ∧ r.onTime ≤ r.period)

/-- PROTECT within its ranges and in order (R147). -/
def Protect.Ok (r : Protect) : Prop :=
  (r.cellCount = 0 ∨ (2 ≤ r.cellCount ∧ r.cellCount ≤ 4)) ∧ r.rint ≤ 100 ∧ 2500 ≤ r.vCut ∧ r.vCut < r.vCrit
    ∧ r.vCrit < r.vLow ∧ r.vLow ≤ 4200 ∧ r.hysteresis ≤ 500 ∧ r.capacity ≤ 65535 ∧ (1 ≤ r.percent ∧ r.percent ≤ 100)
    ∧ r.lowCap ≤ 1000 ∧ r.critCap ≤ 1000 ∧ (1000 ≤ r.iTrip ∧ r.iTrip ≤ 60000)
    ∧ (100 ≤ r.foldbackTime ∧ r.foldbackTime ≤ 10000) ∧ r.iFold ≤ 60000 ∧ r.bNormal ≤ 60000 ∧ r.bLow ≤ 60000
    ∧ r.bCrit ≤ 60000

/-- BUDGET within its ranges (R160). -/
def Budget.Ok (r : Budget) : Prop :=
  r.reservation ≤ 10000 ∧ (1 ≤ r.driveWeight ∧ r.driveWeight ≤ 6) ∧ (1 ≤ r.winchWeight ∧ r.winchWeight ≤ 6)
    ∧ (1 ≤ r.lightWeight ∧ r.lightWeight ≤ 6)

/-- LINK within its ranges (10, section 10.3). -/
def LinkCfg.Ok (r : LinkCfg) : Prop :=
  (20 ≤ r.tHold ∧ r.tHold ≤ 1000) ∧ (100 ≤ r.tFs ∧ r.tFs ≤ 5000) ∧ (1 ≤ r.statusN ∧ r.statusN ≤ 50)
    ∧ (5 ≤ r.parkDelay ∧ r.parkDelay ≤ 600) ∧ (1 ≤ r.maskLevel ∧ r.maskLevel ≤ 6) ∧ r.window ≤ 300

/-- Every record of the fifteen tables within its ranges and in order (R183). -/
structure Tables.Ok (t : Tables) : Prop where
  channelCal : ∀ i : Fin 12, (t.channelCal[i]).Ok
  switchDef : ∀ i : Fin 5, (t.switchDef[i]).Ok i.val
  curve : ∀ i : Fin 4, Curve.Ok t.curve[i]
  profile : ∀ i : Fin 3, (t.profile[i]).Ok
  servoFront : t.servoFront.Ok
  servoRear : t.servoRear.Ok
  driveCfg : t.driveCfg.Ok
  winchCfg : t.winchCfg.Ok
  lightOut : ∀ i : Fin 8, t.lightOut[i] ≤ 2000
  scene : ∀ i : Fin 10, (t.scene[i]).Ok
  pattern : ∀ i : Fin 4, (t.pattern[i]).Ok
  protect : t.protect.Ok
  budget : t.budget.Ok
  link : t.link.Ok

/-- The tables in use, the image's copy and a snapshot being stored are all within their ranges (R183, R192). -/
def Chip.TablesOk (c : Chip) : Prop :=
  c.tables.Ok ∧ c.tbs.image.copy.Ok ∧ ∀ t, c.tbs.snapshot = some t → t.Ok

/-! ### The winch source (R116) -/

/-- The winch states that light the winch lamp (R116). -/
def WinchState.lights (st : WinchState) : Prop := st = .jogIn ∨ st = .jogOut ∨ st = .runIn ∨ st = .runOut ∨ st = .free

/-- LSQ holds the source WINCH active exactly in the winch states that light it (R116). -/
def Chip.WinchLit (c : Chip) : Prop := c.lsq.active[Source.winch.index] = true ↔ c.wnc.state.lights

/-! ### The light levels before the first grant event (R129) -/

/-- While a reset is held no grant event has come, and until one has come the held light grant is 0 and every output level is 0
(R129). -/
def Chip.LightsOk (c : Chip) : Prop :=
  (c.held ≠ none → c.lsq.granted = false)
    ∧ (c.lsq.granted = false → c.lsq.grant = 0 ∧ c.lsq.level = Vector.replicate 8 0)

/-! ### The uplink candidate (R1) -/

/-- The bytes held are those of a candidate in the hunt state: none before the kind/length byte, one that passes KIND and
fewer payload bytes than its length in PAYLOAD, all of them in CHECK (R1, R2). -/
def Ulr.HuntOk (u : Ulr) : Prop :=
  match u.hunt with
  | .hunt | .kind => u.bytes = []
  | .payload => ∃ k rest, u.bytes = k :: rest ∧ kindPasses k = true ∧ rest.length < frameLength k
  | .check => ∃ k rest, u.bytes = k :: rest ∧ kindPasses k = true ∧ rest.length = frameLength k

/-- A kind/length byte that passes KIND (R2): CONTROL of length 19, or SETUP of length 2 or more. -/
def passesKind (b : Byte) : Prop :=
  (b.toNat / 64 = 1 ∧ b.toNat % 64 = 19) ∨ (b.toNat / 64 = 2 ∧ 2 ≤ b.toNat % 64)

/-- The control payload of twelve samples and a flags byte: two channels packed to three bytes (01, section 1.3). -/
def controlPayload (xs : Vector Raw 12) (flags : Byte) : Vector Byte 19 :=
  Vector.ofFn fun i =>
    let even := xs.toList.getD (2 * (i.val / 3)) 0#12
    let odd := xs.toList.getD (2 * (i.val / 3) + 1) 0#12
    if i.val = 18 then flags
    else if i.val % 3 = 0 then even.extractLsb' 0 8
    else if i.val % 3 = 1 then odd.extractLsb' 0 4 ++ even.extractLsb' 8 4
    else odd.extractLsb' 4 8

/-- Bytes taken so far, and one more taken from the line: the hunt state and bytes it leaves, and the frames accepted
(R1). -/
def Intake.feed (r : Intake) (b : Byte) : Intake :=
  let u : Ulr := { hunt := r.hunt, bytes := r.bytes, link := .await, linkTimer := none, refreshDue := none, ordinal := 0 }
  { (u.take b).1 with frames := r.frames ++ (u.take b).1.frames }

/-- HUNT, before any byte. -/
def Intake.start : Intake := { hunt := .hunt, bytes := [], frames := [] }

/-! ### Conditions and shapes of the statements -/

/-- The part runs: no reset held, not DORMANT (R195, R199). -/
def Chip.Running (c : Chip) : Prop := c.held = none ∧ c.mdc.mode ≠ .dormant

/-- SUP takes the next setup frame at once: the part runs, nothing waits, the reply queue has room and no restart is pending
(R179). -/
def Chip.Ready (c : Chip) : Prop :=
  c.Running ∧ c.sup.queue = [] ∧ c.rtx.replies.length < 4 ∧ c.sup.restart = false

/-- Byte 0 of a setup frame for this unit: its address and a command code (12, section 12.3). -/
def Chip.head (c : Chip) (code : Nat) : Byte := BitVec.ofNat 8 (16 * c.tables.link.unitAddress.val + code)

/-- RTX with the reply to a setup frame for this unit placed (R171, R179, R181). -/
def Chip.withReply (c : Chip) (code : Nat) (st : Status) (data : List Byte) : Rtx :=
  c.rtx.putReply { head := c.head code, status := st, data := data }

/-- The part after a setup command that changes nothing else than the reply queue. -/
def Chip.answered (c : Chip) (code : Nat) (st : Status) (data : List Byte) : Chip :=
  { c with rtx := c.withReply code st data }

/-- The part after a refusal: SETUP_FAULT latched with its cause, the light picture formed where that changed the top alert,
the reply without data, and nothing else changed (R165, R169, R181). -/
def Chip.refusedAs (c : Chip) (code : Fin 16) (st : Status) : Chip :=
  { c with
    alt := c.alt.setupFault code (.refused st)
    lsq := (c.setupFault code (.refused st)).lsq
    rtx := c.withReply code.val st [] }

/-- The first of the checks that fails decides the refusal; `go` is the part where all hold (R181). -/
def Chip.underChecks (c : Chip) (code : Fin 16) (checks : List (Bool × Status)) (go : Chip) : Chip :=
  match firstFailure checks with
  | none => go
  | some .busy => c.answered code.val .busy []
  | some st => c.refusedAs code st

/-- What both kinds of reset leave alike (R12, R22, R56, R81, R108, R129, R148, R162, R170, R175, R178, R187, R191, R195),
with the tables `t` as they stand after it. -/
def Chip.ResetLeaves (before after : Chip) (t : Tables) : Prop :=
  after.tables = t
    ∧ after.ulr = { hunt := .hunt, bytes := [], link := .await, linkTimer := none, refreshDue := none, ordinal := 0 }
    ∧ after.slots = Vector.replicate 12 .empty
    ∧ (after.cdc.steer = 0 ∧ after.cdc.throttle = 0 ∧ after.cdc.winch = 0
      ∧ after.cdc.switches = Vector.replicate 5 { pos := 0, ordered := false }
      ∧ after.cdc.steerSel = SteerMode.ofEntry (t.switchDef[0]).map0
      ∧ after.cdc.driveSel = DriveMode.ofEntry (t.switchDef[1]).map0
      ∧ after.cdc.profile = profileOfEntry (t.switchDef[2]).map0
      ∧ after.cdc.mainLight = MainLight.ofEntry (t.switchDef[3]).map0
      ∧ after.cdc.beacon = beaconOfEntry (t.switchDef[4]).map0)
    ∧ (after.stm.command = 0 ∧ after.stm.active = SteerMode.ofEntry (t.switchDef[0]).map0 ∧ after.stm.pending = none
      ∧ after.stm.first = true ∧ after.stm.front = none ∧ after.stm.rear = none ∧ after.stm.pulsing = false
      ∧ after.stm.schedule = none)
    ∧ (after.drm.command = 0 ∧ after.drm.mode = DriveMode.ofEntry (t.switchDef[1]).map0 ∧ after.drm.arming = .disarmed
      ∧ after.drm.armTimer = none ∧ after.drm.request = 0 ∧ after.drm.axleRequest = 0
      ∧ (∀ a, after.drm.axle a = { state := .failsafeBrake, timer := none, left := none, effective := 0,
                                   output := t.driveCfg.failsafeBrake })
      ∧ after.drm.demand = 0 ∧ after.drm.grant = 0)
    ∧ (after.wnc.state = .locked ∧ after.wnc.run = none ∧ after.wnc.opCount = 0 ∧ after.wnc.holdOff = true
      ∧ after.wnc.requested = 0 ∧ after.wnc.effective = 0 ∧ after.wnc.stallTimer = t.winchCfg.stallWindow
      ∧ after.wnc.creep = 0 ∧ after.wnc.creepReported = false ∧ after.wnc.demand = 0 ∧ after.wnc.grant = 0
      ∧ after.wnc.boost = false ∧ after.wnc.boostAtStart = false ∧ after.wnc.recharge = 0 ∧ after.wnc.lastOp = none)
    ∧ (after.lsq.brakeHold = none ∧ after.lsq.timebase = 0#32 ∧ after.lsq.grant = 0
      ∧ after.lsq.level = Vector.replicate 8 0 ∧ after.lsq.granted = false)
    ∧ (after.btm.cells = none ∧ after.btm.vf = [] ∧ after.btm.readings = none ∧ after.btm.vc = 0
      ∧ after.btm.capForce = false ∧ after.btm.level = .normal ∧ after.btm.startLow = none ∧ after.btm.startCrit = none
      ∧ after.btm.startCut = none ∧ after.btm.recovery = none ∧ after.btm.overcurrent = none
      ∧ after.btm.foldback = none ∧ after.btm.budget = none)
    ∧ after.bga = { budget := 0, steer := 0, drive := 0, winch := 0, lights := 0 }
    ∧ (after.alt.causes = 0#12 ∧ after.alt.fault = none)
    ∧ after.sup = { queue := [], restart := false, switches := 0#32, store := none }
    ∧ after.rtx = { replies := [], slot := none, sending := none, count := 0, free := before.rtx.free }
    ∧ after.atx = { queue := [], slot := none, sending := none }
    ∧ after.tbs = { image := before.tbs.image, snapshot := none }
    ∧ (after.mdc.parkTimer = none ∧ after.mdc.cutoffTimer = none)

/-- What a new WINCH_CFG makes of the winch: P within Pmax, A_b within A_max, boost ended where that leaves A_b at 0, and an
outward operation whose P it brings down to a referenced out end ended LIMIT in IDLE; the state, the run and the record of the
last operation stand otherwise (R95, R104). -/
def Chip.WinchReconfigured (before after : Chip) (cfg : WinchCfg) : Prop :=
  let w := before.wnc
  let ends := cfg.pmax < w.position ∧ w.referenced = true ∧ (w.state = .jogOut ∨ w.state = .runOut)
  after.wnc.position = min w.position cfg.pmax ∧ after.wnc.allowance = min w.allowance cfg.aMax
    ∧ after.wnc.referenced = w.referenced
    ∧ (ends → after.wnc.state = .idle ∧ after.wnc.run = none ∧ after.wnc.requested = 0
        ∧ after.wnc.lastOp = some { kind := if w.state = .jogOut then .jogOut else .runOut,
                                    requested := w.run.map Run.count, counts := w.countsDone, outcome := .limit })
    ∧ (¬ends → after.wnc.state = w.state ∧ after.wnc.run = w.run ∧ after.wnc.requested = w.requested
        ∧ after.wnc.lastOp = w.lastOp)
    ∧ (after.wnc.boost = true → after.wnc.allowance ≠ 0)

/-- What a block that builds a frame in the course of a channel update sees: the link, the slots, the decode, the tables, the
battery monitor's values and the grants as the update leaves them (R11, R174, R177). -/
def Chip.DuringUpdate (g after : Chip) : Prop :=
  g.ulr = after.ulr ∧ g.slots = after.slots ∧ g.cdc = after.cdc ∧ g.tables = after.tables ∧ g.bga = after.bga
    ∧ g.btm = { after.btm with nextMeas := g.btm.nextMeas }

/-- ATX has built one accessory frame in the course of an update, of the items as they stood at its turn; where ATX took the
update last, they are the items as they stand after it (R177). -/
def Chip.AccessoryBuilt (before after : Chip) (order : List Taker) : Prop :=
  ∃ g : Chip, g.DuringUpdate after ∧ after.atx = before.atx.putAccessory g.accessoryPayload
    ∧ ∀ rest, takers order = rest ++ [.atx] → g.accessoryPayload = after.accessoryPayload

/-- RTX, whose record was `x` once it had counted, has built one status frame in the course of an update, of the items as they
stood at its turn; where RTX took the update last, they are the items as they stand after it (R174). -/
def Chip.StatusBuilt (before after : Chip) (x : Rtx) (order : List Taker) : Prop :=
  ∃ g : Chip, g.DuringUpdate after ∧ g.rtx = before.rtx ∧ after.rtx = x.putStatus g.statusPayload
    ∧ ∀ rest, takers order = rest ++ [.rtx] →
      g.statusPayload = Chip.statusPayload { after with rtx := before.rtx }

/-- A parameter byte pair of a setup command, least significant byte first. -/
def wordBytes (w : BitVec 16) : List Byte := [w.extractLsb' 0 8, w.extractLsb' 8 8]

/-- The clock at which a timer's event is taken: the instant it names, or now where that is later (assumption log, entry
4). -/
def Chip.dueAt (c : Chip) (due : Nat) : Nat := max c.now due

end Sys2Proof.Machine
end

