-- ==== Sys2Proof/Certificates/Slice0/Obligations.lean ====
section
/-! DEFINITION. The statements for the provers. Where a statement says of a next state t only that some record of t is its
own, the clauses after it say what that record holds. -/

open Sys2Proof Sys2Proof.Machine

/-! ## The block and its queue -/

/-- Step takes the command at the front of the queue and runs exec on the state with the queue's rest. That a step on an empty
queue lets one millisecond go by and changes nothing else is the model's choice (log entry 3). -/
def Obligations.StepRunsFrontCommand : Prop :=
  ∀ (i : Instr) (rest : List Instr) (c : Chip),
    step { pending := i :: rest, chip := c } = exec i { pending := rest, chip := c }
    ∧ step { pending := [], chip := c } = .next { pending := [], chip := { c with now := c.now + 1 } }

/-- Every command in every state answers a next state and leaves the queue alone. That a command which is no event in the
present state answers one too is the model's choice (log entry 5). -/
def Obligations.EveryCommandAnswersNext : Prop :=
  ∀ (i : Instr) (s : State), ∃ t, exec i s = .next t ∧ t.pending = s.pending

/-- While a reset is held, and in DORMANT, nothing but a reset input, the release and the end of a running servo
pulse is taken (R7, R52, R195, R199). It rests on the model's choices of log entry 5. -/
def Obligations.StoppedPartTakesNoEvent : Prop :=
  ∀ (i : Instr) (s : State), ¬s.chip.Running → i ≠ .coldReset → i ≠ .warmReset → (∀ b, i ≠ .resetRelease b) →
    (∀ a, i ≠ .servoPulseEnd a) → exec i s = .next s

/-! ## Resets -/

/-- A cold reset loads the stored tables where the image checks good and the factory values otherwise, latches
STORE_FAULT after a bad image, and leaves every block at its reset values; the servo outputs fall low at once (R194,
R199). It rests on the model's choices of log entries 22 and 27; RTX's count of free values, the model's own, is kept (log
entry 32). -/
def Obligations.ColdResetClearsAndLoads : Prop :=
  ∀ s : State, ∃ t, exec .coldReset s = .next t ∧ t.pending = s.pending
    ∧ t.chip.held = some .cold ∧ t.chip.now = s.chip.now
    ∧ s.chip.ResetLeaves t.chip (if s.chip.tbs.image.checksGood then s.chip.tbs.image.copy else factoryTables)
    ∧ t.chip.stm.pulseFront = none ∧ t.chip.stm.pulseRear = none
    ∧ t.chip.wnc.position = 0 ∧ t.chip.wnc.referenced = false ∧ t.chip.wnc.allowance = t.chip.tables.winchCfg.aMax
    ∧ t.chip.btm.charge = 0 ∧ t.chip.btm.acc = 0
    ∧ t.chip.alt.latched
        = if s.chip.tbs.image.blank = false ∧ s.chip.tbs.image.checksGood = false then 0x800#12 else 0#12

/-- A warm reset keeps tables, image, charge, line position and boost allowance, lets a running servo pulse run on,
and leaves every block otherwise at its reset values; a cold reset that is held stays cold (R199). It rests on the
model's choices of log entry 27; RTX's count of free values, the model's own, is kept (log entry 32). -/
def Obligations.WarmResetKeepsTablesAndCounts : Prop :=
  ∀ s : State,
    (s.chip.held = some .cold → exec .warmReset s = .next s)
    ∧ (s.chip.held ≠ some .cold → ∃ t, exec .warmReset s = .next t ∧ t.pending = s.pending
      ∧ t.chip.held = some .warm ∧ t.chip.now = s.chip.now
      ∧ s.chip.ResetLeaves t.chip s.chip.tables
      ∧ t.chip.stm.pulseFront = s.chip.stm.pulseFront ∧ t.chip.stm.pulseRear = s.chip.stm.pulseRear
      ∧ t.chip.wnc.position = s.chip.wnc.position ∧ t.chip.wnc.referenced = s.chip.wnc.referenced
      ∧ t.chip.wnc.allowance = s.chip.wnc.allowance
      ∧ t.chip.btm.charge = s.chip.btm.charge ∧ t.chip.btm.acc = s.chip.btm.acc
      ∧ t.chip.alt.latched = 0#12)

/-- The release samples BENCH, sets ACTIVE and starts the park timer, the start-up window, the light timebase and the
measurement schedule; in bench mode the axles are OFF; the light picture is formed, and with no grant event since the reset
every output level is 0, whatever the raw levels and the demand (R80, R129, R200, R201). It rests on the model's choices of
log entries 11 and 27, that R129 goes before R126's formula where the demand is 0 is the model's reading (log entry 37), and
that a release with no reset held changes nothing is the model's choice (log entry 5). -/
def Obligations.ResetReleaseStartsThePart : Prop :=
  ∀ (benchLow : Bool) (s : State),
    (s.chip.held = none → exec (.resetRelease benchLow) s = .next s)
    ∧ (s.chip.held ≠ none →
      exec (.resetRelease benchLow) s = .next { s with
        chip := Chip.relight { s.chip with
          held := none
          drm := if benchLow then
              { s.chip.drm with
                front := { state := .off, timer := none, left := none, effective := 0, output := 0 }
                rear := { state := .off, timer := none, left := none, effective := 0, output := 0 } }
            else s.chip.drm
          lsq := { s.chip.lsq with nextEvent := some (s.chip.now + 10) }
          btm := { s.chip.btm with window := some (s.chip.now + 200), lastMeas := s.chip.now,
                                   nextMeas := some (s.chip.now + 10) }
          mdc := { mode := .active, parkTimer := some (s.chip.now + 1000 * s.chip.tables.link.parkDelay),
                   cutoffTimer := none, bench := benchLow } } })
    ∧ (s.chip.held ≠ none → s.chip.lsq.granted = false → ∃ t, exec (.resetRelease benchLow) s = .next t
      ∧ t.chip.lsq.granted = false ∧ ∀ o : Fin 8, t.chip.lsq.level[o] = 0 ∧ t.chip.lightPin o = 0)

/-- The state after reset is that of a part whose cold reset has been released with BENCH high; every invariant holds
there (log entry 12 says which part this is). -/
def Obligations.ResetStateIsAColdRelease : Prop :=
  (∃ t, exec .coldReset State.reset = .next t ∧ exec (.resetRelease false) t = .next State.reset)
    ∧ State.reset.pending = []
    ∧ State.reset.chip.LinkOk ∧ State.reset.chip.ulr.HuntOk ∧ State.reset.chip.DriveOk ∧ State.reset.chip.WinchOk
    ∧ State.reset.chip.QueuesOk ∧ State.reset.chip.StoreOk ∧ State.reset.chip.alt.Ok ∧ State.reset.chip.bga.Ok
    ∧ State.reset.chip.sup.SwitchesOk ∧ State.reset.chip.TablesOk ∧ State.reset.chip.WinchLit ∧ State.reset.chip.LightsOk

/-! ## Invariants that every step keeps -/

/-- Tags, link timer and refresh schedule always match one row of the link state table (R20; 01, section 1.4). -/
def Obligations.LinkTableHolds : Prop :=
  ∀ s t : State, s.chip.LinkOk → step s = .next t → t.chip.LinkOk

/-- The bytes ULR holds are always those of a candidate in its hunt state (R1). -/
def Obligations.CandidateBytesMatchHuntState : Prop :=
  ∀ s t : State, s.chip.ulr.HuntOk → step s = .next t → t.chip.ulr.HuntOk

/-- An axle drives only while the drive is ARMED, the mode ACTIVE, the part not in bench mode, the link LIVE or HOLD and the
level not CUTOFF (R67). -/
def Obligations.AxlesDriveOnlyWhenAllowed : Prop :=
  ∀ s t : State, s.chip.LinkOk → s.chip.DriveOk → step s = .next t → t.chip.DriveOk

/-- P stays within 0..Pmax and A_b within 0..A_max, and a run request is present exactly in a RUN state, with at most its
count remaining (R89, R95, R104). -/
def Obligations.WinchRecordStaysInRange : Prop :=
  ∀ s t : State, s.chip.WinchOk → step s = .next t → t.chip.WinchOk

/-- The queues stay within their capacities; an idle line has nothing waiting, and a setup frame waits only while SUP
cannot take it (R171, R172, R176, R178, R179). -/
def Obligations.QueuesStayWithinCapacity : Prop :=
  ∀ s t : State, s.chip.QueuesOk → step s = .next t → t.chip.QueuesOk

/-- While a STORE is in flight the tables stay equal to its snapshot and the image checks bad (R190). It rests on the
model's choices of log entry 22. -/
def Obligations.TablesEqualSnapshotDuringStore : Prop :=
  ∀ s t : State, s.chip.StoreOk → step s = .next t → t.chip.StoreOk

/-- A cause flag stands only for a condition alert whose latch is set, and the SETUP_FAULT cause record is present exactly
while its latch is set (R163, R165); the four grants together never exceed the budget in force (R155); SUP holds no bit of
the switch space that is not read/write (R187); and until the first grant event after a reset the held light grant and every
light output level stay 0 (R129). Only a measurement completion, whose grant event it is, and a reset change the held light
grant or whether a grant event has come (R126, R129, R149). That R129 goes before R126's formula where the demand is 0 is the
model's reading (log entry 37). -/
def Obligations.LatchesGrantsAndSwitchesStayLegal : Prop :=
  ∀ s t : State, step s = .next t →
    (s.chip.alt.Ok → t.chip.alt.Ok) ∧ (s.chip.bga.Ok → t.chip.bga.Ok)
      ∧ (s.chip.sup.SwitchesOk → t.chip.sup.SwitchesOk)
      ∧ (s.chip.LightsOk → t.chip.LightsOk)
      ∧ ((∀ r order rest, s.pending ≠ .measurementCompletion r order :: rest) →
          t.chip.lsq.grant = s.chip.lsq.grant ∧ t.chip.lsq.granted = s.chip.lsq.granted
          ∨ t.chip.held ≠ none ∧ t.chip.lsq.grant = 0 ∧ t.chip.lsq.granted = false)

/-- Every record of the tables in use, of the image and of a snapshot stays within its ranges and in order (R183, R192). -/
def Obligations.TablesStayInRange : Prop :=
  ∀ s t : State, s.chip.TablesOk → step s = .next t → t.chip.TablesOk

/-! ## Delineation (R1 to R5) -/

/-- A byte taken in HUNT, in KIND where it passes, and in PAYLOAD advances the hunt state and changes nothing else
(R1). It rests on the model's choices of log entry 8. -/
def Obligations.AssemblyTakesBytes : Prop :=
  ∀ (b : Byte) (order : List Taker) (s : State), s.chip.Running →
    (s.chip.ulr.hunt = .hunt →
      exec (.uplinkByteTaken b order) s = .next { s with chip := { s.chip with
        ulr := { s.chip.ulr with hunt := if b = 0x5C#8 then .kind else .hunt, bytes := [] } } })
    ∧ (s.chip.ulr.hunt = .kind → s.chip.ulr.bytes = [] → passesKind b →
      exec (.uplinkByteTaken b order) s = .next { s with chip := { s.chip with
        ulr := { s.chip.ulr with hunt := .payload, bytes := [b] } } })
    ∧ (∀ k rest, s.chip.ulr.hunt = .payload → s.chip.ulr.bytes = k :: rest →
      exec (.uplinkByteTaken b order) s = .next { s with chip := { s.chip with
        ulr := { s.chip.ulr with
          hunt := if rest.length + 1 = k.toNat % 64 then .check else .payload
          bytes := k :: rest ++ [b] } } })

/-- The check byte that agrees with the CRC makes the candidate the event control frame accepted or setup frame
accepted (R2, R5). It rests on the model's choices of log entry 8. -/
def Obligations.CompletedCandidateIsAccepted : Prop :=
  ∀ (order : List Taker) (s : State), s.chip.Running → s.chip.ulr.hunt = .check →
    (∀ payload : Vector Byte 19, s.chip.ulr.bytes = 0x53#8 :: payload.toList →
      exec (.uplinkByteTaken (crc8 s.chip.ulr.bytes) order) s = exec (.controlFrameAccepted payload order) s)
    ∧ (∀ k payload, s.chip.ulr.bytes = k :: payload → k.toNat / 64 = 2 →
      exec (.uplinkByteTaken (crc8 s.chip.ulr.bytes) order) s = exec (.setupFrameAccepted payload) s)

/-- A byte that fails the candidate, in KIND or in CHECK, has every byte held since the sync taken again, in order,
from HUNT; the frames accepted on the way are handed on (R2, R3). That the blocks take the updates of all these frames in the
one order of the operand is the model's choice (log entry 1). It rests on the model's choices of log entry 8. -/
def Obligations.DiscardTakesHeldBytesAgain : Prop :=
  ∀ (b : Byte) (order : List Taker) (s : State), s.chip.Running →
    (s.chip.ulr.hunt = .kind ∧ s.chip.ulr.bytes = [] ∧ ¬passesKind b
      ∨ s.chip.ulr.hunt = .check ∧ crc8 s.chip.ulr.bytes ≠ b) →
    let r := (s.chip.ulr.bytes ++ [b]).foldl Intake.feed Intake.start
    let hunting : Chip := { s.chip with ulr := { s.chip.ulr with hunt := r.hunt, bytes := r.bytes } }
    exec (.candidateDiscarded b order) s = .next { s with chip := r.frames.foldl (Chip.acceptFrame order) hunting }
      ∧ exec (.uplinkByteTaken b order) s = exec (.candidateDiscarded b order) s

/-- A frame put on the uplink line from HUNT, a control frame of 19 payload bytes or a setup frame of 2..63, is found whole
and alone, whatever bytes its payload holds (R1, R2; 12, section 12.1); packing twelve samples and a flags byte into a control
payload and reading them back gives every sample and RXHOLD (01, section 1.3). A character is a low start bit, the eight
data bits, least significant first, and a high stop bit; the uplink takes it as its byte, and as faulted where the stop bit
is low; a line is high where it carries no frame (R202). A status frame carries its 38 bytes and an accessory frame its 21
in the order and the codes of 12, section 12.5; the reason byte beside an absent cause is a free value (log entry 32). The
check byte is the CRC of R2; a reply is of kind 10, a status frame and an accessory frame of kind 11, a pass-through frame of
kind 10 (R203); a reply carries its byte 0, the status code and the data, and a winch reply the seven bytes of the
last-operation record (12, section 12.4); the alerts have the codes, levels and types of 09, section 9.1. -/
def Obligations.FramesAndSamplesRoundTrip : Prop :=
  (∀ (kind : Nat) (payload : List Byte),
    (kind = 1 ∧ payload.length = 19) ∨ (kind = 2 ∧ 2 ≤ payload.length ∧ payload.length ≤ 63) →
    (wireFrame kind payload).foldl Intake.feed Intake.start
      = { hunt := .hunt, bytes := [], frames := [BitVec.ofNat 8 (64 * kind + payload.length) :: payload] })
  ∧ (∀ (xs : Vector Raw 12) (flags : Byte),
    (∀ ch : Fin 12, sampleAt (controlPayload xs flags).toList ch.val = xs[ch])
    ∧ rxHold (controlPayload xs flags).toList = flags.getLsbD 0)
  ∧ (∀ (b : Byte) (order : List Taker),
    (characterBits b).length = 10 ∧ (characterBits b)[0]? = some false ∧ (characterBits b)[9]? = some true
      ∧ (∀ i, i < 8 → (characterBits b)[i + 1]? = some (b.getLsbD i))
      ∧ uplinkCommand order (characterBits b) = some (.uplinkByteTaken b order))
  ∧ (∀ (levels : List Bool) (order : List Taker), levels.length = 10 →
    (levels[0]? = some true → uplinkCommand order levels = none)
      ∧ (levels[0]? = some false → levels[9]? = some false → uplinkCommand order levels = some .faultedCharacter))
  ∧ (∀ (bs : List Byte) (n : Nat),
    lineLevel none n = true ∧ (10 * bs.length ≤ n → lineLevel (some bs) n = true)
      ∧ (∀ b, bs[n / 10]? = some b → (characterBits b)[n % 10]? = some (lineLevel (some bs) n)))
  ∧ ((∀ c : Chip,
      let lo (n : Nat) : Byte := BitVec.ofNat 8 n
      let hi (n : Nat) : Byte := BitVec.ofNat 8 (n / 256)
      let fault : List Byte :=
        match c.alt.fault with
        | none => [0xFF#8, Config.freeReason c.rtx.free]
        | some f => [lo f.command.val, lo f.reason.code]
      let pending : Nat :=
        match c.stm.pending with
        | none => 15
        | some m => m.code
      let current : Nat :=
        match c.btm.readings with
        | none => 0
        | some r => r.current
      let top : Nat :=
        match c.topAlert with
        | none => 0
        | some a => a.code
      let width (w : Option Nat) : Nat := if c.stm.pulsing = true then w.getD 0 else 0
      let l := lowestCell c.btm.vf
      c.statusPayload = [lo c.ulr.link.code, lo c.mdc.mode.code, lo c.btm.level.severity, lo c.btm.vc, hi c.btm.vc, lo l, hi l,
          lo current, hi current, lo c.btm.charge, hi c.btm.charge, lo (c.stm.active.code + 16 * pending),
          lo c.drm.arming.code, lo c.drm.front.state.code, lo c.drm.rear.state.code, lo c.drm.front.effective,
          hi c.drm.front.effective, lo c.drm.rear.effective, hi c.drm.rear.effective, lo c.wnc.state.code,
          lo c.wnc.position, hi c.wnc.position, if c.wnc.referenced = true then 1#8 else 0#8, lo c.bga.budget,
          hi c.bga.budget, lo c.bga.steer, hi c.bga.steer, lo c.bga.drive, hi c.bga.drive, lo c.bga.winch, hi c.bga.winch,
          lo c.bga.lights, hi c.bga.lights, lo top, lo c.alt.latched.toNat, hi c.alt.latched.toNat] ++ fault
        ∧ c.statusPayload.length = 38
        ∧ c.accessoryPayload = [lo (width c.stm.front), hi (width c.stm.front), lo (width c.stm.rear), hi (width c.stm.rear),
          lo c.drm.front.state.bridge.code, lo c.drm.front.output, hi c.drm.front.output, lo c.drm.rear.state.bridge.code,
          lo c.drm.rear.output, hi c.drm.rear.output, lo c.wnc.state.code, lo c.lsq.level[0], lo c.lsq.level[1],
          lo c.lsq.level[2], lo c.lsq.level[3], lo c.lsq.level[4], lo c.lsq.level[5], lo c.lsq.level[6], lo c.lsq.level[7],
          lo c.btm.level.severity, lo c.ulr.link.code]
        ∧ c.accessoryPayload.length = 21)
    ∧ [LinkState.await, .live, .hold, .failsafe].map LinkState.code = [0, 1, 2, 3]
    ∧ [Mode.active, .parked].map Mode.code = [0, 1]
    ∧ [Level.normal, .low, .critical, .cutoff].map Level.severity = [0, 1, 2, 3]
    ∧ [SteerMode.front, .rear, .counter, .crab].map SteerMode.code = [0, 1, 2, 3]
    ∧ [Arming.disarmed, .arming, .armed].map Arming.code = [0, 1, 2]
    ∧ [AxleState.off, .idle, .forward, .reverse, .reversing, .digLocked, .failsafeBrake].map AxleState.code
        = [0, 1, 2, 3, 4, 5, 6]
    ∧ [AxleState.off, .idle, .forward, .reverse, .reversing, .digLocked, .failsafeBrake].map AxleState.bridge
        = [.coast, .brake, .fwd, .rev, .brake, .brake, .brake]
    ∧ [Bridge.coast, .brake, .fwd, .rev].map Bridge.code = [0, 1, 2, 3]
    ∧ [WinchState.idle, .jogIn, .jogOut, .runIn, .runOut, .free, .stalled, .locked].map WinchState.code
        = [0, 1, 2, 3, 4, 5, 6, 7])
  ∧ (crc8 [] = 0#8 ∧ ∀ (bs : List Byte) (b : Byte),
    crc8 (bs ++ [b])
      = (List.range 8).foldl (fun x _ => if x.getLsbD 7 then (x <<< 1) ^^^ 0xA7#8 else x <<< 1) (crc8 bs ^^^ b))
  ∧ (∀ (kind : Nat) (payload : List Byte),
    let body : List Byte := BitVec.ofNat 8 (64 * kind + payload.length) :: payload
    wireFrame kind payload = 0x5C#8 :: body ++ [crc8 body])
  ∧ (∀ (r : Reply) (payload : List Byte),
    (ReturnFrame.reply r).wire = wireFrame 2 (r.head :: BitVec.ofNat 8 r.status.code :: r.data)
      ∧ (ReturnFrame.status payload).wire = wireFrame 3 payload
      ∧ (AccessoryFrame.forward payload).wire = wireFrame 2 payload
      ∧ (AccessoryFrame.accessory payload).wire = wireFrame 3 payload)
  ∧ (∀ c : Chip, c.returnLine = c.rtx.sending.map ReturnFrame.wire
    ∧ c.accessoryLine = c.atx.sending.map AccessoryFrame.wire)
  ∧ (∀ op : LastOp,
    let word (n : Nat) : List Byte := [BitVec.ofNat 8 n, BitVec.ofNat 8 (n / 256)]
    lastOpBytes none = [0#8, 0#8, 0#8, 0#8, 0#8, 0#8, 0#8]
      ∧ lastOpBytes (some op) = 1#8 :: BitVec.ofNat 8 op.kind.code :: word (op.requested.getD 0) ++ word op.counts
          ++ [BitVec.ofNat 8 op.outcome.code])
  ∧ [OpKind.runIn, .runOut, .jogIn, .jogOut].map OpKind.code = [0, 1, 2, 3]
  ∧ [OpOutcome.done, .aborted, .stalled, .limit, .locked].map OpOutcome.code = [0, 1, 2, 3, 4]
  ∧ [Status.ok, .clamped, .ignored, .retained, .busy, .refusedUnknown, .refusedAddress, .refusedLength, .refusedOrder,
      .refusedArmed, .refusedState].map Status.code = [0, 1, 2, 3, 4, 5, 6, 7, 8, 9, 10]
  ∧ ((∀ st, (FaultReason.refused st).code = st.code) ∧ FaultReason.queueFull.code = 11)
  ∧ (let alerts : List Alert :=
      [.linkFailsafe, .battCutoff, .battCritical, .overcurrent, .battLow, .winchStall, .linkHold, .winchCreep, .capacity,
        .lineEnd, .setupFault, .storeFault]
    alerts.map Alert.code = [1, 2, 3, 4, 5, 6, 7, 8, 9, 10, 11, 12]
      ∧ alerts.map Alert.level = [1, 1, 2, 2, 3, 3, 4, 4, 5, 5, 6, 6]
      ∧ alerts.map Alert.isCondition
          = [true, true, true, false, true, true, false, false, true, false, false, false])
  ∧ (∀ (r : Intake) (b : Byte),
    (r.hunt = .hunt → r.feed b = { r with hunt := if b = 0x5C#8 then .kind else .hunt, bytes := [] })
      ∧ (r.hunt = .kind → r.bytes = [] → passesKind b → r.feed b = { r with hunt := .payload, bytes := [b] })
      ∧ (∀ k rest, r.hunt = .payload → r.bytes = k :: rest →
        r.feed b = { r with
          hunt := if rest.length + 1 = k.toNat % 64 then .check else .payload
          bytes := k :: rest ++ [b] })
      ∧ (r.hunt = .check → r.bytes ≠ [] → crc8 r.bytes = b →
        r.feed b = { hunt := .hunt, bytes := [], frames := r.frames ++ [r.bytes] })
      ∧ (r.hunt = .kind ∧ r.bytes = [] ∧ ¬passesKind b ∨ r.hunt = .check ∧ r.bytes ≠ [] ∧ crc8 r.bytes ≠ b →
        let again := (r.bytes ++ [b]).foldl Intake.feed Intake.start
        r.feed b = { again with frames := r.frames ++ again.frames }))
  ∧ (∀ (order : List Taker) (s : State), s.chip.Running → s.chip.ulr.hunt = .hunt → s.chip.ulr.bytes = [] →
    (∀ payload : Vector Byte 19, exec (.controlFrameAccepted payload order) s
        = .next { s with chip := s.chip.acceptFrame order (0x53#8 :: payload.toList) })
      ∧ (∀ (k : Byte) (payload : List Byte), k.toNat / 64 = 2 →
        exec (.setupFrameAccepted payload) s = .next { s with chip := s.chip.acceptFrame order (k :: payload) }))

/-- A faulted character is dropped in HUNT; in KIND, PAYLOAD and CHECK it discards the candidate with every byte held,
without re-examination, and hunting starts in HUNT with the first byte after it; nothing else changes (R4). -/
def Obligations.FaultedCharacterDropsCandidate : Prop :=
  ∀ s : State, s.chip.Running → s.chip.ulr.HuntOk →
    (s.chip.ulr.hunt = .hunt → exec .faultedCharacter s = .next s)
    ∧ (s.chip.ulr.hunt ≠ .hunt →
      exec .faultedCharacter s = .next { s with chip := { s.chip with
        ulr := { s.chip.ulr with hunt := .hunt, bytes := [] } } })

/-! ## Control frames and link supervision (R8 to R16) -/

/-- A control frame with RXHOLD set only counts toward the status interval: no slot, tag, link state or timer changes and no
update is issued (R10). The status frame that may fall due carries the items as they stand; a byte of it that the spec does
not state is a free value, whatever it is. It rests on the model's choices of log entries 8 and 32. -/
def Obligations.HoldFrameOnlyCounts : Prop :=
  ∀ (payload : Vector Byte 19) (order : List Taker) (s : State), s.chip.Running → rxHold payload.toList = true →
    exec (.controlFrameAccepted payload order) s = .next { s with chip := { s.chip with
      ulr := { s.chip.ulr with hunt := .hunt, bytes := [] }
      rtx := if s.chip.tables.link.statusN ≤ s.chip.rtx.count + 1
        then { s.chip.rtx with count := 0 }.putStatus s.chip.statusPayload
        else { s.chip.rtx with count := s.chip.rtx.count + 1 } } }

/-- A control frame with RXHOLD clear writes all twelve slots FRESH, makes the link LIVE with its timer restarted, stops
refreshes and the park timer, ends the cause of LINK_FAILSAFE, forms the light picture where the link state changes, and
issues one channel update on the new slots and link, which builds one accessory frame and, where it is due, one status frame.
In PARKED the update returns the part to ACTIVE where the THROTTLE u of its decode is 0 and PARK_REQUEST is clear (R9, R11,
R16, R109, R173, R177, R197). It rests on the model's choices of log entries 1, 21, 23, 26, 32 and 33. -/
def Obligations.FreshFrameMakesTheLinkLive : Prop :=
  ∀ (payload : Vector Byte 19) (order : List Taker) (s : State), s.chip.Running → rxHold payload.toList = false →
    let slots : Vector Slot 12 := Vector.ofFn fun i => .fresh (sampleAt payload.toList i.val)
    ∃ (t : State) (e : Chip), exec (.controlFrameAccepted payload order) s = .next t ∧ t.pending = s.pending
      ∧ e = { s.chip with
          slots := slots
          ulr := { hunt := .hunt, bytes := [], link := .live, linkTimer := some (s.chip.now + s.chip.tables.link.tHold),
                   refreshDue := none, ordinal := 0 }
          alt := e.alt, lsq := e.lsq
          mdc := { s.chip.mdc with parkTimer := none } }
      ∧ e.alt = s.chip.alt.cause .linkFailsafe false
      ∧ (s.chip.ulr.link = .live → e.lsq = s.chip.lsq) ∧ (s.chip.ulr.link ≠ .live → e.lsq = e.picture)
      ∧ e.lsq.brakeHold = s.chip.lsq.brakeHold ∧ e.lsq.timebase = s.chip.lsq.timebase
      ∧ e.lsq.nextEvent = s.chip.lsq.nextEvent ∧ e.lsq.grant = s.chip.lsq.grant
      ∧ e.lsq.granted = s.chip.lsq.granted
      ∧ t.chip = e.channelUpdate Chip.countControl order
      ∧ t.chip = { s.chip with
          slots := slots
          ulr := { hunt := .hunt, bytes := [], link := .live, linkTimer := some (s.chip.now + s.chip.tables.link.tHold),
                   refreshDue := none, ordinal := 0 }
          cdc := ({ s.chip with slots := slots } : Chip).decode
          stm := t.chip.stm, drm := t.chip.drm, wnc := t.chip.wnc, lsq := t.chip.lsq
          btm := { s.chip.btm with nextMeas := t.chip.btm.nextMeas }
          alt := t.chip.alt, rtx := t.chip.rtx, atx := t.chip.atx
          mdc := { s.chip.mdc with mode := t.chip.mdc.mode, parkTimer := none } }
      ∧ t.chip.alt.caused .linkFailsafe = false
      ∧ (∀ a, a ≠ .winchStall → t.chip.alt.has a = s.chip.alt.has a)
      ∧ (s.chip.mdc.mode = .active → t.chip.mdc.mode = .active ∧ t.chip.btm = s.chip.btm)
      ∧ (s.chip.mdc.mode = .parked →
          (t.chip.cdc.throttle = 0 ∧ s.chip.parkRequest = false → t.chip.mdc.mode = .active
            ∧ t.chip.btm.nextMeas = (if s.chip.btm.readings = none then s.chip.btm.nextMeas
              else if s.chip.now < s.chip.btm.lastMeas + 10 then some (s.chip.btm.lastMeas + 10)
              else some (s.chip.now + 10)))
          ∧ (¬(t.chip.cdc.throttle = 0 ∧ s.chip.parkRequest = false) →
            t.chip.mdc.mode = .parked ∧ t.chip.btm = s.chip.btm))
      ∧ s.chip.AccessoryBuilt t.chip order
      ∧ (s.chip.rtx.count + 1 < s.chip.tables.link.statusN →
          t.chip.rtx = { s.chip.rtx with count := s.chip.rtx.count + 1 })
      ∧ (s.chip.tables.link.statusN ≤ s.chip.rtx.count + 1 →
          s.chip.StatusBuilt t.chip { s.chip.rtx with count := 0 } order)

/-- The link timer's expiry in LIVE enters HOLD: FRESH slots become HELD, the timer restarts with T_fs, LINK_HOLD is raised,
the light picture is formed, and a refresh is issued at once with ordinal 1 on the new slots and link (R11, R13, R15, R109,
R177). It rests on the model's choices of log entries 1, 4, 23 and 33. -/
def Obligations.LinkTimerExpiryEntersHold : Prop :=
  ∀ (order : List Taker) (s : State) (due : Nat), s.chip.Running → s.chip.ulr.link = .live →
    s.chip.ulr.linkTimer = some due →
    let now := s.chip.dueAt due
    let slots : Vector Slot 12 := Vector.ofFn fun i =>
      match s.chip.slots[i] with
      | .fresh r => .held r
      | other => other
    ∃ (t : State) (e : Chip), exec (.entryIntoHold order) s = .next t ∧ t.pending = s.pending
      ∧ e = { s.chip with
          now := now
          slots := slots
          ulr := { s.chip.ulr with link := .hold, linkTimer := some (now + s.chip.tables.link.tFs),
                                   refreshDue := some (now + 20), ordinal := 1 }
          alt := e.alt, lsq := e.lsq }
      ∧ e.alt = s.chip.alt.raise .linkHold
      ∧ e.lsq = e.picture
      ∧ e.lsq.brakeHold = s.chip.lsq.brakeHold ∧ e.lsq.timebase = s.chip.lsq.timebase
      ∧ e.lsq.nextEvent = s.chip.lsq.nextEvent ∧ e.lsq.grant = s.chip.lsq.grant
      ∧ e.lsq.granted = s.chip.lsq.granted
      ∧ t.chip = e.channelUpdate Chip.refreshStatus order
      ∧ t.chip = { s.chip with
          now := now
          slots := slots
          ulr := { s.chip.ulr with link := .hold, linkTimer := some (now + s.chip.tables.link.tFs),
                                   refreshDue := some (now + 20), ordinal := 1 }
          cdc := ({ s.chip with slots := slots } : Chip).decode
          stm := t.chip.stm, drm := t.chip.drm, wnc := t.chip.wnc, lsq := t.chip.lsq, alt := t.chip.alt
          atx := t.chip.atx }
      ∧ (∀ a, a ≠ .winchStall → t.chip.alt.has a = (s.chip.alt.has a || decide (a = .linkHold)))
      ∧ s.chip.AccessoryBuilt t.chip order

/-- The link timer's expiry in HOLD enters FAILSAFE: present failsafe entries reach their slots, the timer stops,
LINK_FAILSAFE is latched, the park timer starts, the light picture is formed, and the refresh schedule restarts with a
refresh on the new slots and link and the ordinal going on (R11, R14, R15, R109, R173, R177, R196). It rests on the model's
choices of log entries 1, 4, 23, 32 and 33. -/
def Obligations.LinkTimerExpiryEntersFailsafe : Prop :=
  ∀ (order : List Taker) (s : State) (due : Nat), s.chip.Running → s.chip.ulr.link = .hold →
    s.chip.ulr.linkTimer = some due →
    let now := s.chip.dueAt due
    let slots : Vector Slot 12 := Vector.ofFn fun i =>
      match s.chip.tables.failsafe[i] with
      | some r => .failsafe r
      | none => s.chip.slots[i]
    ∃ (t : State) (e : Chip), exec (.entryIntoFailsafe order) s = .next t ∧ t.pending = s.pending
      ∧ e = { s.chip with
          now := now
          slots := slots
          ulr := { s.chip.ulr with link := .failsafe, linkTimer := none, refreshDue := some (now + 20),
                                   ordinal := s.chip.ulr.ordinal + 1 }
          alt := e.alt, lsq := e.lsq
          mdc := { s.chip.mdc with parkTimer := some (now + 1000 * s.chip.tables.link.parkDelay) } }
      ∧ e.alt = s.chip.alt.cause .linkFailsafe true
      ∧ e.lsq = e.picture
      ∧ e.lsq.brakeHold = s.chip.lsq.brakeHold ∧ e.lsq.timebase = s.chip.lsq.timebase
      ∧ e.lsq.nextEvent = s.chip.lsq.nextEvent ∧ e.lsq.grant = s.chip.lsq.grant
      ∧ e.lsq.granted = s.chip.lsq.granted
      ∧ t.chip = e.channelUpdate Chip.refreshStatus order
      ∧ t.chip = { s.chip with
          now := now
          slots := slots
          ulr := { s.chip.ulr with link := .failsafe, linkTimer := none, refreshDue := some (now + 20),
                                   ordinal := s.chip.ulr.ordinal + 1 }
          cdc := ({ s.chip with slots := slots } : Chip).decode
          stm := t.chip.stm, drm := t.chip.drm, wnc := t.chip.wnc, lsq := t.chip.lsq, alt := t.chip.alt
          rtx := t.chip.rtx, atx := t.chip.atx
          mdc := { s.chip.mdc with parkTimer := some (now + 1000 * s.chip.tables.link.parkDelay) } }
      ∧ (∀ a, a ≠ .winchStall → t.chip.alt.has a = (s.chip.alt.has a || decide (a = .linkFailsafe)))
      ∧ t.chip.alt.caused .linkFailsafe = true
      ∧ s.chip.AccessoryBuilt t.chip order
      ∧ ((s.chip.ulr.ordinal + 1) % 5 ≠ 0 → t.chip.rtx = s.chip.rtx)
      ∧ ((s.chip.ulr.ordinal + 1) % 5 = 0 → s.chip.StatusBuilt t.chip s.chip.rtx order)

/-- A refresh in HOLD or FAILSAFE re-presents the slots: the next one is due 20 ms on, the ordinal goes up, a status
frame is built at every fifth ordinal, and no slot, timer, latch or mode changes (R11, R15, R173, R177). It rests on the
model's choices of log entries 1, 4, 23 and 32. -/
def Obligations.RefreshRepresentsTheSlots : Prop :=
  ∀ (order : List Taker) (s : State) (due : Nat), s.chip.Running → s.chip.ulr.link ≠ .live →
    s.chip.ulr.refreshDue = some due →
    ∃ t, exec (.refresh order) s = .next t ∧ t.pending = s.pending
      ∧ t.chip = Chip.channelUpdate { s.chip with
          now := s.chip.dueAt due
          ulr := { s.chip.ulr with refreshDue := some (due + 20), ordinal := s.chip.ulr.ordinal + 1 } }
        Chip.refreshStatus order
      ∧ t.chip = { s.chip with
          now := s.chip.dueAt due
          ulr := { s.chip.ulr with refreshDue := some (due + 20), ordinal := s.chip.ulr.ordinal + 1 }
          cdc := s.chip.decode
          stm := t.chip.stm, drm := t.chip.drm, wnc := t.chip.wnc, lsq := t.chip.lsq, alt := t.chip.alt
          rtx := t.chip.rtx, atx := t.chip.atx }
      ∧ (∀ a, a ≠ .winchStall → t.chip.alt.has a = s.chip.alt.has a)
      ∧ s.chip.AccessoryBuilt t.chip order
      ∧ ((s.chip.ulr.ordinal + 1) % 5 ≠ 0 → t.chip.rtx = s.chip.rtx)
      ∧ ((s.chip.ulr.ordinal + 1) % 5 = 0 → s.chip.StatusBuilt t.chip s.chip.rtx order)

/-! ## What a channel update does -/

/-- The blocks take an update one after another in the order, each once: CDC's decode stands first, DRM handles the axles,
WNC acts in ACTIVE alone, MDC leaves PARKED under the conditions of R197, and each of the others changes its own record
(R11). At an update of either cause in ACTIVE, STM forms the command by the steering curve, decides active and pending modes
by the window, mixes the targets, slews both widths, and sets the output state by the link (R37 to R51), in whatever order
the blocks take it; an output that pulses already keeps its schedule and the pulses that run (R51). In PARKED STM takes no
update; at one that returns the part to ACTIVE it keeps its record where it comes before MDC, and takes the update as one in
ACTIVE where it comes after (R37, R197). An output that becomes PULSING starts both pulses at once (R51). Where a pulse from
before the silence still runs then, the new one replaces it, though R52 lets the old one run to its latched width: that
replacement is the model's choice (log entry 25, DEDUCED), no rule's. That decode and turns are one command, with no other
command between them, is the model's choice too (log entry 43). It rests on the model's choices of log entries 1, 23, 25 and
43. -/
def Obligations.UpdateSteers : Prop :=
  (∀ (st : Chip → Chip) (c : Chip) (order : List Taker), st = Chip.countControl ∨ st = Chip.refreshStatus →
    let turn := c.takeUpdate st
    let active : Chip := { c with mdc := { c.mdc with mode := .active } }
    let tested := (active.handleAxles c.drm).winchLockTest
    let formed := (turn .drm).drm
    let leaves := c.mdc.mode = .parked ∧ c.ulr.link = .live ∧ c.cdc.throttle = 0 ∧ c.parkRequest = false
    c.channelUpdate st order = (takers order).foldl (Chip.takeUpdate st) c.decodeNow
      ∧ turn .stm = { c with stm := (turn .stm).stm }
      ∧ turn .drm = c.handleAxles (if c.mdc.mode = .active then
          { c.drm with
            command := formed.command, mode := formed.mode, arming := formed.arming, armTimer := formed.armTimer
            request := formed.request, axleRequest := formed.axleRequest }
        else c.drm)
      ∧ turn .wnc = (if c.mdc.mode = .active then c.setWinch (turn .wnc).wnc else c)
      ∧ turn .mdc = c.parkExitTest
      ∧ (leaves → turn .mdc = { tested with
          lsq := tested.picture
          btm := { c.btm with nextMeas :=
            if c.btm.readings = none then c.btm.nextMeas
            else if c.now < c.btm.lastMeas + 10 then some (c.btm.lastMeas + 10) else some (c.now + 10) } })
      ∧ (¬leaves → turn .mdc = c)
      ∧ turn .atx = { c with atx := c.atx.putAccessory c.accessoryPayload }
      ∧ turn .rtx = st c ∧ st c = { c with rtx := (st c).rtx })
  ∧ (∀ (st : Chip → Chip) (c : Chip) (order : List Taker), st = Chip.countControl ∨ st = Chip.refreshStatus →
    c.mdc.mode = .active →
    let d := c.decodeNow
    let p := d.profile
    let cmd := (c.tables.curve[p.steeringCurve]).eval d.cdc.steer
    let sel := if c.rearSteerLock then SteerMode.front else d.cdc.steerSel
    let t := (c.channelUpdate st order).stm
    let product := (cmd * (p.rearRatio : Int)).tdiv 1000
    t.command = cmd ∧ t.first = false
      ∧ (c.stm.first = true → t.active = sel ∧ t.pending = none)
      ∧ (c.stm.first = false → sel = c.stm.active → t.active = c.stm.active ∧ t.pending = none)
      ∧ (c.stm.first = false → sel ≠ c.stm.active → cmd.natAbs ≤ c.tables.link.window →
          t.active = sel ∧ t.pending = none)
      ∧ (c.stm.first = false → sel ≠ c.stm.active → c.tables.link.window < cmd.natAbs →
          t.active = c.stm.active ∧ t.pending = some sel)
      ∧ t.front = some (c.tables.servoFront.slewed p.slew c.stm.front
          (c.tables.servoFront.width (if t.active = .rear then 0 else cmd)))
      ∧ t.rear = some (c.tables.servoRear.slewed p.slew c.stm.rear
          (c.tables.servoRear.width
            (if t.active = .front then 0 else if t.active = .crab then product else -product)))
      ∧ (t.pulsing = true ↔ c.ulr.link = .live ∨ c.ulr.link = .hold ∨ c.ulr.link = .failsafe ∧ c.servoQuiet = false)
      ∧ (c.stm.pulsing = false → t.pulsing = true → t.schedule = some (c.now + 20)
          ∧ t.pulseFront = t.front.map (clampNat c.tables.servoFront.left c.tables.servoFront.right)
          ∧ t.pulseRear = t.rear.map (clampNat c.tables.servoRear.left c.tables.servoRear.right))
      ∧ (c.stm.pulsing = true → t.pulsing = true → t.schedule = c.stm.schedule ∧ t.pulseFront = c.stm.pulseFront
          ∧ t.pulseRear = c.stm.pulseRear)
      ∧ (t.pulsing = false → t.schedule = none ∧ t.pulseFront = c.stm.pulseFront ∧ t.pulseRear = c.stm.pulseRear))
  ∧ ∀ (st : Chip → Chip) (c : Chip) (order : List Taker), st = Chip.countControl ∨ st = Chip.refreshStatus →
    c.mdc.mode = .parked →
    let t := (c.channelUpdate st order).stm
    let active : Chip := { c with mdc := { c.mdc with mode := .active } }
    let leaves := c.ulr.link = .live ∧ c.decode.throttle = 0 ∧ c.parkRequest = false
    (¬leaves → t = c.stm)
      ∧ (leaves → ∀ before after, takers order = before ++ .mdc :: after →
        (.stm ∈ before → t = c.stm) ∧ (.stm ∈ after → t = (active.channelUpdate st order).stm))

/-- At an update of either cause in ACTIVE, DRM forms d, drive mode, request and axle request, and moves the arming state
(R58 to R65), in whatever order the blocks take the update; the axle request is capped by the level and the winch state that
stand, and the axles are handled with the record so formed (R67). A cap change forms the axle request anew from the request
held and handles the axles (R66). At an update that leaves the part PARKED, a drive that is not ARMED keeps its record, and
the axles brake where the link is AWAIT or FAILSAFE and coast otherwise (R79). At one that returns the part to ACTIVE the
axles of a DISARMED drive coast; DRM keeps its record where it comes before MDC, but for a cap that a jog beginning after it
brings, and takes the update as one in ACTIVE where it comes after (R197). The cap is the smaller of the protection cap and,
while the winch is driven, the winch cap; it limits the magnitude and keeps the sign (R65). Every block takes an update once,
those that the order names first (log entry 1). That a cap change after the return is acted on before DRM's first update is
the model's choice (log entry 41). It rests on the model's choices of log entries 1, 23 and 41. -/
def Obligations.UpdateFormsTheDriveRequest : Prop :=
  (∀ (c : Chip) (a : Int) (cap : Nat),
    c.decodeNow = { c with cdc := c.decode } ∧ c.profile = c.tables.profile[c.cdc.profile]
      ∧ (c.throttleFresh = true ↔ ∃ ch raw, c.tables.roleMap.throttle = some ch ∧ c.slots[ch] = .fresh raw)
      ∧ (c.tables.protect.cap .normal = 1000 ∧ c.tables.protect.cap .low = c.tables.protect.lowCap
        ∧ c.tables.protect.cap .critical = c.tables.protect.critCap ∧ c.tables.protect.cap .cutoff = 0)
      ∧ c.driveCap = (if c.wnc.state = .jogIn ∨ c.wnc.state = .jogOut ∨ c.wnc.state = .runIn ∨ c.wnc.state = .runOut then
            min (c.tables.protect.cap c.btm.level) c.tables.driveCfg.winchCap
          else c.tables.protect.cap c.btm.level)
      ∧ (capRequest cap a).natAbs = min a.natAbs cap ∧ (0 ≤ a → 0 ≤ capRequest cap a) ∧ (a ≤ 0 → capRequest cap a ≤ 0))
  ∧ (∀ order : List Taker, (takers order).Perm [.stm, .drm, .wnc, .mdc, .atx, .rtx]
    ∧ (order.Nodup → ∃ rest, takers order = order ++ rest))
  ∧ (∀ (st : Chip → Chip) (c : Chip) (order : List Taker), st = Chip.countControl ∨ st = Chip.refreshStatus →
    c.mdc.mode = .active →
    let d := c.decodeNow
    let p := d.profile
    let cmd := (c.tables.curve[p.throttleCurve]).eval d.cdc.throttle
    let e := c.channelUpdate st order
    let t := e.drm
    let cap := min (c.tables.protect.cap c.btm.level) (if e.wnc.state.driven then c.tables.driveCfg.winchCap else 1000)
    t.command = cmd ∧ t.mode = d.cdc.driveSel
      ∧ t.request = (cmd * (p.speedLimit : Int)).tdiv 1000
      ∧ (c.tables.Ok → t.axleRequest.natAbs = min t.request.natAbs cap
          ∧ (0 ≤ t.request → 0 ≤ t.axleRequest) ∧ (t.request ≤ 0 → t.axleRequest ≤ 0))
      ∧ (c.drm.arming = .disarmed →
          (c.ulr.link = .live ∧ c.throttleFresh = true ∧ cmd = 0 ∧ c.driveInhibit = false ∧ c.mdc.bench = false →
            t.arming = .arming ∧ t.armTimer = some (c.now + c.tables.driveCfg.armingTime))
          ∧ (¬(c.ulr.link = .live ∧ c.throttleFresh = true ∧ cmd = 0 ∧ c.driveInhibit = false ∧ c.mdc.bench = false) →
            t.arming = .disarmed))
      ∧ (c.drm.arming = .arming →
          (cmd = 0 ∧ c.throttleFresh = true → t.arming = .arming ∧ t.armTimer = c.drm.armTimer)
          ∧ (¬(cmd = 0 ∧ c.throttleFresh = true) → t.arming = .disarmed ∧ t.armTimer = none))
      ∧ (c.drm.arming = .armed →
          (c.ulr.link = .failsafe → t.arming = .disarmed ∧ t.armTimer = none)
          ∧ (c.ulr.link ≠ .failsafe → t.arming = .armed))
      ∧ (e.wnc.state.driven = c.wnc.state.driven →
          t = (d.handleAxles { c.drm with
            command := t.command, mode := t.mode, arming := t.arming, armTimer := t.armTimer, request := t.request,
            axleRequest := t.axleRequest }).drm))
  ∧ (∀ c : Chip, c.tables.Ok →
    let t := c.recap.drm
    let cap := min (c.tables.protect.cap c.btm.level) (if c.wnc.state.driven then c.tables.driveCfg.winchCap else 1000)
    c.recap = c.handleAxles { c.drm with axleRequest := t.axleRequest }
      ∧ t.axleRequest.natAbs = min c.drm.request.natAbs cap
      ∧ (0 ≤ c.drm.request → 0 ≤ t.axleRequest) ∧ (c.drm.request ≤ 0 → t.axleRequest ≤ 0))
  ∧ (∀ (st : Chip → Chip) (c : Chip) (order : List Taker), st = Chip.countControl ∨ st = Chip.refreshStatus →
    c.mdc.mode = .parked → c.drm.arming ≠ .armed →
    ¬(c.ulr.link = .live ∧ c.decode.throttle = 0 ∧ c.parkRequest = false) →
    let t := (c.channelUpdate st order).drm
    t = { c.drm with demand := 0, front := t.front, rear := t.rear }
      ∧ ∀ a, t.axle a =
        if c.mdc.bench = false ∧ (c.ulr.link = .await ∨ c.ulr.link = .failsafe) then
          { state := .failsafeBrake, timer := none, left := none, effective := 0, output := c.tables.driveCfg.failsafeBrake }
        else { state := .off, timer := none, left := none, effective := 0, output := 0 })
  ∧ (∀ (st : Chip → Chip) (c : Chip) (order : List Taker), st = Chip.countControl ∨ st = Chip.refreshStatus →
    c.mdc.mode = .parked → c.drm.arming = .disarmed → c.wnc.state.driven = false →
    c.ulr.link = .live ∧ c.decode.throttle = 0 ∧ c.parkRequest = false →
    let d := c.decodeNow
    let cmd := (c.tables.curve[d.profile.throttleCurve]).eval d.cdc.throttle
    let request := (cmd * (d.profile.speedLimit : Int)).tdiv 1000
    let arms := c.throttleFresh = true ∧ cmd = 0 ∧ c.driveInhibit = false ∧ c.mdc.bench = false
    let off : AxleRec := { state := .off, timer := none, left := none, effective := 0, output := 0 }
    let e := c.channelUpdate st order
    ∀ before after, takers order = before ++ .mdc :: after →
      (.drm ∈ before → e.drm = { c.drm with
          axleRequest := if e.wnc.state.driven = true then capRequest e.driveCap c.drm.request else c.drm.axleRequest
          demand := 0, front := off, rear := off })
      ∧ (.drm ∈ after → e.drm = { c.drm with
          command := cmd, mode := d.cdc.driveSel, request := request, axleRequest := capRequest e.driveCap request
          arming := if arms then .arming else .disarmed
          armTimer := if arms then some (c.now + c.tables.driveCfg.armingTime) else c.drm.armTimer
          demand := 0, front := off, rear := off }))

/-- At an update of either cause in ACTIVE, WNC locks where a cause holds, which ends an operation LOCKED and sets the
hold-off, and otherwise leaves LOCKED for IDLE and moves by the winch control once it has been released: a jog begins, also
at the update that unlocks the winch, goes on with its requested duty formed anew, is swung or ends, a run is aborted, FREE
stands; the released control clears the hold-off. Demand and effective duty follow the requested duty, boost ends where the
winch does not pull in, and line position, grant and boost allowance stand (R82 to R87, R91, R94, R97, R100, R101, R104), in
whatever order the blocks take the update. The lock causes are those of R84. In PARKED WNC takes no update; at one that
returns the part to ACTIVE MDC's turn tests the lock causes (R85), and WNC takes the update as one in ACTIVE where it comes
after MDC (R82, R197). It rests on the model's choices of log entries 1 and 34. -/
def Obligations.UpdateWorksTheWinch : Prop :=
  (∀ (w : Winch) (cause : Bool),
    let ended (kind : OpKind) : Option LastOp :=
      some { kind := kind, requested := w.run.map Run.count, counts := w.countsDone, outcome := .locked }
    let record : Option LastOp :=
      match w.state with
      | .jogIn => ended .jogIn
      | .jogOut => ended .jogOut
      | .runIn => ended .runIn
      | .runOut => ended .runOut
      | .idle | .free | .stalled | .locked => w.lastOp
    w.lockTest cause = if cause = true then
      (if w.state = .locked then w
        else { w with state := .locked, run := none, requested := 0, holdOff := true, lastOp := record })
      else if w.state = .locked then
        { w with state := .idle, run := none, requested := 0, creep := 0, creepReported := false }
      else w)
  ∧ (∀ c : Chip, (c.winchLockCause = true ↔ c.btm.level = .critical ∨ c.btm.level = .cutoff ∨ c.ulr.link = .failsafe
      ∨ c.ulr.link = .await ∨ c.winchInhibit = true ∨ c.mdc.bench = true ∨ c.mdc.mode = .parked)
    ∧ c.winchLockTest = c.setWinch (c.wnc.lockTest c.winchLockCause))
  ∧ (∀ (st : Chip → Chip) (c : Chip) (order : List Taker), st = Chip.countControl ∨ st = Chip.refreshStatus →
    c.mdc.mode = .active →
    let cfg := c.tables.winchCfg
    let u := c.decode.winch
    let w := c.wnc
    let t := (c.channelUpdate st order).wnc
    let duty := (u.natAbs - cfg.jogThreshold) * cfg.jogMax / (1000 - cfg.jogThreshold)
    let ended (outcome : OpOutcome) (kind : OpKind) : Option LastOp :=
      some { kind := kind, requested := w.run.map Run.count, counts := w.countsDone, outcome := outcome }
    let record (jog run : OpOutcome) : Option LastOp :=
      match w.state with
      | .jogIn => ended jog .jogIn
      | .jogOut => ended jog .jogOut
      | .runIn => ended run .runIn
      | .runOut => ended run .runOut
      | .idle | .free | .stalled | .locked => w.lastOp
    let inward := (cfg.jogThreshold : Int) < u
    let outward := u < -(cfg.jogThreshold : Int)
    let moves := w.holdOff = false ∧ cfg.jogThreshold < u.natAbs
    let atInEnd := w.referenced = true ∧ w.position = 0
    let atOutEnd := w.referenced = true ∧ w.position = cfg.pmax
    let kept (requested : Nat) : Prop := t = { w with
      requested := requested, holdOff := t.holdOff, demand := t.demand, effective := t.effective, boost := t.boost }
    let becomesIdle : Prop := t.state = .idle ∧ t.run = none ∧ t.requested = 0 ∧ t.creep = 0 ∧ t.creepReported = false
      ∧ t.stallTimer = w.stallTimer ∧ t.opCount = w.opCount
    let begins (jog : WinchState) : Prop := t.state = jog ∧ t.run = none ∧ t.requested = duty
      ∧ t.stallTimer = cfg.stallWindow ∧ t.opCount = 0
      ∧ (w.state = .stalled ∨ w.state = .locked → t.creep = 0 ∧ t.creepReported = false)
      ∧ (w.state ≠ .stalled → w.state ≠ .locked → t.creep = w.creep ∧ t.creepReported = w.creepReported)
    (t.position = w.position ∧ t.referenced = w.referenced ∧ t.grant = w.grant ∧ t.allowance = w.allowance
      ∧ t.boostAtStart = w.boostAtStart ∧ t.recharge = w.recharge)
    ∧ (let jogsOrRuns := t.state = .jogIn ∨ t.state = .jogOut ∨ t.state = .runIn ∨ t.state = .runOut
      (jogsOrRuns → t.demand = t.requested * cfg.ifs ∧ t.effective = scaleTo w.grant t.demand t.requested)
      ∧ (¬jogsOrRuns → t.demand = 0 ∧ t.effective = 0)
      ∧ (t.boost = true ↔ w.boost = true ∧ (t.state = .jogIn ∨ t.state = .runIn)))
    ∧ (t.holdOff = true ↔ cfg.jogThreshold < u.natAbs
        ∧ (w.holdOff = true ∨ c.winchLockCause = true ∧ w.state ≠ .locked))
    ∧ (c.winchLockCause = true →
        (w.state = .locked → kept w.requested)
        ∧ (w.state ≠ .locked → t.state = .locked ∧ t.run = none ∧ t.requested = 0 ∧ t.lastOp = record .locked .locked
            ∧ t.stallTimer = w.stallTimer ∧ t.opCount = w.opCount ∧ t.creep = w.creep
            ∧ t.creepReported = w.creepReported))
    ∧ (c.winchLockCause = false →
        (w.state = .locked → ¬moves → becomesIdle ∧ t.lastOp = w.lastOp)
        ∧ (w.state = .jogIn ∨ w.state = .jogOut → u.natAbs ≤ cfg.jogThreshold →
            becomesIdle ∧ t.lastOp = record .done .aborted)
        ∧ (w.state ≠ .locked → ¬moves → (w.state = .jogIn ∨ w.state = .jogOut → cfg.jogThreshold < u.natAbs) →
            kept w.requested)
        ∧ (moves → w.state = .free → kept w.requested)
        ∧ (moves → inward ∧ w.state = .jogIn ∨ outward ∧ w.state = .jogOut → kept duty)
        ∧ (moves → inward → w.state ≠ .free → w.state ≠ .jogIn →
            t.lastOp = record .done .aborted
            ∧ (atInEnd → w.state = .idle → kept w.requested) ∧ (atInEnd → w.state ≠ .idle → becomesIdle)
            ∧ (¬atInEnd → begins .jogIn))
        ∧ (moves → outward → w.state ≠ .free → w.state ≠ .jogOut →
            t.lastOp = record .done .aborted
            ∧ (atOutEnd → w.state = .idle → kept w.requested) ∧ (atOutEnd → w.state ≠ .idle → becomesIdle)
            ∧ (¬atOutEnd → begins .jogOut))))
  ∧ ∀ (st : Chip → Chip) (c : Chip) (order : List Taker), st = Chip.countControl ∨ st = Chip.refreshStatus →
    c.mdc.mode = .parked →
    let t := (c.channelUpdate st order).wnc
    let active : Chip := { c with mdc := { c.mdc with mode := .active } }
    let tested := active.winchLockTest.wnc
    let leaves := c.ulr.link = .live ∧ c.decode.throttle = 0 ∧ c.parkRequest = false
    (¬leaves → t = c.wnc)
      ∧ (leaves → ∀ before after, takers order = before ++ .mdc :: after →
        (.wnc ∈ before → t = tested)
        ∧ (.wnc ∈ after → t = (({ active with wnc := tested } : Chip).channelUpdate st order).wnc))

/-- Normalization gives a value within −1000..1000; a curve within its range gives an output within −1000..1000 that lies
between the two points of its segment, and each point exactly at the point's own input; target widths and commanded widths
lie within the endpoints. Normalization is the scale, the deadband and the reversal of R24, rounded toward zero; the curve is
interpolated in its segment with q rounded to nearest, ties away from zero (R36); the offset of a target width is rounded to
nearest, ties away from the centre (R46); a commanded width moves toward its target by at most the slew and is clamped to the
endpoints, and takes the target at once where it is absent or the slew is 0 (R48, R49). The decode takes u 0 for a role that
is NONE or whose slot is EMPTY, and sets such a switch to position 0, UNORDERED; a switch is decoded plainly after its
ordered flag was cleared and with hysteresis afterwards; the mapped results are the map entries of the positions (R22, R28,
R30 to R33). The codes of the maps are those of log entry 15, and that a 2-position switch never stands at position 2 there
is log entry 29. -/
def Obligations.CurvesChannelsAndWidthsStayInRange : Prop :=
  ((∀ (y : Curve) (u : Int), Curve.Ok y → -1000 ≤ u → u ≤ 1000 →
    -1000 ≤ y.eval u ∧ y.eval u ≤ 1000
      ∧ min y[(curveSegment u).val] y[(curveSegment u).val + 1] ≤ y.eval u
      ∧ y.eval u ≤ max y[(curveSegment u).val] y[(curveSegment u).val + 1])
  ∧ (∀ (y : Curve) (k : Fin 9), y.eval (250 * (k.val : Int) - 1000) = y[k])
  ∧ (∀ (cal : ChannelCal) (raw : Raw), cal.Ok → -1000 ≤ cal.normalize raw ∧ cal.normalize raw ≤ 1000))
  ∧ (∀ (e : ServoEnd) (x : Int) (slew : Nat) (before : Option Nat), e.Ok → -1000 ≤ x → x ≤ 1000 →
    ((e.left : Int) ≤ e.width x ∧ e.width x ≤ e.right)
      ∧ (e.left ≤ e.slewed slew before (e.width x) ∧ e.slewed slew before (e.width x) ≤ e.right)
      ∧ e.width 0 = e.centre ∧ e.width 1000 = e.right ∧ e.width (-1000) = e.left)
  ∧ (let nearest (num : Int) (den : Nat) : Int :=
      if 0 ≤ num then (((2 * num.natAbs + den) / (2 * den) : Nat) : Int)
      else -(((2 * num.natAbs + den) / (2 * den) : Nat) : Int)
    (∀ (cal : ChannelCal) (raw : Raw),
      let u := max (-1000) (min 1000 ((((raw.toNat : Int) - cal.centre) * 1000).tdiv cal.halfSpan))
      let v := if u.natAbs ≤ cal.deadband then 0
        else (u.sign * ((u.natAbs : Int) - cal.deadband) * 1000).tdiv (1000 - cal.deadband)
      cal.normalize raw = if cal.reverse = true then -v else v)
    ∧ (∀ (y : Curve) (u : Int), -1000 ≤ u → u ≤ 1000 →
      ((curveSegment u).val : Int) = min 7 ((u + 1000) / 250)
      ∧ y.eval u = y[(curveSegment u).val]
          + nearest ((y[(curveSegment u).val + 1] - y[(curveSegment u).val])
              * (u + 1000 - 250 * ((curveSegment u).val : Int))) 250)
    ∧ (∀ (e : ServoEnd) (x : Int),
      (0 ≤ x → e.width x = e.centre + nearest (x * ((e.right : Int) - e.centre)) 1000)
      ∧ (x < 0 → e.width x = e.centre + nearest (x * ((e.centre : Int) - e.left)) 1000))
    ∧ (∀ (e : ServoEnd) (slew w : Nat) (target : Int),
      let within (x : Int) : Int := max e.left (min e.right x)
      e.slewed slew none target = target.toNat
      ∧ (e.slewed 0 (some w) target : Int) = within target
      ∧ (0 < slew → (e.slewed slew (some w) target : Int)
          = within (w + max (-(slew : Int)) (min slew (target - w)))))
    ∧ ∀ lo hi x : Nat, clampNat lo hi x = max lo (min hi x))
  ∧ ([0, 1, 2, 3].map SteerMode.ofEntry = [.front, .rear, .counter, .crab]
    ∧ [0, 1, 2].map DriveMode.ofEntry = [.all, .frontDig, .rearDig] ∧ [0, 1, 2].map profileOfEntry = [0, 1, 2]
    ∧ [0, 1, 2].map MainLight.ofEntry = [.off, .running, .full] ∧ [0, 1].map beaconOfEntry = [false, true])
  ∧ (∀ r : Raw, Slot.empty.tag = .empty ∧ (Slot.fresh r).tag = .fresh ∧ (Slot.held r).tag = .held
    ∧ (Slot.failsafe r).tag = .failsafe ∧ Slot.empty.raw = none ∧ (Slot.fresh r).raw = some r ∧ (Slot.held r).raw = some r
    ∧ (Slot.failsafe r).raw = some r)
  ∧ (∀ (d : SwitchDef) (before : SwitchPos) (u : Int),
    let t := d.decode before (some u)
    d.decode before none = { pos := 0, ordered := false } ∧ t.ordered = true
      ∧ (before.ordered = false →
        (d.kind = .two → t.pos = if u < d.t1 then 0 else 1)
        ∧ (d.kind = .three → t.pos = if u < d.t1 then 0 else if u < d.t2 then 1 else 2))
      ∧ (before.ordered = true →
        (d.kind = .two →
          (before.pos = 0 → t.pos = if d.t1 + d.hyst ≤ u then 1 else 0)
          ∧ (before.pos = 1 → t.pos = if u < d.t1 - d.hyst then 0 else 1))
        ∧ (d.kind = .three →
          (before.pos = 0 → t.pos = if d.t2 + d.hyst ≤ u then 2 else if d.t1 + d.hyst ≤ u then 1 else 0)
          ∧ (before.pos = 1 → t.pos = if d.t2 + d.hyst ≤ u then 2 else if u < d.t1 - d.hyst then 0 else 1)
          ∧ (before.pos = 2 → t.pos = if u < d.t1 - d.hyst then 0 else if u < d.t2 - d.hyst then 1 else 2))))
  ∧ (∀ c : Chip,
    let d := c.decode
    let m := c.tables.roleMap
    let entry (i : Fin 5) : Nat :=
      match (d.switches[i]).pos with
      | 0 => (c.tables.switchDef[i]).map0
      | 1 => (c.tables.switchDef[i]).map1
      | 2 => (c.tables.switchDef[i]).map2
    (c.roleU none = none ∧ ∀ ch : Fin 12,
      ((c.slots[ch]).tag = .empty → c.roleU (some ch) = none)
      ∧ ∀ raw, (c.slots[ch]).raw = some raw → c.roleU (some ch) = some ((c.tables.channelCal[ch]).normalize raw))
    ∧ (d.steer = (c.roleU m.steer).getD 0 ∧ d.throttle = (c.roleU m.throttle).getD 0 ∧ d.winch = (c.roleU m.winch).getD 0)
    ∧ (∀ i : Fin 5, d.switches[i]
        = (c.tables.switchDef[i]).decode c.cdc.switches[i] (c.roleU ([m.steerSel, m.driveSel, m.profileSel, m.lightSel,
            m.auxSel].getD i.val none)))
    ∧ ((entry 0 = 0 → d.steerSel = .front) ∧ (entry 0 = 1 → d.steerSel = .rear) ∧ (entry 0 = 2 → d.steerSel = .counter)
      ∧ (entry 0 = 3 → d.steerSel = .crab))
    ∧ ((entry 1 = 0 → d.driveSel = .all) ∧ (entry 1 = 1 → d.driveSel = .frontDig) ∧ (entry 1 = 2 → d.driveSel = .rearDig))
    ∧ (entry 2 ≤ 2 → d.profile.val = entry 2)
    ∧ ((entry 3 = 0 → d.mainLight = .off) ∧ (entry 3 = 1 → d.mainLight = .running) ∧ (entry 3 = 2 → d.mainLight = .full))
    ∧ ((entry 4 = 0 → d.beacon = false) ∧ (entry 4 = 1 → d.beacon = true)))

/-- A pulse start latches both commanded widths, clamped to the endpoints, and the next one is due 20 ms on; the end
of a pulse, taken in every state of the part, lets that output fall low (R51, R52). A start that finds a pulse still running
replaces it (log entry 25). It rests on the model's choices of log entries 4, 10 and 25. -/
def Obligations.ServoPulsesStartAndEnd : Prop :=
  (∀ (s : State) (due : Nat), s.chip.Running → s.chip.stm.schedule = some due →
    exec .pulseStart s = .next { s with chip := { s.chip with
      now := s.chip.dueAt due
      stm := { s.chip.stm with
        schedule := some (due + 20)
        pulseFront := s.chip.stm.front.map
          (fun w => max s.chip.tables.servoFront.left (min s.chip.tables.servoFront.right w))
        pulseRear := s.chip.stm.rear.map
          (fun w => max s.chip.tables.servoRear.left (min s.chip.tables.servoRear.right w)) } } })
  ∧ (∀ s : State,
    exec (.servoPulseEnd .front) s
        = .next { s with chip := { s.chip with stm := { s.chip.stm with pulseFront := none } } }
      ∧ exec (.servoPulseEnd .rear) s
        = .next { s with chip := { s.chip with stm := { s.chip.stm with pulseRear := none } } })

/-! ## The drive (R62, R70, R75, R101, R126) -/

/-- The arming timer's expiry in ARMING arms the drive and handles the axles with that record: with the request 0 a driven
axle takes IDLE at the drag brake and a locked axle DIG_LOCKED at 1000, and nothing else changes but the light picture (R62,
R67, R72). It rests on the model's choices of log entries 4 and 23. -/
def Obligations.ArmingExpiryArms : Prop :=
  (∀ (s : State) (due : Nat), s.chip.Running → s.chip.drm.armTimer = some due → s.chip.drm.arming = .arming →
    exec .armingTimerExpiry s = .next { s with
      chip := Chip.handleAxles { s.chip with now := s.chip.dueAt due }
        { s.chip.drm with arming := .armed, armTimer := none } })
  ∧ ∀ (s : State) (due : Nat), s.chip.Running → s.chip.drm.armTimer = some due → s.chip.drm.arming = .arming →
    s.chip.mdc.mode = .active → s.chip.mdc.bench = false → s.chip.linkUp → s.chip.drm.axleRequest = 0 →
    (∀ a, (s.chip.drm.axle a).state = .off) →
    let axle (a : Axle) : AxleRec :=
      { state := if s.chip.drm.mode.locks a then .digLocked else .idle, timer := none, left := none, effective := 0,
        output := if s.chip.drm.mode.locks a then 1000 else s.chip.profile.dragBrake }
    let drm : Drm :=
      { s.chip.drm with arming := .armed, armTimer := none, front := axle .front, rear := axle .rear, demand := 0 }
    exec .armingTimerExpiry s = .next { s with
      chip := Chip.relight { s.chip with now := s.chip.dueAt due, drm := drm } }

/-- Where DRM handles the axles, each takes the state of the first row of R67 that holds, and in row 5 it moves by its
request, with REVERSING between the directions while the reverse delay runs (R67 to R69, R71); demand, effective and output
duties are then set, a change of axle state forms the light picture, and the brake-hold timer starts where an axle has stopped
driving; with a brake-hold time of 0 it is not started (R72, R73, R75, R77, R109, R112), and one that runs keeps its expiry,
which is the model's choice (log entry 38). A reverse-delay expiry of a REVERSING axle gives it the direction of the axle
request held, clears the direction it left, forms the demand of the axles that now drive, and scales them anew; the other axle
keeps its state and timer, and its output duty unless it drives (R70, R73, R75). An axle stage shows the bridge mode and the
output duty of the axle's state (R72, R78). It rests on the model's choices of log entries 4, 23 and 31. -/
def Obligations.ReverseDelayExpiryTakesDirection : Prop :=
  (∀ (c : Chip) (d : Drm) (a : Axle),
    d.axle .front = d.front ∧ d.axle .rear = d.rear
      ∧ DriveMode.all.locks a = false
      ∧ (DriveMode.frontDig.locks a = true ↔ a = .rear) ∧ (DriveMode.rearDig.locks a = true ↔ a = .front)
      ∧ c.axleStage a = (if c.held = none ∧ c.mdc.mode ≠ .dormant then ((c.drm.axle a).state.bridge, (c.drm.axle a).output)
          else (.coast, 0)))
  ∧ (∀ (c : Chip) (d : Drm) (a : Axle),
    let r := d.axle a
    let n := c.axleNext d a
    let req := d.axleRequest
    let delay := c.profile.reverseDelay
    let stands (st : AxleState) : AxleRec := { r with state := st, timer := none, left := none }
    let reversing (left : Direction) : AxleRec := { r with state := .reversing, timer := some (c.now + delay), left := some left }
    let row5 := c.mdc.mode ≠ .dormant ∧ c.mdc.bench = false ∧ c.linkUp ∧ d.arming = .armed ∧ d.mode.locks a = false
    (c.mdc.mode = .dormant ∨ c.mdc.bench = true → n = stands .off)
    ∧ (c.mdc.mode ≠ .dormant → c.mdc.bench = false →
      (¬c.linkUp → n = stands .failsafeBrake)
      ∧ (c.linkUp → d.arming ≠ .armed → n = stands .off)
      ∧ (c.linkUp → d.arming = .armed → d.mode.locks a = true → n = stands .digLocked))
    ∧ (row5 →
      ((r.state = .idle ∨ r.state = .off ∨ r.state = .digLocked ∨ r.state = .failsafeBrake) →
        n = stands (if 0 < req then .forward else if req < 0 then .reverse else .idle))
      ∧ (r.state = .forward → 0 < req → n = stands .forward)
      ∧ (r.state = .reverse → req < 0 → n = stands .reverse)
      ∧ (r.state = .forward ∨ r.state = .reverse → req = 0 → n = stands .idle)
      ∧ (r.state = .forward → req < 0 → n = if delay = 0 then stands .reverse else reversing .forward)
      ∧ (r.state = .reverse → 0 < req → n = if delay = 0 then stands .forward else reversing .reverse)
      ∧ (r.state = .reversing → r.left = some .forward → n = if 0 < req then stands .forward else r)
      ∧ (r.state = .reversing → r.left = some .reverse → n = if req < 0 then stands .reverse else r)))
  ∧ (∀ (c : Chip) (d : Drm) (a : Axle),
    let t := c.handleAxles d
    let n := c.axleNext d
    let drives (b : Axle) : Prop := (n b).state = .forward ∨ (n b).state = .reverse
    let m := d.axleRequest.natAbs
    let effective := scaleTo d.grant t.drm.demand m
    let changes := ∃ b, (n b).state ≠ (c.drm.axle b).state
    t = { c with drm := t.drm, lsq := t.lsq }
      ∧ (changes → t.lsq = t.picture) ∧ (¬changes → t.lsq = c.lsq)
      ∧ t.lsq.timebase = c.lsq.timebase ∧ t.lsq.nextEvent = c.lsq.nextEvent ∧ t.lsq.grant = c.lsq.grant
      ∧ t.lsq.granted = c.lsq.granted
      ∧ t.drm = { d with demand := t.drm.demand, front := t.drm.front, rear := t.drm.rear }
      ∧ ((drives .front → drives .rear → t.drm.demand = m * c.tables.driveCfg.ifsFront + m * c.tables.driveCfg.ifsRear)
        ∧ (drives .front → ¬drives .rear → t.drm.demand = m * c.tables.driveCfg.ifsFront)
        ∧ (¬drives .front → drives .rear → t.drm.demand = m * c.tables.driveCfg.ifsRear)
        ∧ (¬drives .front → ¬drives .rear → t.drm.demand = 0))
      ∧ (drives a → t.drm.axle a = { n a with effective := effective, output := effective })
      ∧ (¬drives a → t.drm.axle a = { n a with
          effective := 0
          output := match (n a).state with
            | .idle => c.profile.dragBrake
            | .reversing | .digLocked => 1000
            | .failsafeBrake => c.tables.driveCfg.failsafeBrake
            | .off | .forward | .reverse => 0 })
      ∧ ((∃ b, (n b).state = .idle ∧ ((c.drm.axle b).state = .forward ∨ (c.drm.axle b).state = .reverse)) →
          0 < c.tables.driveCfg.brakeHold → t.lsq.brakeHold = some (c.now + c.tables.driveCfg.brakeHold))
      ∧ (c.tables.driveCfg.brakeHold = 0 → t.lsq.brakeHold = c.lsq.brakeHold)
      ∧ ((¬∃ b, (n b).state = .idle ∧ ((c.drm.axle b).state = .forward ∨ (c.drm.axle b).state = .reverse)) →
          t.lsq.brakeHold = c.lsq.brakeHold))
  ∧ ∀ (a b : Axle) (s : State) (due : Nat), s.chip.Running → (s.chip.drm.axle a).timer = some due →
    (s.chip.drm.axle a).state = .reversing → a ≠ b →
    let req := s.chip.drm.axleRequest
    ∃ t, exec (.reverseDelayExpiry a) s = .next t ∧ t.pending = s.pending
      ∧ t.chip = { s.chip with now := s.chip.dueAt due, drm := t.chip.drm, lsq := t.chip.lsq }
      ∧ (t.chip.drm.axle a).state = (if 0 < req then .forward else if req < 0 then .reverse else .idle)
      ∧ (t.chip.drm.axle a).timer = none ∧ (t.chip.drm.axle a).left = none
      ∧ (t.chip.drm.axle a).effective = (if req = 0 then 0 else scaleTo s.chip.drm.grant t.chip.drm.demand req.natAbs)
      ∧ (t.chip.drm.axle a).output
          = (if req = 0 then s.chip.profile.dragBrake else scaleTo s.chip.drm.grant t.chip.drm.demand req.natAbs)
      ∧ (t.chip.drm.axle b).state = (s.chip.drm.axle b).state ∧ (t.chip.drm.axle b).timer = (s.chip.drm.axle b).timer
      ∧ t.chip.drm.command = s.chip.drm.command ∧ t.chip.drm.mode = s.chip.drm.mode
      ∧ t.chip.drm.arming = s.chip.drm.arming ∧ t.chip.drm.armTimer = s.chip.drm.armTimer
      ∧ t.chip.drm.request = s.chip.drm.request ∧ t.chip.drm.axleRequest = req
      ∧ t.chip.drm.grant = s.chip.drm.grant
      ∧ t.chip.lsq.brakeHold = s.chip.lsq.brakeHold ∧ t.chip.lsq.timebase = s.chip.lsq.timebase
      ∧ t.chip.lsq.nextEvent = s.chip.lsq.nextEvent ∧ t.chip.lsq.grant = s.chip.lsq.grant
      ∧ t.chip.lsq.granted = s.chip.lsq.granted
      ∧ (let drives (x : Axle) : Prop := (t.chip.drm.axle x).state = .forward ∨ (t.chip.drm.axle x).state = .reverse
        let cfg := s.chip.tables.driveCfg
        ((drives .front → drives .rear → t.chip.drm.demand = req.natAbs * cfg.ifsFront + req.natAbs * cfg.ifsRear)
          ∧ (drives .front → ¬drives .rear → t.chip.drm.demand = req.natAbs * cfg.ifsFront)
          ∧ (¬drives .front → drives .rear → t.chip.drm.demand = req.natAbs * cfg.ifsRear)
          ∧ (¬drives .front → ¬drives .rear → t.chip.drm.demand = 0))
        ∧ (drives b → (t.chip.drm.axle b).effective = scaleTo s.chip.drm.grant t.chip.drm.demand req.natAbs
          ∧ (t.chip.drm.axle b).output = scaleTo s.chip.drm.grant t.chip.drm.demand req.natAbs)
        ∧ (¬drives b → (t.chip.drm.axle b).effective = 0 ∧ (t.chip.drm.axle b).output = (s.chip.drm.axle b).output)
        ∧ (t.chip.drm.axle b).left = (s.chip.drm.axle b).left)
      ∧ t.chip.lsq = t.chip.picture

/-- Scaled to its held grant, no consumer draws more than the grant: the axles in FORWARD and REVERSE together, where they are
handled and where a grant event scales them anew (R74, R75), the winch (R101), the eight light outputs (R126). A grant event
forms the demand of the driving axles, scales their duties, and leaves the braking duties and every axle state; that the
demand is formed anew there is the model's choice (log entry 28). Scaling leaves a value as it is where the demand is at most
the grant; otherwise it takes floor(value × k / 1000) with k = floor(grant × 1000 / demand) (R75, R101, R126). -/
def Obligations.DrawsStayWithinGrants : Prop :=
  (∀ grant demand x : Nat,
    (demand ≤ grant → scaleTo grant demand x = x)
      ∧ (grant < demand → scaleTo grant demand x = x * (grant * 1000 / demand) / 1000))
  ∧ (∀ ifs levels : Vector Nat 8, lightCurrent ifs levels = (((List.finRange 8).map fun o => levels[o] * ifs[o]).sum) / 255)
  ∧ (∀ (d : Drm) (cfg : DriveCfg) (drag : Nat),
    ((d.settle cfg drag).front.effective * cfg.ifsFront + (d.settle cfg drag).rear.effective * cfg.ifsRear ≤ d.grant)
      ∧ (d.settle cfg drag).front.effective ≤ d.axleRequest.natAbs
      ∧ (d.settle cfg drag).rear.effective ≤ d.axleRequest.natAbs)
  ∧ (∀ (d : Drm) (cfg : DriveCfg) (a : Axle),
    let t := d.rescale cfg
    let m := d.axleRequest.natAbs
    let of (b : Axle) (x : Nat) : Nat := if (d.axle b).state = .forward ∨ (d.axle b).state = .reverse then x else 0
    t = { d with demand := t.demand, front := t.front, rear := t.rear }
      ∧ t.demand = of .front (m * cfg.ifsFront) + of .rear (m * cfg.ifsRear)
      ∧ t.axle a = { d.axle a with
          effective := of a (scaleTo d.grant t.demand m)
          output := if (d.axle a).state = .forward ∨ (d.axle a).state = .reverse then scaleTo d.grant t.demand m
            else (d.axle a).output }
      ∧ t.front.effective * cfg.ifsFront + t.rear.effective * cfg.ifsRear ≤ d.grant
      ∧ (t.axle a).effective ≤ m)
  ∧ (∀ (w : Winch) (cfg : WinchCfg),
    (w.settle cfg).effective * cfg.ifs ≤ w.grant ∧ (w.settle cfg).effective ≤ w.requested)
  ∧ (∀ c : Chip, lightCurrent c.tables.lightOut c.picture.level ≤ c.lsq.grant)

/-! ## The winch (R83 to R104) -/

/-- A winch record that takes its place has its demand and duty set anew; only ALT's WINCH_STALL cause, the drive (where the
winch became driven or stopped being so) and the lights can change beside it (R83, R99, R100, R101, R106). A grant event tests
for a stall on the duty that stands, which ends the operation STALLED under its own kind, takes the grant and scales the duty,
accounts for the boost period that ends, and activates boost where its conditions hold; creep count and creep-reported flag
stand (R91, R97 to R99, R102 to R104). A new WINCH_CFG brings P and A_b within its limits and ends an outward operation whose
P it brings down to a referenced out end (R95, R104). Where the winch becomes driven or stops being so in ACTIVE, the drive
applies its caps anew (R66), and a change of state forms the light picture (R106, R109). The winch stage shows the bridge mode
and the duty of the winch state (R83). It rests on the model's choices of log entries 23 and 41. -/
def Obligations.WinchRecordTakesItsPlace : Prop :=
  (∀ (c : Chip) (w : Winch) (cfg : WinchCfg),
    (w.state.driven = true ↔ w.state = .jogIn ∨ w.state = .jogOut ∨ w.state = .runIn ∨ w.state = .runOut)
      ∧ (w.run = none → w.countsDone = w.opCount) ∧ (∀ r, w.run = some r → w.countsDone = r.count - r.remaining)
      ∧ w.settle cfg = (let demand := if w.state.driven then w.requested * cfg.ifs else 0
        { w with
          demand := demand
          effective := if w.state.driven then scaleTo w.grant demand w.requested else 0
          boost := w.boost && (decide (w.state = .jogIn) || decide (w.state = .runIn)) })
      ∧ (c.held = none → c.mdc.mode ≠ .dormant → c.winchStage = match c.wnc.state with
        | .jogIn | .runIn => (.fwd, c.wnc.effective)
        | .jogOut | .runOut => (.rev, c.wnc.effective)
        | .idle | .stalled | .locked => (.brake, 1000)
        | .free => (.coast, 0)))
  ∧ (∀ (w : Winch) (cfg : WinchCfg) (g : Nat) (level : Level) (disabled : Bool),
    let t := w.takeGrant cfg g level disabled
    let counts := w.state.driven = true ∧ cfg.stallFloor ≤ w.effective
    let stalls := counts ∧ w.stallTimer ≤ 1
    let pulls (st : WinchState) : Prop := st = .jogIn ∨ st = .runIn
    let starts := pulls t.state ∧ level = .normal ∧ disabled = false ∧ 0 < t.allowance ∧ g < t.demand
    let ended (kind : OpKind) : Option LastOp :=
      some { kind := kind, requested := w.run.map Run.count, counts := w.countsDone, outcome := .stalled }
    t.grant = g ∧ t.position = w.position ∧ t.referenced = w.referenced ∧ t.opCount = w.opCount ∧ t.creep = w.creep
      ∧ t.creepReported = w.creepReported
      ∧ (¬counts → t.stallTimer = w.stallTimer)
      ∧ (counts → t.stallTimer = w.stallTimer - 1)
      ∧ (¬stalls → t.state = w.state ∧ t.run = w.run ∧ t.lastOp = w.lastOp ∧ t.requested = w.requested
          ∧ t.holdOff = w.holdOff
          ∧ (w.state.driven = true → t.demand = w.requested * cfg.ifs ∧ t.effective = scaleTo g t.demand w.requested)
          ∧ (w.state.driven = false → t.demand = 0 ∧ t.effective = 0))
      ∧ (stalls → t.state = .stalled ∧ t.run = none ∧ t.requested = 0 ∧ t.effective = 0 ∧ t.demand = 0 ∧ t.holdOff = true
          ∧ t.boost = false
          ∧ (w.state = .jogIn → t.lastOp = ended .jogIn) ∧ (w.state = .jogOut → t.lastOp = ended .jogOut)
          ∧ (w.state = .runIn → t.lastOp = ended .runIn) ∧ (w.state = .runOut → t.lastOp = ended .runOut))
      ∧ (w.boostAtStart = true → t.allowance = w.allowance - 1)
      ∧ (w.boostAtStart = false → w.recharge + 1 = 4 →
          t.allowance = if cfg.aMax ≤ w.allowance then w.allowance else w.allowance + 1)
      ∧ (w.boostAtStart = false → w.recharge + 1 ≠ 4 → t.allowance = w.allowance)
      ∧ (starts → t.boost = true ∧ t.recharge = 0)
      ∧ (¬starts → (t.boost = true ↔ w.boost = true ∧ pulls t.state ∧ ¬(w.boostAtStart = true ∧ t.allowance = 0))
          ∧ t.recharge = if w.boostAtStart = true then w.recharge else if w.recharge + 1 = 4 then 0 else w.recharge + 1)
      ∧ t.boostAtStart = t.boost)
  ∧ (∀ (w : Winch) (cfg : WinchCfg),
    let t := w.reconfigure cfg
    let ends := cfg.pmax < w.position ∧ w.referenced = true ∧ (w.state = .jogOut ∨ w.state = .runOut)
    t.position = min w.position cfg.pmax ∧ t.allowance = min w.allowance cfg.aMax ∧ t.referenced = w.referenced
      ∧ (t.boost = true ↔ w.boost = true ∧ t.allowance ≠ 0)
      ∧ (ends → t = { w with
          position := t.position, allowance := t.allowance, boost := t.boost, state := .idle, run := none, requested := 0
          creep := 0, creepReported := false
          lastOp := some { kind := if w.state = .jogOut then .jogOut else .runOut, requested := w.run.map Run.count,
                           counts := w.countsDone, outcome := .limit } })
      ∧ (¬ends → t = { w with position := t.position, allowance := t.allowance, boost := t.boost }))
  ∧ ∀ (c : Chip) (w : Winch),
    let cfg := c.tables.winchCfg
    let t := c.setWinch w
    let demand := if w.state.driven then w.requested * cfg.ifs else 0
    t = { c with wnc := t.wnc, alt := c.alt.cause .winchStall (decide (w.state = .stalled)), drm := t.drm, lsq := t.lsq }
      ∧ t.wnc = { w with
          demand := demand
          effective := if w.state.driven then scaleTo w.grant demand w.requested else 0
          boost := w.boost && (decide (w.state = .jogIn) || decide (w.state = .runIn)) }
      ∧ (w.state.driven = c.wnc.state.driven → t.drm = c.drm)
      ∧ (c.mdc.mode ≠ .active → t.drm = c.drm)
      ∧ (w.state.driven ≠ c.wnc.state.driven → c.mdc.mode = .active →
          t.drm = ({ c with wnc := t.wnc } : Chip).recap.drm
          ∧ t.lsq.brakeHold = ({ c with wnc := t.wnc } : Chip).recap.lsq.brakeHold)
      ∧ (w.state.driven = c.wnc.state.driven ∨ c.mdc.mode ≠ .active → t.lsq.brakeHold = c.lsq.brakeHold)
      ∧ t.lsq.timebase = c.lsq.timebase ∧ t.lsq.nextEvent = c.lsq.nextEvent ∧ t.lsq.grant = c.lsq.grant
      ∧ t.lsq.granted = c.lsq.granted
      ∧ (w.state ≠ c.wnc.state → t.lsq = t.picture)
      ∧ (w.state = c.wnc.state → t.alt.latched = c.alt.latched → t.lsq = c.lsq)

/-- A pulse shorter than 50 µs, or beginning less than 200 µs after the start of the latest spool pulse taken, does nothing. A
spool pulse raises LINE_END and WINCH_CREEP, a change of the top alert forming the light picture, and gives WNC a new record,
which takes its place with all that follows for the drive and the lights (O34): P counts down in JOG_IN and RUN_IN and up
elsewhere, saturating; a run counts and ends DONE at its last pulse; a driven referenced operation ends LIMIT at a line end;
an end in IDLE clears creep count and creep-reported flag; a winch that holds counts creep and sets the flag with WINCH_CREEP,
so that the alert comes once (R66, R89, R91, R92, R94, R97, R98, R106, R169). It rests on the model's choices of log entries
9, 17, 18 and 36. -/
def Obligations.SpoolPulseCounts : Prop :=
  ∀ (start lasts : Nat) (s : State), s.chip.Running →
    let c := s.chip
    let w := c.wnc
    let cfg := c.tables.winchCfg
    let pullsIn := w.state = .jogIn ∨ w.state = .runIn
    let holds := w.state = .idle ∨ w.state = .stalled ∨ w.state = .locked
    let p := if pullsIn then w.position - 1 else min cfg.pmax (w.position + 1)
    let pastEnd := if pullsIn then w.position = 0 else cfg.pmax ≤ w.position
    let stops := w.referenced = true ∧ ¬pastEnd ∧ (if pullsIn then p = 0 else p = cfg.pmax)
    let slips := holds ∧ cfg.creepLimit ≤ w.creep ∧ w.creepReported = false
    let raised : Chip := Chip.alert { c with spoolStart := some start } fun u =>
      let u := if w.referenced = true ∧ pastEnd then u.raise .lineEnd else u
      if slips then u.raise .winchCreep else u
    let counted : Winch := { w with
      position := p, run := w.run.map fun r => { r with remaining := r.remaining - 1 }
      stallTimer := cfg.stallWindow, opCount := min 65535 (w.opCount + 1) }
    let ended (kind : OpKind) (requested : Option Nat) (counts : Nat) (outcome : OpOutcome) : Winch := { counted with
      state := .idle, run := none, requested := 0, creep := 0, creepReported := false
      lastOp := some { kind := kind, requested := requested, counts := counts, outcome := outcome } }
    (lasts < 50 ∨ (∃ before, c.spoolStart = some before ∧ start < before + 200) →
      exec (.spoolPulse start lasts) s = .next s)
    ∧ (50 ≤ lasts → (∀ before, c.spoolStart = some before → before + 200 ≤ start) →
      ∃ v : Winch, exec (.spoolPulse start lasts) s = .next { s with chip := raised.setWinch v }
        ∧ (∀ a, a ≠ .winchStall → ((raised.setWinch v).alt.has a = true ↔ c.alt.has a = true
            ∨ a = .lineEnd ∧ w.referenced = true ∧ pastEnd ∨ a = .winchCreep ∧ slips))
        ∧ (holds → v = { w with
            position := p, creep := if w.creep ≤ cfg.creepLimit then w.creep + 1 else w.creep
            creepReported := w.creepReported || decide (cfg.creepLimit ≤ w.creep) })
        ∧ (w.state = .free → v = { w with position := p })
        ∧ (w.state = .jogIn ∨ w.state = .jogOut → w.run = none →
            (stops → v = ended (if w.state = .jogIn then .jogIn else .jogOut) none (min 65535 (w.opCount + 1)) .limit)
            ∧ (¬stops → v = counted))
        ∧ (∀ r, (w.state = .runIn ∨ w.state = .runOut) → w.run = some r →
            let kind : OpKind := if w.state = .runIn then .runIn else .runOut
            (r.remaining ≤ 1 → v = ended kind (some r.count) r.count .done)
            ∧ (1 < r.remaining → stops → v = ended kind (some r.count) (r.count - (r.remaining - 1)) .limit)
            ∧ (1 < r.remaining → ¬stops → v = counted)))

/-- A ready WINCH_RUN is refused on a wrong length, an unknown direction, a state that takes no run and a line end
ahead of it; otherwise it ends what was in progress and starts the run, with count and duty clamped, and replies with
the last-operation record (R88, R89, R91). That the direction is checked before the state is the model's choice (log
entry 19). So is the jog threshold by which the winch control is judged released: the one that stands at the command (log
entry 42). The decode is that of the latest whole update: a WINCH_RUN between the decode of an update and WNC's turn is not
reached (log entry 43). It rests on the model's choices of log entries 6, 19, 42 and 43. -/
def Obligations.WinchRunIsTakenOrRefused : Prop :=
  ∀ (q : Byte) (s : State) (count duty : BitVec 16), s.chip.Ready →
    let w := s.chip.wnc
    let cfg := s.chip.tables.winchCfg
    let n := max 1 count.toNat
    let d := max 100 (min 1000 duty.toNat)
    let released := s.chip.cdc.winch.natAbs ≤ cfg.jogThreshold
    let takes := w.state = .idle ∨ w.state = .runIn ∨ w.state = .runOut
      ∨ (w.state = .jogIn ∨ w.state = .jogOut) ∧ released
    let atEnd := w.referenced = true ∧ (if q = 1#8 then w.position = 0 else w.position = cfg.pmax)
    let ended : Option LastOp :=
      match w.state with
      | .jogIn => some { kind := .jogIn, requested := w.run.map Run.count, counts := w.countsDone, outcome := .done }
      | .jogOut => some { kind := .jogOut, requested := w.run.map Run.count, counts := w.countsDone, outcome := .done }
      | .runIn => some { kind := .runIn, requested := w.run.map Run.count, counts := w.countsDone, outcome := .aborted }
      | .runOut => some { kind := .runOut, requested := w.run.map Run.count, counts := w.countsDone, outcome := .aborted }
      | _ => w.lastOp
    (∀ ps, ps.length ≤ 61 → ps.length ≠ 4 →
      exec (.winchRun q ps) s = .next { s with chip := s.chip.refusedAs 8 .refusedLength })
    ∧ (q ≠ 1#8 → q ≠ 2#8 →
      exec (.winchRun q (wordBytes count ++ wordBytes duty)) s
        = .next { s with chip := s.chip.refusedAs 8 .refusedUnknown })
    ∧ (q = 1#8 ∨ q = 2#8 → ¬takes ∨ atEnd →
      exec (.winchRun q (wordBytes count ++ wordBytes duty)) s
        = .next { s with chip := s.chip.refusedAs 8 .refusedState })
    ∧ (q = 1#8 ∨ q = 2#8 → takes → ¬atEnd →
      exec (.winchRun q (wordBytes count ++ wordBytes duty)) s = .next { s with
        chip := { s.chip.setWinch { w with
            state := if q = 1#8 then .runIn else .runOut
            run := some { dir := if q = 1#8 then .inward else .outward, count := n, duty := d, remaining := n }
            requested := d, opCount := 0, stallTimer := cfg.stallWindow, lastOp := ended } with
          rtx := s.chip.withReply 8 (if count = 0#16 ∨ d ≠ duty.toNat then .clamped else .ok) (lastOpBytes ended) } })

/-- Ready WINCH_STOP, WINCH_ZERO and WINCH_FREE by winch state (R90, R93, R96). It rests on the model's choices of
log entries 6 and 19. -/
def Obligations.WinchStopZeroFree : Prop :=
  ∀ (q : Byte) (s : State), s.chip.Ready →
    let c := s.chip
    let w := c.wnc
    let idle : Winch := { w with state := .idle, run := none, requested := 0, creep := 0, creepReported := false }
    let op (kind : OpKind) : LastOp :=
      { kind := kind, requested := w.run.map Run.count, counts := w.countsDone, outcome := .aborted }
    let took (code : Nat) (v : Winch) : Host.Outcome State Fault Refusal :=
      .next { s with chip := { c.setWinch v with rtx := c.withReply code .ok (lastOpBytes v.lastOp) } }
    let ignored (code : Nat) : Host.Outcome State Fault Refusal :=
      .next { s with chip := c.answered code .ignored (lastOpBytes w.lastOp) }
    (∀ ps, ps.length ≤ 61 → ps ≠ [] →
      exec (.winchStop q ps) s = .next { s with chip := c.refusedAs 9 .refusedLength }
      ∧ exec (.winchZero q ps) s = .next { s with chip := c.refusedAs 10 .refusedLength }
      ∧ exec (.winchFree q ps) s = .next { s with chip := c.refusedAs 11 .refusedLength })
    ∧ exec (.winchStop q []) s = (match w.state with
        | .runIn => took 9 { idle with lastOp := some (op .runIn) }
        | .runOut => took 9 { idle with lastOp := some (op .runOut) }
        | .jogIn => took 9 { idle with lastOp := some (op .jogIn), holdOff := true }
        | .jogOut => took 9 { idle with lastOp := some (op .jogOut), holdOff := true }
        | .free => took 9 idle
        | .stalled => took 9 idle
        | .idle => ignored 9
        | .locked => ignored 9)
    ∧ exec (.winchZero q []) s = (match w.state with
        | .idle | .free | .stalled | .locked => took 10 { w with position := 0, referenced := true }
        | .jogIn | .jogOut | .runIn | .runOut => .next { s with chip := c.refusedAs 10 .refusedState })
    ∧ exec (.winchFree 1#8 []) s = (match w.state with
        | .idle | .stalled => took 11 { w with state := .free }
        | .free => ignored 11
        | .jogIn | .jogOut | .runIn | .runOut | .locked => .next { s with chip := c.refusedAs 11 .refusedState })
    ∧ exec (.winchFree 0#8 []) s = (if w.state = .free then took 11 idle else ignored 11)
    ∧ (q ≠ 0#8 → q ≠ 1#8 → exec (.winchFree q []) s = .next { s with chip := c.refusedAs 11 .refusedUnknown })

/-! ## The lights (R109 to R126) -/

/-- A timebase event advances T by 1 and is due again 10 ms on; the brake-hold expiry stops that timer; both form the
light picture. The end of the start-up window clears every entry start and the recovery start; the foldback timer's
expiry stops it. None changes anything else (R113, R124, R141, R144). It rests on the model's choices of log entry 4. -/
def Obligations.PlainTimersExpire : Prop :=
  (∀ (s : State) (due : Nat), s.chip.Running →
    (s.chip.lsq.nextEvent = some due →
      exec .lightTimebaseEvent s = .next { s with chip := Chip.relight { s.chip with
        now := s.chip.dueAt due
        lsq := { s.chip.lsq with timebase := s.chip.lsq.timebase + 1#32, nextEvent := some (due + 10) } } })
    ∧ (s.chip.lsq.brakeHold = some due →
      exec .brakeHoldExpiry s = .next { s with chip := Chip.relight { s.chip with
        now := s.chip.dueAt due
        lsq := { s.chip.lsq with brakeHold := none } } }))
  ∧ (∀ (s : State) (due : Nat), s.chip.Running →
    (s.chip.btm.window = some due →
      exec .endOfStartUpWindow s = .next { s with chip := { s.chip with
        now := s.chip.dueAt due
        btm := { s.chip.btm with window := none, startLow := none, startCrit := none, startCut := none,
                                 recovery := none } } })
    ∧ (s.chip.btm.foldback = some due →
      exec .foldbackTimerExpiry s = .next { s with chip := { s.chip with
        now := s.chip.dueAt due, btm := { s.chip.btm with foldback := none } } }))

/-- The winner of an output is a candidate: active, eligible, with an action other than NONE there; no candidate has a higher
priority, and none of equal priority a lower index. Without a candidate there is no winner and the raw level is 0. In ACTIVE
every source is eligible at NORMAL and LOW; in PARKED and at CRITICAL only ALERT and FAILSAFE are, and none is at CUTOFF or in
DORMANT (R120, R122). Each source is active on its own condition (R111 to R119). A TURN action takes part on the side of the
moment and an OVERRIDE action on an output whose bit is set (R115, R119). A STEADY winner gives its level, a BLINK winner its
level while its pattern is on, with the pattern of ALERT from the level→pattern map (R117, R124); the output levels are the
raw levels scaled to the held grant (R126), and until the first grant event after a reset they are 0 (R129), also where the
demand is 0, which is the model's reading of the two rules (log entry 37). Forming the picture leaves the brake-hold timer, the
timebase, its next event, the held grant and whether a grant event has come as they are (R109), and a light output shows its
level. -/
def Obligations.WinnersAreArbitrated : Prop :=
  (∀ c : Chip, c.relight = { c with lsq := c.picture }
    ∧ c.picture.brakeHold = c.lsq.brakeHold ∧ c.picture.timebase = c.lsq.timebase
    ∧ c.picture.nextEvent = c.lsq.nextEvent ∧ c.picture.grant = c.lsq.grant ∧ c.picture.granted = c.lsq.granted
    ∧ (c.held = none → c.mdc.mode ≠ .dormant → ∀ o, c.lightPin o = c.lsq.level[o])
    ∧ [Source.mainRun, .mainFull, .aux, .brake, .reverse, .turn, .winch, .alert, .failsafe, .override].map Source.index
        = [0, 1, 2, 3, 4, 5, 6, 7, 8, 9])
  ∧ (∀ c : Chip,
    let axles (p : AxleState → Prop) : Prop := p c.drm.front.state ∨ p c.drm.rear.state
    (c.sourceActive .mainRun = true ↔ c.cdc.mainLight = .running ∨ c.cdc.mainLight = .full)
    ∧ (c.sourceActive .mainFull = true ↔ c.cdc.mainLight = .full)
    ∧ (c.sourceActive .aux = true ↔ c.cdc.beacon = true)
    ∧ (c.sourceActive .brake = true ↔ axles (fun st => st = .reversing ∨ st = .failsafeBrake) ∨ c.lsq.brakeHold ≠ none)
    ∧ (c.sourceActive .reverse = true ↔ axles (fun st => st = .reverse))
    ∧ (c.sourceActive .turn = true ↔ c.tables.driveCfg.turnThreshold ≤ c.stm.command.natAbs
        ∧ axles (fun st => st = .forward ∨ st = .reverse))
    ∧ (c.sourceActive .winch = true ↔ c.wnc.state = .jogIn ∨ c.wnc.state = .jogOut ∨ c.wnc.state = .runIn
        ∨ c.wnc.state = .runOut ∨ c.wnc.state = .free)
    ∧ (c.sourceActive .alert = true ↔ ∃ a, c.topAlert = some a ∧ a.level ≤ 3)
    ∧ (c.sourceActive .failsafe = true ↔ c.ulr.link = .await ∨ c.ulr.link = .failsafe)
    ∧ (c.sourceActive .override = true ↔ ∃ o : Fin 8, c.sup.switches.getLsbD (4 + o.val) = true)
    ∧ (∀ x : Source, c.picture.active[x.index] = c.sourceActive x))
  ∧ (∀ (c : Chip) (x : Source),
    (c.mdc.mode = .active → c.btm.level = .normal ∨ c.btm.level = .low → c.sourceEligible x = true)
    ∧ (c.btm.level ≠ .cutoff → c.mdc.mode = .parked ∨ c.mdc.mode = .active ∧ c.btm.level = .critical →
      (c.sourceEligible x = true ↔ x = .alert ∨ x = .failsafe)))
  ∧ (∀ (c : Chip) (x : Source) (o : Fin 8),
    let a := (c.tables.scene[x.index]).actions[o]
    let s := c.stm.command
    let takesPart := a.code ≠ .none
      ∧ (x = .turn → a.side = .right ∧ 0 < s ∨ a.side = .left ∧ s < 0)
      ∧ (x = .override → c.sup.switches.getLsbD (4 + o.val) = true)
    (takesPart → c.actionFor x o = some a) ∧ (¬takesPart → c.actionFor x o = none))
  ∧ (∀ (c : Chip) (x : Source) (o : Fin 8), c.picture.winner[o] = some x → ∀ a, c.actionFor x o = some a →
    let pattern (i : Fin 4) : Nat :=
      if c.lsq.timebase.toNat % (c.tables.pattern[i]).period < (c.tables.pattern[i]).onTime then a.level.toNat else 0
    (a.code = .steady → c.picture.raw[o] = a.level.toNat)
    ∧ (a.code = .blink → x ≠ .alert → c.picture.raw[o] = pattern a.pattern)
    ∧ (a.code = .blink → x = .alert → ∀ top, c.topAlert = some top →
      (top.level = 1 → c.picture.raw[o] = pattern c.tables.alertMap[0])
      ∧ (top.level = 2 → c.picture.raw[o] = pattern c.tables.alertMap[1])
      ∧ (top.level = 3 → c.picture.raw[o] = pattern c.tables.alertMap[2])))
  ∧ (∀ (c : Chip) (o : Fin 8),
    c.picture.demand = (((List.finRange 8).map fun i => c.picture.raw[i] * c.tables.lightOut[i]).sum) / 255
      ∧ (c.lsq.granted = true → c.picture.level[o] = scaleTo c.lsq.grant c.picture.demand c.picture.raw[o])
      ∧ (c.lsq.granted = false → c.picture.level[o] = 0))
  ∧ ∀ (c : Chip) (o : Fin 8),
    let priority (x : Source) := (c.tables.scene[x.index]).priority
    let candidate (x : Source) := c.sourceActive x = true ∧ c.sourceEligible x = true ∧ (c.actionFor x o).isSome = true
    (∀ x, c.picture.winner[o] = some x → candidate x
      ∧ ∀ y, candidate y → priority y < priority x ∨ priority y = priority x ∧ x.index ≤ y.index)
    ∧ (c.picture.winner[o] = none ↔ ∀ y, ¬candidate y)
    ∧ (c.picture.winner[o] = none → c.picture.raw[o] = 0 ∧ c.picture.level[o] = 0)
    ∧ (∀ x, c.btm.level = .cutoff ∨ c.mdc.mode = .dormant → c.sourceEligible x = false)
    ∧ (∀ x, c.mdc.mode = .parked ∨ c.btm.level = .critical → x ≠ .alert → x ≠ .failsafe → c.sourceEligible x = false)

/-! ## Battery and budget (R130 to R155) -/

/-- A measurement completion, taken whenever the part runs and the schedule names one, is handled whole by BTM, which hands
the level budget to BGA. BGA sets the steering grant aside and divides the rest by the demands and the effective weights,
which boost at NORMAL and an eligible latch of level 3 or more severe raise; each consumer holds its grant. ALT holds the
causes of the level and of the capacity force, and a trip raises OVERCURRENT. At a change of level DRM applies its caps anew,
the winch locks at CRITICAL and CUTOFF, and boost ends away from NORMAL; without one, WNC's record is that of the grant
event. The next completion is due 10 ms on in ACTIVE and 100 ms on in PARKED, and nothing but supply, mixer, winch, light,
alert and cutoff-timer state changes. A level change that leaves no lock cause releases a LOCKED winch into IDLE. The blocks
take the completion one after another in the order, each once, and BGA divides by the demands and weights as they stand at
its turn; the consumers take their grants likewise (R66, R84, R85, R104, R130, R131, R139, R142, R143, R149 to R153, R157,
R163, R169, R198). It rests on the model's choices of log entries 2, 4, 23, 28 and 41. -/
def Obligations.MeasurementDividesTheBudget : Prop :=
  (∀ (r : Readings) (order : List EvalTaker) (s : State) (due : Nat), s.chip.Running →
    s.chip.btm.nextMeas = some due →
    let c := s.chip
    let now := c.dueAt due
    let p := c.tables.protect
    let level := (c.btm.measure p now r).level
    let trip := p.iTrip < min 60000 r.current ∧ ∃ x, c.btm.overcurrent = some x ∧ x + 100 ≤ now
    ∃ t, exec (.measurementCompletion r order) s = .next t ∧ t.pending = s.pending
      ∧ t.chip = { c with
          now := now
          btm := { c.btm.measure p now r with
            nextMeas := some (now + if c.mdc.mode = .active then 10 else 100) }
          drm := t.chip.drm, wnc := t.chip.wnc, lsq := t.chip.lsq, bga := t.chip.bga, alt := t.chip.alt
          mdc := { c.mdc with cutoffTimer :=
            if c.btm.level ≠ .cutoff ∧ level = .cutoff then some (now + 200) else c.mdc.cutoffTimer } }
      ∧ t.chip.bga.budget = t.chip.btm.levelBudget p
      ∧ t.chip.bga.steer = (if c.stm.pulsing then min c.tables.budget.reservation t.chip.bga.budget else 0)
      ∧ (∀ tripped : Bool, (tripped = true ↔ trip) →
          let turn := Chip.takeEvaluation c.btm.level tripped order
          t.chip = (evalTakers order).foldl turn { c with now := now, btm := t.chip.btm }
          ∧ ∃ before after, evalTakers order = before ++ .bga :: after
            ∧ t.chip.bga
              = (before.foldl turn { c with now := now, btm := t.chip.btm }).division t.chip.bga.budget level)
      ∧ (∃ (demands weights : Shares),
          ({ drive := t.chip.bga.drive, winch := t.chip.bga.winch, lights := t.chip.bga.lights } : Shares)
              = divideBudget (t.chip.bga.budget - t.chip.bga.steer) demands weights
          ∧ weights.drive = c.tables.budget.driveWeight
          ∧ (level = c.btm.level → demands.drive = c.drm.demand ∧ demands.winch = c.wnc.demand
            ∧ weights.winch = (c.weights level).winch)
          ∧ ∀ rest, order = .bga :: rest →
              demands = { drive := c.drm.demand, winch := c.wnc.demand, lights := c.lsq.demand }
              ∧ weights = c.weights level)
      ∧ t.chip.bga.Ok
      ∧ (c.mdc.mode = .active → t.chip.drm.grant = t.chip.bga.drive)
      ∧ t.chip.wnc.grant = t.chip.bga.winch ∧ t.chip.lsq.grant = t.chip.bga.lights ∧ t.chip.lsq.granted = true
      ∧ (t.chip.alt.caused .battLow = true ↔ level ≠ .normal)
      ∧ (t.chip.alt.caused .battCritical = true ↔ level = .critical ∨ level = .cutoff)
      ∧ (t.chip.alt.caused .battCutoff = true ↔ level = .cutoff)
      ∧ t.chip.alt.caused .capacity = t.chip.btm.capForce
      ∧ (∀ a, a ≠ .winchStall → (t.chip.alt.has a = true ↔ c.alt.has a = true ∨ a = .overcurrent ∧ trip
          ∨ a = .battLow ∧ level ≠ .normal ∨ a = .battCritical ∧ (level = .critical ∨ level = .cutoff)
          ∨ a = .battCutoff ∧ level = .cutoff ∨ a = .capacity ∧ t.chip.btm.capForce = true))
      ∧ (level ≠ c.btm.level →
          (c.mdc.mode = .active →
            t.chip.drm.axleRequest = capRequest t.chip.driveCap c.drm.request ∧ t.chip.drm.request = c.drm.request)
          ∧ (level = .critical ∨ level = .cutoff → t.chip.wnc.state = .locked)
          ∧ (c.wnc.state = .locked → level = .normal ∨ level = .low → c.linkUp → c.winchInhibit = false →
              c.mdc.bench = false → c.mdc.mode = .active →
            t.chip.wnc.state = .idle ∧ t.chip.wnc.run = none ∧ t.chip.wnc.requested = 0 ∧ t.chip.wnc.creep = 0
              ∧ t.chip.wnc.creepReported = false ∧ t.chip.wnc.holdOff = c.wnc.holdOff)
          ∧ (level ≠ .normal → t.chip.wnc.boost = false))
      ∧ (level = c.btm.level → t.chip.wnc
          = (c.wnc.takeGrant c.tables.winchCfg t.chip.bga.winch level c.boostDisable).settle c.tables.winchCfg))
  ∧ (∀ order : List EvalTaker, (evalTakers order).Perm [.alt, .drm, .wnc, .lsq, .mdc, .bga]
    ∧ (order.Nodup → ∃ rest, evalTakers order = order ++ rest))
  ∧ (∀ (c : Chip) (before : Level) (trip : Bool) (order : List EvalTaker),
    let turn := c.takeEvaluation before trip order
    let level := c.btm.level
    let ended (kind : OpKind) : Option LastOp :=
      some { kind := kind, requested := c.wnc.run.map Run.count, counts := c.wnc.countsDone, outcome := .locked }
    let record : Option LastOp :=
      match c.wnc.state with
      | .jogIn => ended .jogIn
      | .jogOut => ended .jogOut
      | .runIn => ended .runIn
      | .runOut => ended .runOut
      | .idle | .free | .stalled | .locked => c.wnc.lastOp
    let locked : Winch :=
      if c.wnc.state = .locked then c.wnc
      else { c.wnc with state := .locked, run := none, requested := 0, holdOff := true, lastOp := record }
    let released : Winch :=
      if c.wnc.state = .locked then
        { c.wnc with state := .idle, run := none, requested := 0, creep := 0, creepReported := false }
      else c.wnc
    (turn .alt = { c with alt := (turn .alt).alt, lsq := (turn .alt).lsq }
      ∧ ((turn .alt).topAlert = c.topAlert → (turn .alt).lsq = c.lsq)
      ∧ ((turn .alt).topAlert ≠ c.topAlert → (turn .alt).lsq = (turn .alt).picture)
      ∧ (turn .alt).alt.fault = c.alt.fault
      ∧ ∀ a,
        let holds := a = .battLow ∧ level ≠ .normal ∨ a = .battCritical ∧ (level = .critical ∨ level = .cutoff)
          ∨ a = .battCutoff ∧ level = .cutoff ∨ a = .capacity ∧ c.btm.capForce = true
        let reported := a = .battLow ∨ a = .battCritical ∨ a = .battCutoff ∨ a = .capacity
        ((turn .alt).alt.caused a = true ↔ holds ∨ ¬reported ∧ c.alt.caused a = true)
          ∧ ((turn .alt).alt.has a = true ↔ c.alt.has a = true ∨ holds ∨ a = .overcurrent ∧ trip = true))
    ∧ turn .drm = (if level ≠ before ∧ c.mdc.mode = .active then c.recap else c)
    ∧ turn .wnc = (if level ≠ before then
        c.setWinch { if c.winchLockCause = true then locked else released with
          boost := c.wnc.boost && decide (level = .normal) }
      else c)
    ∧ turn .lsq = (if level ≠ before then c.relight else c)
    ∧ turn .mdc = (if level ≠ before ∧ level = .cutoff then
        { c with mdc := { c.mdc with cutoffTimer := some (c.now + 200) } }
      else c)
    ∧ turn .bga = (evalTakers order).foldl Chip.takeGrantOf { c with bga := c.division (c.btm.budget.getD 0) level })
  ∧ (∀ c : Chip,
    c.takeGrantOf .drm = (if c.mdc.mode = .active then
        { c with drm := ({ c.drm with grant := c.bga.drive } : Drm).rescale c.tables.driveCfg }
      else c)
    ∧ c.takeGrantOf .wnc
      = c.setWinch (c.wnc.takeGrant c.tables.winchCfg c.bga.winch c.btm.level c.boostDisable)
    ∧ c.takeGrantOf .lsq = Chip.relight { c with lsq := { c.lsq with grant := c.bga.lights, granted := true } }
    ∧ ∀ x, x ≠ .drm → x ≠ .wnc → x ≠ .lsq → c.takeGrantOf x = c)
  ∧ (∀ (c : Chip) (level : Level),
    let w := c.weights level
    let raised := ∃ a, c.alt.has a = true ∧ a.level ≤ 3 ∧ (a.level ≤ c.tables.link.maskLevel ∨ a.level = 1)
    w.drive = c.tables.budget.driveWeight
      ∧ w.winch = (if c.wnc.boost = true ∧ level = .normal then 7 else c.tables.budget.winchWeight)
      ∧ (raised → w.lights = max c.tables.budget.lightWeight 4) ∧ (¬raised → w.lights = c.tables.budget.lightWeight))

/-- What one measurement makes of BTM's record: readings beyond their range at the range's end, the filter, the compensated
voltage, the charge and the capacity force; the overcurrent start, its trip and the foldback timer; the level it seeds while
the start-up window is open, and the level state machine on these values once it has ended; the level budget, folded while
the foldback timer runs; and nothing else (R131 to R138, R141, R143 to R145). The compensated voltage starts from the
lowest of the filtered cells (R134). -/
def Obligations.MeasurementArithmetic : Prop :=
  (∀ v vs, lowestCell (v :: vs) ∈ v :: vs ∧ ∀ x ∈ v :: vs, lowestCell (v :: vs) ≤ x)
  ∧ lowestCell [] = 0
  ∧ ∀ (b : Btm) (p : Protect) (now : Nat) (r : Readings), b.lastMeas ≤ now →
    let q : Readings :=
      { v1 := min 5000 r.v1, v2 := min 5000 r.v2, v3 := min 5000 r.v3, v4 := min 5000 r.v4, vpack := min 20000 r.vpack,
        current := min 60000 r.current }
    let t := b.measure p now r
    let n := b.cells.getD
      (if p.cellCount ≠ 0 then p.cellCount else if q.vpack ≤ 8700 then 2 else if q.vpack ≤ 13050 then 3 else 4)
    let counted := [q.v1, q.v2, q.v3, q.v4].take n
    let added := b.acc + q.current * (now - b.lastMeas)
    let trip := p.iTrip < q.current ∧ ∃ x, b.overcurrent = some x ∧ x + 100 ≤ now
    let own : Nat :=
      match t.level with
      | .normal => p.bNormal
      | .low => p.bLow
      | .critical => p.bCrit
      | .cutoff => 0
    let sensed : Btm :=
      { b with
        cells := t.cells, vf := t.vf, readings := t.readings, vc := t.vc, charge := t.charge, acc := t.acc,
        lastMeas := t.lastMeas, capForce := t.capForce, overcurrent := t.overcurrent, foldback := t.foldback }
    t.cells = some n ∧ t.readings = some q ∧ t.lastMeas = now
      ∧ (b.vf = [] → t.vf = counted)
      ∧ (b.vf ≠ [] → t.vf = List.zipWith
          (fun vf v =>
            if vf + 8 ≤ v then vf + (v - vf) / 8 else if vf < v then vf + 1
            else if v + 8 ≤ vf then vf - (vf - v) / 8 else if v < vf then vf - 1 else vf)
          b.vf counted)
      ∧ t.vc = lowestCell t.vf + q.current * p.rint / 1000
      ∧ t.charge = min 65535 (b.charge + added / 3600000) ∧ t.acc = added % 3600000
      ∧ (t.capForce = true ↔ b.capForce = true ∨ p.capacity ≠ 0 ∧ p.capacity * p.percent ≤ t.charge * 100)
      ∧ (trip → t.overcurrent = none ∧ t.foldback = some (now + p.foldbackTime))
      ∧ (¬trip → t.foldback = b.foldback)
      ∧ (q.current ≤ p.iTrip → t.overcurrent = none)
      ∧ (p.iTrip < q.current → ¬trip → t.overcurrent = some (b.overcurrent.getD now))
      ∧ (b.window ≠ none →
          t = { sensed with level := t.level, budget := t.budget }
          ∧ t.level =
            (if b.level = .cutoff ∨ t.vc < p.vCut then .cutoff else if t.vc < p.vCrit then .critical
             else if t.vc < p.vLow ∨ t.capForce = true then .low else .normal))
      ∧ (b.window = none → t = { sensed.levelStep p now with budget := t.budget })
      ∧ t.budget = some (t.levelBudget p)
      ∧ t.levelBudget p = (if t.foldback = none then own else min own p.iFold)

/-- Outside the start-up window the level rises in severity only where the condition has held for the entry time, falls by
one level only where recovery has held for 5000 ms, and never leaves CUTOFF. An entry start is set where the condition of a
more severe level holds and cleared where it does not; the most severe level due is entered, LOW also from NORMAL under the
capacity force; the recovery start is set and cleared likewise, and recovery leads from CRITICAL to LOW and from LOW to
NORMAL. A change of level clears the recovery start and the entry starts of the levels no more severe than the new one; nothing
but the level and these starts changes (R138 to R140). -/
def Obligations.LevelMovesByEntryAndRecovery : Prop :=
  ∀ (b : Btm) (p : Protect) (now : Nat), p.vCut < p.vCrit → p.vCrit < p.vLow →
    let t := b.levelStep p now
    let old (start : Option Nat) (time : Nat) : Prop := ∃ x, start = some x ∧ x + time ≤ now
    let tested (severity threshold : Nat) (start : Option Nat) : Option Nat :=
      if b.level.severity < severity ∧ b.vc < threshold then some (start.getD now) else none
    let cutDue := b.level ≠ .cutoff ∧ b.vc < p.vCut ∧ old b.startCut 500
    let critDue := (b.level = .normal ∨ b.level = .low) ∧ b.vc < p.vCrit ∧ old b.startCrit 1000
    let lowDue := b.level = .normal ∧ (b.capForce = true ∨ b.vc < p.vLow ∧ old b.startLow 2000)
    let recovers := b.level = .low ∧ p.vLow + p.hysteresis ≤ b.vc ∧ b.capForce = false
      ∨ b.level = .critical ∧ p.vCrit + p.hysteresis ≤ b.vc
    let due := cutDue ∨ critDue ∨ lowDue
    (b.level = .cutoff → t.level = .cutoff)
    ∧ (t.level ≠ b.level → t.recovery = none)
    ∧ (b.level.severity < t.level.severity →
        (t.level = .cutoff → b.vc < p.vCut ∧ ∃ x, b.startCut = some x ∧ x + 500 ≤ now)
        ∧ (t.level = .critical → b.vc < p.vCrit ∧ ∃ x, b.startCrit = some x ∧ x + 1000 ≤ now)
        ∧ (t.level = .low → b.capForce = true ∨ b.vc < p.vLow ∧ ∃ x, b.startLow = some x ∧ x + 2000 ≤ now))
    ∧ (cutDue → t.level = .cutoff)
    ∧ (critDue → ¬cutDue → t.level = .critical)
    ∧ (lowDue → ¬cutDue → ¬critDue → t.level = .low)
    ∧ (t.level.severity < b.level.severity →
        (∃ x, b.recovery = some x ∧ x + 5000 ≤ now)
        ∧ (b.level = .low ∧ t.level = .normal ∧ p.vLow + p.hysteresis ≤ b.vc ∧ b.capForce = false
          ∨ b.level = .critical ∧ t.level = .low ∧ p.vCrit + p.hysteresis ≤ b.vc))
    ∧ (¬due → recovers → old b.recovery 5000 → t.level = if b.level = .critical then .low else .normal)
    ∧ (¬due → recovers → ¬old b.recovery 5000 → t.level = b.level ∧ t.recovery = some (b.recovery.getD now))
    ∧ (¬due → ¬recovers → t.level = b.level ∧ t.recovery = none)
    ∧ t.startLow = (if t.level ≠ b.level ∧ 1 ≤ t.level.severity then none else tested 1 p.vLow b.startLow)
    ∧ t.startCrit = (if t.level ≠ b.level ∧ 2 ≤ t.level.severity then none else tested 2 p.vCrit b.startCrit)
    ∧ t.startCut = (if t.level ≠ b.level ∧ 3 ≤ t.level.severity then none else tested 3 p.vCut b.startCut)
    ∧ t = { b with
        level := t.level, recovery := t.recovery, startLow := t.startLow, startCrit := t.startCrit, startCut := t.startCut }

/-- A division sets the steering grant aside and divides the rest of the budget by the demands as they stand. It grants demands
that fit together whole; otherwise each class gets at most its demand, a class without demand
gets nothing, the grants together stay within A, and a class granted less than its demand has at least the floor of its
weighted share of A. It has exactly the floor of its weighted share, among the classes granted less than their demands, of
what the others' demands leave of A, so that what a class does not use goes to later rounds; the floors leave at most one
milliampere less than there are such classes ungranted, and nothing of what is left is granted again (R154, R155). In each
round the shares sum to at most A, and each class that leaves takes no more than its share (R155). With the steering grant, the
grants of a division never exceed the budget in force; a division reads nothing of the one before, and the grants stand until
the next division or a reset (R155). -/
def Obligations.DivisionSharesTheBudget : Prop :=
  (∀ (c : Chip) (b : Nat) (level : Level),
    let d := c.division b level
    d.budget = b ∧ d.steer + d.drive + d.winch + d.lights ≤ d.budget
      ∧ d.steer = (if c.stm.pulsing then min c.tables.budget.reservation b else 0)
      ∧ ({ drive := d.drive, winch := d.winch, lights := d.lights } : Shares)
          = divideBudget (b - d.steer) { drive := c.drm.demand, winch := c.wnc.demand, lights := c.lsq.demand }
              (c.weights level)
      ∧ ∀ before : Bga, ({ c with bga := before } : Chip).division b level = d)
  ∧ (∀ (i : Instr) (s t : State), exec i s = .next t → (∀ r order, i ≠ .measurementCompletion r order) →
    t.chip.bga = s.chip.bga ∨ t.chip.bga = { budget := 0, steer := 0, drive := 0, winch := 0, lights := 0 })
  ∧ (∀ (a : Nat) (demands weights : Shares) (s : Members),
    ((sharesOf a weights s).within s).total ≤ a
      ∧ (demands.within (leaversOf demands (sharesOf a weights s) s)).total ≤ ((sharesOf a weights s).within s).total
      ∧ (let shares := sharesOf a weights s
        let leaves := leaversOf demands shares s
        (leaves.drive = true → demands.drive ≤ shares.drive)
          ∧ (leaves.winch = true → demands.winch ≤ shares.winch)
          ∧ (leaves.lights = true → demands.lights ≤ shares.lights)))
  ∧ ∀ (a : Nat) (demands weights : Shares), 0 < weights.drive → 0 < weights.winch → 0 < weights.lights →
    let g := divideBudget a demands weights
    let w := (if 0 < demands.drive then weights.drive else 0) + (if 0 < demands.winch then weights.winch else 0)
      + (if 0 < demands.lights then weights.lights else 0)
    (demands.drive + demands.winch + demands.lights ≤ a → g = demands)
    ∧ g.drive + g.winch + g.lights ≤ a
    ∧ g.drive ≤ demands.drive ∧ g.winch ≤ demands.winch ∧ g.lights ≤ demands.lights
    ∧ (g.drive < demands.drive → a * weights.drive / w ≤ g.drive)
    ∧ (g.winch < demands.winch → a * weights.winch / w ≤ g.winch)
    ∧ (g.lights < demands.lights → a * weights.lights / w ≤ g.lights)
    ∧ (demands.drive = 0 → g.drive = 0) ∧ (demands.winch = 0 → g.winch = 0) ∧ (demands.lights = 0 → g.lights = 0)
    ∧ (let short (granted demand x : Nat) : Nat := if granted < demand then x else 0
      let met (granted demand : Nat) : Nat := if granted < demand then 0 else demand
      let left := a - (met g.drive demands.drive + met g.winch demands.winch + met g.lights demands.lights)
      let sum := short g.drive demands.drive weights.drive + short g.winch demands.winch weights.winch
        + short g.lights demands.lights weights.lights
      let classes := short g.drive demands.drive 1 + short g.winch demands.winch 1 + short g.lights demands.lights 1
      (g.drive < demands.drive → g.drive = left * weights.drive / sum)
        ∧ (g.winch < demands.winch → g.winch = left * weights.winch / sum)
        ∧ (g.lights < demands.lights → g.lights = left * weights.lights / sum)
        ∧ (0 < classes → a + 1 ≤ g.drive + g.winch + g.lights + classes))

/-! ## Operating modes (R195 to R198) -/

/-- The cutoff timer's expiry enters DORMANT: every timer and schedule stops, both lines are cut off, the drive disarms with
its axles OFF, the line is no longer referenced, boost and the drive, winch and light demands end, no light output has a
winner or a level, every output stands at rest; link state, slots, tables, queues, latches and held grants stay (R7, R52, R63,
R79, R107, R120, R125, R128, R175, R178, R198). It rests on the model's choices of log entry 4. -/
def Obligations.CutoffExpiryEntersDormant : Prop :=
  ∀ (s : State) (due : Nat), s.chip.Running → s.chip.mdc.cutoffTimer = some due →
    let c := s.chip
    ∃ t, exec .cutoffTimerExpiry s = .next t ∧ t.pending = s.pending
      ∧ t.chip = { c with
          now := c.dueAt due
          ulr := { c.ulr with linkTimer := none, refreshDue := none }
          stm := { c.stm with pulsing := false, schedule := none }
          drm := { c.drm with
            arming := .disarmed, armTimer := none, demand := 0
            front := { state := .off, timer := none, left := none, effective := 0, output := 0 }
            rear := { state := .off, timer := none, left := none, effective := 0, output := 0 } }
          wnc := { c.wnc with boost := false, demand := 0, referenced := false }
          lsq := t.chip.lsq
          btm := { c.btm with foldback := none, nextMeas := none }
          rtx := { c.rtx with sending := none }
          atx := { c.atx with sending := none }
          mdc := { c.mdc with mode := .dormant, parkTimer := none, cutoffTimer := none } }
      ∧ t.chip.lsq.brakeHold = none ∧ t.chip.lsq.nextEvent = none ∧ t.chip.lsq.timebase = c.lsq.timebase
      ∧ (∀ o : Fin 8, t.chip.lsq.level[o] = 0 ∧ t.chip.lsq.winner[o] = none ∧ t.chip.lsq.raw[o] = 0)
      ∧ t.chip.lsq = t.chip.picture ∧ t.chip.lsq.demand = 0 ∧ t.chip.lsq.grant = c.lsq.grant
      ∧ t.chip.lsq.granted = c.lsq.granted
      ∧ t.chip.axleStage .front = (.coast, 0) ∧ t.chip.axleStage .rear = (.coast, 0)
      ∧ t.chip.winchStage = (.coast, 0) ∧ t.chip.returnLine = none ∧ t.chip.accessoryLine = none

/-- PARKED is entered from ACTIVE at the park timer's expiry and at a write that sets PARK_REQUEST: the servos go silent, the
drive disarms, each axle brakes where the link is AWAIT or FAILSAFE and coasts otherwise, the winch locks, which ends an
operation LOCKED with its counts done and leaves line position and boost allowance, the brake hold stops and the light
picture is formed, and the next measurement comes 100 ms after the latest one, the first of all still 10 ms after the release;
where that instant has gone by, the completion is due at once, which is the model's choice (log entry 21). An expiry in PARKED
only stops the timer, and a write that sets the bit there changes the bit alone (R50, R79, R84, R91, R128, R130,
R196). It rests on the model's choices of log entries 4, 7, 21 and 34. -/
def Obligations.ParkingStopsTheChassis : Prop :=
  ∀ (s : State) (due : Nat), s.chip.Running →
    let c := s.chip
    let axle : AxleRec :=
      if c.mdc.bench = false ∧ (c.ulr.link = .await ∨ c.ulr.link = .failsafe) then
        { state := .failsafeBrake, timer := none, left := none, effective := 0, output := c.tables.driveCfg.failsafeBrake }
      else { state := .off, timer := none, left := none, effective := 0, output := 0 }
    let ended (kind : OpKind) : Option LastOp :=
      some { kind := kind, requested := c.wnc.run.map Run.count, counts := c.wnc.countsDone, outcome := .locked }
    let record : Option LastOp :=
      match c.wnc.state with
      | .jogIn => ended .jogIn
      | .jogOut => ended .jogOut
      | .runIn => ended .runIn
      | .runOut => ended .runOut
      | .idle | .free | .stalled | .locked => c.wnc.lastOp
    let parked (now : Nat) (switches : BitVec 32) (park : Option Nat) (t : Chip) : Prop :=
      t = { c with
          now := now
          stm := { c.stm with pulsing := false, schedule := none }
          drm := { c.drm with arming := .disarmed, armTimer := none, demand := 0, front := axle, rear := axle }
          wnc := t.wnc, lsq := t.lsq, alt := t.alt
          btm := { c.btm with nextMeas :=
            if c.btm.readings = none then c.btm.nextMeas else some (c.btm.lastMeas + 100) }
          sup := { c.sup with switches := switches }
          mdc := { c.mdc with mode := .parked, parkTimer := park } }
        ∧ (c.wnc.state = .locked → t.wnc = { c.wnc with effective := 0, demand := 0, boost := false })
        ∧ (c.wnc.state ≠ .locked → t.wnc = { c.wnc with
            state := .locked, run := none, requested := 0, holdOff := true, effective := 0, demand := 0, boost := false
            lastOp := record })
        ∧ t.lsq = t.picture ∧ t.lsq.brakeHold = none ∧ t.lsq.timebase = c.lsq.timebase
        ∧ t.lsq.nextEvent = c.lsq.nextEvent ∧ t.lsq.grant = c.lsq.grant ∧ t.lsq.granted = c.lsq.granted
        ∧ t.alt = c.alt.cause .winchStall false
    (c.mdc.parkTimer = some due →
      (c.mdc.mode = .active → ∃ t, exec .parkTimerExpiry s = .next t ∧ t.pending = s.pending
        ∧ parked (c.dueAt due) c.sup.switches none t.chip)
      ∧ (c.mdc.mode = .parked → exec .parkTimerExpiry s = .next { s with chip := { c with
          now := c.dueAt due, mdc := { c.mdc with parkTimer := none } } }))
    ∧ (c.mdc.mode = .active → ∃ t, exec (.parkRequest true) s = .next t ∧ t.pending = s.pending
        ∧ parked c.now (c.sup.switches ||| 8#32) c.mdc.parkTimer t.chip)
    ∧ (c.mdc.mode = .parked → exec (.parkRequest true) s = .next { s with chip := { c with
        sup := { c.sup with switches := c.sup.switches ||| 8#32 } } })

/-- A write that clears PARK_REQUEST returns a PARKED part to ACTIVE where the link is LIVE and the THROTTLE u of the
decode that stands is 0; the drive stays DISARMED, the servos silent until the next update, the winch leaves its lock
where no other cause holds, and measurements come every 10 ms, the first still 10 ms after the release. In every other case it
changes the bit alone (R85, R109, R130, R197). It rests on the model's choices of log entries 7 and 21. -/
def Obligations.ClearingParkRequestReturns : Prop :=
  ∀ s : State, s.chip.Running →
    let c := s.chip
    let leaves := c.mdc.mode = .parked ∧ c.ulr.link = .live ∧ c.cdc.throttle = 0
    let cleared := c.sup.switches &&& ~~~8#32
    (¬leaves → exec (.parkRequest false) s = .next { s with chip := { c with
        sup := { c.sup with switches := cleared } } })
    ∧ (leaves → ∃ t, exec (.parkRequest false) s = .next t ∧ t.pending = s.pending
        ∧ t.chip = { c with
            drm := t.chip.drm, wnc := t.chip.wnc, lsq := t.chip.lsq, alt := t.chip.alt
            btm := { c.btm with nextMeas :=
              if c.btm.readings = none then c.btm.nextMeas
              else if c.now < c.btm.lastMeas + 10 then some (c.btm.lastMeas + 10) else some (c.now + 10) }
            sup := { c.sup with switches := cleared }
            mdc := { c.mdc with mode := .active } }
        ∧ t.chip.lsq = t.chip.picture ∧ t.chip.lsq.timebase = c.lsq.timebase
        ∧ t.chip.lsq.nextEvent = c.lsq.nextEvent ∧ t.chip.lsq.grant = c.lsq.grant ∧ t.chip.lsq.granted = c.lsq.granted
        ∧ (let active : Chip := { c with
              sup := { c.sup with switches := cleared }, mdc := { c.mdc with mode := .active } }
            let tested := (active.handleAxles c.drm).winchLockTest
            t.chip = { tested with lsq := tested.picture, btm := t.chip.btm })
        ∧ t.chip.drm.arming = c.drm.arming
        ∧ (c.drm.arming = .disarmed → ∀ a, (t.chip.drm.axle a).state = .off)
        ∧ (c.wnc.state = .locked →
            ((c.btm.level = .normal ∨ c.btm.level = .low) ∧ c.winchInhibit = false ∧ c.mdc.bench = false →
              t.chip.wnc.state = .idle ∧ t.chip.wnc.creep = 0)
            ∧ (¬((c.btm.level = .normal ∨ c.btm.level = .low) ∧ c.winchInhibit = false ∧ c.mdc.bench = false) →
              t.chip.wnc.state = .locked)))

/-! ## The lines (R171 to R178, R186) -/

/-- The end of a transmission frees its line, which then starts the oldest reply or else the status frame, and the oldest
pass-through frame or else the accessory frame; the end of the OK reply of a pending SOFT_RESTART is a warm reset instead;
another frame that ends while a restart is pending frees the line, and SUP takes no frame (R172, R178, R179, R186). A reply
joins the tail of its queue, and a status or an accessory frame takes its slot in place of an unsent one; an idle line starts
at once (R171, R172, R174, R177, R178). That a row without a frame in transmission does nothing is the model's choice (log
entry 5), and the count of free values is the model's own (log entry 32). It rests on the model's choices of log entry 11. -/
def Obligations.TransmissionsEnd : Prop :=
  (∀ (x : Rtx) (y : Atx) (r : Reply) (payload : List Byte),
    (x.sending ≠ none → x.putReply r = { x with replies := x.replies ++ [r] }
      ∧ x.putStatus payload = { x with slot := some payload, free := x.free + 1 })
    ∧ (x.sending = none → x.replies = [] → x.putReply r = { x with sending := some (.reply r) }
      ∧ x.putStatus payload = { x with slot := none, sending := some (.status payload), free := x.free + 1 })
    ∧ (y.sending ≠ none → y.putAccessory payload = { y with slot := some payload })
    ∧ (y.sending = none → y.queue = [] →
      y.putAccessory payload = { y with slot := none, sending := some (.accessory payload) }))
  ∧ ∀ s : State, s.chip.Running →
    let x := s.chip.rtx
    let y := s.chip.atx
    (y.sending = none → exec .accessoryTransmitCompletion s = .next s)
    ∧ (y.sending ≠ none →
      exec .accessoryTransmitCompletion s = .next { s with chip := { s.chip with
        atx := match y.queue with
          | p :: ps => { y with queue := ps, sending := some (.forward p) }
          | [] => { queue := [], slot := none, sending := y.slot.map AccessoryFrame.accessory } } })
    ∧ (x.sending = none → exec .returnTransmitCompletion s = .next s)
    ∧ (∀ frame, x.sending = some frame → s.chip.sup.queue = [] → s.chip.sup.restart = false →
      exec .returnTransmitCompletion s = .next { s with chip := { s.chip with
        rtx := match x.replies with
          | r :: rs => { x with replies := rs, sending := some (.reply r) }
          | [] => { x with slot := none, sending := x.slot.map ReturnFrame.status } } })
    ∧ (∀ r, x.sending = some (.reply r) → s.chip.sup.restart = true → r.head.toNat % 16 = 14 → r.status = .ok →
      exec .returnTransmitCompletion s = exec .warmReset s)
    ∧ (∀ frame, x.sending = some frame → s.chip.sup.restart = true →
      (¬∃ r, frame = .reply r ∧ r.head.toNat % 16 = 14 ∧ r.status = .ok) →
      exec .returnTransmitCompletion s = .next { s with chip := { s.chip with
        rtx := match x.replies with
          | r :: rs => { x with replies := rs, sending := some (.reply r) }
          | [] => { x with slot := none, sending := x.slot.map ReturnFrame.status } } })
    ∧ (∀ frame p ps r rs, x.sending = some frame → s.chip.sup.queue = p :: ps → s.chip.sup.restart = false →
      x.replies = r :: rs → rs.length = 3 →
      exec .returnTransmitCompletion s = .next { s with
        chip := (Chip.carryOut { s.chip with
          rtx := { x with replies := rs, sending := some (.reply r) }
          sup := { s.chip.sup with queue := ps } } p).give p })

/-! ## Setup frames (R6, R176, R179 to R182) -/

/-- An accepted setup frame goes by its unit address: to the forward queue, or silently away while that holds 2, where it is
another unit's; else to the setup queue, where it waits while SUP cannot take it, and is discarded with SETUP_FAULT and reason
QUEUE_FULL while the queue holds 4, the light picture being formed where that changes the top alert (R6, R169, R176, R179,
R180). A row that names a setup command is, on an uplink in HUNT, the accepted frame with this unit's address, the command's
code, the qualifier and the parameters (12, section 12.3), which is the model's reading of log entry 6. -/
def Obligations.SetupFramesAreRouted : Prop :=
  (∀ (q : Byte) (ps : List Byte) (s : State), s.chip.ulr.hunt = .hunt → s.chip.ulr.bytes = [] →
    let frame (code : Nat) (q : Byte) := exec (.setupFrameAccepted (s.chip.head code :: q :: ps)) s
    (exec (.identify q ps) s = frame 0 q ∧ exec (.readTable q ps) s = frame 1 q ∧ exec (.writeTable q ps) s = frame 2 q
      ∧ exec (.readSwitches q ps) s = frame 3 q ∧ exec (.writeSwitches q ps) s = frame 4 q
      ∧ exec (.setSwitch q ps) s = frame 5 q ∧ exec (.clearSwitch q ps) s = frame 6 q
      ∧ exec (.captureFailsafe q ps) s = frame 7 q ∧ exec (.winchRun q ps) s = frame 8 q
      ∧ exec (.winchStop q ps) s = frame 9 q ∧ exec (.winchZero q ps) s = frame 10 q ∧ exec (.winchFree q ps) s = frame 11 q
      ∧ exec (.ackAlert q ps) s = frame 12 q ∧ exec (.store ps) s = frame 13 1#8 ∧ exec (.restore ps) s = frame 13 2#8
      ∧ exec (.defaults ps) s = frame 13 3#8 ∧ exec (.softRestart q ps) s = frame 14 q
      ∧ exec (.unassignedCommand false q ps) s = frame 15 q ∧ exec (.unassignedCommand true q ps) s = frame 13 q))
  ∧ ∀ (head : Byte) (rest : List Byte) (s : State), s.chip.Running → 1 ≤ rest.length → rest.length ≤ 62 →
    let c : Chip := { s.chip with ulr := { s.chip.ulr with hunt := .hunt, bytes := [] } }
    let p := head :: rest
    let own := head.toNat / 16 = c.tables.link.unitAddress.val
    (¬own → 2 ≤ c.atx.queue.length → exec (.setupFrameAccepted p) s = .next { s with chip := c })
    ∧ (¬own → c.atx.queue.length < 2 → c.atx.sending ≠ none →
      exec (.setupFrameAccepted p) s
        = .next { s with chip := { c with atx := { c.atx with queue := c.atx.queue ++ [p] } } })
    ∧ (¬own → c.atx.queue = [] → c.atx.sending = none →
      exec (.setupFrameAccepted p) s
        = .next { s with chip := { c with atx := { c.atx with sending := some (.forward p) } } })
    ∧ (own → 4 ≤ c.sup.queue.length →
      ∃ t, exec (.setupFrameAccepted p) s = .next t ∧ t.pending = s.pending
        ∧ t.chip = { c with alt := t.chip.alt, lsq := t.chip.lsq }
        ∧ t.chip.alt.latched = c.alt.latched ||| Alert.setupFault.mask ∧ t.chip.alt.causes = c.alt.causes
        ∧ (∃ f, t.chip.alt.fault = some f ∧ f.command.val = head.toNat % 16 ∧ f.reason = .queueFull)
        ∧ (t.chip.topAlert = c.topAlert → t.chip.lsq = c.lsq) ∧ (t.chip.topAlert ≠ c.topAlert → t.chip.lsq = t.chip.picture)
        ∧ ∀ code : Fin 16, code.val = head.toNat % 16 → t.chip = c.setupFault code .queueFull)
    ∧ (own → c.sup.queue.length < 4 → 4 ≤ c.rtx.replies.length ∨ c.sup.restart = true →
      exec (.setupFrameAccepted p) s
        = .next { s with chip := { c with sup := { c.sup with queue := c.sup.queue ++ [p] } } })
    ∧ (own → c.Ready → exec (.setupFrameAccepted p) s = .next { s with chip := (c.carryOut p).give p })

/-- Ready IDENTIFY, READ_TABLE and READ_SWITCHES only reply: the identity, the record as it stands, the bits as they stand.
SOFT_RESTART sets restart pending and replies OK. A frame that names no command, of any length, is refused with
REFUSED_UNKNOWN (R181, R182, R186, R187, R188, R204). It rests on the model's choices of log entries 6 and 39 (the order of
the two range checks of READ_SWITCHES). -/
def Obligations.ReadsRestartAndUnassigned : Prop :=
  (∀ (q x : Byte) (s : State), s.chip.Ready →
    let c := s.chip
    let id := q.toNat
    let n := x.toNat
    let bits := c.sup.switches
      ||| (if c.mdc.bench then 0x8000#32 else 0#32)
      ||| (if c.drm.arming = .armed then 0x10000#32 else 0#32)
      ||| (if c.sup.store ≠ none then 0x20000#32 else 0#32)
    let tableChecks : List (Bool × Status) :=
      [(decide (1 ≤ id ∧ id ≤ 15), .refusedUnknown), (decide (n < recordCount id), .refusedAddress)]
    let runChecks : List (Bool × Status) :=
      [(decide (1 ≤ n ∧ n ≤ 16), .refusedLength), (decide (id ≤ 31 ∧ id + n ≤ 32), .refusedAddress)]
    (∀ ps, ps.length ≤ 61 → ps ≠ [] → exec (.identify q ps) s = .next { s with chip := c.refusedAs 0 .refusedLength })
    ∧ exec (.identify q []) s = .next { s with chip := c.answered 0 .ok [0x2C#8, 0x04#8, 0x01#8] }
    ∧ (∀ ps, ps.length ≤ 61 → ps.length ≠ 1 →
      exec (.readTable q ps) s = .next { s with chip := c.refusedAs 1 .refusedLength }
      ∧ exec (.readSwitches q ps) s = .next { s with chip := c.refusedAs 3 .refusedLength })
    ∧ exec (.readTable q [x]) s = .next { s with
      chip := c.underChecks 1 tableChecks
        (c.answered 1 .ok (q :: x :: c.tables.recordBytes id n)) }
    ∧ exec (.readSwitches q [x]) s = .next { s with
      chip := c.underChecks 3 runChecks
        (c.answered 3 .ok (q :: x :: (List.range n).map fun i => if bits.getLsbD (id + i) then 1#8 else 0#8)) })
  ∧ (∀ (q : Byte) (ps : List Byte) (s : State), s.chip.Ready → ps.length ≤ 61 →
    (ps ≠ [] → exec (.softRestart q ps) s = .next { s with chip := s.chip.refusedAs 14 .refusedLength })
    ∧ exec (.softRestart q []) s = .next { s with chip := { s.chip with
        sup := { s.chip.sup with restart := true }, rtx := s.chip.withReply 14 .ok [] } }
    ∧ exec (.unassignedCommand false q ps) s = .next { s with chip := s.chip.refusedAs 15 .refusedUnknown }
    ∧ (q ≠ 1#8 → q ≠ 2#8 → q ≠ 3#8 →
      exec (.unassignedCommand true q ps) s = .next { s with chip := s.chip.refusedAs 13 .refusedUnknown }))

/-! ## Tables and the store (R19, R76, R183, R190 to R194) -/

/-- Ready WRITE_TABLE under its checks in their order: length, table id, index, STORE in flight, ROLE_MAP while
ARMED, the structural check on the clamped record. A record that passes is written whole and echoed, CLAMPED where a
field was clamped; only WINCH_CFG can act on the winch and only LINK on the top alert (R27, R181, R183). A WINCH_CFG record
brings P within Pmax and A_b within A_max, and ends LIMIT an outward operation whose P it brings down to a referenced out end
(R95, R104). It rests on the model's choices of log entries 6 and 16, and byte 0 of the reply to a LINK write that changes the
unit address is the reading of log entry 14. -/
def Obligations.WriteTableWritesTheRecord : Prop :=
  ∀ (q x : Byte) (bs : List Byte) (s : State), s.chip.Ready → bs.length ≤ 60 →
    let c := s.chip
    let id := q.toNat
    let n := x.toNat
    let new := c.tables.writeRecord id n bs
    let checks : List (Bool × Status) :=
      [(decide (1 ≤ id ∧ id ≤ 15 → bs.length = recordLength id n), .refusedLength),
        (decide (1 ≤ id ∧ id ≤ 15), .refusedUnknown), (decide (n < recordCount id), .refusedAddress),
        (decide (c.sup.store = none), .busy), (decide (id = 2 → c.drm.arming ≠ .armed), .refusedArmed),
        (structureHolds id n bs, .refusedOrder)]
    exec (.writeTable q []) s
        = .next { s with chip := if 1 ≤ id ∧ id ≤ 15 then c.refusedAs 2 .refusedLength else c.refusedAs 2 .refusedUnknown }
    ∧ exec (.writeTable q (x :: bs)) s = .next { s with
      chip := c.underChecks 2 checks
        { c.writeRecord id n bs with
          rtx := c.withReply 2 (if new.recordBytes id n ≠ readBytes id bs then .clamped else .ok)
            (q :: x :: new.recordBytes id n) } }
    ∧ (c.writeRecord id n bs).tables = new
    ∧ (id = 8 → c.WinchReconfigured (c.writeRecord id n bs) new.winchCfg
        ∧ c.writeRecord id n bs = Chip.setWinch { c with tables := new } (c.wnc.reconfigure new.winchCfg))
    ∧ (id ≠ 8 → id ≠ 14 → ∀ d, d = c.writeRecord id n bs →
        d = { c with tables := new, cdc := d.cdc, lsq := c.lsq })
    ∧ (id ≠ 8 → ∀ d, d = c.writeRecord id n bs → d.wnc = c.wnc ∧ d.drm = c.drm ∧ d.alt = c.alt)
    ∧ (id = 14 → ∀ d, d = c.writeRecord id n bs →
        d = { c with tables := new, lsq := d.lsq }
        ∧ (d.topAlert = c.topAlert → d.lsq = c.lsq) ∧ (d.topAlert ≠ c.topAlert → d.lsq = d.picture))
    ∧ (firstFailure [] = none
        ∧ ∀ holds st rest, firstFailure ((holds, st) :: rest) = if holds = true then firstFailure rest else some st)
    ∧ (∀ m : RoleMap, [0, 1, 2, 3, 4].map m.switchRole = [m.steerSel, m.driveSel, m.profileSel, m.lightSel, m.auxSel])
    ∧ (∀ d, d = c.writeRecord id n bs →
        d = { c with tables := new, cdc := d.cdc, wnc := d.wnc, drm := d.drm, alt := d.alt, lsq := d.lsq }
        ∧ d.cdc = { c.cdc with switches := d.cdc.switches }
        ∧ ∀ i : Fin 5, (d.cdc.switches[i]).pos = (c.cdc.switches[i]).pos
          ∧ (id ≠ 2 → id ≠ 3 → d.cdc.switches[i] = c.cdc.switches[i])
          ∧ (id = 3 → n = i.val → (d.cdc.switches[i]).ordered = false)
          ∧ (id = 3 → n ≠ i.val → d.cdc.switches[i] = c.cdc.switches[i])
          ∧ (id = 2 → new.roleMap.switchRole i ≠ c.tables.roleMap.switchRole i → (d.cdc.switches[i]).ordered = false)
          ∧ (id = 2 → new.roleMap.switchRole i = c.tables.roleMap.switchRole i →
              d.cdc.switches[i] = c.cdc.switches[i]))

/-- Writing the bytes of the record that stands at any table id and index leaves tables within their ranges as they are: no
field of a record is dropped, moved or clamped (R183; 12, section 12.6). The tables have their numbers of records and lengths,
every record its fields in the order and the widths of 12, section 12.6, and a write clamps each field to its range (R25, R26,
R29, R34, R35, R47, R76, R105, R117, R121, R123, R147, R160, R183, R184, R204), PATTERN's on-time to the period as clamped; the
structural checks are made on the clamped values. -/
def Obligations.RecordsRoundTrip : Prop :=
  (∀ (t : Tables) (id index : Nat), t.Ok → 1 ≤ id → id ≤ 15 → index < recordCount id →
    t.writeRecord id index (t.recordBytes id index) = t
      ∧ (t.recordBytes id index).length = recordLength id index
      ∧ structureHolds id index (t.recordBytes id index) = true
      ∧ wasClamped t id index (t.recordBytes id index) = false)
  ∧ [1, 2, 3, 4, 5, 6, 7, 8, 9, 10, 11, 12, 13, 14, 15].map recordCount = [12, 1, 5, 4, 3, 2, 1, 1, 8, 10, 5, 1, 1, 1, 1]
  ∧ [1, 2, 3, 4, 5, 6, 7, 8, 9, 10, 11, 12, 13, 14, 15].map (fun id => recordLength id 0)
      = [7, 8, 9, 18, 11, 6, 12, 12, 2, 25, 2, 29, 5, 11, 24]
  ∧ (∀ id n, recordLength id n = if id = 11 ∧ n = 4 then 3 else recordLength id 0)
  ∧ (∀ t : Tables,
    let b (n : Nat) : List Byte := [BitVec.ofNat 8 n]
    let w (n : Nat) : List Byte := [BitVec.ofNat 8 n, BitVec.ofNat 8 (n / 256)]
    let z (x : Int) : List Byte := w (x % 65536).toNat
    let role (r : Role) : List Byte := b ((r.map Fin.val).getD 255)
    let m := t.roleMap
    let servo (e : ServoEnd) : List Byte := w e.left ++ w e.centre ++ w e.right
    let d := t.driveCfg
    let v := t.winchCfg
    let p := t.protect
    let l := t.link
    (∀ i : Fin 12, t.recordBytes 1 i.val = w (t.channelCal[i]).centre ++ w (t.channelCal[i]).halfSpan
      ++ w (t.channelCal[i]).deadband ++ b (if (t.channelCal[i]).reverse = true then 1 else 0))
    ∧ t.recordBytes 2 0 = role m.steer ++ role m.throttle ++ role m.winch ++ role m.steerSel ++ role m.driveSel
      ++ role m.profileSel ++ role m.lightSel ++ role m.auxSel
    ∧ (∀ i : Fin 5, t.recordBytes 3 i.val = b (if (t.switchDef[i]).kind = .two then 2 else 3) ++ z (t.switchDef[i]).t1
      ++ z (t.switchDef[i]).t2 ++ b (t.switchDef[i]).hyst ++ b (t.switchDef[i]).map0 ++ b (t.switchDef[i]).map1
      ++ b (t.switchDef[i]).map2)
    ∧ (∀ i : Fin 4, t.recordBytes 4 i.val = (List.finRange 9).flatMap fun k => z (t.curve[i])[k])
    ∧ (∀ i : Fin 3, t.recordBytes 5 i.val = b (t.profile[i]).throttleCurve.val ++ b (t.profile[i]).steeringCurve.val
      ++ w (t.profile[i]).rearRatio ++ w (t.profile[i]).speedLimit ++ w (t.profile[i]).reverseDelay
      ++ w (t.profile[i]).dragBrake ++ b (t.profile[i]).slew)
    ∧ t.recordBytes 6 0 = servo t.servoFront ∧ t.recordBytes 6 1 = servo t.servoRear
    ∧ t.recordBytes 7 0 = b d.ifsFront ++ b d.ifsRear ++ w d.armingTime ++ w d.failsafeBrake ++ w d.winchCap
      ++ w d.brakeHold ++ w d.turnThreshold
    ∧ t.recordBytes 8 0 = b v.ifs ++ w v.pmax ++ w v.jogThreshold ++ w v.jogMax ++ b v.stallWindow ++ w v.stallFloor
      ++ b v.creepLimit ++ b v.aMax
    ∧ (∀ i : Fin 8, t.recordBytes 9 i.val = w t.lightOut[i])
    ∧ (∀ i : Fin 10, t.recordBytes 10 i.val = b (t.scene[i]).priority ++ (List.finRange 8).flatMap fun o =>
      let a := (t.scene[i]).actions[o]
      b ((if a.code = .none then 0 else if a.code = .steady then 1 else 2) + (if a.side = .right then 128 else 0))
        ++ b a.pattern.val ++ [a.level])
    ∧ (∀ i : Fin 4, t.recordBytes 11 i.val = b (t.pattern[i]).period ++ b (t.pattern[i]).onTime)
    ∧ t.recordBytes 11 4 = b t.alertMap[0].val ++ b t.alertMap[1].val ++ b t.alertMap[2].val
    ∧ t.recordBytes 12 0 = b p.cellCount ++ b p.rint ++ w p.vLow ++ w p.vCrit ++ w p.vCut ++ w p.hysteresis ++ w p.capacity
      ++ b p.percent ++ w p.lowCap ++ w p.critCap ++ w p.iTrip ++ w p.foldbackTime ++ w p.iFold ++ w p.bNormal ++ w p.bLow
      ++ w p.bCrit
    ∧ t.recordBytes 13 0 = w t.budget.reservation ++ b t.budget.driveWeight ++ b t.budget.winchWeight ++ b t.budget.lightWeight
    ∧ t.recordBytes 14 0 = b l.unitAddress.val ++ w l.tHold ++ w l.tFs ++ b l.statusN ++ w l.parkDelay ++ b l.maskLevel
      ++ w l.window
    ∧ t.recordBytes 15 0 = (List.finRange 12).flatMap fun i => w ((t.failsafe[i].map BitVec.toNat).getD 65535))
  ∧ (∀ (t : Tables) (bs : List Byte) (n : Nat),
    let b (i : Nat) : Nat := (bs.getD i 0#8).toNat
    let w (i : Nat) : Nat := b i + 256 * b (i + 1)
    let z (i : Nat) : Int := if w i < 32768 then w i else (w i : Int) - 65536
    let cl (lo hi x : Nat) : Nat := max lo (min hi x)
    let clz (x : Int) : Int := max (-1000) (min 1000 x)
    let role (i : Nat) (r : Role) : Prop := (b i < 12 → r.map Fin.val = some (b i)) ∧ (12 ≤ b i → r = none)
    let top := if n = 0 then 3 else if n = 4 then 1 else 2
    let sw : SwitchDef := { kind := if b 0 < 3 then .two else .three, t1 := clz (z 1), t2 := clz (z 3), hyst := min 100 (b 5),
                            map0 := min top (b 6), map1 := min top (b 7), map2 := min top (b 8) }
    let servo : ServoEnd := { left := cl 800 2200 (w 0), centre := cl 800 2200 (w 2), right := cl 800 2200 (w 4) }
    let protect : Protect :=
      { cellCount := if b 0 = 0 then 0 else cl 2 4 (b 0), rint := min 100 (b 1), vLow := cl 2500 4200 (w 2),
        vCrit := cl 2500 4200 (w 4), vCut := cl 2500 4200 (w 6), hysteresis := min 500 (w 8), capacity := w 10,
        percent := cl 1 100 (b 12), lowCap := min 1000 (w 13), critCap := min 1000 (w 15), iTrip := cl 1000 60000 (w 17),
        foldbackTime := cl 100 10000 (w 19), iFold := min 60000 (w 21), bNormal := min 60000 (w 23), bLow := min 60000 (w 25),
        bCrit := min 60000 (w 27) }
    let cal : ChannelCal :=
      { centre := cl 1024 3072 (w 0), halfSpan := cl 256 2047 (w 2), deadband := min 200 (w 4), reverse := decide (b 6 ≠ 0) }
    let profile : Profile :=
      { throttleCurve := Fin.ofNat 4 (min 3 (b 0)), steeringCurve := Fin.ofNat 4 (min 3 (b 1)), rearRatio := min 1000 (w 2),
        speedLimit := cl 100 1000 (w 4), reverseDelay := min 500 (w 6), dragBrake := min 1000 (w 8), slew := b 10 }
    let drive : DriveCfg :=
      { ifsFront := cl 1 30 (b 0), ifsRear := cl 1 30 (b 1), armingTime := cl 100 2000 (w 2), failsafeBrake := min 1000 (w 4),
        winchCap := min 1000 (w 6), brakeHold := min 2000 (w 8), turnThreshold := min 1000 (w 10) }
    let winch : WinchCfg :=
      { ifs := cl 1 30 (b 0), pmax := max 100 (w 1), jogThreshold := cl 50 500 (w 3), jogMax := cl 100 1000 (w 5),
        stallWindow := max 5 (b 7), stallFloor := min 1000 (w 8), creepLimit := max 1 (b 10), aMax := b 11 }
    let action (o : Fin 8) : Action :=
      { code := if b (1 + 3 * o.val) % 4 = 1 then .steady else if b (1 + 3 * o.val) % 4 = 2 then .blink else .none
        side := if 128 ≤ b (1 + 3 * o.val) then .right else .left
        pattern := Fin.ofNat 4 (min 3 (b (2 + 3 * o.val))), level := bs.getD (3 + 3 * o.val) 0#8 }
    let pattern : Pattern := { period := cl 10 200 (b 0), onTime := cl 1 (cl 10 200 (b 0)) (b 1) }
    let budget : Budget :=
      { reservation := min 10000 (w 0), driveWeight := cl 1 6 (b 2), winchWeight := cl 1 6 (b 3), lightWeight := cl 1 6 (b 4) }
    let link : LinkCfg :=
      { unitAddress := Fin.ofNat 16 (min 15 (b 0)), tHold := cl 20 1000 (w 1), tFs := cl 100 5000 (w 3), statusN := cl 1 50 (b 5),
        parkDelay := cl 5 600 (w 6), maskLevel := cl 1 6 (b 8), window := min 300 (w 9) }
    let entry (i : Fin 12) : Option Raw :=
      if w (2 * i.val) = 65535 then none else some (BitVec.ofNat 12 (min 4095 (w (2 * i.val))))
    let d (id : Nat) : Tables := t.writeRecord id n bs
    let m := (d 2).roleMap
    d 1 = { t with channelCal := t.channelCal.setIfInBounds n cal }
    ∧ (d 2 = { t with roleMap := m } ∧ role 0 m.steer ∧ role 1 m.throttle ∧ role 2 m.winch ∧ role 3 m.steerSel
      ∧ role 4 m.driveSel ∧ role 5 m.profileSel ∧ role 6 m.lightSel ∧ role 7 m.auxSel)
    ∧ d 3 = { t with switchDef := t.switchDef.setIfInBounds n sw }
    ∧ d 4 = { t with curve := t.curve.setIfInBounds n (Vector.ofFn fun k : Fin 9 => clz (z (2 * k.val))) }
    ∧ d 5 = { t with profile := t.profile.setIfInBounds n profile }
    ∧ d 6 = (if n = 0 then { t with servoFront := servo } else { t with servoRear := servo })
    ∧ d 7 = { t with driveCfg := drive } ∧ d 8 = { t with winchCfg := winch }
    ∧ d 9 = { t with lightOut := t.lightOut.setIfInBounds n (min 2000 (w 0)) }
    ∧ d 10 = { t with scene := t.scene.setIfInBounds n { priority := cl 1 7 (b 0), actions := Vector.ofFn action } }
    ∧ d 11 = (if n = 4 then { t with alertMap := Vector.ofFn fun i : Fin 3 => Fin.ofNat 4 (min 3 (b i.val)) }
      else { t with pattern := t.pattern.setIfInBounds n pattern })
    ∧ d 12 = { t with protect := protect } ∧ d 13 = { t with budget := budget } ∧ d 14 = { t with link := link }
    ∧ d 15 = { t with failsafe := Vector.ofFn entry }
    ∧ (structureHolds 3 n bs = true ↔ sw.kind = .two ∨ sw.t1 < sw.t2)
    ∧ (structureHolds 6 n bs = true ↔ servo.left ≤ servo.centre ∧ servo.centre ≤ servo.right)
    ∧ (structureHolds 12 n bs = true ↔ protect.vCut < protect.vCrit ∧ protect.vCrit < protect.vLow)
    ∧ (∀ id, id ≠ 3 → id ≠ 6 → id ≠ 12 → structureHolds id n bs = true)
    ∧ (∀ id, id ≠ 10 → readBytes id bs = bs)
    ∧ (∀ i : Nat, (readBytes 10 bs)[i]? = bs[i]?.map fun x => if i % 3 = 1 then x &&& 0x83#8 else x))

/-- Ready CAPTURE_FAILSAFE copies the raw values of the masked slots into the failsafe record, an EMPTY slot as
absent, and changes nothing else; an empty mask is IGNORED, and a STORE in flight answers BUSY (R19). It rests on the
model's choices of log entry 6. -/
def Obligations.CaptureCopiesTheSlots : Prop :=
  ∀ (q : Byte) (mask : BitVec 16) (s : State), s.chip.Ready →
    let c := s.chip
    let record : Vector (Option Raw) 12 := Vector.ofFn fun i =>
      if mask.getLsbD i.val then (c.slots[i]).raw else c.tables.failsafe[i]
    (∀ ps, ps.length ≤ 61 → ps.length ≠ 2 →
      exec (.captureFailsafe q ps) s = .next { s with chip := c.refusedAs 7 .refusedLength })
    ∧ (c.sup.store ≠ none → exec (.captureFailsafe q (wordBytes mask)) s = .next { s with chip := c.answered 7 .busy [] })
    ∧ (c.sup.store = none →
      exec (.captureFailsafe q (wordBytes mask)) s = .next { s with chip := { c with
        tables := { c.tables with failsafe := record }
        rtx := c.withReply 7 (if mask.toNat % 4096 = 0 then .ignored else .ok) [] } })

/-- Ready STORE snapshots the tables and starts rewriting the image, which then checks bad; its completion 40 ms on
writes the snapshot and its check value, after which the image checks good. STORE is BUSY while one is in flight and
refused at CUTOFF (R190, R191). The table copy holds every record of tables 1 to 15 in id order and index order, the check
value is 65535 less the sum of its bytes modulo 65536, and an image that is not being rewritten is the blank mark, the copy and
the check value, and checks good where it is not blank and the check value agrees (R189; 12, section 12.6). It rests on the
model's choices of log entries 4, 6, 19 and 22. -/
def Obligations.StoreWritesTheImage : Prop :=
  (∀ t : Tables,
    t.copyBytes = ([1, 2, 3, 4, 5, 6, 7, 8, 9, 10, 11, 12, 13, 14, 15].flatMap fun id =>
      (List.range (recordCount id)).flatMap fun k => t.recordBytes id k)
    ∧ t.checkValue.toNat = 65535 - (t.copyBytes.map BitVec.toNat).sum % 65536)
  ∧ (∀ m : Image, (m.checksGood = true ↔ m.blank = false ∧ m.torn = false ∧ m.check = m.copy.checkValue)
    ∧ m.bytes = (if m.blank = true then 0xFF#8 else 0#8)
      :: m.copy.copyBytes ++ [BitVec.ofNat 8 m.check.toNat, BitVec.ofNat 8 (m.check.toNat / 256)])
  ∧ ∀ (ps : List Byte) (s : State),
    (s.chip.Ready → ps.length ≤ 61 → ps ≠ [] →
      exec (.store ps) s = .next { s with chip := s.chip.refusedAs 13 .refusedLength })
    ∧ (s.chip.Ready → s.chip.sup.store ≠ none → exec (.store []) s = .next { s with chip := s.chip.answered 13 .busy [] })
    ∧ (s.chip.Ready → s.chip.sup.store = none → s.chip.btm.level = .cutoff →
      exec (.store []) s = .next { s with chip := s.chip.refusedAs 13 .refusedState })
    ∧ (s.chip.Ready → s.chip.sup.store = none → s.chip.btm.level ≠ .cutoff →
      ∃ t, exec (.store []) s = .next t ∧ t.pending = s.pending
        ∧ t.chip = { s.chip with
            sup := { s.chip.sup with store := some s.chip.now }
            tbs := { image := t.chip.tbs.image, snapshot := some s.chip.tables }
            rtx := s.chip.withReply 13 .ok [] }
        ∧ t.chip.tbs.image.blank = false ∧ t.chip.tbs.image.checksGood = false)
    ∧ (∀ start tables, s.chip.Running → s.chip.sup.store = some start → s.chip.tbs.snapshot = some tables →
      ∃ t, exec .storeCompletion s = .next t ∧ t.pending = s.pending
        ∧ t.chip = { s.chip with
            now := s.chip.dueAt (start + 40)
            sup := { s.chip.sup with store := none }
            tbs := { image := t.chip.tbs.image, snapshot := none } }
        ∧ t.chip.tbs.image.blank = false ∧ t.chip.tbs.image.copy = tables
        ∧ t.chip.tbs.image.check = tables.checkValue ∧ t.chip.tbs.image.checksGood = true)

/-- Ready RESTORE and DEFAULTS replace all fifteen tables in one step, by the image and by the factory values; both
are BUSY during a STORE and refused while ARMED, and RESTORE is refused where the image does not check good; the
image and the switch space stay; the winch takes the new WINCH_CFG as it takes a written one (R95, R104, R187, R192, R193). The
factory values are those of the tables' own sections; the pattern and level of an action that does not use them are the model's
choice (log entry 24). It rests on the model's choices of log entries 6 and 20, and byte 0 of the reply where the unit address
changes is the reading of log entry 14. -/
def Obligations.RestoreAndDefaultsReplaceTables : Prop :=
  (let f := factoryTables
    let no : ActionCode × Nat × Nat := (.none, 0, 0)
    let on (level : Nat) : ActionCode × Nat × Nat := (.steady, 0, level)
    let blink (pattern level : Nat) : ActionCode × Nat × Nat := (.blink, pattern, level)
    let shown (a : Action) : ActionCode × Nat × Nat :=
      (a.code, if a.code = .blink then a.pattern.val else 0, if a.code = .none then 0 else a.level.toNat)
    (∀ i : Fin 12, f.channelCal[i] = { centre := 2048, halfSpan := 1600, deadband := 20, reverse := false })
    ∧ f.roleMap = { steer := some 0, throttle := some 1, winch := some 2, steerSel := some 3, driveSel := some 4,
                    profileSel := some 5, lightSel := some 6, auxSel := some 7 }
    ∧ f.switchDef.toList = ([(3, 0, 2), (2, 0, 1), (2, 0, 1), (2, 0, 1)].map fun m : Nat × Nat × Nat =>
        ({ kind := .three, t1 := -333, t2 := 333, hyst := 30, map0 := m.2.1, map1 := m.2.2, map2 := m.1 } : SwitchDef))
      ++ [{ kind := .two, t1 := 0, t2 := 1000, hyst := 30, map0 := 0, map1 := 1, map2 := 0 }]
    ∧ (∀ (i : Fin 4) (k : Fin 9), f.curve[i][k] = 250 * (k.val : Int) - 1000)
    ∧ (∀ i : Fin 3, f.profile[i] = { throttleCurve := Fin.ofNat 4 i.val, steeringCurve := 3, rearRatio := 1000, speedLimit := 1000,
                                     reverseDelay := 0, dragBrake := 1000, slew := 0 })
    ∧ f.servoFront = { left := 1100, centre := 1500, right := 1900 } ∧ f.servoRear = f.servoFront
    ∧ f.driveCfg = { ifsFront := 12, ifsRear := 12, armingTime := 500, failsafeBrake := 1000, winchCap := 400,
                     brakeHold := 500, turnThreshold := 600 }
    ∧ f.winchCfg = { ifs := 10, pmax := 4000, jogThreshold := 150, jogMax := 800, stallWindow := 50, stallFloor := 150,
                     creepLimit := 20, aMax := 100 }
    ∧ (∀ i : Fin 8, f.lightOut[i] = 300)
    ∧ f.scene.toList.map Scene.priority = [1, 2, 2, 4, 3, 5, 3, 6, 7, 7]
    ∧ (f.scene.toList.map fun r => r.actions.toList.map shown)
      = [[on 96, on 96, on 64, on 64, no, on 64, no, no], [on 255, on 255, no, no, on 255, no, no, no],
        [no, no, no, no, no, no, blink 3 255, no], [no, no, on 255, on 255, no, no, no, no],
        [no, no, on 180, on 180, no, no, no, no], [blink 1 255, blink 1 255, blink 1 255, blink 1 255, no, no, no, no],
        [no, no, no, no, no, no, no, on 255], [no, no, no, no, no, no, blink 0 255, no],
        [blink 2 128, blink 2 128, blink 2 128, blink 2 128, no, no, no, no],
        [on 255, on 255, on 255, on 255, on 255, on 255, on 255, on 255]]
    ∧ (((f.scene[5]).actions.toList.map Action.side).take 4 = [.left, .right, .left, .right])
    ∧ (f.pattern.toList.map fun x => (x.period, x.onTime)) = [(20, 10), (50, 25), (100, 50), (100, 10)]
    ∧ f.alertMap.toList = [0, 1, 2]
    ∧ f.protect = { cellCount := 0, rint := 0, vLow := 3500, vCrit := 3300, vCut := 3100, hysteresis := 100, capacity := 0,
                    percent := 80, lowCap := 600, critCap := 300, iTrip := 40000, foldbackTime := 2000, iFold := 10000,
                    bNormal := 20000, bLow := 12000, bCrit := 6000 }
    ∧ f.budget = { reservation := 3000, driveWeight := 4, winchWeight := 3, lightWeight := 2 }
    ∧ f.link = { unitAddress := 1, tHold := 100, tFs := 900, statusN := 5, parkDelay := 30, maskLevel := 5, window := 100 }
    ∧ (∀ i : Fin 12, f.failsafe[i] = none))
  ∧ ∀ s : State, s.chip.Ready →
    let c := s.chip
    let checks : List (Bool × Status) :=
      [(decide (c.sup.store = none), .busy), (decide (c.drm.arming ≠ .armed), .refusedArmed)]
    (∀ ps, ps.length ≤ 61 → ps ≠ [] →
      exec (.restore ps) s = .next { s with chip := c.refusedAs 13 .refusedLength }
      ∧ exec (.defaults ps) s = .next { s with chip := c.refusedAs 13 .refusedLength })
    ∧ exec (.restore []) s = .next { s with
        chip := c.underChecks 13 (checks ++ [(c.tbs.image.checksGood, .refusedState)])
          { c.loadTables c.tbs.image.copy with rtx := c.withReply 13 .ok [] } }
    ∧ exec (.defaults []) s = .next { s with
        chip := c.underChecks 13 checks { c.loadTables factoryTables with rtx := c.withReply 13 .ok [] } }
    ∧ ∀ t, ∀ d, d = c.loadTables t →
        d = { c with tables := t, cdc := d.cdc, wnc := d.wnc, drm := d.drm, alt := d.alt, lsq := d.lsq }
        ∧ c.WinchReconfigured d t.winchCfg
        ∧ (∃ e : Chip, e = { c with tables := t, cdc := d.cdc, lsq := e.lsq }
          ∧ (e.topAlert = c.topAlert → e.lsq = c.lsq) ∧ (e.topAlert ≠ c.topAlert → e.lsq = e.picture)
          ∧ d = e.setWinch (c.wnc.reconfigure t.winchCfg))
        ∧ d.cdc = { c.cdc with switches := d.cdc.switches }
        ∧ ∀ i : Fin 5, (d.cdc.switches[i]).pos = (c.cdc.switches[i]).pos
          ∧ ((d.cdc.switches[i]).ordered = true ↔ (c.cdc.switches[i]).ordered = true
              ∧ t.switchDef[i] = c.tables.switchDef[i] ∧ t.roleMap.switchRole i = c.tables.roleMap.switchRole i)

/-! ## The switch space (R61, R84, R104, R119, R136, R187, R188) -/

/-- Ready switch writes answer OK where they changed a read/write bit or fired the strobe and IGNORED otherwise, with the 32
bits after the write; SET_SWITCH and CLEAR_SWITCH write one bit; addresses and counts are checked (R188). A write sets and
clears exactly the read/write bits it names; the strobe and the read-only bits hold nothing; a write of SERVO_QUIET_FS,
REAR_STEER_LOCK or of bits that SUP does not hold changes nothing else (R187). A write is one event at every consumer
concerned: DRM, WNC, BTM, MDC and LSQ, in the order of log entry 35; the write of one acting bit is the row that names the
bit, DRIVE_INHIBIT, WINCH_INHIBIT, PARK_REQUEST, OVERRIDE, RESET_CHARGE or BOOST_DISABLE (R61, R63, R84, R85, R104, R109,
R119, R136, R187, R196, R197). The bits have the numbers of 10, section 10.5, and BENCH, ARMED and STORE_BUSY are read from
their owners. It rests on the model's choices of log entries 6, 7 and 35. -/
def Obligations.SwitchCommandsWriteTheirBits : Prop :=
  (∀ (c : Chip) (v : BitVec 32),
    [c.driveInhibit, c.winchInhibit, c.servoQuiet, c.parkRequest, c.boostDisable, c.rearSteerLock]
        = [0, 1, 2, 3, 13, 14].map c.sup.switches.getLsbD
      ∧ c.switchSpace = c.sup.switches ||| (if c.mdc.bench = true then 1#32 <<< 15 else 0#32)
        ||| (if c.drm.arming = .armed then 1#32 <<< 16 else 0#32) ||| (if c.sup.store ≠ none then 1#32 <<< 17 else 0#32)
      ∧ bytesOf32 v = [v.setWidth 8, (v >>> 8).setWidth 8, (v >>> 16).setWidth 8, (v >>> 24).setWidth 8])
  ∧ (∀ (q x : Byte) (vs : List Byte) (s : State), s.chip.Ready → vs.length ≤ 60 →
    let c := s.chip
    let after (code : Nat) (mask value : BitVec 32) : Chip :=
      { c.putSwitches mask value with
        rtx := c.withReply code
          (if (c.putSwitches mask value).sup.switches ≠ c.sup.switches ∨ mask.getLsbD 12 ∧ value.getLsbD 12 then .ok
            else .ignored)
          (bytesOf32 (c.putSwitches mask value).switchSpace) }
    let bit := 1#32 <<< q.toNat
    let checks : List (Bool × Status) :=
      [(decide (1 ≤ x.toNat ∧ x.toNat ≤ 16 ∧ vs.length = x.toNat), .refusedLength),
        (decide (q.toNat ≤ 31 ∧ q.toNat + x.toNat ≤ 32), .refusedAddress)]
    let run := ((1#32 <<< x.toNat) - 1#32) <<< q.toNat
    let values : BitVec 32 :=
      (List.range x.toNat).foldl (fun v i => if vs.getD i 0#8 = 0#8 then v else v ||| 1#32 <<< (q.toNat + i)) 0#32
    (∀ ps, ps.length ≤ 61 → ps ≠ [] →
      exec (.setSwitch q ps) s = .next { s with chip := c.refusedAs 5 .refusedLength }
      ∧ exec (.clearSwitch q ps) s = .next { s with chip := c.refusedAs 6 .refusedLength })
    ∧ exec (.setSwitch q []) s
        = .next { s with chip := if q.toNat ≤ 31 then after 5 bit bit else c.refusedAs 5 .refusedAddress }
    ∧ exec (.clearSwitch q []) s
        = .next { s with chip := if q.toNat ≤ 31 then after 6 bit 0#32 else c.refusedAs 6 .refusedAddress }
    ∧ exec (.writeSwitches q []) s = .next { s with chip := c.refusedAs 4 .refusedLength }
    ∧ exec (.writeSwitches q (x :: vs)) s = .next { s with
      chip := c.underChecks 4 checks
        (after 4 run values) })
  ∧ (∀ (c : Chip) (mask value : BitVec 32),
    let t := c.putSwitches mask value
    (∀ n, n < 32 → t.sup.switches.getLsbD n
      = if mask.getLsbD n ∧ (n < 12 ∨ n = 13 ∨ n = 14) then value.getLsbD n else c.sup.switches.getLsbD n)
    ∧ t = { c with sup := { c.sup with switches := t.sup.switches }, stm := t.stm, drm := t.drm, wnc := t.wnc,
                   lsq := t.lsq, btm := t.btm, alt := t.alt, mdc := t.mdc }
    ∧ (mask &&& 0x00003FFB#32 = 0#32 → t = { c with sup := { c.sup with switches := t.sup.switches } }))
  ∧ (∀ (c : Chip) (mask value : BitVec 32),
    let t := c.putSwitches mask value
    let sets (n : Nat) : Prop := mask.getLsbD n = true ∧ value.getLsbD n = true
    let changes (n : Nat) : Prop := t.sup.switches.getLsbD n ≠ c.sup.switches.getLsbD n
    let written : Chip := { c with sup := t.sup }
    let drive := if sets 0 ∧ c.drm.arming ≠ .disarmed then
        written.handleAxles { c.drm with arming := .disarmed, armTimer := none }
      else written
    let winch := if changes 1 ∨ changes 13 then
        drive.setWinch { if changes 1 then c.wnc.lockTest written.winchLockCause else c.wnc with
          boost := c.wnc.boost && !written.boostDisable }
      else drive
    let charge : Chip := if sets 12 then
        { winch with
          btm := { winch.btm with charge := 0, acc := 0, capForce := false }
          alt := { winch.alt with causes := winch.alt.causes &&& ~~~Alert.capacity.mask } }
      else winch
    let park := if sets 3 ∧ c.mdc.mode = .active then charge.enterParked
      else if mask.getLsbD 3 = true ∧ value.getLsbD 3 = false then charge.parkExitTest
      else charge
    ((∃ n, 4 ≤ n ∧ n < 12 ∧ changes n) → t = park.relight) ∧ ((¬∃ n, 4 ≤ n ∧ n < 12 ∧ changes n) → t = park))
  ∧ (∀ (v : Bool) (bits : Byte) (n : Nat) (s : State), s.chip.Running →
    let c := s.chip
    let write (mask : BitVec 32) : Chip := c.putSwitches mask (if v = true then mask else 0#32)
    exec (.driveInhibit v) s = .next { s with chip := write 1#32 }
    ∧ exec (.winchInhibit v) s = .next { s with chip := write 2#32 }
    ∧ exec (.parkRequest v) s = .next { s with chip := write 8#32 }
    ∧ exec (.boostDisable v) s = .next { s with chip := write 0x2000#32 }
    ∧ exec .resetCharge s = .next { s with chip := c.putSwitches 0x1000#32 0x1000#32 }
    ∧ exec (.override bits) s = .next { s with chip := c.putSwitches 0xFF0#32 (bits.setWidth 32 <<< 4) }
    ∧ (4 ≤ n → n < 12 →
      exec (.override ((write (1#32 <<< n)).sup.switches.extractLsb' 4 8)) s = .next { s with chip := write (1#32 <<< n) }))

/-- DRIVE_INHIBIT set disarms an ARMING or ARMED drive at the write, its axles coasting on a LIVE or HOLD link;
clearing it, or setting it in DISARMED, changes the bit alone (R61, R63). WINCH_INHIBIT set locks the winch and clearing it
lets the winch leave LOCKED for IDLE where no other cause holds; BOOST_DISABLE set clears the boost flag; a write that leaves
the bit as it was changes nothing (R84, R85, R104). It rests on the model's choices of log entry 7. -/
def Obligations.InhibitSwitchesAct : Prop :=
  (∀ s : State, s.chip.Running →
      let c := s.chip
      let off : AxleRec := { state := .off, timer := none, left := none, effective := 0, output := 0 }
      exec (.driveInhibit false) s = .next { s with chip := { c with
          sup := { c.sup with switches := c.sup.switches &&& ~~~1#32 } } }
      ∧ (c.drm.arming = .disarmed → exec (.driveInhibit true) s = .next { s with chip := { c with
          sup := { c.sup with switches := c.sup.switches ||| 1#32 } } })
      ∧ (c.drm.arming ≠ .disarmed → c.linkUp →
        ∃ t, exec (.driveInhibit true) s = .next t ∧ t.pending = s.pending
          ∧ t.chip = { c with
              sup := { c.sup with switches := c.sup.switches ||| 1#32 }
              drm := { c.drm with arming := .disarmed, armTimer := none, demand := 0, front := off, rear := off }
              lsq := t.chip.lsq }
          ∧ t.chip = Chip.handleAxles { c with sup := { c.sup with switches := c.sup.switches ||| 1#32 } }
              { c.drm with arming := .disarmed, armTimer := none }))
  ∧ ∀ s : State, s.chip.Running →
      let c := s.chip
      let w := c.wnc
      let others := c.btm.level = .critical ∨ c.btm.level = .cutoff ∨ c.ulr.link = .failsafe ∨ c.ulr.link = .await
        ∨ c.mdc.bench = true ∨ c.mdc.mode = .parked
      let shape (t : Chip) (switches : BitVec 32) : Prop :=
        t = { c with sup := { c.sup with switches := switches }, wnc := t.wnc, drm := t.drm, alt := t.alt, lsq := t.lsq }
      (∀ v, c.winchInhibit = v → exec (.winchInhibit v) s = .next s)
      ∧ (∀ v, c.boostDisable = v → exec (.boostDisable v) s = .next s)
      ∧ (c.winchInhibit = false → ∃ t, exec (.winchInhibit true) s = .next t ∧ t.pending = s.pending
          ∧ shape t.chip (c.sup.switches ||| 2#32)
          ∧ t.chip.wnc.state = .locked ∧ t.chip.wnc.boost = false ∧ t.chip.wnc.effective = 0 ∧ t.chip.wnc.demand = 0
          ∧ t.chip.wnc.position = w.position
          ∧ (w.state ≠ .locked → t.chip.wnc.run = none ∧ t.chip.wnc.requested = 0 ∧ t.chip.wnc.holdOff = true)
          ∧ (w.state.driven = true → ∃ op, t.chip.wnc.lastOp = some op ∧ op.outcome = .locked ∧ op.counts = w.countsDone))
      ∧ (c.winchInhibit = true → ∃ t, exec (.winchInhibit false) s = .next t ∧ t.pending = s.pending
          ∧ shape t.chip (c.sup.switches &&& ~~~2#32)
          ∧ (w.state = .locked → ¬others → t.chip.wnc.state = .idle ∧ t.chip.wnc.creep = 0
              ∧ t.chip.wnc.creepReported = false ∧ t.chip.wnc.holdOff = w.holdOff)
          ∧ (w.state = .locked → others → t.chip.wnc.state = .locked))
      ∧ (c.boostDisable = false → ∃ t, exec (.boostDisable true) s = .next t ∧ t.pending = s.pending
          ∧ shape t.chip (c.sup.switches ||| 0x2000#32) ∧ t.chip.wnc.boost = false ∧ t.chip.wnc.state = w.state
          ∧ t.chip.wnc.allowance = w.allowance ∧ t.chip.wnc.position = w.position ∧ t.chip.drm = c.drm)
      ∧ (c.boostDisable = true → ∃ t, exec (.boostDisable false) s = .next t ∧ t.pending = s.pending
          ∧ shape t.chip (c.sup.switches &&& ~~~0x2000#32) ∧ t.chip.wnc.state = w.state ∧ t.chip.drm = c.drm)

/-- The source WINCH is active exactly in the winch states JOG_IN, JOG_OUT, RUN_IN, RUN_OUT and FREE, and LSQ holds it so:
every command and the idle step of a part that holds it so leave it so, and it becomes active or inactive only with a change
of the winch state. A change of winch state that WNC announces sets it by the new state, and a change from one of the five
states to another leaves it active. A spool pulse in FREE, line drawn by hand, leaves the winch FREE and the source active. -/
def Obligations.WinchSourceFollowsTheWinch : Prop :=
  (∀ c : Chip, c.sourceActive .winch = true
      ↔ c.wnc.state = .jogIn ∨ c.wnc.state = .jogOut ∨ c.wnc.state = .runIn ∨ c.wnc.state = .runOut ∨ c.wnc.state = .free)
  ∧ (∀ (c : Chip) (w : Winch), w.state ≠ c.wnc.state →
    ((c.setWinch w).lsq.active[Source.winch.index] = true
      ↔ w.state = .jogIn ∨ w.state = .jogOut ∨ w.state = .runIn ∨ w.state = .runOut ∨ w.state = .free))
  ∧ (∀ s t : State, s.chip.WinchLit → step s = .next t → t.chip.WinchLit
    ∧ (t.chip.lsq.active[Source.winch.index] ≠ s.chip.lsq.active[Source.winch.index] →
        t.chip.wnc.state ≠ s.chip.wnc.state)
    ∧ (s.chip.wnc.state.lights → t.chip.wnc.state.lights →
        s.chip.lsq.active[Source.winch.index] = true ∧ t.chip.lsq.active[Source.winch.index] = true)
    ∧ (t.chip.wnc.state = .idle ∨ t.chip.wnc.state = .stalled ∨ t.chip.wnc.state = .locked →
        t.chip.lsq.active[Source.winch.index] = false))
  ∧ ∀ (s t : State) (start lasts : Nat), s.chip.WinchLit → s.chip.wnc.state = .free →
    exec (.spoolPulse start lasts) s = .next t →
      t.chip.wnc.state = .free ∧ t.chip.lsq.active[Source.winch.index] = true

/-- OVERRIDE writes bits 4..11, the light picture being formed where one changed; RESET_CHARGE clears charge,
accumulator and capacity force and ends the cause of CAPACITY, the latch and the level staying (R119, R136). It rests
on the model's choices of log entry 7. -/
def Obligations.OverrideAndResetCharge : Prop :=
  ∀ (bits : Byte) (s : State), s.chip.Running →
    let c := s.chip
    let switches := (c.sup.switches &&& ~~~0xFF0#32) ||| (bits.setWidth 32 <<< 4)
    let written : Chip := { c with sup := { c.sup with switches := switches } }
    exec (.override bits) s = .next { s with chip := if switches = c.sup.switches then c else written.relight }
    ∧ exec .resetCharge s = .next { s with chip := { c with
        btm := { c.btm with charge := 0, acc := 0, capForce := false }
        alt := { c.alt with causes := c.alt.causes &&& ~~~Alert.capacity.mask } } }

/-! ## Alerts (R163 to R168) -/

/-- Ready ACK_ALERT: a clear latch is IGNORED, a condition latch whose cause stands is RETAINED, any other is cleared and
answered OK; ALL does so for every latch; the light picture is formed where the acknowledge changes the top alert, and stands
where it does not; the reply carries the latched set; any other code is refused (R117, R165 to R167, R169). It rests on the
model's choices of log entry 6. -/
def Obligations.AcknowledgeClearsLatches : Prop :=
  ∀ (q : Byte) (s : State), s.chip.Ready → s.chip.alt.Ok →
    let c := s.chip
    (∀ ps, ps.length ≤ 61 → ps ≠ [] → exec (.ackAlert q ps) s = .next { s with chip := c.refusedAs 12 .refusedLength })
    ∧ ((q = 0#8 ∨ 12 < q.toNat ∧ q ≠ 0xFF#8) →
      exec (.ackAlert q []) s = .next { s with chip := c.refusedAs 12 .refusedUnknown })
    ∧ (∀ a : Alert, q.toNat = a.code →
      (c.alt.has a = false →
        exec (.ackAlert q []) s = .next { s with chip := c.answered 12 .ignored (wordOf c.alt.latched.toNat) })
      ∧ (c.alt.has a = true → c.alt.caused a = true →
        exec (.ackAlert q []) s = .next { s with chip := c.answered 12 .retained (wordOf c.alt.latched.toNat) })
      ∧ (c.alt.has a = true → c.alt.caused a = false →
        ∃ t, exec (.ackAlert q []) s = .next t ∧ t.pending = s.pending
          ∧ t.chip = { c with alt := t.chip.alt, lsq := t.chip.lsq,
                              rtx := c.withReply 12 .ok (wordOf t.chip.alt.latched.toNat) }
          ∧ (∀ b, t.chip.alt.has b = true ↔ c.alt.has b = true ∧ b ≠ a)
          ∧ t.chip.alt.causes = c.alt.causes
          ∧ t.chip.alt.fault = (if a = .setupFault then none else c.alt.fault)
          ∧ (t.chip.topAlert = c.topAlert → t.chip.lsq = c.lsq)
          ∧ (t.chip.topAlert ≠ c.topAlert → t.chip.lsq = t.chip.picture)))
    ∧ (q = 0xFF#8 → ∃ t st, exec (.ackAlert q []) s = .next t ∧ t.pending = s.pending
        ∧ t.chip = { c with alt := t.chip.alt, lsq := t.chip.lsq,
                            rtx := c.withReply 12 st (wordOf t.chip.alt.latched.toNat) }
        ∧ (∀ b, t.chip.alt.has b = true ↔ c.alt.has b = true ∧ c.alt.caused b = true)
        ∧ t.chip.alt.causes = c.alt.causes
        ∧ t.chip.alt.fault = none
        ∧ (t.chip.topAlert = c.topAlert → t.chip.lsq = c.lsq)
        ∧ (t.chip.topAlert ≠ c.topAlert → t.chip.lsq = t.chip.picture)
        ∧ ((∃ b, c.alt.caused b = true) → st = .retained)
        ∧ ((∀ b, c.alt.caused b = false) → (∃ b, c.alt.has b = true) → st = .ok)
        ∧ ((∀ b, c.alt.has b = false) → st = .ignored))

/-- The top alert is an eligible latch of the lowest level, and of the lowest code among those; it is absent only when no
eligible latch is set, and it is read under the mask level of LINK (R168). An event sets its latch; a cause that begins sets
cause flag and latch, one that ends clears the cause flag and leaves the latch (R163); SETUP_FAULT takes its cause record with
its latch (R165); the light picture is formed exactly where the top alert changes (R169). -/
def Obligations.TopAlertIsTheMostSevere : Prop :=
  (∀ (t : Alt) (a b : Alert) (command : Fin 16) (reason : FaultReason),
    (t.has a = t.latched.getLsbD (a.code - 1) ∧ t.caused a = t.causes.getLsbD (a.code - 1))
    ∧ ((t.raise a).has b = (t.has b || decide (b = a)) ∧ (t.raise a).causes = t.causes ∧ (t.raise a).fault = t.fault)
    ∧ ((t.cause a true).has b = (t.has b || decide (b = a)) ∧ (t.cause a true).caused b = (t.caused b || decide (b = a))
      ∧ (t.cause a true).fault = t.fault)
    ∧ ((t.cause a false).latched = t.latched ∧ (t.cause a false).caused b = (t.caused b && decide (b ≠ a))
      ∧ (t.cause a false).fault = t.fault)
    ∧ t.setupFault command reason = { t.raise .setupFault with fault := some { command := command, reason := reason } })
  ∧ (∀ (c : Chip) (f : Alt → Alt),
    let t := c.alert f
    c.topAlert = c.alt.top c.tables.link.maskLevel
      ∧ t = { c with alt := f c.alt, lsq := t.lsq }
      ∧ (t.topAlert = c.topAlert → t.lsq = c.lsq) ∧ (t.topAlert ≠ c.topAlert → t.lsq = t.picture)
      ∧ ∀ command reason, c.setupFault command reason = c.alert fun u => u.setupFault command reason)
  ∧ ∀ (t : Alt) (m : Nat),
    let eligible (a : Alert) := t.has a = true ∧ (a.level ≤ m ∨ a.level = 1)
    (∀ a, t.top m = some a → eligible a
      ∧ ∀ b, eligible b → a.level < b.level ∨ a.level = b.level ∧ a.code ≤ b.code)
    ∧ (t.top m = none ↔ ∀ a, ¬eligible a)
end

