-- ==== Sys2Proof/Laws/State.lean ====
section
/-! SUPPORT. The updates of State and of its blocks: one lemma for each field, so that no proof unfolds a record update. -/

namespace Sys2Proof.Machine

/-! ### State -/

@[simp] theorem State.onChip_pending (s : State) (f : Chip → Chip) : (s.onChip f).pending = s.pending := rfl
@[simp] theorem State.onChip_chip (s : State) (f : Chip → Chip) : (s.onChip f).chip = f s.chip := rfl
@[simp] theorem State.onChip_onChip (s : State) (f g : Chip → Chip) : (s.onChip f).onChip g = s.onChip fun c => g (f c) := rfl
@[simp] theorem State.onChip_id (s : State) : (s.onChip fun c => c) = s := rfl

/-- No word spells a command. -/
@[simp] theorem State.withFetchWord_same (s : State) (nbits w : Nat) : s.withFetchWord nbits w = s := rfl

/-- An empty queue lets a millisecond go by. -/
theorem step_idle (c : Chip) : step { pending := [], chip := c } = .next { pending := [], chip := c.tick } := rfl

@[simp] theorem State.reset_pending : State.reset.pending = [] := rfl
@[simp] theorem State.reset_chip : State.reset.chip = Chip.reset := rfl

/-! ### The clock -/

@[simp] theorem Chip.tick_now (c : Chip) : c.tick.now = c.now + 1 := rfl
@[simp] theorem Chip.atInstant_now (c : Chip) (due : Nat) : (c.atInstant (some due)).now = max c.now due := rfl

/-! ### STM -/

@[simp] theorem Stm.silence_pulsing (m : Stm) : m.silence.pulsing = false := rfl
@[simp] theorem Stm.silence_schedule (m : Stm) : m.silence.schedule = none := rfl
@[simp] theorem Stm.silence_front (m : Stm) : m.silence.front = m.front := rfl
@[simp] theorem Stm.silence_rear (m : Stm) : m.silence.rear = m.rear := rfl
@[simp] theorem Stm.silence_command (m : Stm) : m.silence.command = m.command := rfl
@[simp] theorem Stm.silence_active (m : Stm) : m.silence.active = m.active := rfl
@[simp] theorem Stm.silence_pending (m : Stm) : m.silence.pending = m.pending := rfl
@[simp] theorem Stm.silence_first (m : Stm) : m.silence.first = m.first := rfl
@[simp] theorem Stm.silence_pulseFront (m : Stm) : m.silence.pulseFront = m.pulseFront := rfl
@[simp] theorem Stm.silence_pulseRear (m : Stm) : m.silence.pulseRear = m.pulseRear := rfl

/-! ### DRM -/

@[simp] theorem Drm.setAxle_axle (d : Drm) (a : Axle) (r : AxleRec) : (d.setAxle a r).axle a = r := by cases a <;> rfl
@[simp] theorem Drm.setAxle_command (d : Drm) (a : Axle) (r : AxleRec) : (d.setAxle a r).command = d.command := by
  cases a <;> rfl
@[simp] theorem Drm.setAxle_mode (d : Drm) (a : Axle) (r : AxleRec) : (d.setAxle a r).mode = d.mode := by cases a <;> rfl
@[simp] theorem Drm.setAxle_arming (d : Drm) (a : Axle) (r : AxleRec) : (d.setAxle a r).arming = d.arming := by
  cases a <;> rfl
@[simp] theorem Drm.setAxle_armTimer (d : Drm) (a : Axle) (r : AxleRec) : (d.setAxle a r).armTimer = d.armTimer := by
  cases a <;> rfl
@[simp] theorem Drm.setAxle_request (d : Drm) (a : Axle) (r : AxleRec) : (d.setAxle a r).request = d.request := by
  cases a <;> rfl
@[simp] theorem Drm.setAxle_axleRequest (d : Drm) (a : Axle) (r : AxleRec) :
    (d.setAxle a r).axleRequest = d.axleRequest := by cases a <;> rfl
@[simp] theorem Drm.setAxle_demand (d : Drm) (a : Axle) (r : AxleRec) : (d.setAxle a r).demand = d.demand := by
  cases a <;> rfl
@[simp] theorem Drm.setAxle_grant (d : Drm) (a : Axle) (r : AxleRec) : (d.setAxle a r).grant = d.grant := by
  cases a <;> rfl
@[simp] theorem Drm.disarm_arming (d : Drm) : d.disarm.arming = .disarmed := rfl
@[simp] theorem Drm.disarm_armTimer (d : Drm) : d.disarm.armTimer = none := rfl
@[simp] theorem Drm.disarm_command (d : Drm) : d.disarm.command = d.command := rfl
@[simp] theorem Drm.disarm_mode (d : Drm) : d.disarm.mode = d.mode := rfl
@[simp] theorem Drm.disarm_request (d : Drm) : d.disarm.request = d.request := rfl
@[simp] theorem Drm.disarm_axleRequest (d : Drm) : d.disarm.axleRequest = d.axleRequest := rfl
@[simp] theorem Drm.disarm_axle (d : Drm) (a : Axle) : d.disarm.axle a = d.axle a := by cases a <;> rfl
@[simp] theorem Drm.disarm_grant (d : Drm) : d.disarm.grant = d.grant := rfl

/-! ### WNC -/

@[simp] theorem Winch.settle_state (w : Winch) (cfg : WinchCfg) : (w.settle cfg).state = w.state := rfl
@[simp] theorem Winch.settle_position (w : Winch) (cfg : WinchCfg) : (w.settle cfg).position = w.position := rfl
@[simp] theorem Winch.settle_referenced (w : Winch) (cfg : WinchCfg) : (w.settle cfg).referenced = w.referenced := rfl
@[simp] theorem Winch.settle_run (w : Winch) (cfg : WinchCfg) : (w.settle cfg).run = w.run := rfl
@[simp] theorem Winch.settle_opCount (w : Winch) (cfg : WinchCfg) : (w.settle cfg).opCount = w.opCount := rfl
@[simp] theorem Winch.settle_holdOff (w : Winch) (cfg : WinchCfg) : (w.settle cfg).holdOff = w.holdOff := rfl
@[simp] theorem Winch.settle_requested (w : Winch) (cfg : WinchCfg) : (w.settle cfg).requested = w.requested := rfl
@[simp] theorem Winch.settle_stallTimer (w : Winch) (cfg : WinchCfg) : (w.settle cfg).stallTimer = w.stallTimer := rfl
@[simp] theorem Winch.settle_creep (w : Winch) (cfg : WinchCfg) : (w.settle cfg).creep = w.creep := rfl
@[simp] theorem Winch.settle_creepReported (w : Winch) (cfg : WinchCfg) :
    (w.settle cfg).creepReported = w.creepReported := rfl
@[simp] theorem Winch.settle_grant (w : Winch) (cfg : WinchCfg) : (w.settle cfg).grant = w.grant := rfl
@[simp] theorem Winch.settle_allowance (w : Winch) (cfg : WinchCfg) : (w.settle cfg).allowance = w.allowance := rfl
@[simp] theorem Winch.settle_boostAtStart (w : Winch) (cfg : WinchCfg) :
    (w.settle cfg).boostAtStart = w.boostAtStart := rfl
@[simp] theorem Winch.settle_recharge (w : Winch) (cfg : WinchCfg) : (w.settle cfg).recharge = w.recharge := rfl
@[simp] theorem Winch.settle_lastOp (w : Winch) (cfg : WinchCfg) : (w.settle cfg).lastOp = w.lastOp := rfl
@[simp] theorem Winch.toIdle_state (w : Winch) : w.toIdle.state = .idle := rfl
@[simp] theorem Winch.toIdle_run (w : Winch) : w.toIdle.run = none := rfl
@[simp] theorem Winch.toIdle_requested (w : Winch) : w.toIdle.requested = 0 := rfl
@[simp] theorem Winch.toIdle_creep (w : Winch) : w.toIdle.creep = 0 := rfl
@[simp] theorem Winch.toIdle_creepReported (w : Winch) : w.toIdle.creepReported = false := rfl
@[simp] theorem Winch.toIdle_position (w : Winch) : w.toIdle.position = w.position := rfl
@[simp] theorem Winch.toIdle_referenced (w : Winch) : w.toIdle.referenced = w.referenced := rfl
@[simp] theorem Winch.toIdle_holdOff (w : Winch) : w.toIdle.holdOff = w.holdOff := rfl
@[simp] theorem Winch.toIdle_lastOp (w : Winch) : w.toIdle.lastOp = w.lastOp := rfl
@[simp] theorem Winch.toIdle_allowance (w : Winch) : w.toIdle.allowance = w.allowance := rfl
@[simp] theorem Winch.toIdle_grant (w : Winch) : w.toIdle.grant = w.grant := rfl
@[simp] theorem Winch.toIdle_boost (w : Winch) : w.toIdle.boost = w.boost := rfl
@[simp] theorem Winch.finish_state (w : Winch) (o : OpOutcome) : (w.finish o).state = w.state := rfl
@[simp] theorem Winch.finish_run (w : Winch) (o : OpOutcome) : (w.finish o).run = none := rfl
@[simp] theorem Winch.finish_position (w : Winch) (o : OpOutcome) : (w.finish o).position = w.position := rfl
@[simp] theorem Winch.finish_referenced (w : Winch) (o : OpOutcome) : (w.finish o).referenced = w.referenced := rfl
@[simp] theorem Winch.finish_holdOff (w : Winch) (o : OpOutcome) : (w.finish o).holdOff = w.holdOff := rfl
@[simp] theorem Winch.finish_creep (w : Winch) (o : OpOutcome) : (w.finish o).creep = w.creep := rfl
@[simp] theorem Winch.finish_allowance (w : Winch) (o : OpOutcome) : (w.finish o).allowance = w.allowance := rfl
@[simp] theorem Winch.finish_grant (w : Winch) (o : OpOutcome) : (w.finish o).grant = w.grant := rfl
@[simp] theorem Winch.finish_opCount (w : Winch) (o : OpOutcome) : (w.finish o).opCount = w.opCount := rfl
@[simp] theorem Winch.finish_boost (w : Winch) (o : OpOutcome) : (w.finish o).boost = w.boost := rfl

/-! ### ALT -/

@[simp] theorem Alt.raise_causes (t : Alt) (a : Alert) : (t.raise a).causes = t.causes := rfl
@[simp] theorem Alt.raise_fault (t : Alt) (a : Alert) : (t.raise a).fault = t.fault := rfl
@[simp] theorem Alt.cause_fault (t : Alt) (a : Alert) (h : Bool) : (t.cause a h).fault = t.fault := by cases h <;> rfl
@[simp] theorem Alt.setupFault_causes (t : Alt) (k : Fin 16) (r : FaultReason) : (t.setupFault k r).causes = t.causes := rfl
@[simp] theorem Alt.clear_causes (t : Alt) (a : Alert) : (t.clear a).causes = t.causes := rfl

end Sys2Proof.Machine
end

