-- ==== Sys2Proof/Laws/Frames.lean ====
section
/-! SUPPORT. What each shared operation leaves unchanged: one lemma for each field of Chip that it does not write, so that no
proof unfolds an operation to see that a field stands. The operations come in the order of the files under Machine/. -/

namespace Sys2Proof.Machine

/-- A fold keeps what each of its steps keeps. -/
theorem foldl_keeps {α β : Type} (π : Chip → β) (f : Chip → α → Chip) (h : ∀ c x, π (f c x) = π c) (l : List α) (c : Chip) :
    π (l.foldl f c) = π c := by
  induction l generalizing c with
  | nil => rfl
  | cons x xs ih => rw [List.foldl_cons, ih, h]

/-! `tick` -/

@[simp] theorem Chip.tick_spoolStart (c : Chip) : (c.tick).spoolStart = c.spoolStart := rfl
@[simp] theorem Chip.tick_held (c : Chip) : (c.tick).held = c.held := rfl
@[simp] theorem Chip.tick_tables (c : Chip) : (c.tick).tables = c.tables := rfl
@[simp] theorem Chip.tick_ulr (c : Chip) : (c.tick).ulr = c.ulr := rfl
@[simp] theorem Chip.tick_slots (c : Chip) : (c.tick).slots = c.slots := rfl
@[simp] theorem Chip.tick_cdc (c : Chip) : (c.tick).cdc = c.cdc := rfl
@[simp] theorem Chip.tick_stm (c : Chip) : (c.tick).stm = c.stm := rfl
@[simp] theorem Chip.tick_drm (c : Chip) : (c.tick).drm = c.drm := rfl
@[simp] theorem Chip.tick_wnc (c : Chip) : (c.tick).wnc = c.wnc := rfl
@[simp] theorem Chip.tick_lsq (c : Chip) : (c.tick).lsq = c.lsq := rfl
@[simp] theorem Chip.tick_btm (c : Chip) : (c.tick).btm = c.btm := rfl
@[simp] theorem Chip.tick_bga (c : Chip) : (c.tick).bga = c.bga := rfl
@[simp] theorem Chip.tick_alt (c : Chip) : (c.tick).alt = c.alt := rfl
@[simp] theorem Chip.tick_sup (c : Chip) : (c.tick).sup = c.sup := rfl
@[simp] theorem Chip.tick_rtx (c : Chip) : (c.tick).rtx = c.rtx := rfl
@[simp] theorem Chip.tick_atx (c : Chip) : (c.tick).atx = c.atx := rfl
@[simp] theorem Chip.tick_tbs (c : Chip) : (c.tick).tbs = c.tbs := rfl
@[simp] theorem Chip.tick_mdc (c : Chip) : (c.tick).mdc = c.mdc := rfl

/-! `atInstant` -/

@[simp] theorem Chip.atInstant_spoolStart (c : Chip) (due : Option Nat) : (c.atInstant due).spoolStart = c.spoolStart := rfl
@[simp] theorem Chip.atInstant_held (c : Chip) (due : Option Nat) : (c.atInstant due).held = c.held := rfl
@[simp] theorem Chip.atInstant_tables (c : Chip) (due : Option Nat) : (c.atInstant due).tables = c.tables := rfl
@[simp] theorem Chip.atInstant_ulr (c : Chip) (due : Option Nat) : (c.atInstant due).ulr = c.ulr := rfl
@[simp] theorem Chip.atInstant_slots (c : Chip) (due : Option Nat) : (c.atInstant due).slots = c.slots := rfl
@[simp] theorem Chip.atInstant_cdc (c : Chip) (due : Option Nat) : (c.atInstant due).cdc = c.cdc := rfl
@[simp] theorem Chip.atInstant_stm (c : Chip) (due : Option Nat) : (c.atInstant due).stm = c.stm := rfl
@[simp] theorem Chip.atInstant_drm (c : Chip) (due : Option Nat) : (c.atInstant due).drm = c.drm := rfl
@[simp] theorem Chip.atInstant_wnc (c : Chip) (due : Option Nat) : (c.atInstant due).wnc = c.wnc := rfl
@[simp] theorem Chip.atInstant_lsq (c : Chip) (due : Option Nat) : (c.atInstant due).lsq = c.lsq := rfl
@[simp] theorem Chip.atInstant_btm (c : Chip) (due : Option Nat) : (c.atInstant due).btm = c.btm := rfl
@[simp] theorem Chip.atInstant_bga (c : Chip) (due : Option Nat) : (c.atInstant due).bga = c.bga := rfl
@[simp] theorem Chip.atInstant_alt (c : Chip) (due : Option Nat) : (c.atInstant due).alt = c.alt := rfl
@[simp] theorem Chip.atInstant_sup (c : Chip) (due : Option Nat) : (c.atInstant due).sup = c.sup := rfl
@[simp] theorem Chip.atInstant_rtx (c : Chip) (due : Option Nat) : (c.atInstant due).rtx = c.rtx := rfl
@[simp] theorem Chip.atInstant_atx (c : Chip) (due : Option Nat) : (c.atInstant due).atx = c.atx := rfl
@[simp] theorem Chip.atInstant_tbs (c : Chip) (due : Option Nat) : (c.atInstant due).tbs = c.tbs := rfl
@[simp] theorem Chip.atInstant_mdc (c : Chip) (due : Option Nat) : (c.atInstant due).mdc = c.mdc := rfl

/-! `relight` -/

@[simp] theorem Chip.relight_now (c : Chip) : (c.relight).now = c.now := rfl
@[simp] theorem Chip.relight_spoolStart (c : Chip) : (c.relight).spoolStart = c.spoolStart := rfl
@[simp] theorem Chip.relight_held (c : Chip) : (c.relight).held = c.held := rfl
@[simp] theorem Chip.relight_tables (c : Chip) : (c.relight).tables = c.tables := rfl
@[simp] theorem Chip.relight_ulr (c : Chip) : (c.relight).ulr = c.ulr := rfl
@[simp] theorem Chip.relight_slots (c : Chip) : (c.relight).slots = c.slots := rfl
@[simp] theorem Chip.relight_cdc (c : Chip) : (c.relight).cdc = c.cdc := rfl
@[simp] theorem Chip.relight_stm (c : Chip) : (c.relight).stm = c.stm := rfl
@[simp] theorem Chip.relight_drm (c : Chip) : (c.relight).drm = c.drm := rfl
@[simp] theorem Chip.relight_wnc (c : Chip) : (c.relight).wnc = c.wnc := rfl
@[simp] theorem Chip.relight_btm (c : Chip) : (c.relight).btm = c.btm := rfl
@[simp] theorem Chip.relight_bga (c : Chip) : (c.relight).bga = c.bga := rfl
@[simp] theorem Chip.relight_alt (c : Chip) : (c.relight).alt = c.alt := rfl
@[simp] theorem Chip.relight_sup (c : Chip) : (c.relight).sup = c.sup := rfl
@[simp] theorem Chip.relight_rtx (c : Chip) : (c.relight).rtx = c.rtx := rfl
@[simp] theorem Chip.relight_atx (c : Chip) : (c.relight).atx = c.atx := rfl
@[simp] theorem Chip.relight_tbs (c : Chip) : (c.relight).tbs = c.tbs := rfl
@[simp] theorem Chip.relight_mdc (c : Chip) : (c.relight).mdc = c.mdc := rfl

/-! `relightIf` -/

@[simp] theorem Chip.relightIf_now (c : Chip) (e : Bool) : (c.relightIf e).now = c.now := rfl
@[simp] theorem Chip.relightIf_spoolStart (c : Chip) (e : Bool) : (c.relightIf e).spoolStart = c.spoolStart := rfl
@[simp] theorem Chip.relightIf_held (c : Chip) (e : Bool) : (c.relightIf e).held = c.held := rfl
@[simp] theorem Chip.relightIf_tables (c : Chip) (e : Bool) : (c.relightIf e).tables = c.tables := rfl
@[simp] theorem Chip.relightIf_ulr (c : Chip) (e : Bool) : (c.relightIf e).ulr = c.ulr := rfl
@[simp] theorem Chip.relightIf_slots (c : Chip) (e : Bool) : (c.relightIf e).slots = c.slots := rfl
@[simp] theorem Chip.relightIf_cdc (c : Chip) (e : Bool) : (c.relightIf e).cdc = c.cdc := rfl
@[simp] theorem Chip.relightIf_stm (c : Chip) (e : Bool) : (c.relightIf e).stm = c.stm := rfl
@[simp] theorem Chip.relightIf_drm (c : Chip) (e : Bool) : (c.relightIf e).drm = c.drm := rfl
@[simp] theorem Chip.relightIf_wnc (c : Chip) (e : Bool) : (c.relightIf e).wnc = c.wnc := rfl
@[simp] theorem Chip.relightIf_btm (c : Chip) (e : Bool) : (c.relightIf e).btm = c.btm := rfl
@[simp] theorem Chip.relightIf_bga (c : Chip) (e : Bool) : (c.relightIf e).bga = c.bga := rfl
@[simp] theorem Chip.relightIf_alt (c : Chip) (e : Bool) : (c.relightIf e).alt = c.alt := rfl
@[simp] theorem Chip.relightIf_sup (c : Chip) (e : Bool) : (c.relightIf e).sup = c.sup := rfl
@[simp] theorem Chip.relightIf_rtx (c : Chip) (e : Bool) : (c.relightIf e).rtx = c.rtx := rfl
@[simp] theorem Chip.relightIf_atx (c : Chip) (e : Bool) : (c.relightIf e).atx = c.atx := rfl
@[simp] theorem Chip.relightIf_tbs (c : Chip) (e : Bool) : (c.relightIf e).tbs = c.tbs := rfl
@[simp] theorem Chip.relightIf_mdc (c : Chip) (e : Bool) : (c.relightIf e).mdc = c.mdc := rfl

/-! `stopBrakeHold` -/

@[simp] theorem Chip.stopBrakeHold_now (c : Chip) : (c.stopBrakeHold).now = c.now := rfl
@[simp] theorem Chip.stopBrakeHold_spoolStart (c : Chip) : (c.stopBrakeHold).spoolStart = c.spoolStart := rfl
@[simp] theorem Chip.stopBrakeHold_held (c : Chip) : (c.stopBrakeHold).held = c.held := rfl
@[simp] theorem Chip.stopBrakeHold_tables (c : Chip) : (c.stopBrakeHold).tables = c.tables := rfl
@[simp] theorem Chip.stopBrakeHold_ulr (c : Chip) : (c.stopBrakeHold).ulr = c.ulr := rfl
@[simp] theorem Chip.stopBrakeHold_slots (c : Chip) : (c.stopBrakeHold).slots = c.slots := rfl
@[simp] theorem Chip.stopBrakeHold_cdc (c : Chip) : (c.stopBrakeHold).cdc = c.cdc := rfl
@[simp] theorem Chip.stopBrakeHold_stm (c : Chip) : (c.stopBrakeHold).stm = c.stm := rfl
@[simp] theorem Chip.stopBrakeHold_drm (c : Chip) : (c.stopBrakeHold).drm = c.drm := rfl
@[simp] theorem Chip.stopBrakeHold_wnc (c : Chip) : (c.stopBrakeHold).wnc = c.wnc := rfl
@[simp] theorem Chip.stopBrakeHold_btm (c : Chip) : (c.stopBrakeHold).btm = c.btm := rfl
@[simp] theorem Chip.stopBrakeHold_bga (c : Chip) : (c.stopBrakeHold).bga = c.bga := rfl
@[simp] theorem Chip.stopBrakeHold_alt (c : Chip) : (c.stopBrakeHold).alt = c.alt := rfl
@[simp] theorem Chip.stopBrakeHold_sup (c : Chip) : (c.stopBrakeHold).sup = c.sup := rfl
@[simp] theorem Chip.stopBrakeHold_rtx (c : Chip) : (c.stopBrakeHold).rtx = c.rtx := rfl
@[simp] theorem Chip.stopBrakeHold_atx (c : Chip) : (c.stopBrakeHold).atx = c.atx := rfl
@[simp] theorem Chip.stopBrakeHold_tbs (c : Chip) : (c.stopBrakeHold).tbs = c.tbs := rfl
@[simp] theorem Chip.stopBrakeHold_mdc (c : Chip) : (c.stopBrakeHold).mdc = c.mdc := rfl

/-! `takeLightGrant` -/

@[simp] theorem Chip.takeLightGrant_now (c : Chip) (g : Nat) : (c.takeLightGrant g).now = c.now := rfl
@[simp] theorem Chip.takeLightGrant_spoolStart (c : Chip) (g : Nat) : (c.takeLightGrant g).spoolStart = c.spoolStart := rfl
@[simp] theorem Chip.takeLightGrant_held (c : Chip) (g : Nat) : (c.takeLightGrant g).held = c.held := rfl
@[simp] theorem Chip.takeLightGrant_tables (c : Chip) (g : Nat) : (c.takeLightGrant g).tables = c.tables := rfl
@[simp] theorem Chip.takeLightGrant_ulr (c : Chip) (g : Nat) : (c.takeLightGrant g).ulr = c.ulr := rfl
@[simp] theorem Chip.takeLightGrant_slots (c : Chip) (g : Nat) : (c.takeLightGrant g).slots = c.slots := rfl
@[simp] theorem Chip.takeLightGrant_cdc (c : Chip) (g : Nat) : (c.takeLightGrant g).cdc = c.cdc := rfl
@[simp] theorem Chip.takeLightGrant_stm (c : Chip) (g : Nat) : (c.takeLightGrant g).stm = c.stm := rfl
@[simp] theorem Chip.takeLightGrant_drm (c : Chip) (g : Nat) : (c.takeLightGrant g).drm = c.drm := rfl
@[simp] theorem Chip.takeLightGrant_wnc (c : Chip) (g : Nat) : (c.takeLightGrant g).wnc = c.wnc := rfl
@[simp] theorem Chip.takeLightGrant_btm (c : Chip) (g : Nat) : (c.takeLightGrant g).btm = c.btm := rfl
@[simp] theorem Chip.takeLightGrant_bga (c : Chip) (g : Nat) : (c.takeLightGrant g).bga = c.bga := rfl
@[simp] theorem Chip.takeLightGrant_alt (c : Chip) (g : Nat) : (c.takeLightGrant g).alt = c.alt := rfl
@[simp] theorem Chip.takeLightGrant_sup (c : Chip) (g : Nat) : (c.takeLightGrant g).sup = c.sup := rfl
@[simp] theorem Chip.takeLightGrant_rtx (c : Chip) (g : Nat) : (c.takeLightGrant g).rtx = c.rtx := rfl
@[simp] theorem Chip.takeLightGrant_atx (c : Chip) (g : Nat) : (c.takeLightGrant g).atx = c.atx := rfl
@[simp] theorem Chip.takeLightGrant_tbs (c : Chip) (g : Nat) : (c.takeLightGrant g).tbs = c.tbs := rfl
@[simp] theorem Chip.takeLightGrant_mdc (c : Chip) (g : Nat) : (c.takeLightGrant g).mdc = c.mdc := rfl

/-! `advanceTimebase` -/

@[simp] theorem Chip.advanceTimebase_now (c : Chip) : (c.advanceTimebase).now = c.now := rfl
@[simp] theorem Chip.advanceTimebase_spoolStart (c : Chip) : (c.advanceTimebase).spoolStart = c.spoolStart := rfl
@[simp] theorem Chip.advanceTimebase_held (c : Chip) : (c.advanceTimebase).held = c.held := rfl
@[simp] theorem Chip.advanceTimebase_tables (c : Chip) : (c.advanceTimebase).tables = c.tables := rfl
@[simp] theorem Chip.advanceTimebase_ulr (c : Chip) : (c.advanceTimebase).ulr = c.ulr := rfl
@[simp] theorem Chip.advanceTimebase_slots (c : Chip) : (c.advanceTimebase).slots = c.slots := rfl
@[simp] theorem Chip.advanceTimebase_cdc (c : Chip) : (c.advanceTimebase).cdc = c.cdc := rfl
@[simp] theorem Chip.advanceTimebase_stm (c : Chip) : (c.advanceTimebase).stm = c.stm := rfl
@[simp] theorem Chip.advanceTimebase_drm (c : Chip) : (c.advanceTimebase).drm = c.drm := rfl
@[simp] theorem Chip.advanceTimebase_wnc (c : Chip) : (c.advanceTimebase).wnc = c.wnc := rfl
@[simp] theorem Chip.advanceTimebase_btm (c : Chip) : (c.advanceTimebase).btm = c.btm := rfl
@[simp] theorem Chip.advanceTimebase_bga (c : Chip) : (c.advanceTimebase).bga = c.bga := rfl
@[simp] theorem Chip.advanceTimebase_alt (c : Chip) : (c.advanceTimebase).alt = c.alt := rfl
@[simp] theorem Chip.advanceTimebase_sup (c : Chip) : (c.advanceTimebase).sup = c.sup := rfl
@[simp] theorem Chip.advanceTimebase_rtx (c : Chip) : (c.advanceTimebase).rtx = c.rtx := rfl
@[simp] theorem Chip.advanceTimebase_atx (c : Chip) : (c.advanceTimebase).atx = c.atx := rfl
@[simp] theorem Chip.advanceTimebase_tbs (c : Chip) : (c.advanceTimebase).tbs = c.tbs := rfl
@[simp] theorem Chip.advanceTimebase_mdc (c : Chip) : (c.advanceTimebase).mdc = c.mdc := rfl

/-! `alert` -/

@[simp] theorem Chip.alert_now (c : Chip) (f : Alt → Alt) : (c.alert f).now = c.now := rfl
@[simp] theorem Chip.alert_spoolStart (c : Chip) (f : Alt → Alt) : (c.alert f).spoolStart = c.spoolStart := rfl
@[simp] theorem Chip.alert_held (c : Chip) (f : Alt → Alt) : (c.alert f).held = c.held := rfl
@[simp] theorem Chip.alert_tables (c : Chip) (f : Alt → Alt) : (c.alert f).tables = c.tables := rfl
@[simp] theorem Chip.alert_ulr (c : Chip) (f : Alt → Alt) : (c.alert f).ulr = c.ulr := rfl
@[simp] theorem Chip.alert_slots (c : Chip) (f : Alt → Alt) : (c.alert f).slots = c.slots := rfl
@[simp] theorem Chip.alert_cdc (c : Chip) (f : Alt → Alt) : (c.alert f).cdc = c.cdc := rfl
@[simp] theorem Chip.alert_stm (c : Chip) (f : Alt → Alt) : (c.alert f).stm = c.stm := rfl
@[simp] theorem Chip.alert_drm (c : Chip) (f : Alt → Alt) : (c.alert f).drm = c.drm := rfl
@[simp] theorem Chip.alert_wnc (c : Chip) (f : Alt → Alt) : (c.alert f).wnc = c.wnc := rfl
@[simp] theorem Chip.alert_btm (c : Chip) (f : Alt → Alt) : (c.alert f).btm = c.btm := rfl
@[simp] theorem Chip.alert_bga (c : Chip) (f : Alt → Alt) : (c.alert f).bga = c.bga := rfl
@[simp] theorem Chip.alert_sup (c : Chip) (f : Alt → Alt) : (c.alert f).sup = c.sup := rfl
@[simp] theorem Chip.alert_rtx (c : Chip) (f : Alt → Alt) : (c.alert f).rtx = c.rtx := rfl
@[simp] theorem Chip.alert_atx (c : Chip) (f : Alt → Alt) : (c.alert f).atx = c.atx := rfl
@[simp] theorem Chip.alert_tbs (c : Chip) (f : Alt → Alt) : (c.alert f).tbs = c.tbs := rfl
@[simp] theorem Chip.alert_mdc (c : Chip) (f : Alt → Alt) : (c.alert f).mdc = c.mdc := rfl

/-! `setupFault` -/

@[simp] theorem Chip.setupFault_now (c : Chip) (k : Fin 16) (r : FaultReason) : (c.setupFault k r).now = c.now := rfl
@[simp] theorem Chip.setupFault_spoolStart (c : Chip) (k : Fin 16) (r : FaultReason) : (c.setupFault k r).spoolStart = c.spoolStart := rfl
@[simp] theorem Chip.setupFault_held (c : Chip) (k : Fin 16) (r : FaultReason) : (c.setupFault k r).held = c.held := rfl
@[simp] theorem Chip.setupFault_tables (c : Chip) (k : Fin 16) (r : FaultReason) : (c.setupFault k r).tables = c.tables := rfl
@[simp] theorem Chip.setupFault_ulr (c : Chip) (k : Fin 16) (r : FaultReason) : (c.setupFault k r).ulr = c.ulr := rfl
@[simp] theorem Chip.setupFault_slots (c : Chip) (k : Fin 16) (r : FaultReason) : (c.setupFault k r).slots = c.slots := rfl
@[simp] theorem Chip.setupFault_cdc (c : Chip) (k : Fin 16) (r : FaultReason) : (c.setupFault k r).cdc = c.cdc := rfl
@[simp] theorem Chip.setupFault_stm (c : Chip) (k : Fin 16) (r : FaultReason) : (c.setupFault k r).stm = c.stm := rfl
@[simp] theorem Chip.setupFault_drm (c : Chip) (k : Fin 16) (r : FaultReason) : (c.setupFault k r).drm = c.drm := rfl
@[simp] theorem Chip.setupFault_wnc (c : Chip) (k : Fin 16) (r : FaultReason) : (c.setupFault k r).wnc = c.wnc := rfl
@[simp] theorem Chip.setupFault_btm (c : Chip) (k : Fin 16) (r : FaultReason) : (c.setupFault k r).btm = c.btm := rfl
@[simp] theorem Chip.setupFault_bga (c : Chip) (k : Fin 16) (r : FaultReason) : (c.setupFault k r).bga = c.bga := rfl
@[simp] theorem Chip.setupFault_sup (c : Chip) (k : Fin 16) (r : FaultReason) : (c.setupFault k r).sup = c.sup := rfl
@[simp] theorem Chip.setupFault_rtx (c : Chip) (k : Fin 16) (r : FaultReason) : (c.setupFault k r).rtx = c.rtx := rfl
@[simp] theorem Chip.setupFault_atx (c : Chip) (k : Fin 16) (r : FaultReason) : (c.setupFault k r).atx = c.atx := rfl
@[simp] theorem Chip.setupFault_tbs (c : Chip) (k : Fin 16) (r : FaultReason) : (c.setupFault k r).tbs = c.tbs := rfl
@[simp] theorem Chip.setupFault_mdc (c : Chip) (k : Fin 16) (r : FaultReason) : (c.setupFault k r).mdc = c.mdc := rfl

/-! `steerUpdate` -/

@[simp] theorem Chip.steerUpdate_now (c : Chip) : (c.steerUpdate).now = c.now := rfl
@[simp] theorem Chip.steerUpdate_spoolStart (c : Chip) : (c.steerUpdate).spoolStart = c.spoolStart := rfl
@[simp] theorem Chip.steerUpdate_held (c : Chip) : (c.steerUpdate).held = c.held := rfl
@[simp] theorem Chip.steerUpdate_tables (c : Chip) : (c.steerUpdate).tables = c.tables := rfl
@[simp] theorem Chip.steerUpdate_ulr (c : Chip) : (c.steerUpdate).ulr = c.ulr := rfl
@[simp] theorem Chip.steerUpdate_slots (c : Chip) : (c.steerUpdate).slots = c.slots := rfl
@[simp] theorem Chip.steerUpdate_cdc (c : Chip) : (c.steerUpdate).cdc = c.cdc := rfl
@[simp] theorem Chip.steerUpdate_drm (c : Chip) : (c.steerUpdate).drm = c.drm := rfl
@[simp] theorem Chip.steerUpdate_wnc (c : Chip) : (c.steerUpdate).wnc = c.wnc := rfl
@[simp] theorem Chip.steerUpdate_lsq (c : Chip) : (c.steerUpdate).lsq = c.lsq := rfl
@[simp] theorem Chip.steerUpdate_btm (c : Chip) : (c.steerUpdate).btm = c.btm := rfl
@[simp] theorem Chip.steerUpdate_bga (c : Chip) : (c.steerUpdate).bga = c.bga := rfl
@[simp] theorem Chip.steerUpdate_alt (c : Chip) : (c.steerUpdate).alt = c.alt := rfl
@[simp] theorem Chip.steerUpdate_sup (c : Chip) : (c.steerUpdate).sup = c.sup := rfl
@[simp] theorem Chip.steerUpdate_rtx (c : Chip) : (c.steerUpdate).rtx = c.rtx := rfl
@[simp] theorem Chip.steerUpdate_atx (c : Chip) : (c.steerUpdate).atx = c.atx := rfl
@[simp] theorem Chip.steerUpdate_tbs (c : Chip) : (c.steerUpdate).tbs = c.tbs := rfl
@[simp] theorem Chip.steerUpdate_mdc (c : Chip) : (c.steerUpdate).mdc = c.mdc := rfl

/-! `steerSilence` -/

@[simp] theorem Chip.steerSilence_now (c : Chip) : (c.steerSilence).now = c.now := rfl
@[simp] theorem Chip.steerSilence_spoolStart (c : Chip) : (c.steerSilence).spoolStart = c.spoolStart := rfl
@[simp] theorem Chip.steerSilence_held (c : Chip) : (c.steerSilence).held = c.held := rfl
@[simp] theorem Chip.steerSilence_tables (c : Chip) : (c.steerSilence).tables = c.tables := rfl
@[simp] theorem Chip.steerSilence_ulr (c : Chip) : (c.steerSilence).ulr = c.ulr := rfl
@[simp] theorem Chip.steerSilence_slots (c : Chip) : (c.steerSilence).slots = c.slots := rfl
@[simp] theorem Chip.steerSilence_cdc (c : Chip) : (c.steerSilence).cdc = c.cdc := rfl
@[simp] theorem Chip.steerSilence_drm (c : Chip) : (c.steerSilence).drm = c.drm := rfl
@[simp] theorem Chip.steerSilence_wnc (c : Chip) : (c.steerSilence).wnc = c.wnc := rfl
@[simp] theorem Chip.steerSilence_lsq (c : Chip) : (c.steerSilence).lsq = c.lsq := rfl
@[simp] theorem Chip.steerSilence_btm (c : Chip) : (c.steerSilence).btm = c.btm := rfl
@[simp] theorem Chip.steerSilence_bga (c : Chip) : (c.steerSilence).bga = c.bga := rfl
@[simp] theorem Chip.steerSilence_alt (c : Chip) : (c.steerSilence).alt = c.alt := rfl
@[simp] theorem Chip.steerSilence_sup (c : Chip) : (c.steerSilence).sup = c.sup := rfl
@[simp] theorem Chip.steerSilence_rtx (c : Chip) : (c.steerSilence).rtx = c.rtx := rfl
@[simp] theorem Chip.steerSilence_atx (c : Chip) : (c.steerSilence).atx = c.atx := rfl
@[simp] theorem Chip.steerSilence_tbs (c : Chip) : (c.steerSilence).tbs = c.tbs := rfl
@[simp] theorem Chip.steerSilence_mdc (c : Chip) : (c.steerSilence).mdc = c.mdc := rfl

/-! `setDrive` -/

@[simp] theorem Chip.setDrive_now (c : Chip) (d : Drm) : (c.setDrive d).now = c.now := rfl
@[simp] theorem Chip.setDrive_spoolStart (c : Chip) (d : Drm) : (c.setDrive d).spoolStart = c.spoolStart := rfl
@[simp] theorem Chip.setDrive_held (c : Chip) (d : Drm) : (c.setDrive d).held = c.held := rfl
@[simp] theorem Chip.setDrive_tables (c : Chip) (d : Drm) : (c.setDrive d).tables = c.tables := rfl
@[simp] theorem Chip.setDrive_ulr (c : Chip) (d : Drm) : (c.setDrive d).ulr = c.ulr := rfl
@[simp] theorem Chip.setDrive_slots (c : Chip) (d : Drm) : (c.setDrive d).slots = c.slots := rfl
@[simp] theorem Chip.setDrive_cdc (c : Chip) (d : Drm) : (c.setDrive d).cdc = c.cdc := rfl
@[simp] theorem Chip.setDrive_stm (c : Chip) (d : Drm) : (c.setDrive d).stm = c.stm := rfl
@[simp] theorem Chip.setDrive_wnc (c : Chip) (d : Drm) : (c.setDrive d).wnc = c.wnc := rfl
@[simp] theorem Chip.setDrive_btm (c : Chip) (d : Drm) : (c.setDrive d).btm = c.btm := rfl
@[simp] theorem Chip.setDrive_bga (c : Chip) (d : Drm) : (c.setDrive d).bga = c.bga := rfl
@[simp] theorem Chip.setDrive_alt (c : Chip) (d : Drm) : (c.setDrive d).alt = c.alt := rfl
@[simp] theorem Chip.setDrive_sup (c : Chip) (d : Drm) : (c.setDrive d).sup = c.sup := rfl
@[simp] theorem Chip.setDrive_rtx (c : Chip) (d : Drm) : (c.setDrive d).rtx = c.rtx := rfl
@[simp] theorem Chip.setDrive_atx (c : Chip) (d : Drm) : (c.setDrive d).atx = c.atx := rfl
@[simp] theorem Chip.setDrive_tbs (c : Chip) (d : Drm) : (c.setDrive d).tbs = c.tbs := rfl
@[simp] theorem Chip.setDrive_mdc (c : Chip) (d : Drm) : (c.setDrive d).mdc = c.mdc := rfl

/-! `handleAxles` -/

@[simp] theorem Chip.handleAxles_now (c : Chip) (d : Drm) : (c.handleAxles d).now = c.now := rfl
@[simp] theorem Chip.handleAxles_spoolStart (c : Chip) (d : Drm) : (c.handleAxles d).spoolStart = c.spoolStart := rfl
@[simp] theorem Chip.handleAxles_held (c : Chip) (d : Drm) : (c.handleAxles d).held = c.held := rfl
@[simp] theorem Chip.handleAxles_tables (c : Chip) (d : Drm) : (c.handleAxles d).tables = c.tables := rfl
@[simp] theorem Chip.handleAxles_ulr (c : Chip) (d : Drm) : (c.handleAxles d).ulr = c.ulr := rfl
@[simp] theorem Chip.handleAxles_slots (c : Chip) (d : Drm) : (c.handleAxles d).slots = c.slots := rfl
@[simp] theorem Chip.handleAxles_cdc (c : Chip) (d : Drm) : (c.handleAxles d).cdc = c.cdc := rfl
@[simp] theorem Chip.handleAxles_stm (c : Chip) (d : Drm) : (c.handleAxles d).stm = c.stm := rfl
@[simp] theorem Chip.handleAxles_wnc (c : Chip) (d : Drm) : (c.handleAxles d).wnc = c.wnc := rfl
@[simp] theorem Chip.handleAxles_btm (c : Chip) (d : Drm) : (c.handleAxles d).btm = c.btm := rfl
@[simp] theorem Chip.handleAxles_bga (c : Chip) (d : Drm) : (c.handleAxles d).bga = c.bga := rfl
@[simp] theorem Chip.handleAxles_alt (c : Chip) (d : Drm) : (c.handleAxles d).alt = c.alt := rfl
@[simp] theorem Chip.handleAxles_sup (c : Chip) (d : Drm) : (c.handleAxles d).sup = c.sup := rfl
@[simp] theorem Chip.handleAxles_rtx (c : Chip) (d : Drm) : (c.handleAxles d).rtx = c.rtx := rfl
@[simp] theorem Chip.handleAxles_atx (c : Chip) (d : Drm) : (c.handleAxles d).atx = c.atx := rfl
@[simp] theorem Chip.handleAxles_tbs (c : Chip) (d : Drm) : (c.handleAxles d).tbs = c.tbs := rfl
@[simp] theorem Chip.handleAxles_mdc (c : Chip) (d : Drm) : (c.handleAxles d).mdc = c.mdc := rfl

/-! `driveUpdate` -/

@[simp] theorem Chip.driveUpdate_now (c : Chip) : (c.driveUpdate).now = c.now := rfl
@[simp] theorem Chip.driveUpdate_spoolStart (c : Chip) : (c.driveUpdate).spoolStart = c.spoolStart := rfl
@[simp] theorem Chip.driveUpdate_held (c : Chip) : (c.driveUpdate).held = c.held := rfl
@[simp] theorem Chip.driveUpdate_tables (c : Chip) : (c.driveUpdate).tables = c.tables := rfl
@[simp] theorem Chip.driveUpdate_ulr (c : Chip) : (c.driveUpdate).ulr = c.ulr := rfl
@[simp] theorem Chip.driveUpdate_slots (c : Chip) : (c.driveUpdate).slots = c.slots := rfl
@[simp] theorem Chip.driveUpdate_cdc (c : Chip) : (c.driveUpdate).cdc = c.cdc := rfl
@[simp] theorem Chip.driveUpdate_stm (c : Chip) : (c.driveUpdate).stm = c.stm := rfl
@[simp] theorem Chip.driveUpdate_wnc (c : Chip) : (c.driveUpdate).wnc = c.wnc := rfl
@[simp] theorem Chip.driveUpdate_btm (c : Chip) : (c.driveUpdate).btm = c.btm := rfl
@[simp] theorem Chip.driveUpdate_bga (c : Chip) : (c.driveUpdate).bga = c.bga := rfl
@[simp] theorem Chip.driveUpdate_alt (c : Chip) : (c.driveUpdate).alt = c.alt := rfl
@[simp] theorem Chip.driveUpdate_sup (c : Chip) : (c.driveUpdate).sup = c.sup := rfl
@[simp] theorem Chip.driveUpdate_rtx (c : Chip) : (c.driveUpdate).rtx = c.rtx := rfl
@[simp] theorem Chip.driveUpdate_atx (c : Chip) : (c.driveUpdate).atx = c.atx := rfl
@[simp] theorem Chip.driveUpdate_tbs (c : Chip) : (c.driveUpdate).tbs = c.tbs := rfl
@[simp] theorem Chip.driveUpdate_mdc (c : Chip) : (c.driveUpdate).mdc = c.mdc := rfl

/-! `recap` -/

@[simp] theorem Chip.recap_now (c : Chip) : (c.recap).now = c.now := rfl
@[simp] theorem Chip.recap_spoolStart (c : Chip) : (c.recap).spoolStart = c.spoolStart := rfl
@[simp] theorem Chip.recap_held (c : Chip) : (c.recap).held = c.held := rfl
@[simp] theorem Chip.recap_tables (c : Chip) : (c.recap).tables = c.tables := rfl
@[simp] theorem Chip.recap_ulr (c : Chip) : (c.recap).ulr = c.ulr := rfl
@[simp] theorem Chip.recap_slots (c : Chip) : (c.recap).slots = c.slots := rfl
@[simp] theorem Chip.recap_cdc (c : Chip) : (c.recap).cdc = c.cdc := rfl
@[simp] theorem Chip.recap_stm (c : Chip) : (c.recap).stm = c.stm := rfl
@[simp] theorem Chip.recap_wnc (c : Chip) : (c.recap).wnc = c.wnc := rfl
@[simp] theorem Chip.recap_btm (c : Chip) : (c.recap).btm = c.btm := rfl
@[simp] theorem Chip.recap_bga (c : Chip) : (c.recap).bga = c.bga := rfl
@[simp] theorem Chip.recap_alt (c : Chip) : (c.recap).alt = c.alt := rfl
@[simp] theorem Chip.recap_sup (c : Chip) : (c.recap).sup = c.sup := rfl
@[simp] theorem Chip.recap_rtx (c : Chip) : (c.recap).rtx = c.rtx := rfl
@[simp] theorem Chip.recap_atx (c : Chip) : (c.recap).atx = c.atx := rfl
@[simp] theorem Chip.recap_tbs (c : Chip) : (c.recap).tbs = c.tbs := rfl
@[simp] theorem Chip.recap_mdc (c : Chip) : (c.recap).mdc = c.mdc := rfl

/-! `recapIf` -/

@[simp] theorem Chip.recapIf_now (c : Chip) (e : Bool) : (c.recapIf e).now = c.now := by unfold Chip.recapIf; split <;> simp
@[simp] theorem Chip.recapIf_spoolStart (c : Chip) (e : Bool) : (c.recapIf e).spoolStart = c.spoolStart := by unfold Chip.recapIf; split <;> simp
@[simp] theorem Chip.recapIf_held (c : Chip) (e : Bool) : (c.recapIf e).held = c.held := by unfold Chip.recapIf; split <;> simp
@[simp] theorem Chip.recapIf_tables (c : Chip) (e : Bool) : (c.recapIf e).tables = c.tables := by unfold Chip.recapIf; split <;> simp
@[simp] theorem Chip.recapIf_ulr (c : Chip) (e : Bool) : (c.recapIf e).ulr = c.ulr := by unfold Chip.recapIf; split <;> simp
@[simp] theorem Chip.recapIf_slots (c : Chip) (e : Bool) : (c.recapIf e).slots = c.slots := by unfold Chip.recapIf; split <;> simp
@[simp] theorem Chip.recapIf_cdc (c : Chip) (e : Bool) : (c.recapIf e).cdc = c.cdc := by unfold Chip.recapIf; split <;> simp
@[simp] theorem Chip.recapIf_stm (c : Chip) (e : Bool) : (c.recapIf e).stm = c.stm := by unfold Chip.recapIf; split <;> simp
@[simp] theorem Chip.recapIf_wnc (c : Chip) (e : Bool) : (c.recapIf e).wnc = c.wnc := by unfold Chip.recapIf; split <;> simp
@[simp] theorem Chip.recapIf_btm (c : Chip) (e : Bool) : (c.recapIf e).btm = c.btm := by unfold Chip.recapIf; split <;> simp
@[simp] theorem Chip.recapIf_bga (c : Chip) (e : Bool) : (c.recapIf e).bga = c.bga := by unfold Chip.recapIf; split <;> simp
@[simp] theorem Chip.recapIf_alt (c : Chip) (e : Bool) : (c.recapIf e).alt = c.alt := by unfold Chip.recapIf; split <;> simp
@[simp] theorem Chip.recapIf_sup (c : Chip) (e : Bool) : (c.recapIf e).sup = c.sup := by unfold Chip.recapIf; split <;> simp
@[simp] theorem Chip.recapIf_rtx (c : Chip) (e : Bool) : (c.recapIf e).rtx = c.rtx := by unfold Chip.recapIf; split <;> simp
@[simp] theorem Chip.recapIf_atx (c : Chip) (e : Bool) : (c.recapIf e).atx = c.atx := by unfold Chip.recapIf; split <;> simp
@[simp] theorem Chip.recapIf_tbs (c : Chip) (e : Bool) : (c.recapIf e).tbs = c.tbs := by unfold Chip.recapIf; split <;> simp
@[simp] theorem Chip.recapIf_mdc (c : Chip) (e : Bool) : (c.recapIf e).mdc = c.mdc := by unfold Chip.recapIf; split <;> simp

/-! `takeDriveGrant` -/

@[simp] theorem Chip.takeDriveGrant_now (c : Chip) (g : Nat) : (c.takeDriveGrant g).now = c.now := rfl
@[simp] theorem Chip.takeDriveGrant_spoolStart (c : Chip) (g : Nat) : (c.takeDriveGrant g).spoolStart = c.spoolStart := rfl
@[simp] theorem Chip.takeDriveGrant_held (c : Chip) (g : Nat) : (c.takeDriveGrant g).held = c.held := rfl
@[simp] theorem Chip.takeDriveGrant_tables (c : Chip) (g : Nat) : (c.takeDriveGrant g).tables = c.tables := rfl
@[simp] theorem Chip.takeDriveGrant_ulr (c : Chip) (g : Nat) : (c.takeDriveGrant g).ulr = c.ulr := rfl
@[simp] theorem Chip.takeDriveGrant_slots (c : Chip) (g : Nat) : (c.takeDriveGrant g).slots = c.slots := rfl
@[simp] theorem Chip.takeDriveGrant_cdc (c : Chip) (g : Nat) : (c.takeDriveGrant g).cdc = c.cdc := rfl
@[simp] theorem Chip.takeDriveGrant_stm (c : Chip) (g : Nat) : (c.takeDriveGrant g).stm = c.stm := rfl
@[simp] theorem Chip.takeDriveGrant_wnc (c : Chip) (g : Nat) : (c.takeDriveGrant g).wnc = c.wnc := rfl
@[simp] theorem Chip.takeDriveGrant_lsq (c : Chip) (g : Nat) : (c.takeDriveGrant g).lsq = c.lsq := rfl
@[simp] theorem Chip.takeDriveGrant_btm (c : Chip) (g : Nat) : (c.takeDriveGrant g).btm = c.btm := rfl
@[simp] theorem Chip.takeDriveGrant_bga (c : Chip) (g : Nat) : (c.takeDriveGrant g).bga = c.bga := rfl
@[simp] theorem Chip.takeDriveGrant_alt (c : Chip) (g : Nat) : (c.takeDriveGrant g).alt = c.alt := rfl
@[simp] theorem Chip.takeDriveGrant_sup (c : Chip) (g : Nat) : (c.takeDriveGrant g).sup = c.sup := rfl
@[simp] theorem Chip.takeDriveGrant_rtx (c : Chip) (g : Nat) : (c.takeDriveGrant g).rtx = c.rtx := rfl
@[simp] theorem Chip.takeDriveGrant_atx (c : Chip) (g : Nat) : (c.takeDriveGrant g).atx = c.atx := rfl
@[simp] theorem Chip.takeDriveGrant_tbs (c : Chip) (g : Nat) : (c.takeDriveGrant g).tbs = c.tbs := rfl
@[simp] theorem Chip.takeDriveGrant_mdc (c : Chip) (g : Nat) : (c.takeDriveGrant g).mdc = c.mdc := rfl

/-! `disarmDrive` -/

@[simp] theorem Chip.disarmDrive_now (c : Chip) : (c.disarmDrive).now = c.now := rfl
@[simp] theorem Chip.disarmDrive_spoolStart (c : Chip) : (c.disarmDrive).spoolStart = c.spoolStart := rfl
@[simp] theorem Chip.disarmDrive_held (c : Chip) : (c.disarmDrive).held = c.held := rfl
@[simp] theorem Chip.disarmDrive_tables (c : Chip) : (c.disarmDrive).tables = c.tables := rfl
@[simp] theorem Chip.disarmDrive_ulr (c : Chip) : (c.disarmDrive).ulr = c.ulr := rfl
@[simp] theorem Chip.disarmDrive_slots (c : Chip) : (c.disarmDrive).slots = c.slots := rfl
@[simp] theorem Chip.disarmDrive_cdc (c : Chip) : (c.disarmDrive).cdc = c.cdc := rfl
@[simp] theorem Chip.disarmDrive_stm (c : Chip) : (c.disarmDrive).stm = c.stm := rfl
@[simp] theorem Chip.disarmDrive_wnc (c : Chip) : (c.disarmDrive).wnc = c.wnc := rfl
@[simp] theorem Chip.disarmDrive_btm (c : Chip) : (c.disarmDrive).btm = c.btm := rfl
@[simp] theorem Chip.disarmDrive_bga (c : Chip) : (c.disarmDrive).bga = c.bga := rfl
@[simp] theorem Chip.disarmDrive_alt (c : Chip) : (c.disarmDrive).alt = c.alt := rfl
@[simp] theorem Chip.disarmDrive_sup (c : Chip) : (c.disarmDrive).sup = c.sup := rfl
@[simp] theorem Chip.disarmDrive_rtx (c : Chip) : (c.disarmDrive).rtx = c.rtx := rfl
@[simp] theorem Chip.disarmDrive_atx (c : Chip) : (c.disarmDrive).atx = c.atx := rfl
@[simp] theorem Chip.disarmDrive_tbs (c : Chip) : (c.disarmDrive).tbs = c.tbs := rfl
@[simp] theorem Chip.disarmDrive_mdc (c : Chip) : (c.disarmDrive).mdc = c.mdc := rfl

/-! `rehandle` -/

@[simp] theorem Chip.rehandle_now (c : Chip) : (c.rehandle).now = c.now := rfl
@[simp] theorem Chip.rehandle_spoolStart (c : Chip) : (c.rehandle).spoolStart = c.spoolStart := rfl
@[simp] theorem Chip.rehandle_held (c : Chip) : (c.rehandle).held = c.held := rfl
@[simp] theorem Chip.rehandle_tables (c : Chip) : (c.rehandle).tables = c.tables := rfl
@[simp] theorem Chip.rehandle_ulr (c : Chip) : (c.rehandle).ulr = c.ulr := rfl
@[simp] theorem Chip.rehandle_slots (c : Chip) : (c.rehandle).slots = c.slots := rfl
@[simp] theorem Chip.rehandle_cdc (c : Chip) : (c.rehandle).cdc = c.cdc := rfl
@[simp] theorem Chip.rehandle_stm (c : Chip) : (c.rehandle).stm = c.stm := rfl
@[simp] theorem Chip.rehandle_wnc (c : Chip) : (c.rehandle).wnc = c.wnc := rfl
@[simp] theorem Chip.rehandle_btm (c : Chip) : (c.rehandle).btm = c.btm := rfl
@[simp] theorem Chip.rehandle_bga (c : Chip) : (c.rehandle).bga = c.bga := rfl
@[simp] theorem Chip.rehandle_alt (c : Chip) : (c.rehandle).alt = c.alt := rfl
@[simp] theorem Chip.rehandle_sup (c : Chip) : (c.rehandle).sup = c.sup := rfl
@[simp] theorem Chip.rehandle_rtx (c : Chip) : (c.rehandle).rtx = c.rtx := rfl
@[simp] theorem Chip.rehandle_atx (c : Chip) : (c.rehandle).atx = c.atx := rfl
@[simp] theorem Chip.rehandle_tbs (c : Chip) : (c.rehandle).tbs = c.tbs := rfl
@[simp] theorem Chip.rehandle_mdc (c : Chip) : (c.rehandle).mdc = c.mdc := rfl

/-! `arm` -/

@[simp] theorem Chip.arm_now (c : Chip) : (c.arm).now = c.now := by unfold Chip.arm; split <;> simp
@[simp] theorem Chip.arm_spoolStart (c : Chip) : (c.arm).spoolStart = c.spoolStart := by unfold Chip.arm; split <;> simp
@[simp] theorem Chip.arm_held (c : Chip) : (c.arm).held = c.held := by unfold Chip.arm; split <;> simp
@[simp] theorem Chip.arm_tables (c : Chip) : (c.arm).tables = c.tables := by unfold Chip.arm; split <;> simp
@[simp] theorem Chip.arm_ulr (c : Chip) : (c.arm).ulr = c.ulr := by unfold Chip.arm; split <;> simp
@[simp] theorem Chip.arm_slots (c : Chip) : (c.arm).slots = c.slots := by unfold Chip.arm; split <;> simp
@[simp] theorem Chip.arm_cdc (c : Chip) : (c.arm).cdc = c.cdc := by unfold Chip.arm; split <;> simp
@[simp] theorem Chip.arm_stm (c : Chip) : (c.arm).stm = c.stm := by unfold Chip.arm; split <;> simp
@[simp] theorem Chip.arm_wnc (c : Chip) : (c.arm).wnc = c.wnc := by unfold Chip.arm; split <;> simp
@[simp] theorem Chip.arm_btm (c : Chip) : (c.arm).btm = c.btm := by unfold Chip.arm; split <;> simp
@[simp] theorem Chip.arm_bga (c : Chip) : (c.arm).bga = c.bga := by unfold Chip.arm; split <;> simp
@[simp] theorem Chip.arm_alt (c : Chip) : (c.arm).alt = c.alt := by unfold Chip.arm; split <;> simp
@[simp] theorem Chip.arm_sup (c : Chip) : (c.arm).sup = c.sup := by unfold Chip.arm; split <;> simp
@[simp] theorem Chip.arm_rtx (c : Chip) : (c.arm).rtx = c.rtx := by unfold Chip.arm; split <;> simp
@[simp] theorem Chip.arm_atx (c : Chip) : (c.arm).atx = c.atx := by unfold Chip.arm; split <;> simp
@[simp] theorem Chip.arm_tbs (c : Chip) : (c.arm).tbs = c.tbs := by unfold Chip.arm; split <;> simp
@[simp] theorem Chip.arm_mdc (c : Chip) : (c.arm).mdc = c.mdc := by unfold Chip.arm; split <;> simp

/-! `endReversal` -/

@[simp] theorem Chip.endReversal_now (c : Chip) (a : Axle) : (c.endReversal a).now = c.now := by unfold Chip.endReversal; split <;> simp
@[simp] theorem Chip.endReversal_spoolStart (c : Chip) (a : Axle) : (c.endReversal a).spoolStart = c.spoolStart := by unfold Chip.endReversal; split <;> simp
@[simp] theorem Chip.endReversal_held (c : Chip) (a : Axle) : (c.endReversal a).held = c.held := by unfold Chip.endReversal; split <;> simp
@[simp] theorem Chip.endReversal_tables (c : Chip) (a : Axle) : (c.endReversal a).tables = c.tables := by unfold Chip.endReversal; split <;> simp
@[simp] theorem Chip.endReversal_ulr (c : Chip) (a : Axle) : (c.endReversal a).ulr = c.ulr := by unfold Chip.endReversal; split <;> simp
@[simp] theorem Chip.endReversal_slots (c : Chip) (a : Axle) : (c.endReversal a).slots = c.slots := by unfold Chip.endReversal; split <;> simp
@[simp] theorem Chip.endReversal_cdc (c : Chip) (a : Axle) : (c.endReversal a).cdc = c.cdc := by unfold Chip.endReversal; split <;> simp
@[simp] theorem Chip.endReversal_stm (c : Chip) (a : Axle) : (c.endReversal a).stm = c.stm := by unfold Chip.endReversal; split <;> simp
@[simp] theorem Chip.endReversal_wnc (c : Chip) (a : Axle) : (c.endReversal a).wnc = c.wnc := by unfold Chip.endReversal; split <;> simp
@[simp] theorem Chip.endReversal_btm (c : Chip) (a : Axle) : (c.endReversal a).btm = c.btm := by unfold Chip.endReversal; split <;> simp
@[simp] theorem Chip.endReversal_bga (c : Chip) (a : Axle) : (c.endReversal a).bga = c.bga := by unfold Chip.endReversal; split <;> simp
@[simp] theorem Chip.endReversal_alt (c : Chip) (a : Axle) : (c.endReversal a).alt = c.alt := by unfold Chip.endReversal; split <;> simp
@[simp] theorem Chip.endReversal_sup (c : Chip) (a : Axle) : (c.endReversal a).sup = c.sup := by unfold Chip.endReversal; split <;> simp
@[simp] theorem Chip.endReversal_rtx (c : Chip) (a : Axle) : (c.endReversal a).rtx = c.rtx := by unfold Chip.endReversal; split <;> simp
@[simp] theorem Chip.endReversal_atx (c : Chip) (a : Axle) : (c.endReversal a).atx = c.atx := by unfold Chip.endReversal; split <;> simp
@[simp] theorem Chip.endReversal_tbs (c : Chip) (a : Axle) : (c.endReversal a).tbs = c.tbs := by unfold Chip.endReversal; split <;> simp
@[simp] theorem Chip.endReversal_mdc (c : Chip) (a : Axle) : (c.endReversal a).mdc = c.mdc := by unfold Chip.endReversal; split <;> simp

/-! `setWinch` -/

@[simp] theorem Chip.setWinch_now (c : Chip) (w : Winch) : (c.setWinch w).now = c.now := by simp [Chip.setWinch]
@[simp] theorem Chip.setWinch_spoolStart (c : Chip) (w : Winch) : (c.setWinch w).spoolStart = c.spoolStart := by simp [Chip.setWinch]
@[simp] theorem Chip.setWinch_held (c : Chip) (w : Winch) : (c.setWinch w).held = c.held := by simp [Chip.setWinch]
@[simp] theorem Chip.setWinch_tables (c : Chip) (w : Winch) : (c.setWinch w).tables = c.tables := by simp [Chip.setWinch]
@[simp] theorem Chip.setWinch_ulr (c : Chip) (w : Winch) : (c.setWinch w).ulr = c.ulr := by simp [Chip.setWinch]
@[simp] theorem Chip.setWinch_slots (c : Chip) (w : Winch) : (c.setWinch w).slots = c.slots := by simp [Chip.setWinch]
@[simp] theorem Chip.setWinch_cdc (c : Chip) (w : Winch) : (c.setWinch w).cdc = c.cdc := by simp [Chip.setWinch]
@[simp] theorem Chip.setWinch_stm (c : Chip) (w : Winch) : (c.setWinch w).stm = c.stm := by simp [Chip.setWinch]
@[simp] theorem Chip.setWinch_btm (c : Chip) (w : Winch) : (c.setWinch w).btm = c.btm := by simp [Chip.setWinch]
@[simp] theorem Chip.setWinch_bga (c : Chip) (w : Winch) : (c.setWinch w).bga = c.bga := by simp [Chip.setWinch]
@[simp] theorem Chip.setWinch_sup (c : Chip) (w : Winch) : (c.setWinch w).sup = c.sup := by simp [Chip.setWinch]
@[simp] theorem Chip.setWinch_rtx (c : Chip) (w : Winch) : (c.setWinch w).rtx = c.rtx := by simp [Chip.setWinch]
@[simp] theorem Chip.setWinch_atx (c : Chip) (w : Winch) : (c.setWinch w).atx = c.atx := by simp [Chip.setWinch]
@[simp] theorem Chip.setWinch_tbs (c : Chip) (w : Winch) : (c.setWinch w).tbs = c.tbs := by simp [Chip.setWinch]
@[simp] theorem Chip.setWinch_mdc (c : Chip) (w : Winch) : (c.setWinch w).mdc = c.mdc := by simp [Chip.setWinch]

/-! `winchLockTest` -/

@[simp] theorem Chip.winchLockTest_now (c : Chip) : (c.winchLockTest).now = c.now := by simp [Chip.winchLockTest]
@[simp] theorem Chip.winchLockTest_spoolStart (c : Chip) : (c.winchLockTest).spoolStart = c.spoolStart := by simp [Chip.winchLockTest]
@[simp] theorem Chip.winchLockTest_held (c : Chip) : (c.winchLockTest).held = c.held := by simp [Chip.winchLockTest]
@[simp] theorem Chip.winchLockTest_tables (c : Chip) : (c.winchLockTest).tables = c.tables := by simp [Chip.winchLockTest]
@[simp] theorem Chip.winchLockTest_ulr (c : Chip) : (c.winchLockTest).ulr = c.ulr := by simp [Chip.winchLockTest]
@[simp] theorem Chip.winchLockTest_slots (c : Chip) : (c.winchLockTest).slots = c.slots := by simp [Chip.winchLockTest]
@[simp] theorem Chip.winchLockTest_cdc (c : Chip) : (c.winchLockTest).cdc = c.cdc := by simp [Chip.winchLockTest]
@[simp] theorem Chip.winchLockTest_stm (c : Chip) : (c.winchLockTest).stm = c.stm := by simp [Chip.winchLockTest]
@[simp] theorem Chip.winchLockTest_btm (c : Chip) : (c.winchLockTest).btm = c.btm := by simp [Chip.winchLockTest]
@[simp] theorem Chip.winchLockTest_bga (c : Chip) : (c.winchLockTest).bga = c.bga := by simp [Chip.winchLockTest]
@[simp] theorem Chip.winchLockTest_sup (c : Chip) : (c.winchLockTest).sup = c.sup := by simp [Chip.winchLockTest]
@[simp] theorem Chip.winchLockTest_rtx (c : Chip) : (c.winchLockTest).rtx = c.rtx := by simp [Chip.winchLockTest]
@[simp] theorem Chip.winchLockTest_atx (c : Chip) : (c.winchLockTest).atx = c.atx := by simp [Chip.winchLockTest]
@[simp] theorem Chip.winchLockTest_tbs (c : Chip) : (c.winchLockTest).tbs = c.tbs := by simp [Chip.winchLockTest]
@[simp] theorem Chip.winchLockTest_mdc (c : Chip) : (c.winchLockTest).mdc = c.mdc := by simp [Chip.winchLockTest]

/-! `winchUpdate` -/

@[simp] theorem Chip.winchUpdate_now (c : Chip) : (c.winchUpdate).now = c.now := by unfold Chip.winchUpdate; split <;> simp
@[simp] theorem Chip.winchUpdate_spoolStart (c : Chip) : (c.winchUpdate).spoolStart = c.spoolStart := by unfold Chip.winchUpdate; split <;> simp
@[simp] theorem Chip.winchUpdate_held (c : Chip) : (c.winchUpdate).held = c.held := by unfold Chip.winchUpdate; split <;> simp
@[simp] theorem Chip.winchUpdate_tables (c : Chip) : (c.winchUpdate).tables = c.tables := by unfold Chip.winchUpdate; split <;> simp
@[simp] theorem Chip.winchUpdate_ulr (c : Chip) : (c.winchUpdate).ulr = c.ulr := by unfold Chip.winchUpdate; split <;> simp
@[simp] theorem Chip.winchUpdate_slots (c : Chip) : (c.winchUpdate).slots = c.slots := by unfold Chip.winchUpdate; split <;> simp
@[simp] theorem Chip.winchUpdate_cdc (c : Chip) : (c.winchUpdate).cdc = c.cdc := by unfold Chip.winchUpdate; split <;> simp
@[simp] theorem Chip.winchUpdate_stm (c : Chip) : (c.winchUpdate).stm = c.stm := by unfold Chip.winchUpdate; split <;> simp
@[simp] theorem Chip.winchUpdate_btm (c : Chip) : (c.winchUpdate).btm = c.btm := by unfold Chip.winchUpdate; split <;> simp
@[simp] theorem Chip.winchUpdate_bga (c : Chip) : (c.winchUpdate).bga = c.bga := by unfold Chip.winchUpdate; split <;> simp
@[simp] theorem Chip.winchUpdate_sup (c : Chip) : (c.winchUpdate).sup = c.sup := by unfold Chip.winchUpdate; split <;> simp
@[simp] theorem Chip.winchUpdate_rtx (c : Chip) : (c.winchUpdate).rtx = c.rtx := by unfold Chip.winchUpdate; split <;> simp
@[simp] theorem Chip.winchUpdate_atx (c : Chip) : (c.winchUpdate).atx = c.atx := by unfold Chip.winchUpdate; split <;> simp
@[simp] theorem Chip.winchUpdate_tbs (c : Chip) : (c.winchUpdate).tbs = c.tbs := by unfold Chip.winchUpdate; split <;> simp
@[simp] theorem Chip.winchUpdate_mdc (c : Chip) : (c.winchUpdate).mdc = c.mdc := by unfold Chip.winchUpdate; split <;> simp

/-! `winchLevelChange` -/

@[simp] theorem Chip.winchLevelChange_now (c : Chip) : (c.winchLevelChange).now = c.now := by simp [Chip.winchLevelChange]
@[simp] theorem Chip.winchLevelChange_spoolStart (c : Chip) : (c.winchLevelChange).spoolStart = c.spoolStart := by simp [Chip.winchLevelChange]
@[simp] theorem Chip.winchLevelChange_held (c : Chip) : (c.winchLevelChange).held = c.held := by simp [Chip.winchLevelChange]
@[simp] theorem Chip.winchLevelChange_tables (c : Chip) : (c.winchLevelChange).tables = c.tables := by simp [Chip.winchLevelChange]
@[simp] theorem Chip.winchLevelChange_ulr (c : Chip) : (c.winchLevelChange).ulr = c.ulr := by simp [Chip.winchLevelChange]
@[simp] theorem Chip.winchLevelChange_slots (c : Chip) : (c.winchLevelChange).slots = c.slots := by simp [Chip.winchLevelChange]
@[simp] theorem Chip.winchLevelChange_cdc (c : Chip) : (c.winchLevelChange).cdc = c.cdc := by simp [Chip.winchLevelChange]
@[simp] theorem Chip.winchLevelChange_stm (c : Chip) : (c.winchLevelChange).stm = c.stm := by simp [Chip.winchLevelChange]
@[simp] theorem Chip.winchLevelChange_btm (c : Chip) : (c.winchLevelChange).btm = c.btm := by simp [Chip.winchLevelChange]
@[simp] theorem Chip.winchLevelChange_bga (c : Chip) : (c.winchLevelChange).bga = c.bga := by simp [Chip.winchLevelChange]
@[simp] theorem Chip.winchLevelChange_sup (c : Chip) : (c.winchLevelChange).sup = c.sup := by simp [Chip.winchLevelChange]
@[simp] theorem Chip.winchLevelChange_rtx (c : Chip) : (c.winchLevelChange).rtx = c.rtx := by simp [Chip.winchLevelChange]
@[simp] theorem Chip.winchLevelChange_atx (c : Chip) : (c.winchLevelChange).atx = c.atx := by simp [Chip.winchLevelChange]
@[simp] theorem Chip.winchLevelChange_tbs (c : Chip) : (c.winchLevelChange).tbs = c.tbs := by simp [Chip.winchLevelChange]
@[simp] theorem Chip.winchLevelChange_mdc (c : Chip) : (c.winchLevelChange).mdc = c.mdc := by simp [Chip.winchLevelChange]

/-! `takeWinchGrant` -/

@[simp] theorem Chip.takeWinchGrant_now (c : Chip) (g : Nat) : (c.takeWinchGrant g).now = c.now := by simp [Chip.takeWinchGrant]
@[simp] theorem Chip.takeWinchGrant_spoolStart (c : Chip) (g : Nat) : (c.takeWinchGrant g).spoolStart = c.spoolStart := by simp [Chip.takeWinchGrant]
@[simp] theorem Chip.takeWinchGrant_held (c : Chip) (g : Nat) : (c.takeWinchGrant g).held = c.held := by simp [Chip.takeWinchGrant]
@[simp] theorem Chip.takeWinchGrant_tables (c : Chip) (g : Nat) : (c.takeWinchGrant g).tables = c.tables := by simp [Chip.takeWinchGrant]
@[simp] theorem Chip.takeWinchGrant_ulr (c : Chip) (g : Nat) : (c.takeWinchGrant g).ulr = c.ulr := by simp [Chip.takeWinchGrant]
@[simp] theorem Chip.takeWinchGrant_slots (c : Chip) (g : Nat) : (c.takeWinchGrant g).slots = c.slots := by simp [Chip.takeWinchGrant]
@[simp] theorem Chip.takeWinchGrant_cdc (c : Chip) (g : Nat) : (c.takeWinchGrant g).cdc = c.cdc := by simp [Chip.takeWinchGrant]
@[simp] theorem Chip.takeWinchGrant_stm (c : Chip) (g : Nat) : (c.takeWinchGrant g).stm = c.stm := by simp [Chip.takeWinchGrant]
@[simp] theorem Chip.takeWinchGrant_btm (c : Chip) (g : Nat) : (c.takeWinchGrant g).btm = c.btm := by simp [Chip.takeWinchGrant]
@[simp] theorem Chip.takeWinchGrant_bga (c : Chip) (g : Nat) : (c.takeWinchGrant g).bga = c.bga := by simp [Chip.takeWinchGrant]
@[simp] theorem Chip.takeWinchGrant_sup (c : Chip) (g : Nat) : (c.takeWinchGrant g).sup = c.sup := by simp [Chip.takeWinchGrant]
@[simp] theorem Chip.takeWinchGrant_rtx (c : Chip) (g : Nat) : (c.takeWinchGrant g).rtx = c.rtx := by simp [Chip.takeWinchGrant]
@[simp] theorem Chip.takeWinchGrant_atx (c : Chip) (g : Nat) : (c.takeWinchGrant g).atx = c.atx := by simp [Chip.takeWinchGrant]
@[simp] theorem Chip.takeWinchGrant_tbs (c : Chip) (g : Nat) : (c.takeWinchGrant g).tbs = c.tbs := by simp [Chip.takeWinchGrant]
@[simp] theorem Chip.takeWinchGrant_mdc (c : Chip) (g : Nat) : (c.takeWinchGrant g).mdc = c.mdc := by simp [Chip.takeWinchGrant]

/-! `winchReconfigure` -/

@[simp] theorem Chip.winchReconfigure_now (c : Chip) : (c.winchReconfigure).now = c.now := by simp [Chip.winchReconfigure]
@[simp] theorem Chip.winchReconfigure_spoolStart (c : Chip) : (c.winchReconfigure).spoolStart = c.spoolStart := by simp [Chip.winchReconfigure]
@[simp] theorem Chip.winchReconfigure_held (c : Chip) : (c.winchReconfigure).held = c.held := by simp [Chip.winchReconfigure]
@[simp] theorem Chip.winchReconfigure_tables (c : Chip) : (c.winchReconfigure).tables = c.tables := by simp [Chip.winchReconfigure]
@[simp] theorem Chip.winchReconfigure_ulr (c : Chip) : (c.winchReconfigure).ulr = c.ulr := by simp [Chip.winchReconfigure]
@[simp] theorem Chip.winchReconfigure_slots (c : Chip) : (c.winchReconfigure).slots = c.slots := by simp [Chip.winchReconfigure]
@[simp] theorem Chip.winchReconfigure_cdc (c : Chip) : (c.winchReconfigure).cdc = c.cdc := by simp [Chip.winchReconfigure]
@[simp] theorem Chip.winchReconfigure_stm (c : Chip) : (c.winchReconfigure).stm = c.stm := by simp [Chip.winchReconfigure]
@[simp] theorem Chip.winchReconfigure_btm (c : Chip) : (c.winchReconfigure).btm = c.btm := by simp [Chip.winchReconfigure]
@[simp] theorem Chip.winchReconfigure_bga (c : Chip) : (c.winchReconfigure).bga = c.bga := by simp [Chip.winchReconfigure]
@[simp] theorem Chip.winchReconfigure_sup (c : Chip) : (c.winchReconfigure).sup = c.sup := by simp [Chip.winchReconfigure]
@[simp] theorem Chip.winchReconfigure_rtx (c : Chip) : (c.winchReconfigure).rtx = c.rtx := by simp [Chip.winchReconfigure]
@[simp] theorem Chip.winchReconfigure_atx (c : Chip) : (c.winchReconfigure).atx = c.atx := by simp [Chip.winchReconfigure]
@[simp] theorem Chip.winchReconfigure_tbs (c : Chip) : (c.winchReconfigure).tbs = c.tbs := by simp [Chip.winchReconfigure]
@[simp] theorem Chip.winchReconfigure_mdc (c : Chip) : (c.winchReconfigure).mdc = c.mdc := by simp [Chip.winchReconfigure]

/-! `spoolPulse` -/

@[simp] theorem Chip.spoolPulse_now (c : Chip) (start : Nat) : (c.spoolPulse start).now = c.now := by simp [Chip.spoolPulse]
@[simp] theorem Chip.spoolPulse_held (c : Chip) (start : Nat) : (c.spoolPulse start).held = c.held := by simp [Chip.spoolPulse]
@[simp] theorem Chip.spoolPulse_tables (c : Chip) (start : Nat) : (c.spoolPulse start).tables = c.tables := by simp [Chip.spoolPulse]
@[simp] theorem Chip.spoolPulse_ulr (c : Chip) (start : Nat) : (c.spoolPulse start).ulr = c.ulr := by simp [Chip.spoolPulse]
@[simp] theorem Chip.spoolPulse_slots (c : Chip) (start : Nat) : (c.spoolPulse start).slots = c.slots := by simp [Chip.spoolPulse]
@[simp] theorem Chip.spoolPulse_cdc (c : Chip) (start : Nat) : (c.spoolPulse start).cdc = c.cdc := by simp [Chip.spoolPulse]
@[simp] theorem Chip.spoolPulse_stm (c : Chip) (start : Nat) : (c.spoolPulse start).stm = c.stm := by simp [Chip.spoolPulse]
@[simp] theorem Chip.spoolPulse_btm (c : Chip) (start : Nat) : (c.spoolPulse start).btm = c.btm := by simp [Chip.spoolPulse]
@[simp] theorem Chip.spoolPulse_bga (c : Chip) (start : Nat) : (c.spoolPulse start).bga = c.bga := by simp [Chip.spoolPulse]
@[simp] theorem Chip.spoolPulse_sup (c : Chip) (start : Nat) : (c.spoolPulse start).sup = c.sup := by simp [Chip.spoolPulse]
@[simp] theorem Chip.spoolPulse_rtx (c : Chip) (start : Nat) : (c.spoolPulse start).rtx = c.rtx := by simp [Chip.spoolPulse]
@[simp] theorem Chip.spoolPulse_atx (c : Chip) (start : Nat) : (c.spoolPulse start).atx = c.atx := by simp [Chip.spoolPulse]
@[simp] theorem Chip.spoolPulse_tbs (c : Chip) (start : Nat) : (c.spoolPulse start).tbs = c.tbs := by simp [Chip.spoolPulse]
@[simp] theorem Chip.spoolPulse_mdc (c : Chip) (start : Nat) : (c.spoolPulse start).mdc = c.mdc := by simp [Chip.spoolPulse]

/-! `takeGrantOf` -/

@[simp] theorem Chip.takeGrantOf_now (c : Chip) (t : EvalTaker) : (c.takeGrantOf t).now = c.now := by cases t <;> simp [Chip.takeGrantOf]
@[simp] theorem Chip.takeGrantOf_spoolStart (c : Chip) (t : EvalTaker) : (c.takeGrantOf t).spoolStart = c.spoolStart := by cases t <;> simp [Chip.takeGrantOf]
@[simp] theorem Chip.takeGrantOf_held (c : Chip) (t : EvalTaker) : (c.takeGrantOf t).held = c.held := by cases t <;> simp [Chip.takeGrantOf]
@[simp] theorem Chip.takeGrantOf_tables (c : Chip) (t : EvalTaker) : (c.takeGrantOf t).tables = c.tables := by cases t <;> simp [Chip.takeGrantOf]
@[simp] theorem Chip.takeGrantOf_ulr (c : Chip) (t : EvalTaker) : (c.takeGrantOf t).ulr = c.ulr := by cases t <;> simp [Chip.takeGrantOf]
@[simp] theorem Chip.takeGrantOf_slots (c : Chip) (t : EvalTaker) : (c.takeGrantOf t).slots = c.slots := by cases t <;> simp [Chip.takeGrantOf]
@[simp] theorem Chip.takeGrantOf_cdc (c : Chip) (t : EvalTaker) : (c.takeGrantOf t).cdc = c.cdc := by cases t <;> simp [Chip.takeGrantOf]
@[simp] theorem Chip.takeGrantOf_stm (c : Chip) (t : EvalTaker) : (c.takeGrantOf t).stm = c.stm := by cases t <;> simp [Chip.takeGrantOf]
@[simp] theorem Chip.takeGrantOf_btm (c : Chip) (t : EvalTaker) : (c.takeGrantOf t).btm = c.btm := by cases t <;> simp [Chip.takeGrantOf]
@[simp] theorem Chip.takeGrantOf_bga (c : Chip) (t : EvalTaker) : (c.takeGrantOf t).bga = c.bga := by cases t <;> simp [Chip.takeGrantOf]
@[simp] theorem Chip.takeGrantOf_sup (c : Chip) (t : EvalTaker) : (c.takeGrantOf t).sup = c.sup := by cases t <;> simp [Chip.takeGrantOf]
@[simp] theorem Chip.takeGrantOf_rtx (c : Chip) (t : EvalTaker) : (c.takeGrantOf t).rtx = c.rtx := by cases t <;> simp [Chip.takeGrantOf]
@[simp] theorem Chip.takeGrantOf_atx (c : Chip) (t : EvalTaker) : (c.takeGrantOf t).atx = c.atx := by cases t <;> simp [Chip.takeGrantOf]
@[simp] theorem Chip.takeGrantOf_tbs (c : Chip) (t : EvalTaker) : (c.takeGrantOf t).tbs = c.tbs := by cases t <;> simp [Chip.takeGrantOf]
@[simp] theorem Chip.takeGrantOf_mdc (c : Chip) (t : EvalTaker) : (c.takeGrantOf t).mdc = c.mdc := by cases t <;> simp [Chip.takeGrantOf]

/-! `grantEvent` -/

@[simp] theorem Chip.grantEvent_now (c : Chip) (order : List EvalTaker) : (c.grantEvent order).now = c.now := foldl_keeps Chip.now _ (fun d t => Chip.takeGrantOf_now d t) _ _
@[simp] theorem Chip.grantEvent_spoolStart (c : Chip) (order : List EvalTaker) : (c.grantEvent order).spoolStart = c.spoolStart := foldl_keeps Chip.spoolStart _ (fun d t => Chip.takeGrantOf_spoolStart d t) _ _
@[simp] theorem Chip.grantEvent_held (c : Chip) (order : List EvalTaker) : (c.grantEvent order).held = c.held := foldl_keeps Chip.held _ (fun d t => Chip.takeGrantOf_held d t) _ _
@[simp] theorem Chip.grantEvent_tables (c : Chip) (order : List EvalTaker) : (c.grantEvent order).tables = c.tables := foldl_keeps Chip.tables _ (fun d t => Chip.takeGrantOf_tables d t) _ _
@[simp] theorem Chip.grantEvent_ulr (c : Chip) (order : List EvalTaker) : (c.grantEvent order).ulr = c.ulr := foldl_keeps Chip.ulr _ (fun d t => Chip.takeGrantOf_ulr d t) _ _
@[simp] theorem Chip.grantEvent_slots (c : Chip) (order : List EvalTaker) : (c.grantEvent order).slots = c.slots := foldl_keeps Chip.slots _ (fun d t => Chip.takeGrantOf_slots d t) _ _
@[simp] theorem Chip.grantEvent_cdc (c : Chip) (order : List EvalTaker) : (c.grantEvent order).cdc = c.cdc := foldl_keeps Chip.cdc _ (fun d t => Chip.takeGrantOf_cdc d t) _ _
@[simp] theorem Chip.grantEvent_stm (c : Chip) (order : List EvalTaker) : (c.grantEvent order).stm = c.stm := foldl_keeps Chip.stm _ (fun d t => Chip.takeGrantOf_stm d t) _ _
@[simp] theorem Chip.grantEvent_btm (c : Chip) (order : List EvalTaker) : (c.grantEvent order).btm = c.btm := foldl_keeps Chip.btm _ (fun d t => Chip.takeGrantOf_btm d t) _ _
@[simp] theorem Chip.grantEvent_bga (c : Chip) (order : List EvalTaker) : (c.grantEvent order).bga = c.bga := foldl_keeps Chip.bga _ (fun d t => Chip.takeGrantOf_bga d t) _ _
@[simp] theorem Chip.grantEvent_sup (c : Chip) (order : List EvalTaker) : (c.grantEvent order).sup = c.sup := foldl_keeps Chip.sup _ (fun d t => Chip.takeGrantOf_sup d t) _ _
@[simp] theorem Chip.grantEvent_rtx (c : Chip) (order : List EvalTaker) : (c.grantEvent order).rtx = c.rtx := foldl_keeps Chip.rtx _ (fun d t => Chip.takeGrantOf_rtx d t) _ _
@[simp] theorem Chip.grantEvent_atx (c : Chip) (order : List EvalTaker) : (c.grantEvent order).atx = c.atx := foldl_keeps Chip.atx _ (fun d t => Chip.takeGrantOf_atx d t) _ _
@[simp] theorem Chip.grantEvent_tbs (c : Chip) (order : List EvalTaker) : (c.grantEvent order).tbs = c.tbs := foldl_keeps Chip.tbs _ (fun d t => Chip.takeGrantOf_tbs d t) _ _
@[simp] theorem Chip.grantEvent_mdc (c : Chip) (order : List EvalTaker) : (c.grantEvent order).mdc = c.mdc := foldl_keeps Chip.mdc _ (fun d t => Chip.takeGrantOf_mdc d t) _ _

/-! `startCutoff` -/

@[simp] theorem Chip.startCutoff_now (c : Chip) (e : Bool) : (c.startCutoff e).now = c.now := rfl
@[simp] theorem Chip.startCutoff_spoolStart (c : Chip) (e : Bool) : (c.startCutoff e).spoolStart = c.spoolStart := rfl
@[simp] theorem Chip.startCutoff_held (c : Chip) (e : Bool) : (c.startCutoff e).held = c.held := rfl
@[simp] theorem Chip.startCutoff_tables (c : Chip) (e : Bool) : (c.startCutoff e).tables = c.tables := rfl
@[simp] theorem Chip.startCutoff_ulr (c : Chip) (e : Bool) : (c.startCutoff e).ulr = c.ulr := rfl
@[simp] theorem Chip.startCutoff_slots (c : Chip) (e : Bool) : (c.startCutoff e).slots = c.slots := rfl
@[simp] theorem Chip.startCutoff_cdc (c : Chip) (e : Bool) : (c.startCutoff e).cdc = c.cdc := rfl
@[simp] theorem Chip.startCutoff_stm (c : Chip) (e : Bool) : (c.startCutoff e).stm = c.stm := rfl
@[simp] theorem Chip.startCutoff_drm (c : Chip) (e : Bool) : (c.startCutoff e).drm = c.drm := rfl
@[simp] theorem Chip.startCutoff_wnc (c : Chip) (e : Bool) : (c.startCutoff e).wnc = c.wnc := rfl
@[simp] theorem Chip.startCutoff_lsq (c : Chip) (e : Bool) : (c.startCutoff e).lsq = c.lsq := rfl
@[simp] theorem Chip.startCutoff_btm (c : Chip) (e : Bool) : (c.startCutoff e).btm = c.btm := rfl
@[simp] theorem Chip.startCutoff_bga (c : Chip) (e : Bool) : (c.startCutoff e).bga = c.bga := rfl
@[simp] theorem Chip.startCutoff_alt (c : Chip) (e : Bool) : (c.startCutoff e).alt = c.alt := rfl
@[simp] theorem Chip.startCutoff_sup (c : Chip) (e : Bool) : (c.startCutoff e).sup = c.sup := rfl
@[simp] theorem Chip.startCutoff_rtx (c : Chip) (e : Bool) : (c.startCutoff e).rtx = c.rtx := rfl
@[simp] theorem Chip.startCutoff_atx (c : Chip) (e : Bool) : (c.startCutoff e).atx = c.atx := rfl
@[simp] theorem Chip.startCutoff_tbs (c : Chip) (e : Bool) : (c.startCutoff e).tbs = c.tbs := rfl

/-! `reschedule` -/

@[simp] theorem Chip.reschedule_now (c : Chip) : (c.reschedule).now = c.now := rfl
@[simp] theorem Chip.reschedule_spoolStart (c : Chip) : (c.reschedule).spoolStart = c.spoolStart := rfl
@[simp] theorem Chip.reschedule_held (c : Chip) : (c.reschedule).held = c.held := rfl
@[simp] theorem Chip.reschedule_tables (c : Chip) : (c.reschedule).tables = c.tables := rfl
@[simp] theorem Chip.reschedule_ulr (c : Chip) : (c.reschedule).ulr = c.ulr := rfl
@[simp] theorem Chip.reschedule_slots (c : Chip) : (c.reschedule).slots = c.slots := rfl
@[simp] theorem Chip.reschedule_cdc (c : Chip) : (c.reschedule).cdc = c.cdc := rfl
@[simp] theorem Chip.reschedule_stm (c : Chip) : (c.reschedule).stm = c.stm := rfl
@[simp] theorem Chip.reschedule_drm (c : Chip) : (c.reschedule).drm = c.drm := rfl
@[simp] theorem Chip.reschedule_wnc (c : Chip) : (c.reschedule).wnc = c.wnc := rfl
@[simp] theorem Chip.reschedule_lsq (c : Chip) : (c.reschedule).lsq = c.lsq := rfl
@[simp] theorem Chip.reschedule_bga (c : Chip) : (c.reschedule).bga = c.bga := rfl
@[simp] theorem Chip.reschedule_alt (c : Chip) : (c.reschedule).alt = c.alt := rfl
@[simp] theorem Chip.reschedule_sup (c : Chip) : (c.reschedule).sup = c.sup := rfl
@[simp] theorem Chip.reschedule_rtx (c : Chip) : (c.reschedule).rtx = c.rtx := rfl
@[simp] theorem Chip.reschedule_atx (c : Chip) : (c.reschedule).atx = c.atx := rfl
@[simp] theorem Chip.reschedule_tbs (c : Chip) : (c.reschedule).tbs = c.tbs := rfl
@[simp] theorem Chip.reschedule_mdc (c : Chip) : (c.reschedule).mdc = c.mdc := rfl

/-- The next completion after an entry into PARKED (R130). -/
theorem Btm.nextAfter_parked (b : Btm) (now : Nat) :
    b.nextAfter now .parked = if b.readings = none then b.nextMeas else some (b.lastMeas + 100) := by
  unfold Btm.nextAfter
  cases b.readings <;> rfl

/-- The next completion after a return to ACTIVE (R130). -/
theorem Btm.nextAfter_active (b : Btm) (now : Nat) :
    b.nextAfter now .active = if b.readings = none then b.nextMeas
      else if now < b.lastMeas + 10 then some (b.lastMeas + 10) else some (now + 10) := by
  unfold Btm.nextAfter
  cases b.readings
  · rfl
  · by_cases h : now < b.lastMeas + 10 <;> simp [h, Mode.measurementInterval]

/-! `setMode` -/

@[simp] theorem Chip.setMode_now (c : Chip) (m : Mode) : (c.setMode m).now = c.now := rfl
@[simp] theorem Chip.setMode_spoolStart (c : Chip) (m : Mode) : (c.setMode m).spoolStart = c.spoolStart := rfl
@[simp] theorem Chip.setMode_held (c : Chip) (m : Mode) : (c.setMode m).held = c.held := rfl
@[simp] theorem Chip.setMode_tables (c : Chip) (m : Mode) : (c.setMode m).tables = c.tables := rfl
@[simp] theorem Chip.setMode_ulr (c : Chip) (m : Mode) : (c.setMode m).ulr = c.ulr := rfl
@[simp] theorem Chip.setMode_slots (c : Chip) (m : Mode) : (c.setMode m).slots = c.slots := rfl
@[simp] theorem Chip.setMode_cdc (c : Chip) (m : Mode) : (c.setMode m).cdc = c.cdc := rfl
@[simp] theorem Chip.setMode_stm (c : Chip) (m : Mode) : (c.setMode m).stm = c.stm := rfl
@[simp] theorem Chip.setMode_drm (c : Chip) (m : Mode) : (c.setMode m).drm = c.drm := rfl
@[simp] theorem Chip.setMode_wnc (c : Chip) (m : Mode) : (c.setMode m).wnc = c.wnc := rfl
@[simp] theorem Chip.setMode_lsq (c : Chip) (m : Mode) : (c.setMode m).lsq = c.lsq := rfl
@[simp] theorem Chip.setMode_btm (c : Chip) (m : Mode) : (c.setMode m).btm = c.btm := rfl
@[simp] theorem Chip.setMode_bga (c : Chip) (m : Mode) : (c.setMode m).bga = c.bga := rfl
@[simp] theorem Chip.setMode_alt (c : Chip) (m : Mode) : (c.setMode m).alt = c.alt := rfl
@[simp] theorem Chip.setMode_sup (c : Chip) (m : Mode) : (c.setMode m).sup = c.sup := rfl
@[simp] theorem Chip.setMode_rtx (c : Chip) (m : Mode) : (c.setMode m).rtx = c.rtx := rfl
@[simp] theorem Chip.setMode_atx (c : Chip) (m : Mode) : (c.setMode m).atx = c.atx := rfl
@[simp] theorem Chip.setMode_tbs (c : Chip) (m : Mode) : (c.setMode m).tbs = c.tbs := rfl

/-! `startPark` -/

@[simp] theorem Chip.startPark_now (c : Chip) : (c.startPark).now = c.now := rfl
@[simp] theorem Chip.startPark_spoolStart (c : Chip) : (c.startPark).spoolStart = c.spoolStart := rfl
@[simp] theorem Chip.startPark_held (c : Chip) : (c.startPark).held = c.held := rfl
@[simp] theorem Chip.startPark_tables (c : Chip) : (c.startPark).tables = c.tables := rfl
@[simp] theorem Chip.startPark_ulr (c : Chip) : (c.startPark).ulr = c.ulr := rfl
@[simp] theorem Chip.startPark_slots (c : Chip) : (c.startPark).slots = c.slots := rfl
@[simp] theorem Chip.startPark_cdc (c : Chip) : (c.startPark).cdc = c.cdc := rfl
@[simp] theorem Chip.startPark_stm (c : Chip) : (c.startPark).stm = c.stm := rfl
@[simp] theorem Chip.startPark_drm (c : Chip) : (c.startPark).drm = c.drm := rfl
@[simp] theorem Chip.startPark_wnc (c : Chip) : (c.startPark).wnc = c.wnc := rfl
@[simp] theorem Chip.startPark_lsq (c : Chip) : (c.startPark).lsq = c.lsq := rfl
@[simp] theorem Chip.startPark_btm (c : Chip) : (c.startPark).btm = c.btm := rfl
@[simp] theorem Chip.startPark_bga (c : Chip) : (c.startPark).bga = c.bga := rfl
@[simp] theorem Chip.startPark_alt (c : Chip) : (c.startPark).alt = c.alt := rfl
@[simp] theorem Chip.startPark_sup (c : Chip) : (c.startPark).sup = c.sup := rfl
@[simp] theorem Chip.startPark_rtx (c : Chip) : (c.startPark).rtx = c.rtx := rfl
@[simp] theorem Chip.startPark_atx (c : Chip) : (c.startPark).atx = c.atx := rfl
@[simp] theorem Chip.startPark_tbs (c : Chip) : (c.startPark).tbs = c.tbs := rfl

/-! `countControl` -/

@[simp] theorem Chip.countControl_now (c : Chip) : (c.countControl).now = c.now := rfl
@[simp] theorem Chip.countControl_spoolStart (c : Chip) : (c.countControl).spoolStart = c.spoolStart := rfl
@[simp] theorem Chip.countControl_held (c : Chip) : (c.countControl).held = c.held := rfl
@[simp] theorem Chip.countControl_tables (c : Chip) : (c.countControl).tables = c.tables := rfl
@[simp] theorem Chip.countControl_ulr (c : Chip) : (c.countControl).ulr = c.ulr := rfl
@[simp] theorem Chip.countControl_slots (c : Chip) : (c.countControl).slots = c.slots := rfl
@[simp] theorem Chip.countControl_cdc (c : Chip) : (c.countControl).cdc = c.cdc := rfl
@[simp] theorem Chip.countControl_stm (c : Chip) : (c.countControl).stm = c.stm := rfl
@[simp] theorem Chip.countControl_drm (c : Chip) : (c.countControl).drm = c.drm := rfl
@[simp] theorem Chip.countControl_wnc (c : Chip) : (c.countControl).wnc = c.wnc := rfl
@[simp] theorem Chip.countControl_lsq (c : Chip) : (c.countControl).lsq = c.lsq := rfl
@[simp] theorem Chip.countControl_btm (c : Chip) : (c.countControl).btm = c.btm := rfl
@[simp] theorem Chip.countControl_bga (c : Chip) : (c.countControl).bga = c.bga := rfl
@[simp] theorem Chip.countControl_alt (c : Chip) : (c.countControl).alt = c.alt := rfl
@[simp] theorem Chip.countControl_sup (c : Chip) : (c.countControl).sup = c.sup := rfl
@[simp] theorem Chip.countControl_atx (c : Chip) : (c.countControl).atx = c.atx := rfl
@[simp] theorem Chip.countControl_tbs (c : Chip) : (c.countControl).tbs = c.tbs := rfl
@[simp] theorem Chip.countControl_mdc (c : Chip) : (c.countControl).mdc = c.mdc := rfl

/-! `refreshStatus` -/

@[simp] theorem Chip.refreshStatus_now (c : Chip) : (c.refreshStatus).now = c.now := rfl
@[simp] theorem Chip.refreshStatus_spoolStart (c : Chip) : (c.refreshStatus).spoolStart = c.spoolStart := rfl
@[simp] theorem Chip.refreshStatus_held (c : Chip) : (c.refreshStatus).held = c.held := rfl
@[simp] theorem Chip.refreshStatus_tables (c : Chip) : (c.refreshStatus).tables = c.tables := rfl
@[simp] theorem Chip.refreshStatus_ulr (c : Chip) : (c.refreshStatus).ulr = c.ulr := rfl
@[simp] theorem Chip.refreshStatus_slots (c : Chip) : (c.refreshStatus).slots = c.slots := rfl
@[simp] theorem Chip.refreshStatus_cdc (c : Chip) : (c.refreshStatus).cdc = c.cdc := rfl
@[simp] theorem Chip.refreshStatus_stm (c : Chip) : (c.refreshStatus).stm = c.stm := rfl
@[simp] theorem Chip.refreshStatus_drm (c : Chip) : (c.refreshStatus).drm = c.drm := rfl
@[simp] theorem Chip.refreshStatus_wnc (c : Chip) : (c.refreshStatus).wnc = c.wnc := rfl
@[simp] theorem Chip.refreshStatus_lsq (c : Chip) : (c.refreshStatus).lsq = c.lsq := rfl
@[simp] theorem Chip.refreshStatus_btm (c : Chip) : (c.refreshStatus).btm = c.btm := rfl
@[simp] theorem Chip.refreshStatus_bga (c : Chip) : (c.refreshStatus).bga = c.bga := rfl
@[simp] theorem Chip.refreshStatus_alt (c : Chip) : (c.refreshStatus).alt = c.alt := rfl
@[simp] theorem Chip.refreshStatus_sup (c : Chip) : (c.refreshStatus).sup = c.sup := rfl
@[simp] theorem Chip.refreshStatus_atx (c : Chip) : (c.refreshStatus).atx = c.atx := rfl
@[simp] theorem Chip.refreshStatus_tbs (c : Chip) : (c.refreshStatus).tbs = c.tbs := rfl
@[simp] theorem Chip.refreshStatus_mdc (c : Chip) : (c.refreshStatus).mdc = c.mdc := rfl

/-! `buildAccessory` -/

@[simp] theorem Chip.buildAccessory_now (c : Chip) : (c.buildAccessory).now = c.now := rfl
@[simp] theorem Chip.buildAccessory_spoolStart (c : Chip) : (c.buildAccessory).spoolStart = c.spoolStart := rfl
@[simp] theorem Chip.buildAccessory_held (c : Chip) : (c.buildAccessory).held = c.held := rfl
@[simp] theorem Chip.buildAccessory_tables (c : Chip) : (c.buildAccessory).tables = c.tables := rfl
@[simp] theorem Chip.buildAccessory_ulr (c : Chip) : (c.buildAccessory).ulr = c.ulr := rfl
@[simp] theorem Chip.buildAccessory_slots (c : Chip) : (c.buildAccessory).slots = c.slots := rfl
@[simp] theorem Chip.buildAccessory_cdc (c : Chip) : (c.buildAccessory).cdc = c.cdc := rfl
@[simp] theorem Chip.buildAccessory_stm (c : Chip) : (c.buildAccessory).stm = c.stm := rfl
@[simp] theorem Chip.buildAccessory_drm (c : Chip) : (c.buildAccessory).drm = c.drm := rfl
@[simp] theorem Chip.buildAccessory_wnc (c : Chip) : (c.buildAccessory).wnc = c.wnc := rfl
@[simp] theorem Chip.buildAccessory_lsq (c : Chip) : (c.buildAccessory).lsq = c.lsq := rfl
@[simp] theorem Chip.buildAccessory_btm (c : Chip) : (c.buildAccessory).btm = c.btm := rfl
@[simp] theorem Chip.buildAccessory_bga (c : Chip) : (c.buildAccessory).bga = c.bga := rfl
@[simp] theorem Chip.buildAccessory_alt (c : Chip) : (c.buildAccessory).alt = c.alt := rfl
@[simp] theorem Chip.buildAccessory_sup (c : Chip) : (c.buildAccessory).sup = c.sup := rfl
@[simp] theorem Chip.buildAccessory_rtx (c : Chip) : (c.buildAccessory).rtx = c.rtx := rfl
@[simp] theorem Chip.buildAccessory_tbs (c : Chip) : (c.buildAccessory).tbs = c.tbs := rfl
@[simp] theorem Chip.buildAccessory_mdc (c : Chip) : (c.buildAccessory).mdc = c.mdc := rfl

/-! `resetCharge` -/

@[simp] theorem Chip.resetCharge_now (c : Chip) : (c.resetCharge).now = c.now := rfl
@[simp] theorem Chip.resetCharge_spoolStart (c : Chip) : (c.resetCharge).spoolStart = c.spoolStart := rfl
@[simp] theorem Chip.resetCharge_held (c : Chip) : (c.resetCharge).held = c.held := rfl
@[simp] theorem Chip.resetCharge_tables (c : Chip) : (c.resetCharge).tables = c.tables := rfl
@[simp] theorem Chip.resetCharge_ulr (c : Chip) : (c.resetCharge).ulr = c.ulr := rfl
@[simp] theorem Chip.resetCharge_slots (c : Chip) : (c.resetCharge).slots = c.slots := rfl
@[simp] theorem Chip.resetCharge_cdc (c : Chip) : (c.resetCharge).cdc = c.cdc := rfl
@[simp] theorem Chip.resetCharge_stm (c : Chip) : (c.resetCharge).stm = c.stm := rfl
@[simp] theorem Chip.resetCharge_drm (c : Chip) : (c.resetCharge).drm = c.drm := rfl
@[simp] theorem Chip.resetCharge_wnc (c : Chip) : (c.resetCharge).wnc = c.wnc := rfl
@[simp] theorem Chip.resetCharge_bga (c : Chip) : (c.resetCharge).bga = c.bga := rfl
@[simp] theorem Chip.resetCharge_sup (c : Chip) : (c.resetCharge).sup = c.sup := rfl
@[simp] theorem Chip.resetCharge_rtx (c : Chip) : (c.resetCharge).rtx = c.rtx := rfl
@[simp] theorem Chip.resetCharge_atx (c : Chip) : (c.resetCharge).atx = c.atx := rfl
@[simp] theorem Chip.resetCharge_tbs (c : Chip) : (c.resetCharge).tbs = c.tbs := rfl
@[simp] theorem Chip.resetCharge_mdc (c : Chip) : (c.resetCharge).mdc = c.mdc := rfl

/-! `enterParked` -/

@[simp] theorem Chip.enterParked_now (c : Chip) : (c.enterParked).now = c.now := by simp [Chip.enterParked]
@[simp] theorem Chip.enterParked_spoolStart (c : Chip) : (c.enterParked).spoolStart = c.spoolStart := by simp [Chip.enterParked]
@[simp] theorem Chip.enterParked_held (c : Chip) : (c.enterParked).held = c.held := by simp [Chip.enterParked]
@[simp] theorem Chip.enterParked_tables (c : Chip) : (c.enterParked).tables = c.tables := by simp [Chip.enterParked]
@[simp] theorem Chip.enterParked_ulr (c : Chip) : (c.enterParked).ulr = c.ulr := by simp [Chip.enterParked]
@[simp] theorem Chip.enterParked_slots (c : Chip) : (c.enterParked).slots = c.slots := by simp [Chip.enterParked]
@[simp] theorem Chip.enterParked_cdc (c : Chip) : (c.enterParked).cdc = c.cdc := by simp [Chip.enterParked]
@[simp] theorem Chip.enterParked_bga (c : Chip) : (c.enterParked).bga = c.bga := by simp [Chip.enterParked]
@[simp] theorem Chip.enterParked_sup (c : Chip) : (c.enterParked).sup = c.sup := by simp [Chip.enterParked]
@[simp] theorem Chip.enterParked_rtx (c : Chip) : (c.enterParked).rtx = c.rtx := by simp [Chip.enterParked]
@[simp] theorem Chip.enterParked_atx (c : Chip) : (c.enterParked).atx = c.atx := by simp [Chip.enterParked]
@[simp] theorem Chip.enterParked_tbs (c : Chip) : (c.enterParked).tbs = c.tbs := by simp [Chip.enterParked]

/-! `returnActive` -/

@[simp] theorem Chip.returnActive_now (c : Chip) : (c.returnActive).now = c.now := by simp [Chip.returnActive]
@[simp] theorem Chip.returnActive_spoolStart (c : Chip) : (c.returnActive).spoolStart = c.spoolStart := by simp [Chip.returnActive]
@[simp] theorem Chip.returnActive_held (c : Chip) : (c.returnActive).held = c.held := by simp [Chip.returnActive]
@[simp] theorem Chip.returnActive_tables (c : Chip) : (c.returnActive).tables = c.tables := by simp [Chip.returnActive]
@[simp] theorem Chip.returnActive_ulr (c : Chip) : (c.returnActive).ulr = c.ulr := by simp [Chip.returnActive]
@[simp] theorem Chip.returnActive_slots (c : Chip) : (c.returnActive).slots = c.slots := by simp [Chip.returnActive]
@[simp] theorem Chip.returnActive_cdc (c : Chip) : (c.returnActive).cdc = c.cdc := by simp [Chip.returnActive]
@[simp] theorem Chip.returnActive_stm (c : Chip) : (c.returnActive).stm = c.stm := by simp [Chip.returnActive]
@[simp] theorem Chip.returnActive_bga (c : Chip) : (c.returnActive).bga = c.bga := by simp [Chip.returnActive]
@[simp] theorem Chip.returnActive_sup (c : Chip) : (c.returnActive).sup = c.sup := by simp [Chip.returnActive]
@[simp] theorem Chip.returnActive_rtx (c : Chip) : (c.returnActive).rtx = c.rtx := by simp [Chip.returnActive]
@[simp] theorem Chip.returnActive_atx (c : Chip) : (c.returnActive).atx = c.atx := by simp [Chip.returnActive]
@[simp] theorem Chip.returnActive_tbs (c : Chip) : (c.returnActive).tbs = c.tbs := by simp [Chip.returnActive]

/-! `parkExitTest` -/

@[simp] theorem Chip.parkExitTest_now (c : Chip) : (c.parkExitTest).now = c.now := by unfold Chip.parkExitTest; split <;> simp
@[simp] theorem Chip.parkExitTest_spoolStart (c : Chip) : (c.parkExitTest).spoolStart = c.spoolStart := by unfold Chip.parkExitTest; split <;> simp
@[simp] theorem Chip.parkExitTest_held (c : Chip) : (c.parkExitTest).held = c.held := by unfold Chip.parkExitTest; split <;> simp
@[simp] theorem Chip.parkExitTest_tables (c : Chip) : (c.parkExitTest).tables = c.tables := by unfold Chip.parkExitTest; split <;> simp
@[simp] theorem Chip.parkExitTest_ulr (c : Chip) : (c.parkExitTest).ulr = c.ulr := by unfold Chip.parkExitTest; split <;> simp
@[simp] theorem Chip.parkExitTest_slots (c : Chip) : (c.parkExitTest).slots = c.slots := by unfold Chip.parkExitTest; split <;> simp
@[simp] theorem Chip.parkExitTest_cdc (c : Chip) : (c.parkExitTest).cdc = c.cdc := by unfold Chip.parkExitTest; split <;> simp
@[simp] theorem Chip.parkExitTest_stm (c : Chip) : (c.parkExitTest).stm = c.stm := by unfold Chip.parkExitTest; split <;> simp
@[simp] theorem Chip.parkExitTest_bga (c : Chip) : (c.parkExitTest).bga = c.bga := by unfold Chip.parkExitTest; split <;> simp
@[simp] theorem Chip.parkExitTest_sup (c : Chip) : (c.parkExitTest).sup = c.sup := by unfold Chip.parkExitTest; split <;> simp
@[simp] theorem Chip.parkExitTest_rtx (c : Chip) : (c.parkExitTest).rtx = c.rtx := by unfold Chip.parkExitTest; split <;> simp
@[simp] theorem Chip.parkExitTest_atx (c : Chip) : (c.parkExitTest).atx = c.atx := by unfold Chip.parkExitTest; split <;> simp
@[simp] theorem Chip.parkExitTest_tbs (c : Chip) : (c.parkExitTest).tbs = c.tbs := by unfold Chip.parkExitTest; split <;> simp

/-! `parkExpiry` -/

@[simp] theorem Chip.parkExpiry_now (c : Chip) : (c.parkExpiry).now = c.now := by unfold Chip.parkExpiry; split <;> simp
@[simp] theorem Chip.parkExpiry_spoolStart (c : Chip) : (c.parkExpiry).spoolStart = c.spoolStart := by unfold Chip.parkExpiry; split <;> simp
@[simp] theorem Chip.parkExpiry_held (c : Chip) : (c.parkExpiry).held = c.held := by unfold Chip.parkExpiry; split <;> simp
@[simp] theorem Chip.parkExpiry_tables (c : Chip) : (c.parkExpiry).tables = c.tables := by unfold Chip.parkExpiry; split <;> simp
@[simp] theorem Chip.parkExpiry_ulr (c : Chip) : (c.parkExpiry).ulr = c.ulr := by unfold Chip.parkExpiry; split <;> simp
@[simp] theorem Chip.parkExpiry_slots (c : Chip) : (c.parkExpiry).slots = c.slots := by unfold Chip.parkExpiry; split <;> simp
@[simp] theorem Chip.parkExpiry_cdc (c : Chip) : (c.parkExpiry).cdc = c.cdc := by unfold Chip.parkExpiry; split <;> simp
@[simp] theorem Chip.parkExpiry_bga (c : Chip) : (c.parkExpiry).bga = c.bga := by unfold Chip.parkExpiry; split <;> simp
@[simp] theorem Chip.parkExpiry_sup (c : Chip) : (c.parkExpiry).sup = c.sup := by unfold Chip.parkExpiry; split <;> simp
@[simp] theorem Chip.parkExpiry_rtx (c : Chip) : (c.parkExpiry).rtx = c.rtx := by unfold Chip.parkExpiry; split <;> simp
@[simp] theorem Chip.parkExpiry_atx (c : Chip) : (c.parkExpiry).atx = c.atx := by unfold Chip.parkExpiry; split <;> simp
@[simp] theorem Chip.parkExpiry_tbs (c : Chip) : (c.parkExpiry).tbs = c.tbs := by unfold Chip.parkExpiry; split <;> simp

/-! `enterDormant` -/

@[simp] theorem Chip.enterDormant_now (c : Chip) : (c.enterDormant).now = c.now := by simp [Chip.enterDormant]
@[simp] theorem Chip.enterDormant_spoolStart (c : Chip) : (c.enterDormant).spoolStart = c.spoolStart := by simp [Chip.enterDormant]
@[simp] theorem Chip.enterDormant_held (c : Chip) : (c.enterDormant).held = c.held := by simp [Chip.enterDormant]
@[simp] theorem Chip.enterDormant_tables (c : Chip) : (c.enterDormant).tables = c.tables := by simp [Chip.enterDormant]
@[simp] theorem Chip.enterDormant_slots (c : Chip) : (c.enterDormant).slots = c.slots := by simp [Chip.enterDormant]
@[simp] theorem Chip.enterDormant_cdc (c : Chip) : (c.enterDormant).cdc = c.cdc := by simp [Chip.enterDormant]
@[simp] theorem Chip.enterDormant_bga (c : Chip) : (c.enterDormant).bga = c.bga := by simp [Chip.enterDormant]
@[simp] theorem Chip.enterDormant_alt (c : Chip) : (c.enterDormant).alt = c.alt := by simp [Chip.enterDormant]
@[simp] theorem Chip.enterDormant_sup (c : Chip) : (c.enterDormant).sup = c.sup := by simp [Chip.enterDormant]
@[simp] theorem Chip.enterDormant_tbs (c : Chip) : (c.enterDormant).tbs = c.tbs := by simp [Chip.enterDormant]

/-! `driveSwitch` -/

@[simp] theorem Chip.driveSwitch_now (c : Chip) (e : Bool) : (c.driveSwitch e).now = c.now := by unfold Chip.driveSwitch; split <;> simp
@[simp] theorem Chip.driveSwitch_spoolStart (c : Chip) (e : Bool) : (c.driveSwitch e).spoolStart = c.spoolStart := by unfold Chip.driveSwitch; split <;> simp
@[simp] theorem Chip.driveSwitch_held (c : Chip) (e : Bool) : (c.driveSwitch e).held = c.held := by unfold Chip.driveSwitch; split <;> simp
@[simp] theorem Chip.driveSwitch_tables (c : Chip) (e : Bool) : (c.driveSwitch e).tables = c.tables := by unfold Chip.driveSwitch; split <;> simp
@[simp] theorem Chip.driveSwitch_ulr (c : Chip) (e : Bool) : (c.driveSwitch e).ulr = c.ulr := by unfold Chip.driveSwitch; split <;> simp
@[simp] theorem Chip.driveSwitch_slots (c : Chip) (e : Bool) : (c.driveSwitch e).slots = c.slots := by unfold Chip.driveSwitch; split <;> simp
@[simp] theorem Chip.driveSwitch_cdc (c : Chip) (e : Bool) : (c.driveSwitch e).cdc = c.cdc := by unfold Chip.driveSwitch; split <;> simp
@[simp] theorem Chip.driveSwitch_stm (c : Chip) (e : Bool) : (c.driveSwitch e).stm = c.stm := by unfold Chip.driveSwitch; split <;> simp
@[simp] theorem Chip.driveSwitch_wnc (c : Chip) (e : Bool) : (c.driveSwitch e).wnc = c.wnc := by unfold Chip.driveSwitch; split <;> simp
@[simp] theorem Chip.driveSwitch_btm (c : Chip) (e : Bool) : (c.driveSwitch e).btm = c.btm := by unfold Chip.driveSwitch; split <;> simp
@[simp] theorem Chip.driveSwitch_bga (c : Chip) (e : Bool) : (c.driveSwitch e).bga = c.bga := by unfold Chip.driveSwitch; split <;> simp
@[simp] theorem Chip.driveSwitch_alt (c : Chip) (e : Bool) : (c.driveSwitch e).alt = c.alt := by unfold Chip.driveSwitch; split <;> simp
@[simp] theorem Chip.driveSwitch_sup (c : Chip) (e : Bool) : (c.driveSwitch e).sup = c.sup := by unfold Chip.driveSwitch; split <;> simp
@[simp] theorem Chip.driveSwitch_rtx (c : Chip) (e : Bool) : (c.driveSwitch e).rtx = c.rtx := by unfold Chip.driveSwitch; split <;> simp
@[simp] theorem Chip.driveSwitch_atx (c : Chip) (e : Bool) : (c.driveSwitch e).atx = c.atx := by unfold Chip.driveSwitch; split <;> simp
@[simp] theorem Chip.driveSwitch_tbs (c : Chip) (e : Bool) : (c.driveSwitch e).tbs = c.tbs := by unfold Chip.driveSwitch; split <;> simp
@[simp] theorem Chip.driveSwitch_mdc (c : Chip) (e : Bool) : (c.driveSwitch e).mdc = c.mdc := by unfold Chip.driveSwitch; split <;> simp

/-! `winchSwitch` -/

@[simp] theorem Chip.winchSwitch_now (c : Chip) (i : Bool) (b : Bool) : (c.winchSwitch i b).now = c.now := by unfold Chip.winchSwitch; split <;> simp
@[simp] theorem Chip.winchSwitch_spoolStart (c : Chip) (i : Bool) (b : Bool) : (c.winchSwitch i b).spoolStart = c.spoolStart := by unfold Chip.winchSwitch; split <;> simp
@[simp] theorem Chip.winchSwitch_held (c : Chip) (i : Bool) (b : Bool) : (c.winchSwitch i b).held = c.held := by unfold Chip.winchSwitch; split <;> simp
@[simp] theorem Chip.winchSwitch_tables (c : Chip) (i : Bool) (b : Bool) : (c.winchSwitch i b).tables = c.tables := by unfold Chip.winchSwitch; split <;> simp
@[simp] theorem Chip.winchSwitch_ulr (c : Chip) (i : Bool) (b : Bool) : (c.winchSwitch i b).ulr = c.ulr := by unfold Chip.winchSwitch; split <;> simp
@[simp] theorem Chip.winchSwitch_slots (c : Chip) (i : Bool) (b : Bool) : (c.winchSwitch i b).slots = c.slots := by unfold Chip.winchSwitch; split <;> simp
@[simp] theorem Chip.winchSwitch_cdc (c : Chip) (i : Bool) (b : Bool) : (c.winchSwitch i b).cdc = c.cdc := by unfold Chip.winchSwitch; split <;> simp
@[simp] theorem Chip.winchSwitch_stm (c : Chip) (i : Bool) (b : Bool) : (c.winchSwitch i b).stm = c.stm := by unfold Chip.winchSwitch; split <;> simp
@[simp] theorem Chip.winchSwitch_btm (c : Chip) (i : Bool) (b : Bool) : (c.winchSwitch i b).btm = c.btm := by unfold Chip.winchSwitch; split <;> simp
@[simp] theorem Chip.winchSwitch_bga (c : Chip) (i : Bool) (b : Bool) : (c.winchSwitch i b).bga = c.bga := by unfold Chip.winchSwitch; split <;> simp
@[simp] theorem Chip.winchSwitch_sup (c : Chip) (i : Bool) (b : Bool) : (c.winchSwitch i b).sup = c.sup := by unfold Chip.winchSwitch; split <;> simp
@[simp] theorem Chip.winchSwitch_rtx (c : Chip) (i : Bool) (b : Bool) : (c.winchSwitch i b).rtx = c.rtx := by unfold Chip.winchSwitch; split <;> simp
@[simp] theorem Chip.winchSwitch_atx (c : Chip) (i : Bool) (b : Bool) : (c.winchSwitch i b).atx = c.atx := by unfold Chip.winchSwitch; split <;> simp
@[simp] theorem Chip.winchSwitch_tbs (c : Chip) (i : Bool) (b : Bool) : (c.winchSwitch i b).tbs = c.tbs := by unfold Chip.winchSwitch; split <;> simp
@[simp] theorem Chip.winchSwitch_mdc (c : Chip) (i : Bool) (b : Bool) : (c.winchSwitch i b).mdc = c.mdc := by unfold Chip.winchSwitch; split <;> simp

/-! `chargeSwitch` -/

@[simp] theorem Chip.chargeSwitch_now (c : Chip) (e : Bool) : (c.chargeSwitch e).now = c.now := by unfold Chip.chargeSwitch; split <;> simp
@[simp] theorem Chip.chargeSwitch_spoolStart (c : Chip) (e : Bool) : (c.chargeSwitch e).spoolStart = c.spoolStart := by unfold Chip.chargeSwitch; split <;> simp
@[simp] theorem Chip.chargeSwitch_held (c : Chip) (e : Bool) : (c.chargeSwitch e).held = c.held := by unfold Chip.chargeSwitch; split <;> simp
@[simp] theorem Chip.chargeSwitch_tables (c : Chip) (e : Bool) : (c.chargeSwitch e).tables = c.tables := by unfold Chip.chargeSwitch; split <;> simp
@[simp] theorem Chip.chargeSwitch_ulr (c : Chip) (e : Bool) : (c.chargeSwitch e).ulr = c.ulr := by unfold Chip.chargeSwitch; split <;> simp
@[simp] theorem Chip.chargeSwitch_slots (c : Chip) (e : Bool) : (c.chargeSwitch e).slots = c.slots := by unfold Chip.chargeSwitch; split <;> simp
@[simp] theorem Chip.chargeSwitch_cdc (c : Chip) (e : Bool) : (c.chargeSwitch e).cdc = c.cdc := by unfold Chip.chargeSwitch; split <;> simp
@[simp] theorem Chip.chargeSwitch_stm (c : Chip) (e : Bool) : (c.chargeSwitch e).stm = c.stm := by unfold Chip.chargeSwitch; split <;> simp
@[simp] theorem Chip.chargeSwitch_drm (c : Chip) (e : Bool) : (c.chargeSwitch e).drm = c.drm := by unfold Chip.chargeSwitch; split <;> simp
@[simp] theorem Chip.chargeSwitch_wnc (c : Chip) (e : Bool) : (c.chargeSwitch e).wnc = c.wnc := by unfold Chip.chargeSwitch; split <;> simp
@[simp] theorem Chip.chargeSwitch_bga (c : Chip) (e : Bool) : (c.chargeSwitch e).bga = c.bga := by unfold Chip.chargeSwitch; split <;> simp
@[simp] theorem Chip.chargeSwitch_sup (c : Chip) (e : Bool) : (c.chargeSwitch e).sup = c.sup := by unfold Chip.chargeSwitch; split <;> simp
@[simp] theorem Chip.chargeSwitch_rtx (c : Chip) (e : Bool) : (c.chargeSwitch e).rtx = c.rtx := by unfold Chip.chargeSwitch; split <;> simp
@[simp] theorem Chip.chargeSwitch_atx (c : Chip) (e : Bool) : (c.chargeSwitch e).atx = c.atx := by unfold Chip.chargeSwitch; split <;> simp
@[simp] theorem Chip.chargeSwitch_tbs (c : Chip) (e : Bool) : (c.chargeSwitch e).tbs = c.tbs := by unfold Chip.chargeSwitch; split <;> simp
@[simp] theorem Chip.chargeSwitch_mdc (c : Chip) (e : Bool) : (c.chargeSwitch e).mdc = c.mdc := by unfold Chip.chargeSwitch; split <;> simp

/-! `parkSwitch` -/

@[simp] theorem Chip.parkSwitch_now (c : Chip) (x : Bool) (y : Bool) : (c.parkSwitch x y).now = c.now := by unfold Chip.parkSwitch; split_ifs <;> simp
@[simp] theorem Chip.parkSwitch_spoolStart (c : Chip) (x : Bool) (y : Bool) : (c.parkSwitch x y).spoolStart = c.spoolStart := by unfold Chip.parkSwitch; split_ifs <;> simp
@[simp] theorem Chip.parkSwitch_held (c : Chip) (x : Bool) (y : Bool) : (c.parkSwitch x y).held = c.held := by unfold Chip.parkSwitch; split_ifs <;> simp
@[simp] theorem Chip.parkSwitch_tables (c : Chip) (x : Bool) (y : Bool) : (c.parkSwitch x y).tables = c.tables := by unfold Chip.parkSwitch; split_ifs <;> simp
@[simp] theorem Chip.parkSwitch_ulr (c : Chip) (x : Bool) (y : Bool) : (c.parkSwitch x y).ulr = c.ulr := by unfold Chip.parkSwitch; split_ifs <;> simp
@[simp] theorem Chip.parkSwitch_slots (c : Chip) (x : Bool) (y : Bool) : (c.parkSwitch x y).slots = c.slots := by unfold Chip.parkSwitch; split_ifs <;> simp
@[simp] theorem Chip.parkSwitch_cdc (c : Chip) (x : Bool) (y : Bool) : (c.parkSwitch x y).cdc = c.cdc := by unfold Chip.parkSwitch; split_ifs <;> simp
@[simp] theorem Chip.parkSwitch_bga (c : Chip) (x : Bool) (y : Bool) : (c.parkSwitch x y).bga = c.bga := by unfold Chip.parkSwitch; split_ifs <;> simp
@[simp] theorem Chip.parkSwitch_sup (c : Chip) (x : Bool) (y : Bool) : (c.parkSwitch x y).sup = c.sup := by unfold Chip.parkSwitch; split_ifs <;> simp
@[simp] theorem Chip.parkSwitch_rtx (c : Chip) (x : Bool) (y : Bool) : (c.parkSwitch x y).rtx = c.rtx := by unfold Chip.parkSwitch; split_ifs <;> simp
@[simp] theorem Chip.parkSwitch_atx (c : Chip) (x : Bool) (y : Bool) : (c.parkSwitch x y).atx = c.atx := by unfold Chip.parkSwitch; split_ifs <;> simp
@[simp] theorem Chip.parkSwitch_tbs (c : Chip) (x : Bool) (y : Bool) : (c.parkSwitch x y).tbs = c.tbs := by unfold Chip.parkSwitch; split_ifs <;> simp

/-! `putSwitches` -/

@[simp] theorem Chip.putSwitches_now (c : Chip) (m : BitVec 32) (v : BitVec 32) : (c.putSwitches m v).now = c.now := by simp [Chip.putSwitches]
@[simp] theorem Chip.putSwitches_spoolStart (c : Chip) (m : BitVec 32) (v : BitVec 32) : (c.putSwitches m v).spoolStart = c.spoolStart := by simp [Chip.putSwitches]
@[simp] theorem Chip.putSwitches_held (c : Chip) (m : BitVec 32) (v : BitVec 32) : (c.putSwitches m v).held = c.held := by simp [Chip.putSwitches]
@[simp] theorem Chip.putSwitches_tables (c : Chip) (m : BitVec 32) (v : BitVec 32) : (c.putSwitches m v).tables = c.tables := by simp [Chip.putSwitches]
@[simp] theorem Chip.putSwitches_ulr (c : Chip) (m : BitVec 32) (v : BitVec 32) : (c.putSwitches m v).ulr = c.ulr := by simp [Chip.putSwitches]
@[simp] theorem Chip.putSwitches_slots (c : Chip) (m : BitVec 32) (v : BitVec 32) : (c.putSwitches m v).slots = c.slots := by simp [Chip.putSwitches]
@[simp] theorem Chip.putSwitches_cdc (c : Chip) (m : BitVec 32) (v : BitVec 32) : (c.putSwitches m v).cdc = c.cdc := by simp [Chip.putSwitches]
@[simp] theorem Chip.putSwitches_bga (c : Chip) (m : BitVec 32) (v : BitVec 32) : (c.putSwitches m v).bga = c.bga := by simp [Chip.putSwitches]
@[simp] theorem Chip.putSwitches_rtx (c : Chip) (m : BitVec 32) (v : BitVec 32) : (c.putSwitches m v).rtx = c.rtx := by simp [Chip.putSwitches]
@[simp] theorem Chip.putSwitches_atx (c : Chip) (m : BitVec 32) (v : BitVec 32) : (c.putSwitches m v).atx = c.atx := by simp [Chip.putSwitches]
@[simp] theorem Chip.putSwitches_tbs (c : Chip) (m : BitVec 32) (v : BitVec 32) : (c.putSwitches m v).tbs = c.tbs := by simp [Chip.putSwitches]

/-! `setTables` -/

@[simp] theorem Chip.setTables_now (c : Chip) (t : Tables) (p : Vector Bool 5) (w : Bool) : (c.setTables t p w).now = c.now := by unfold Chip.setTables; dsimp only; split <;> simp
@[simp] theorem Chip.setTables_spoolStart (c : Chip) (t : Tables) (p : Vector Bool 5) (w : Bool) : (c.setTables t p w).spoolStart = c.spoolStart := by unfold Chip.setTables; dsimp only; split <;> simp
@[simp] theorem Chip.setTables_held (c : Chip) (t : Tables) (p : Vector Bool 5) (w : Bool) : (c.setTables t p w).held = c.held := by unfold Chip.setTables; dsimp only; split <;> simp
@[simp] theorem Chip.setTables_ulr (c : Chip) (t : Tables) (p : Vector Bool 5) (w : Bool) : (c.setTables t p w).ulr = c.ulr := by unfold Chip.setTables; dsimp only; split <;> simp
@[simp] theorem Chip.setTables_slots (c : Chip) (t : Tables) (p : Vector Bool 5) (w : Bool) : (c.setTables t p w).slots = c.slots := by unfold Chip.setTables; dsimp only; split <;> simp
@[simp] theorem Chip.setTables_stm (c : Chip) (t : Tables) (p : Vector Bool 5) (w : Bool) : (c.setTables t p w).stm = c.stm := by unfold Chip.setTables; dsimp only; split <;> simp
@[simp] theorem Chip.setTables_btm (c : Chip) (t : Tables) (p : Vector Bool 5) (w : Bool) : (c.setTables t p w).btm = c.btm := by unfold Chip.setTables; dsimp only; split <;> simp
@[simp] theorem Chip.setTables_bga (c : Chip) (t : Tables) (p : Vector Bool 5) (w : Bool) : (c.setTables t p w).bga = c.bga := by unfold Chip.setTables; dsimp only; split <;> simp
@[simp] theorem Chip.setTables_sup (c : Chip) (t : Tables) (p : Vector Bool 5) (w : Bool) : (c.setTables t p w).sup = c.sup := by unfold Chip.setTables; dsimp only; split <;> simp
@[simp] theorem Chip.setTables_rtx (c : Chip) (t : Tables) (p : Vector Bool 5) (w : Bool) : (c.setTables t p w).rtx = c.rtx := by unfold Chip.setTables; dsimp only; split <;> simp
@[simp] theorem Chip.setTables_atx (c : Chip) (t : Tables) (p : Vector Bool 5) (w : Bool) : (c.setTables t p w).atx = c.atx := by unfold Chip.setTables; dsimp only; split <;> simp
@[simp] theorem Chip.setTables_tbs (c : Chip) (t : Tables) (p : Vector Bool 5) (w : Bool) : (c.setTables t p w).tbs = c.tbs := by unfold Chip.setTables; dsimp only; split <;> simp
@[simp] theorem Chip.setTables_mdc (c : Chip) (t : Tables) (p : Vector Bool 5) (w : Bool) : (c.setTables t p w).mdc = c.mdc := by unfold Chip.setTables; dsimp only; split <;> simp

/-! `clearHunt` -/

@[simp] theorem Chip.clearHunt_now (c : Chip) : (c.clearHunt).now = c.now := rfl
@[simp] theorem Chip.clearHunt_spoolStart (c : Chip) : (c.clearHunt).spoolStart = c.spoolStart := rfl
@[simp] theorem Chip.clearHunt_held (c : Chip) : (c.clearHunt).held = c.held := rfl
@[simp] theorem Chip.clearHunt_tables (c : Chip) : (c.clearHunt).tables = c.tables := rfl
@[simp] theorem Chip.clearHunt_slots (c : Chip) : (c.clearHunt).slots = c.slots := rfl
@[simp] theorem Chip.clearHunt_cdc (c : Chip) : (c.clearHunt).cdc = c.cdc := rfl
@[simp] theorem Chip.clearHunt_stm (c : Chip) : (c.clearHunt).stm = c.stm := rfl
@[simp] theorem Chip.clearHunt_drm (c : Chip) : (c.clearHunt).drm = c.drm := rfl
@[simp] theorem Chip.clearHunt_wnc (c : Chip) : (c.clearHunt).wnc = c.wnc := rfl
@[simp] theorem Chip.clearHunt_lsq (c : Chip) : (c.clearHunt).lsq = c.lsq := rfl
@[simp] theorem Chip.clearHunt_btm (c : Chip) : (c.clearHunt).btm = c.btm := rfl
@[simp] theorem Chip.clearHunt_bga (c : Chip) : (c.clearHunt).bga = c.bga := rfl
@[simp] theorem Chip.clearHunt_alt (c : Chip) : (c.clearHunt).alt = c.alt := rfl
@[simp] theorem Chip.clearHunt_sup (c : Chip) : (c.clearHunt).sup = c.sup := rfl
@[simp] theorem Chip.clearHunt_rtx (c : Chip) : (c.clearHunt).rtx = c.rtx := rfl
@[simp] theorem Chip.clearHunt_atx (c : Chip) : (c.clearHunt).atx = c.atx := rfl
@[simp] theorem Chip.clearHunt_tbs (c : Chip) : (c.clearHunt).tbs = c.tbs := rfl
@[simp] theorem Chip.clearHunt_mdc (c : Chip) : (c.clearHunt).mdc = c.mdc := rfl

/-! `decodeNow` -/

@[simp] theorem Chip.decodeNow_now (c : Chip) : (c.decodeNow).now = c.now := rfl
@[simp] theorem Chip.decodeNow_spoolStart (c : Chip) : (c.decodeNow).spoolStart = c.spoolStart := rfl
@[simp] theorem Chip.decodeNow_held (c : Chip) : (c.decodeNow).held = c.held := rfl
@[simp] theorem Chip.decodeNow_tables (c : Chip) : (c.decodeNow).tables = c.tables := rfl
@[simp] theorem Chip.decodeNow_ulr (c : Chip) : (c.decodeNow).ulr = c.ulr := rfl
@[simp] theorem Chip.decodeNow_slots (c : Chip) : (c.decodeNow).slots = c.slots := rfl
@[simp] theorem Chip.decodeNow_stm (c : Chip) : (c.decodeNow).stm = c.stm := rfl
@[simp] theorem Chip.decodeNow_drm (c : Chip) : (c.decodeNow).drm = c.drm := rfl
@[simp] theorem Chip.decodeNow_wnc (c : Chip) : (c.decodeNow).wnc = c.wnc := rfl
@[simp] theorem Chip.decodeNow_lsq (c : Chip) : (c.decodeNow).lsq = c.lsq := rfl
@[simp] theorem Chip.decodeNow_btm (c : Chip) : (c.decodeNow).btm = c.btm := rfl
@[simp] theorem Chip.decodeNow_bga (c : Chip) : (c.decodeNow).bga = c.bga := rfl
@[simp] theorem Chip.decodeNow_alt (c : Chip) : (c.decodeNow).alt = c.alt := rfl
@[simp] theorem Chip.decodeNow_sup (c : Chip) : (c.decodeNow).sup = c.sup := rfl
@[simp] theorem Chip.decodeNow_rtx (c : Chip) : (c.decodeNow).rtx = c.rtx := rfl
@[simp] theorem Chip.decodeNow_atx (c : Chip) : (c.decodeNow).atx = c.atx := rfl
@[simp] theorem Chip.decodeNow_tbs (c : Chip) : (c.decodeNow).tbs = c.tbs := rfl
@[simp] theorem Chip.decodeNow_mdc (c : Chip) : (c.decodeNow).mdc = c.mdc := rfl

end Sys2Proof.Machine
end

