-- ==== Sys2Proof/Laws/Order.lean ====
section
/-! SUPPORT. Folds over the blocks that take one event: every block takes it, and what its turn establishes stands at the
end. -/

namespace Sys2Proof.Machine

/-- Every block named in `all` takes the event. -/
theorem mem_fullOrder {α : Type} [DecidableEq α] {all order : List α} {x : α} (h : x ∈ all) : x ∈ fullOrder all order := by
  unfold fullOrder
  by_cases hx : x ∈ order
  · exact List.mem_append_left _ (List.mem_eraseDups.2 hx)
  · exact List.mem_append_right _ (List.mem_filter.2 ⟨h, by simp [hx]⟩)

/-- Every block takes a channel update. -/
theorem mem_takers (t : Taker) (order : List Taker) : t ∈ takers order := by
  unfold takers
  exact mem_fullOrder (by cases t <;> simp)

/-- Every block takes an evaluation completion. -/
theorem mem_evalTakers (t : EvalTaker) (order : List EvalTaker) : t ∈ evalTakers order := by
  unfold evalTakers
  exact mem_fullOrder (by cases t <;> simp)

/-- What every step keeps stands at the end of a fold. -/
theorem foldl_induct {α : Type} {P : Chip → Prop} {f : Chip → α → Chip} (step : ∀ c x, P c → P (f c x)) :
    ∀ (l : List α) (c : Chip), P c → P (l.foldl f c)
  | [], _, h => h
  | x :: xs, c, h => foldl_induct step xs (f c x) (step c x h)

/-- A fold over a list that holds `x`: what the turn of `x` establishes and every turn keeps stands at the end. -/
theorem foldl_establish {α : Type} {P Q : Chip → Prop} {f : Chip → α → Chip} {x : α} (keepsQ : ∀ c y, Q c → Q (f c y))
    (makes : ∀ c, Q c → P (f c x)) (keeps : ∀ c y, Q c → P c → P (f c y)) :
    ∀ (l : List α) (c : Chip), x ∈ l → Q c → P (l.foldl f c)
  | [], _, hx, _ => by simp at hx
  | y :: ys, c, hx, hQ => by
    rcases List.mem_cons.1 hx with rfl | hx
    · have h : ∀ (l : List α) (c : Chip), Q c → P c → P (l.foldl f c) := by
        intro l
        induction l with
        | nil => exact fun _ _ hP => hP
        | cons z zs ih => exact fun c hQ hP => ih (f c z) (keepsQ c z hQ) (keeps c z hQ hP)
      exact h ys (f c x) (keepsQ c x hQ) (makes c hQ)
    · exact foldl_establish keepsQ makes keeps ys (f c y) hx (keepsQ c y hQ)

/-- A list with its repetitions erased has none. -/
theorem nodup_eraseDups {α : Type} [DecidableEq α] : ∀ (n : Nat) (l : List α), l.length ≤ n → l.eraseDups.Nodup
  | _, [], _ => by simp
  | 0, _ :: _, h => by simp at h
  | n + 1, a :: as, h => by
    rw [List.eraseDups_cons]
    refine List.nodup_cons.2 ⟨?_, nodup_eraseDups n _ ?_⟩
    · rw [List.mem_eraseDups]; simp
    · have := List.length_filter_le (fun b => !b == a) as
      simp only [List.length_cons] at h
      omega

/-- Every block takes the event once. -/
theorem nodup_fullOrder {α : Type} [DecidableEq α] {all order : List α} (h : all.Nodup) : (fullOrder all order).Nodup := by
  unfold fullOrder
  refine List.nodup_append.2 ⟨nodup_eraseDups _ _ (Nat.le_refl _), h.filter _, ?_⟩
  intro a ha b hb e
  subst e
  rw [List.mem_eraseDups] at ha
  simp [ha] at hb

/-- Every block takes a channel update once. -/
theorem nodup_takers (order : List Taker) : (takers order).Nodup := nodup_fullOrder (by decide)

/-- Every block takes an evaluation completion once. -/
theorem nodup_evalTakers (order : List EvalTaker) : (evalTakers order).Nodup := nodup_fullOrder (by decide)

/-- The order is a rearrangement of all blocks, where it names no others. -/
theorem perm_fullOrder {α : Type} [DecidableEq α] {all order : List α} (h : all.Nodup) (hall : ∀ x, x ∈ all) :
    (fullOrder all order).Perm all :=
  (List.perm_ext_iff_of_nodup (nodup_fullOrder h) h).2 fun x => ⟨fun _ => hall x, mem_fullOrder⟩

/-- The blocks an order names once stand first, as it names them. -/
theorem fullOrder_prefix {α : Type} [DecidableEq α] {all order : List α} (h : order.Nodup) :
    ∃ rest, fullOrder all order = order ++ rest := by
  have e : ∀ l : List α, l.Nodup → l.eraseDups = l := by
    intro l
    induction l with
    | nil => intro _; rfl
    | cons a as ih =>
      intro hn
      rw [List.nodup_cons] at hn
      have hf : as.filter (fun b => !b == a) = as := by
        refine List.filter_eq_self.2 fun b hb => ?_
        have : b ≠ a := fun k => hn.1 (k ▸ hb)
        simp [this]
      rw [List.eraseDups_cons, hf, ih hn.2]
  exact ⟨all.filter fun x => !order.contains x, by unfold fullOrder; rw [e order h]⟩

/-- The order of a channel update. -/
theorem takers_spec (order : List Taker) :
    (takers order).Perm [.stm, .drm, .wnc, .mdc, .atx, .rtx] ∧ (order.Nodup → ∃ rest, takers order = order ++ rest) :=
  ⟨perm_fullOrder (by decide) (fun x => by cases x <;> decide), fullOrder_prefix⟩

/-- The order of an evaluation completion. -/
theorem evalTakers_spec (order : List EvalTaker) :
    (evalTakers order).Perm [.alt, .drm, .wnc, .lsq, .mdc, .bga] ∧ (order.Nodup → ∃ rest, evalTakers order = order ++ rest) :=
  ⟨perm_fullOrder (by decide) (fun x => by cases x <;> decide), fullOrder_prefix⟩

/-- A fold in which `x` takes its turn once: `Q` stands up to that turn, which turns it into `P`, and `P` stands after it. -/
theorem foldl_once {α : Type} [DecidableEq α] {P Q : Chip → Prop} {f : Chip → α → Chip} {x : α}
    (keepsQ : ∀ c y, y ≠ x → Q c → Q (f c y))
    (makes : ∀ c, Q c → P (f c x)) (keeps : ∀ c y, y ≠ x → P c → P (f c y)) :
    ∀ (l : List α) (c : Chip), x ∈ l → l.Nodup → Q c → P (l.foldl f c)
  | [], _, hx, _, _ => by simp at hx
  | y :: ys, c, hx, hn, hQ => by
    rw [List.nodup_cons] at hn
    by_cases hy : y = x
    · subst hy
      have h : ∀ (l : List α) (c : Chip), y ∉ l → P c → P (l.foldl f c) := by
        intro l
        induction l with
        | nil => exact fun _ _ hP => hP
        | cons z zs ih =>
          intro c hz hP
          exact ih (f c z) (fun h => hz (List.mem_cons_of_mem _ h)) (keeps c z (fun e => hz (e ▸ List.mem_cons_self)) hP)
      exact h ys (f c y) hn.1 (makes c hQ)
    · refine foldl_once keepsQ makes keeps ys (f c y) ?_ hn.2 (keepsQ c y hy hQ)
      rcases List.mem_cons.1 hx with e | h
      · exact absurd e.symm hy
      · exact h

end Sys2Proof.Machine
end

