-- ==== Sys2Proof/Laws/Setup.lean ====
section
/-! SUPPORT. SUP: everything that carrying out a command can do to the part, what giving its answer changes, and what a
setup frame for this unit does when SUP is ready. -/

namespace Sys2Proof.Machine

/-! ### Checks -/

/-- A checked command changes the part only where no check fails. -/
theorem Chip.checked_chip {P : Chip → Prop} {c : Chip} {l : List (Bool × Status)} {go : Answer} (same : P c)
    (acts : firstFailure l = none → P go.chip) : P (c.checked l go).chip := by
  unfold Chip.checked
  split
  · exact same
  · exact acts ‹_›

/-- A checked command whose checks all hold is carried out. -/
theorem Chip.checked_go {c : Chip} {l : List (Bool × Status)} {go : Answer} (h : firstFailure l = none) :
    c.checked l go = go := by
  simp [Chip.checked, h]

/-- Where no check fails, every check holds. -/
theorem firstFailure_none {l : List (Bool × Status)} (h : firstFailure l = none) : ∀ x ∈ l, x.1 = true := by
  induction l with
  | nil => simp
  | cons x xs ih =>
    obtain ⟨b, st⟩ := x
    cases b
    · simp [firstFailure] at h
    · simpa [firstFailure] using fun a b hab => ih (by simpa [firstFailure] using h) (a, b) hab

/-! ### Everything a command can do -/

/-- What the winch commands that change the winch make of its record (R88, R90, R93, R96). -/
inductive WinchMove (c : Chip) : Winch → Prop where
  | run (dir : WinchDir) (count duty : Nat) (h : c.wnc.state.takesRun (winchReleased c.tables.winchCfg c.cdc.winch) = true) :
      WinchMove c (c.wnc.cutShort.startRun c.tables.winchCfg dir (max 1 count) (clampNat 100 1000 duty))
  | stop : WinchMove c c.wnc.stop
  | zero (h : c.wnc.state.driven = false) : WinchMove c { c.wnc with position := 0, referenced := true }
  | free (h : c.wnc.state.takesFree = true) : WinchMove c { c.wnc with state := .free }
  | idle (h : c.wnc.state = .free) : WinchMove c c.wnc.toIdle

/-- What a command can make of the part (R182 to R193): nothing, a table write, a failsafe capture, a switch write, a winch
command, an acknowledge, the start of a STORE, or restart pending. -/
theorem Chip.carryOut_cases {P : Chip → Prop} (c : Chip) (p : List Byte) (same : P c)
    (write : ∀ id index bs, c.sup.store = none → structureHolds id index bs = true → P (c.writeRecord id index bs))
    (load : ∀ t, c.sup.store = none → (t = c.tbs.image.copy ∨ t = factoryTables) → P (c.loadTables t))
    (capture : ∀ mask, c.sup.store = none → P { c with tables := { c.tables with failsafe := c.captured mask } })
    (switches : ∀ mask value, P (c.putSwitches mask value))
    (winch : ∀ w, WinchMove c w → P (c.setWinch w))
    (ack : ∀ a, P (c.alert fun _ => (c.alt.ack a).1)) (ackAll : P (c.alert fun _ => c.alt.ackAll.1))
    (store : c.sup.store = none → P c.startStore)
    (restart : P { c with sup := { c.sup with restart := true } }) : P (c.carryOut p).chip := by
  have idle {l : List (Bool × Status)} (h : firstFailure l = none) {st : Status} (hm : (c.storeIdle, st) ∈ l) :
      c.sup.store = none := by
    have := firstFailure_none h _ hm
    simpa [Chip.storeIdle] using this
  unfold Chip.carryOut
  split
  · exact Chip.checked_chip same fun _ => same
  · exact Chip.checked_chip same fun _ => same
  · refine Chip.checked_chip same fun h => write _ _ _ (idle h (st := .busy) (by simp)) ?_
    exact firstFailure_none h (_, .refusedOrder) (by repeat (first | exact List.Mem.head _ | apply List.Mem.tail))
  · exact Chip.checked_chip same fun _ => same
  · exact Chip.checked_chip same fun _ => switches _ _
  · exact Chip.checked_chip same fun _ => switches _ _
  · exact Chip.checked_chip same fun _ => switches _ _
  · exact Chip.checked_chip same fun h => capture _ (idle h (st := .busy) (by simp))
  · refine Chip.checked_chip same fun _ => ?_
    split
    · refine Chip.checked_chip same fun h => winch _ (.run _ _ _ ?_)
      exact firstFailure_none h _ (List.mem_cons_self ..)
    · exact same
  · refine Chip.checked_chip same fun _ => ?_
    split
    · exact same
    · exact winch _ .stop
  · refine Chip.checked_chip same fun h => winch _ (.zero ?_)
    have := firstFailure_none h (!c.wnc.state.driven, .refusedState) (by simp)
    simpa using this
  · refine Chip.checked_chip same fun _ => ?_
    split
    · unfold Chip.freeOff
      split
      · exact winch _ (.idle ‹_›)
      · exact same
    · refine Chip.checked_chip same fun h => ?_
      have hf := firstFailure_none h _ (List.mem_cons_self ..)
      split
      · exact same
      · exact winch _ (.free hf)
    · exact same
  · refine Chip.checked_chip same fun _ => ?_
    split
    · exact ackAll
    · split
      · exact ack _
      · exact same
  · unfold Chip.doStoreGroup
    split
    · exact Chip.checked_chip same fun h => store (idle h (st := .busy) (by simp))
    · exact Chip.checked_chip same fun h => load _ (idle h (st := .busy) (by simp)) (.inl rfl)
    · exact Chip.checked_chip same fun h => load _ (idle h (st := .busy) (by simp)) (.inr rfl)
    · exact same
  · exact Chip.checked_chip same fun _ => restart
  · exact same

/-! ### What a command leaves unchanged -/

@[simp] theorem Chip.carryOut_now (c : Chip) (p : List Byte) : (c.carryOut p).chip.now = c.now :=
  Chip.carryOut_cases (P := fun d => d.now = c.now) c p rfl (fun _ _ _ _ _ => by simp [Chip.writeRecord])
    (fun _ _ _ => by simp [Chip.loadTables]) (fun _ _ => rfl) (fun _ _ => by simp) (fun _ _ => by simp) (fun _ => by simp) (by simp) (fun _ => rfl) rfl
@[simp] theorem Chip.carryOut_spoolStart (c : Chip) (p : List Byte) : (c.carryOut p).chip.spoolStart = c.spoolStart :=
  Chip.carryOut_cases (P := fun d => d.spoolStart = c.spoolStart) c p rfl (fun _ _ _ _ _ => by simp [Chip.writeRecord])
    (fun _ _ _ => by simp [Chip.loadTables]) (fun _ _ => rfl) (fun _ _ => by simp) (fun _ _ => by simp) (fun _ => by simp) (by simp) (fun _ => rfl) rfl
@[simp] theorem Chip.carryOut_held (c : Chip) (p : List Byte) : (c.carryOut p).chip.held = c.held :=
  Chip.carryOut_cases (P := fun d => d.held = c.held) c p rfl (fun _ _ _ _ _ => by simp [Chip.writeRecord])
    (fun _ _ _ => by simp [Chip.loadTables]) (fun _ _ => rfl) (fun _ _ => by simp) (fun _ _ => by simp) (fun _ => by simp) (by simp) (fun _ => rfl) rfl
@[simp] theorem Chip.carryOut_ulr (c : Chip) (p : List Byte) : (c.carryOut p).chip.ulr = c.ulr :=
  Chip.carryOut_cases (P := fun d => d.ulr = c.ulr) c p rfl (fun _ _ _ _ _ => by simp [Chip.writeRecord])
    (fun _ _ _ => by simp [Chip.loadTables]) (fun _ _ => rfl) (fun _ _ => by simp) (fun _ _ => by simp) (fun _ => by simp) (by simp) (fun _ => rfl) rfl
@[simp] theorem Chip.carryOut_slots (c : Chip) (p : List Byte) : (c.carryOut p).chip.slots = c.slots :=
  Chip.carryOut_cases (P := fun d => d.slots = c.slots) c p rfl (fun _ _ _ _ _ => by simp [Chip.writeRecord])
    (fun _ _ _ => by simp [Chip.loadTables]) (fun _ _ => rfl) (fun _ _ => by simp) (fun _ _ => by simp) (fun _ => by simp) (by simp) (fun _ => rfl) rfl
@[simp] theorem Chip.carryOut_bga (c : Chip) (p : List Byte) : (c.carryOut p).chip.bga = c.bga :=
  Chip.carryOut_cases (P := fun d => d.bga = c.bga) c p rfl (fun _ _ _ _ _ => by simp [Chip.writeRecord])
    (fun _ _ _ => by simp [Chip.loadTables]) (fun _ _ => rfl) (fun _ _ => by simp) (fun _ _ => by simp) (fun _ => by simp) (by simp) (fun _ => rfl) rfl
@[simp] theorem Chip.carryOut_rtx (c : Chip) (p : List Byte) : (c.carryOut p).chip.rtx = c.rtx :=
  Chip.carryOut_cases (P := fun d => d.rtx = c.rtx) c p rfl (fun _ _ _ _ _ => by simp [Chip.writeRecord])
    (fun _ _ _ => by simp [Chip.loadTables]) (fun _ _ => rfl) (fun _ _ => by simp) (fun _ _ => by simp) (fun _ => by simp) (by simp) (fun _ => rfl) rfl
@[simp] theorem Chip.carryOut_atx (c : Chip) (p : List Byte) : (c.carryOut p).chip.atx = c.atx :=
  Chip.carryOut_cases (P := fun d => d.atx = c.atx) c p rfl (fun _ _ _ _ _ => by simp [Chip.writeRecord])
    (fun _ _ _ => by simp [Chip.loadTables]) (fun _ _ => rfl) (fun _ _ => by simp) (fun _ _ => by simp) (fun _ => by simp) (by simp) (fun _ => rfl) rfl

/-! `faultIfRefused` -/

@[simp] theorem Chip.faultIfRefused_now (c : Chip) (k : Fin 16) (st : Status) : (c.faultIfRefused k st).now = c.now := by unfold Chip.faultIfRefused; split <;> simp
@[simp] theorem Chip.faultIfRefused_spoolStart (c : Chip) (k : Fin 16) (st : Status) : (c.faultIfRefused k st).spoolStart = c.spoolStart := by unfold Chip.faultIfRefused; split <;> simp
@[simp] theorem Chip.faultIfRefused_held (c : Chip) (k : Fin 16) (st : Status) : (c.faultIfRefused k st).held = c.held := by unfold Chip.faultIfRefused; split <;> simp
@[simp] theorem Chip.faultIfRefused_tables (c : Chip) (k : Fin 16) (st : Status) : (c.faultIfRefused k st).tables = c.tables := by unfold Chip.faultIfRefused; split <;> simp
@[simp] theorem Chip.faultIfRefused_ulr (c : Chip) (k : Fin 16) (st : Status) : (c.faultIfRefused k st).ulr = c.ulr := by unfold Chip.faultIfRefused; split <;> simp
@[simp] theorem Chip.faultIfRefused_slots (c : Chip) (k : Fin 16) (st : Status) : (c.faultIfRefused k st).slots = c.slots := by unfold Chip.faultIfRefused; split <;> simp
@[simp] theorem Chip.faultIfRefused_cdc (c : Chip) (k : Fin 16) (st : Status) : (c.faultIfRefused k st).cdc = c.cdc := by unfold Chip.faultIfRefused; split <;> simp
@[simp] theorem Chip.faultIfRefused_stm (c : Chip) (k : Fin 16) (st : Status) : (c.faultIfRefused k st).stm = c.stm := by unfold Chip.faultIfRefused; split <;> simp
@[simp] theorem Chip.faultIfRefused_drm (c : Chip) (k : Fin 16) (st : Status) : (c.faultIfRefused k st).drm = c.drm := by unfold Chip.faultIfRefused; split <;> simp
@[simp] theorem Chip.faultIfRefused_wnc (c : Chip) (k : Fin 16) (st : Status) : (c.faultIfRefused k st).wnc = c.wnc := by unfold Chip.faultIfRefused; split <;> simp
@[simp] theorem Chip.faultIfRefused_btm (c : Chip) (k : Fin 16) (st : Status) : (c.faultIfRefused k st).btm = c.btm := by unfold Chip.faultIfRefused; split <;> simp
@[simp] theorem Chip.faultIfRefused_bga (c : Chip) (k : Fin 16) (st : Status) : (c.faultIfRefused k st).bga = c.bga := by unfold Chip.faultIfRefused; split <;> simp
@[simp] theorem Chip.faultIfRefused_sup (c : Chip) (k : Fin 16) (st : Status) : (c.faultIfRefused k st).sup = c.sup := by unfold Chip.faultIfRefused; split <;> simp
@[simp] theorem Chip.faultIfRefused_rtx (c : Chip) (k : Fin 16) (st : Status) : (c.faultIfRefused k st).rtx = c.rtx := by unfold Chip.faultIfRefused; split <;> simp
@[simp] theorem Chip.faultIfRefused_atx (c : Chip) (k : Fin 16) (st : Status) : (c.faultIfRefused k st).atx = c.atx := by unfold Chip.faultIfRefused; split <;> simp
@[simp] theorem Chip.faultIfRefused_tbs (c : Chip) (k : Fin 16) (st : Status) : (c.faultIfRefused k st).tbs = c.tbs := by unfold Chip.faultIfRefused; split <;> simp
@[simp] theorem Chip.faultIfRefused_mdc (c : Chip) (k : Fin 16) (st : Status) : (c.faultIfRefused k st).mdc = c.mdc := by unfold Chip.faultIfRefused; split <;> simp

@[simp] theorem Answer.give_now (a : Answer) (p : List Byte) : (a.give p).now = a.chip.now := by simp [Answer.give]
@[simp] theorem Answer.give_spoolStart (a : Answer) (p : List Byte) : (a.give p).spoolStart = a.chip.spoolStart := by simp [Answer.give]
@[simp] theorem Answer.give_held (a : Answer) (p : List Byte) : (a.give p).held = a.chip.held := by simp [Answer.give]
@[simp] theorem Answer.give_tables (a : Answer) (p : List Byte) : (a.give p).tables = a.chip.tables := by simp [Answer.give]
@[simp] theorem Answer.give_ulr (a : Answer) (p : List Byte) : (a.give p).ulr = a.chip.ulr := by simp [Answer.give]
@[simp] theorem Answer.give_slots (a : Answer) (p : List Byte) : (a.give p).slots = a.chip.slots := by simp [Answer.give]
@[simp] theorem Answer.give_cdc (a : Answer) (p : List Byte) : (a.give p).cdc = a.chip.cdc := by simp [Answer.give]
@[simp] theorem Answer.give_stm (a : Answer) (p : List Byte) : (a.give p).stm = a.chip.stm := by simp [Answer.give]
@[simp] theorem Answer.give_drm (a : Answer) (p : List Byte) : (a.give p).drm = a.chip.drm := by simp [Answer.give]
@[simp] theorem Answer.give_wnc (a : Answer) (p : List Byte) : (a.give p).wnc = a.chip.wnc := by simp [Answer.give]
@[simp] theorem Answer.give_btm (a : Answer) (p : List Byte) : (a.give p).btm = a.chip.btm := by simp [Answer.give]
@[simp] theorem Answer.give_bga (a : Answer) (p : List Byte) : (a.give p).bga = a.chip.bga := by simp [Answer.give]
@[simp] theorem Answer.give_sup (a : Answer) (p : List Byte) : (a.give p).sup = a.chip.sup := by simp [Answer.give]
@[simp] theorem Answer.give_atx (a : Answer) (p : List Byte) : (a.give p).atx = a.chip.atx := by simp [Answer.give]
@[simp] theorem Answer.give_tbs (a : Answer) (p : List Byte) : (a.give p).tbs = a.chip.tbs := by simp [Answer.give]
@[simp] theorem Answer.give_mdc (a : Answer) (p : List Byte) : (a.give p).mdc = a.chip.mdc := by simp [Answer.give]

/-! `takeSetup` -/

@[simp] theorem Chip.takeSetup_now (c : Chip) : (c.takeSetup).now = c.now := by unfold Chip.takeSetup; split <;> simp
@[simp] theorem Chip.takeSetup_spoolStart (c : Chip) : (c.takeSetup).spoolStart = c.spoolStart := by unfold Chip.takeSetup; split <;> simp
@[simp] theorem Chip.takeSetup_held (c : Chip) : (c.takeSetup).held = c.held := by unfold Chip.takeSetup; split <;> simp
@[simp] theorem Chip.takeSetup_ulr (c : Chip) : (c.takeSetup).ulr = c.ulr := by unfold Chip.takeSetup; split <;> simp
@[simp] theorem Chip.takeSetup_slots (c : Chip) : (c.takeSetup).slots = c.slots := by unfold Chip.takeSetup; split <;> simp
@[simp] theorem Chip.takeSetup_bga (c : Chip) : (c.takeSetup).bga = c.bga := by unfold Chip.takeSetup; split <;> simp
@[simp] theorem Chip.takeSetup_atx (c : Chip) : (c.takeSetup).atx = c.atx := by unfold Chip.takeSetup; split <;> simp

@[simp] theorem Chip.takeSetups_now (n : Nat) (c : Chip) : (c.takeSetups n).now = c.now := by
  induction n generalizing c with
  | zero => rfl
  | succ n ih => unfold Chip.takeSetups; split <;> simp [ih]
@[simp] theorem Chip.takeSetups_spoolStart (n : Nat) (c : Chip) : (c.takeSetups n).spoolStart = c.spoolStart := by
  induction n generalizing c with
  | zero => rfl
  | succ n ih => unfold Chip.takeSetups; split <;> simp [ih]
@[simp] theorem Chip.takeSetups_held (n : Nat) (c : Chip) : (c.takeSetups n).held = c.held := by
  induction n generalizing c with
  | zero => rfl
  | succ n ih => unfold Chip.takeSetups; split <;> simp [ih]
@[simp] theorem Chip.takeSetups_ulr (n : Nat) (c : Chip) : (c.takeSetups n).ulr = c.ulr := by
  induction n generalizing c with
  | zero => rfl
  | succ n ih => unfold Chip.takeSetups; split <;> simp [ih]
@[simp] theorem Chip.takeSetups_slots (n : Nat) (c : Chip) : (c.takeSetups n).slots = c.slots := by
  induction n generalizing c with
  | zero => rfl
  | succ n ih => unfold Chip.takeSetups; split <;> simp [ih]
@[simp] theorem Chip.takeSetups_bga (n : Nat) (c : Chip) : (c.takeSetups n).bga = c.bga := by
  induction n generalizing c with
  | zero => rfl
  | succ n ih => unfold Chip.takeSetups; split <;> simp [ih]
@[simp] theorem Chip.takeSetups_atx (n : Nat) (c : Chip) : (c.takeSetups n).atx = c.atx := by
  induction n generalizing c with
  | zero => rfl
  | succ n ih => unfold Chip.takeSetups; split <;> simp [ih]

/-! `supRun` -/

@[simp] theorem Chip.supRun_now (c : Chip) : (c.supRun).now = c.now := by simp [Chip.supRun]
@[simp] theorem Chip.supRun_spoolStart (c : Chip) : (c.supRun).spoolStart = c.spoolStart := by simp [Chip.supRun]
@[simp] theorem Chip.supRun_held (c : Chip) : (c.supRun).held = c.held := by simp [Chip.supRun]
@[simp] theorem Chip.supRun_ulr (c : Chip) : (c.supRun).ulr = c.ulr := by simp [Chip.supRun]
@[simp] theorem Chip.supRun_slots (c : Chip) : (c.supRun).slots = c.slots := by simp [Chip.supRun]
@[simp] theorem Chip.supRun_bga (c : Chip) : (c.supRun).bga = c.bga := by simp [Chip.supRun]
@[simp] theorem Chip.supRun_atx (c : Chip) : (c.supRun).atx = c.atx := by simp [Chip.supRun]

/-! `joinSetup` -/

@[simp] theorem Chip.joinSetup_now (c : Chip) (p : List Byte) : (c.joinSetup p).now = c.now := by unfold Chip.joinSetup; split <;> simp
@[simp] theorem Chip.joinSetup_spoolStart (c : Chip) (p : List Byte) : (c.joinSetup p).spoolStart = c.spoolStart := by unfold Chip.joinSetup; split <;> simp
@[simp] theorem Chip.joinSetup_held (c : Chip) (p : List Byte) : (c.joinSetup p).held = c.held := by unfold Chip.joinSetup; split <;> simp
@[simp] theorem Chip.joinSetup_ulr (c : Chip) (p : List Byte) : (c.joinSetup p).ulr = c.ulr := by unfold Chip.joinSetup; split <;> simp
@[simp] theorem Chip.joinSetup_slots (c : Chip) (p : List Byte) : (c.joinSetup p).slots = c.slots := by unfold Chip.joinSetup; split <;> simp
@[simp] theorem Chip.joinSetup_bga (c : Chip) (p : List Byte) : (c.joinSetup p).bga = c.bga := by unfold Chip.joinSetup; split <;> simp
@[simp] theorem Chip.joinSetup_atx (c : Chip) (p : List Byte) : (c.joinSetup p).atx = c.atx := by unfold Chip.joinSetup; split <;> simp

/-! `routeSetup` -/

@[simp] theorem Chip.routeSetup_now (c : Chip) (p : List Byte) : (c.routeSetup p).now = c.now := by unfold Chip.routeSetup; split <;> simp
@[simp] theorem Chip.routeSetup_spoolStart (c : Chip) (p : List Byte) : (c.routeSetup p).spoolStart = c.spoolStart := by unfold Chip.routeSetup; split <;> simp
@[simp] theorem Chip.routeSetup_held (c : Chip) (p : List Byte) : (c.routeSetup p).held = c.held := by unfold Chip.routeSetup; split <;> simp
@[simp] theorem Chip.routeSetup_ulr (c : Chip) (p : List Byte) : (c.routeSetup p).ulr = c.ulr := by unfold Chip.routeSetup; split <;> simp
@[simp] theorem Chip.routeSetup_slots (c : Chip) (p : List Byte) : (c.routeSetup p).slots = c.slots := by unfold Chip.routeSetup; split <;> simp
@[simp] theorem Chip.routeSetup_bga (c : Chip) (p : List Byte) : (c.routeSetup p).bga = c.bga := by unfold Chip.routeSetup; split <;> simp

/-! `acceptSetup` -/

@[simp] theorem Chip.acceptSetup_now (c : Chip) (p : List Byte) : (c.acceptSetup p).now = c.now := by unfold Chip.acceptSetup; split <;> simp
@[simp] theorem Chip.acceptSetup_spoolStart (c : Chip) (p : List Byte) : (c.acceptSetup p).spoolStart = c.spoolStart := by unfold Chip.acceptSetup; split <;> simp
@[simp] theorem Chip.acceptSetup_held (c : Chip) (p : List Byte) : (c.acceptSetup p).held = c.held := by unfold Chip.acceptSetup; split <;> simp
@[simp] theorem Chip.acceptSetup_ulr (c : Chip) (p : List Byte) : (c.acceptSetup p).ulr = c.ulr := by unfold Chip.acceptSetup; split <;> simp
@[simp] theorem Chip.acceptSetup_slots (c : Chip) (p : List Byte) : (c.acceptSetup p).slots = c.slots := by unfold Chip.acceptSetup; split <;> simp
@[simp] theorem Chip.acceptSetup_bga (c : Chip) (p : List Byte) : (c.acceptSetup p).bga = c.bga := by unfold Chip.acceptSetup; split <;> simp

/-! ### A setup frame when SUP is ready -/

/-- Byte 0 of a setup payload as a number. -/
theorem byteAt_setupPayload_zero {unit code : Nat} (hu : unit < 16) (hc : code < 16) (q : Byte) (ps : List Byte) :
    byteAt (setupPayload unit code q ps) 0 = 16 * unit + code := by
  simp [byteAt, setupPayload, BitVec.toNat_ofNat]
  omega

/-- The qualifier of a setup payload. -/
@[simp] theorem byteAt_setupPayload_one (unit code : Nat) (q : Byte) (ps : List Byte) :
    byteAt (setupPayload unit code q ps) 1 = q.toNat := by simp [byteAt, setupPayload]

/-- A parameter byte of a setup payload. -/
@[simp] theorem byteAt_setupPayload_param (unit code : Nat) (q : Byte) (ps : List Byte) (n : Nat) :
    byteAt (setupPayload unit code q ps) (n + 2) = byteAt ps n := by simp [byteAt, setupPayload]

/-- The length of a setup payload. -/
@[simp] theorem length_setupPayload (unit code : Nat) (q : Byte) (ps : List Byte) :
    (setupPayload unit code q ps).length = ps.length + 2 := by simp [setupPayload]

/-- The parameters of a setup payload from its third on. -/
@[simp] theorem drop_setupPayload (unit code : Nat) (q : Byte) (ps : List Byte) (n : Nat) :
    (setupPayload unit code q ps).drop (n + 2) = ps.drop n := by simp [setupPayload]

/-- The unit address of a setup payload. -/
theorem unitOf_setupPayload {unit code : Nat} (hu : unit < 16) (hc : code < 16) (q : Byte) (ps : List Byte) :
    unitOf (setupPayload unit code q ps) = unit := by
  rw [unitOf, byteAt_setupPayload_zero hu hc]
  omega

/-- The command code of a setup payload. -/
theorem codeOf_setupPayload {unit code : Nat} (hu : unit < 16) (hc : code < 16) (q : Byte) (ps : List Byte) :
    codeOf (setupPayload unit code q ps) = ⟨code, hc⟩ := by
  apply Fin.ext
  simp only [codeOf, byteAt_setupPayload_zero hu hc]
  omega

/-- A ready SUP takes a setup command at once and answers it (R6, R179). -/
theorem Chip.setupCommand_ready {c : Chip} (h : c.Ready) {code : Nat} (hc : code < 16) (q : Byte) {ps : List Byte}
    (hp : ps.length ≤ 61) :
    c.setupCommand code q ps
      = (c.carryOut (setupPayload c.tables.link.unitAddress.val code q ps)).give
          (setupPayload c.tables.link.unitAddress.val code q ps) := by
  obtain ⟨⟨hheld, hmode⟩, hq, hr, hrs⟩ := h
  have hself : ({ c with sup := { queue := [], restart := false, switches := c.sup.switches, store := c.sup.store } } : Chip) = c := by
    rcases c with ⟨_, _, _, _, _, _, _, _, _, _, _, _, _, _, ⟨_, _, _, _⟩, _, _, _, _⟩
    simp_all
  have hrun : c.running = true := by simp [Chip.running, hheld, hmode]
  have hlen : 2 ≤ ps.length + 2 ∧ ps.length + 2 ≤ 63 := by omega
  simp only [Chip.setupCommand, Chip.whenRunning, hrun, if_true, Chip.acceptSetup, length_setupPayload, hlen, and_self,
    Chip.routeSetup, unitOf_setupPayload c.tables.link.unitAddress.isLt hc, Chip.joinSetup, hq, List.length_nil,
    Nat.zero_lt_succ, List.nil_append, Chip.supRun, List.length_singleton, Chip.takeSetups, Chip.canTake, hr, hrs,
    ne_eq, List.cons_ne_nil, not_false_iff, decide_true, Bool.not_false, Bool.and_self, Chip.takeSetup]
  rw [hself]

/-- The reply an answer gives to a setup command of code `code`. -/
theorem Answer.give_setupPayload (a : Answer) {unit code : Nat} (hu : unit < 16) (hc : code < 16) (q : Byte) (ps : List Byte) :
    a.give (setupPayload unit code q ps)
      = { a.chip.faultIfRefused ⟨code, hc⟩ a.status with
          rtx := (a.chip.faultIfRefused ⟨code, hc⟩ a.status).rtx.putReply
            { head := BitVec.ofNat 8 (16 * unit + code), status := a.status,
              data := if a.status.carriesData then a.data else [] } } := by
  simp only [Answer.give, codeOf_setupPayload hu hc]
  rfl

/-! ### A decode whose switches forget their order -/

/-- Each switch keeps its position; those marked lose the ordered flag. -/
theorem Decode.forget_get (d : Decode) (p : Vector Bool 5) (i : Fin 5) :
    (d.forget p).switches[i] = { pos := (d.switches[i]).pos, ordered := (d.switches[i]).ordered && !p[i] } := by
  simp [Decode.forget, SwitchPos.forget]

/-- Where none is marked nothing changes. -/
theorem Decode.forget_none (d : Decode) (p : Vector Bool 5) (h : ∀ i : Fin 5, p[i] = false) : d.forget p = d := by
  have : (d.forget p).switches = d.switches := by
    apply Vector.ext
    intro i hi
    have := Decode.forget_get d p ⟨i, hi⟩
    simp only [Fin.getElem_fin] at this
    rw [this]
    have hp := h ⟨i, hi⟩
    simp only [Fin.getElem_fin] at hp
    rw [hp]; simp
  have e : d.forget p = { d with switches := (d.forget p).switches } := rfl
  rw [e, this]

end Sys2Proof.Machine
end

