-- ==== Sys2Proof/Laws/Updates.lean ====
section
/-! SUPPORT. Evaluation completions, channel updates and the uplink: what each leaves unchanged. -/

namespace Sys2Proof.Machine

@[simp] theorem Chip.takeEvaluation_now (b : Level) (trip : Bool) (o : List EvalTaker) (c : Chip) (t : EvalTaker) :
    (c.takeEvaluation b trip o t).now = c.now := by
  cases t <;> (simp [Chip.takeEvaluation]; try (split; all_goals simp))
@[simp] theorem Chip.takeEvaluation_spoolStart (b : Level) (trip : Bool) (o : List EvalTaker) (c : Chip) (t : EvalTaker) :
    (c.takeEvaluation b trip o t).spoolStart = c.spoolStart := by
  cases t <;> (simp [Chip.takeEvaluation]; try (split; all_goals simp))
@[simp] theorem Chip.takeEvaluation_held (b : Level) (trip : Bool) (o : List EvalTaker) (c : Chip) (t : EvalTaker) :
    (c.takeEvaluation b trip o t).held = c.held := by
  cases t <;> (simp [Chip.takeEvaluation]; try (split; all_goals simp))
@[simp] theorem Chip.takeEvaluation_tables (b : Level) (trip : Bool) (o : List EvalTaker) (c : Chip) (t : EvalTaker) :
    (c.takeEvaluation b trip o t).tables = c.tables := by
  cases t <;> (simp [Chip.takeEvaluation]; try (split; all_goals simp))
@[simp] theorem Chip.takeEvaluation_ulr (b : Level) (trip : Bool) (o : List EvalTaker) (c : Chip) (t : EvalTaker) :
    (c.takeEvaluation b trip o t).ulr = c.ulr := by
  cases t <;> (simp [Chip.takeEvaluation]; try (split; all_goals simp))
@[simp] theorem Chip.takeEvaluation_slots (b : Level) (trip : Bool) (o : List EvalTaker) (c : Chip) (t : EvalTaker) :
    (c.takeEvaluation b trip o t).slots = c.slots := by
  cases t <;> (simp [Chip.takeEvaluation]; try (split; all_goals simp))
@[simp] theorem Chip.takeEvaluation_cdc (b : Level) (trip : Bool) (o : List EvalTaker) (c : Chip) (t : EvalTaker) :
    (c.takeEvaluation b trip o t).cdc = c.cdc := by
  cases t <;> (simp [Chip.takeEvaluation]; try (split; all_goals simp))
@[simp] theorem Chip.takeEvaluation_stm (b : Level) (trip : Bool) (o : List EvalTaker) (c : Chip) (t : EvalTaker) :
    (c.takeEvaluation b trip o t).stm = c.stm := by
  cases t <;> (simp [Chip.takeEvaluation]; try (split; all_goals simp))
@[simp] theorem Chip.takeEvaluation_btm (b : Level) (trip : Bool) (o : List EvalTaker) (c : Chip) (t : EvalTaker) :
    (c.takeEvaluation b trip o t).btm = c.btm := by
  cases t <;> (simp [Chip.takeEvaluation]; try (split; all_goals simp))
@[simp] theorem Chip.takeEvaluation_sup (b : Level) (trip : Bool) (o : List EvalTaker) (c : Chip) (t : EvalTaker) :
    (c.takeEvaluation b trip o t).sup = c.sup := by
  cases t <;> (simp [Chip.takeEvaluation]; try (split; all_goals simp))
@[simp] theorem Chip.takeEvaluation_rtx (b : Level) (trip : Bool) (o : List EvalTaker) (c : Chip) (t : EvalTaker) :
    (c.takeEvaluation b trip o t).rtx = c.rtx := by
  cases t <;> (simp [Chip.takeEvaluation]; try (split; all_goals simp))
@[simp] theorem Chip.takeEvaluation_atx (b : Level) (trip : Bool) (o : List EvalTaker) (c : Chip) (t : EvalTaker) :
    (c.takeEvaluation b trip o t).atx = c.atx := by
  cases t <;> (simp [Chip.takeEvaluation]; try (split; all_goals simp))
@[simp] theorem Chip.takeEvaluation_tbs (b : Level) (trip : Bool) (o : List EvalTaker) (c : Chip) (t : EvalTaker) :
    (c.takeEvaluation b trip o t).tbs = c.tbs := by
  cases t <;> (simp [Chip.takeEvaluation]; try (split; all_goals simp))

@[simp] theorem Chip.evaluate_now (c : Chip) (b : Level) (trip : Bool) (o : List EvalTaker) : (c.evaluate b trip o).now = c.now :=
  foldl_keeps Chip.now _ (fun d t => Chip.takeEvaluation_now b trip o d t) _ _
@[simp] theorem Chip.evaluate_spoolStart (c : Chip) (b : Level) (trip : Bool) (o : List EvalTaker) : (c.evaluate b trip o).spoolStart = c.spoolStart :=
  foldl_keeps Chip.spoolStart _ (fun d t => Chip.takeEvaluation_spoolStart b trip o d t) _ _
@[simp] theorem Chip.evaluate_held (c : Chip) (b : Level) (trip : Bool) (o : List EvalTaker) : (c.evaluate b trip o).held = c.held :=
  foldl_keeps Chip.held _ (fun d t => Chip.takeEvaluation_held b trip o d t) _ _
@[simp] theorem Chip.evaluate_tables (c : Chip) (b : Level) (trip : Bool) (o : List EvalTaker) : (c.evaluate b trip o).tables = c.tables :=
  foldl_keeps Chip.tables _ (fun d t => Chip.takeEvaluation_tables b trip o d t) _ _
@[simp] theorem Chip.evaluate_ulr (c : Chip) (b : Level) (trip : Bool) (o : List EvalTaker) : (c.evaluate b trip o).ulr = c.ulr :=
  foldl_keeps Chip.ulr _ (fun d t => Chip.takeEvaluation_ulr b trip o d t) _ _
@[simp] theorem Chip.evaluate_slots (c : Chip) (b : Level) (trip : Bool) (o : List EvalTaker) : (c.evaluate b trip o).slots = c.slots :=
  foldl_keeps Chip.slots _ (fun d t => Chip.takeEvaluation_slots b trip o d t) _ _
@[simp] theorem Chip.evaluate_cdc (c : Chip) (b : Level) (trip : Bool) (o : List EvalTaker) : (c.evaluate b trip o).cdc = c.cdc :=
  foldl_keeps Chip.cdc _ (fun d t => Chip.takeEvaluation_cdc b trip o d t) _ _
@[simp] theorem Chip.evaluate_stm (c : Chip) (b : Level) (trip : Bool) (o : List EvalTaker) : (c.evaluate b trip o).stm = c.stm :=
  foldl_keeps Chip.stm _ (fun d t => Chip.takeEvaluation_stm b trip o d t) _ _
@[simp] theorem Chip.evaluate_btm (c : Chip) (b : Level) (trip : Bool) (o : List EvalTaker) : (c.evaluate b trip o).btm = c.btm :=
  foldl_keeps Chip.btm _ (fun d t => Chip.takeEvaluation_btm b trip o d t) _ _
@[simp] theorem Chip.evaluate_sup (c : Chip) (b : Level) (trip : Bool) (o : List EvalTaker) : (c.evaluate b trip o).sup = c.sup :=
  foldl_keeps Chip.sup _ (fun d t => Chip.takeEvaluation_sup b trip o d t) _ _
@[simp] theorem Chip.evaluate_rtx (c : Chip) (b : Level) (trip : Bool) (o : List EvalTaker) : (c.evaluate b trip o).rtx = c.rtx :=
  foldl_keeps Chip.rtx _ (fun d t => Chip.takeEvaluation_rtx b trip o d t) _ _
@[simp] theorem Chip.evaluate_atx (c : Chip) (b : Level) (trip : Bool) (o : List EvalTaker) : (c.evaluate b trip o).atx = c.atx :=
  foldl_keeps Chip.atx _ (fun d t => Chip.takeEvaluation_atx b trip o d t) _ _
@[simp] theorem Chip.evaluate_tbs (c : Chip) (b : Level) (trip : Bool) (o : List EvalTaker) : (c.evaluate b trip o).tbs = c.tbs :=
  foldl_keeps Chip.tbs _ (fun d t => Chip.takeEvaluation_tbs b trip o d t) _ _

/-! `measurement` -/

@[simp] theorem Chip.measurement_now (c : Chip) (r : Readings) (o : List EvalTaker) : (c.measurement r o).now = c.now := by simp [Chip.measurement]
@[simp] theorem Chip.measurement_spoolStart (c : Chip) (r : Readings) (o : List EvalTaker) : (c.measurement r o).spoolStart = c.spoolStart := by simp [Chip.measurement]
@[simp] theorem Chip.measurement_held (c : Chip) (r : Readings) (o : List EvalTaker) : (c.measurement r o).held = c.held := by simp [Chip.measurement]
@[simp] theorem Chip.measurement_tables (c : Chip) (r : Readings) (o : List EvalTaker) : (c.measurement r o).tables = c.tables := by simp [Chip.measurement]
@[simp] theorem Chip.measurement_ulr (c : Chip) (r : Readings) (o : List EvalTaker) : (c.measurement r o).ulr = c.ulr := by simp [Chip.measurement]
@[simp] theorem Chip.measurement_slots (c : Chip) (r : Readings) (o : List EvalTaker) : (c.measurement r o).slots = c.slots := by simp [Chip.measurement]
@[simp] theorem Chip.measurement_cdc (c : Chip) (r : Readings) (o : List EvalTaker) : (c.measurement r o).cdc = c.cdc := by simp [Chip.measurement]
@[simp] theorem Chip.measurement_stm (c : Chip) (r : Readings) (o : List EvalTaker) : (c.measurement r o).stm = c.stm := by simp [Chip.measurement]
@[simp] theorem Chip.measurement_sup (c : Chip) (r : Readings) (o : List EvalTaker) : (c.measurement r o).sup = c.sup := by simp [Chip.measurement]
@[simp] theorem Chip.measurement_rtx (c : Chip) (r : Readings) (o : List EvalTaker) : (c.measurement r o).rtx = c.rtx := by simp [Chip.measurement]
@[simp] theorem Chip.measurement_atx (c : Chip) (r : Readings) (o : List EvalTaker) : (c.measurement r o).atx = c.atx := by simp [Chip.measurement]
@[simp] theorem Chip.measurement_tbs (c : Chip) (r : Readings) (o : List EvalTaker) : (c.measurement r o).tbs = c.tbs := by simp [Chip.measurement]

@[simp] theorem Chip.takeUpdate_now (st : Chip → Chip) (h : ∀ c, (st c).now = c.now) (c : Chip) (t : Taker) :
    (c.takeUpdate st t).now = c.now := by
  cases t <;> simp [Chip.takeUpdate, h]
@[simp] theorem Chip.takeUpdate_spoolStart (st : Chip → Chip) (h : ∀ c, (st c).spoolStart = c.spoolStart) (c : Chip) (t : Taker) :
    (c.takeUpdate st t).spoolStart = c.spoolStart := by
  cases t <;> simp [Chip.takeUpdate, h]
@[simp] theorem Chip.takeUpdate_held (st : Chip → Chip) (h : ∀ c, (st c).held = c.held) (c : Chip) (t : Taker) :
    (c.takeUpdate st t).held = c.held := by
  cases t <;> simp [Chip.takeUpdate, h]
@[simp] theorem Chip.takeUpdate_tables (st : Chip → Chip) (h : ∀ c, (st c).tables = c.tables) (c : Chip) (t : Taker) :
    (c.takeUpdate st t).tables = c.tables := by
  cases t <;> simp [Chip.takeUpdate, h]
@[simp] theorem Chip.takeUpdate_ulr (st : Chip → Chip) (h : ∀ c, (st c).ulr = c.ulr) (c : Chip) (t : Taker) :
    (c.takeUpdate st t).ulr = c.ulr := by
  cases t <;> simp [Chip.takeUpdate, h]
@[simp] theorem Chip.takeUpdate_slots (st : Chip → Chip) (h : ∀ c, (st c).slots = c.slots) (c : Chip) (t : Taker) :
    (c.takeUpdate st t).slots = c.slots := by
  cases t <;> simp [Chip.takeUpdate, h]
@[simp] theorem Chip.takeUpdate_cdc (st : Chip → Chip) (h : ∀ c, (st c).cdc = c.cdc) (c : Chip) (t : Taker) :
    (c.takeUpdate st t).cdc = c.cdc := by
  cases t <;> simp [Chip.takeUpdate, h]
@[simp] theorem Chip.takeUpdate_bga (st : Chip → Chip) (h : ∀ c, (st c).bga = c.bga) (c : Chip) (t : Taker) :
    (c.takeUpdate st t).bga = c.bga := by
  cases t <;> simp [Chip.takeUpdate, h]
@[simp] theorem Chip.takeUpdate_sup (st : Chip → Chip) (h : ∀ c, (st c).sup = c.sup) (c : Chip) (t : Taker) :
    (c.takeUpdate st t).sup = c.sup := by
  cases t <;> simp [Chip.takeUpdate, h]
@[simp] theorem Chip.takeUpdate_tbs (st : Chip → Chip) (h : ∀ c, (st c).tbs = c.tbs) (c : Chip) (t : Taker) :
    (c.takeUpdate st t).tbs = c.tbs := by
  cases t <;> simp [Chip.takeUpdate, h]

@[simp] theorem Chip.channelUpdate_now (c : Chip) (st : Chip → Chip) (h : ∀ c, (st c).now = c.now) (o : List Taker) :
    (c.channelUpdate st o).now = c.now := by
  unfold Chip.channelUpdate
  rw [foldl_keeps Chip.now _ (fun d t => Chip.takeUpdate_now st h d t), Chip.decodeNow_now]
@[simp] theorem Chip.channelUpdate_spoolStart (c : Chip) (st : Chip → Chip) (h : ∀ c, (st c).spoolStart = c.spoolStart) (o : List Taker) :
    (c.channelUpdate st o).spoolStart = c.spoolStart := by
  unfold Chip.channelUpdate
  rw [foldl_keeps Chip.spoolStart _ (fun d t => Chip.takeUpdate_spoolStart st h d t), Chip.decodeNow_spoolStart]
@[simp] theorem Chip.channelUpdate_held (c : Chip) (st : Chip → Chip) (h : ∀ c, (st c).held = c.held) (o : List Taker) :
    (c.channelUpdate st o).held = c.held := by
  unfold Chip.channelUpdate
  rw [foldl_keeps Chip.held _ (fun d t => Chip.takeUpdate_held st h d t), Chip.decodeNow_held]
@[simp] theorem Chip.channelUpdate_tables (c : Chip) (st : Chip → Chip) (h : ∀ c, (st c).tables = c.tables) (o : List Taker) :
    (c.channelUpdate st o).tables = c.tables := by
  unfold Chip.channelUpdate
  rw [foldl_keeps Chip.tables _ (fun d t => Chip.takeUpdate_tables st h d t), Chip.decodeNow_tables]
@[simp] theorem Chip.channelUpdate_ulr (c : Chip) (st : Chip → Chip) (h : ∀ c, (st c).ulr = c.ulr) (o : List Taker) :
    (c.channelUpdate st o).ulr = c.ulr := by
  unfold Chip.channelUpdate
  rw [foldl_keeps Chip.ulr _ (fun d t => Chip.takeUpdate_ulr st h d t), Chip.decodeNow_ulr]
@[simp] theorem Chip.channelUpdate_slots (c : Chip) (st : Chip → Chip) (h : ∀ c, (st c).slots = c.slots) (o : List Taker) :
    (c.channelUpdate st o).slots = c.slots := by
  unfold Chip.channelUpdate
  rw [foldl_keeps Chip.slots _ (fun d t => Chip.takeUpdate_slots st h d t), Chip.decodeNow_slots]
@[simp] theorem Chip.channelUpdate_bga (c : Chip) (st : Chip → Chip) (h : ∀ c, (st c).bga = c.bga) (o : List Taker) :
    (c.channelUpdate st o).bga = c.bga := by
  unfold Chip.channelUpdate
  rw [foldl_keeps Chip.bga _ (fun d t => Chip.takeUpdate_bga st h d t), Chip.decodeNow_bga]
@[simp] theorem Chip.channelUpdate_sup (c : Chip) (st : Chip → Chip) (h : ∀ c, (st c).sup = c.sup) (o : List Taker) :
    (c.channelUpdate st o).sup = c.sup := by
  unfold Chip.channelUpdate
  rw [foldl_keeps Chip.sup _ (fun d t => Chip.takeUpdate_sup st h d t), Chip.decodeNow_sup]
@[simp] theorem Chip.channelUpdate_tbs (c : Chip) (st : Chip → Chip) (h : ∀ c, (st c).tbs = c.tbs) (o : List Taker) :
    (c.channelUpdate st o).tbs = c.tbs := by
  unfold Chip.channelUpdate
  rw [foldl_keeps Chip.tbs _ (fun d t => Chip.takeUpdate_tbs st h d t), Chip.decodeNow_tbs]
@[simp] theorem Chip.channelUpdate_cdc (c : Chip) (st : Chip → Chip) (h : ∀ c, (st c).cdc = c.cdc) (o : List Taker) :
    (c.channelUpdate st o).cdc = c.decode := by
  unfold Chip.channelUpdate
  rw [foldl_keeps Chip.cdc _ (fun d t => Chip.takeUpdate_cdc st h d t)]
  rfl

/-! `freshSlots` -/

@[simp] theorem Chip.freshSlots_now (c : Chip) (p : List Byte) : (c.freshSlots p).now = c.now := rfl
@[simp] theorem Chip.freshSlots_spoolStart (c : Chip) (p : List Byte) : (c.freshSlots p).spoolStart = c.spoolStart := rfl
@[simp] theorem Chip.freshSlots_held (c : Chip) (p : List Byte) : (c.freshSlots p).held = c.held := rfl
@[simp] theorem Chip.freshSlots_tables (c : Chip) (p : List Byte) : (c.freshSlots p).tables = c.tables := rfl
@[simp] theorem Chip.freshSlots_cdc (c : Chip) (p : List Byte) : (c.freshSlots p).cdc = c.cdc := rfl
@[simp] theorem Chip.freshSlots_stm (c : Chip) (p : List Byte) : (c.freshSlots p).stm = c.stm := rfl
@[simp] theorem Chip.freshSlots_drm (c : Chip) (p : List Byte) : (c.freshSlots p).drm = c.drm := rfl
@[simp] theorem Chip.freshSlots_wnc (c : Chip) (p : List Byte) : (c.freshSlots p).wnc = c.wnc := rfl
@[simp] theorem Chip.freshSlots_lsq (c : Chip) (p : List Byte) : (c.freshSlots p).lsq = c.lsq := rfl
@[simp] theorem Chip.freshSlots_btm (c : Chip) (p : List Byte) : (c.freshSlots p).btm = c.btm := rfl
@[simp] theorem Chip.freshSlots_bga (c : Chip) (p : List Byte) : (c.freshSlots p).bga = c.bga := rfl
@[simp] theorem Chip.freshSlots_alt (c : Chip) (p : List Byte) : (c.freshSlots p).alt = c.alt := rfl
@[simp] theorem Chip.freshSlots_sup (c : Chip) (p : List Byte) : (c.freshSlots p).sup = c.sup := rfl
@[simp] theorem Chip.freshSlots_rtx (c : Chip) (p : List Byte) : (c.freshSlots p).rtx = c.rtx := rfl
@[simp] theorem Chip.freshSlots_atx (c : Chip) (p : List Byte) : (c.freshSlots p).atx = c.atx := rfl
@[simp] theorem Chip.freshSlots_tbs (c : Chip) (p : List Byte) : (c.freshSlots p).tbs = c.tbs := rfl

/-! `goLive` -/

@[simp] theorem Chip.goLive_now (c : Chip) (p : List Byte) : (c.goLive p).now = c.now := by simp [Chip.goLive]
@[simp] theorem Chip.goLive_spoolStart (c : Chip) (p : List Byte) : (c.goLive p).spoolStart = c.spoolStart := by simp [Chip.goLive]
@[simp] theorem Chip.goLive_held (c : Chip) (p : List Byte) : (c.goLive p).held = c.held := by simp [Chip.goLive]
@[simp] theorem Chip.goLive_tables (c : Chip) (p : List Byte) : (c.goLive p).tables = c.tables := by simp [Chip.goLive]
@[simp] theorem Chip.goLive_cdc (c : Chip) (p : List Byte) : (c.goLive p).cdc = c.cdc := by simp [Chip.goLive]
@[simp] theorem Chip.goLive_stm (c : Chip) (p : List Byte) : (c.goLive p).stm = c.stm := by simp [Chip.goLive]
@[simp] theorem Chip.goLive_drm (c : Chip) (p : List Byte) : (c.goLive p).drm = c.drm := by simp [Chip.goLive]
@[simp] theorem Chip.goLive_wnc (c : Chip) (p : List Byte) : (c.goLive p).wnc = c.wnc := by simp [Chip.goLive]
@[simp] theorem Chip.goLive_btm (c : Chip) (p : List Byte) : (c.goLive p).btm = c.btm := by simp [Chip.goLive]
@[simp] theorem Chip.goLive_bga (c : Chip) (p : List Byte) : (c.goLive p).bga = c.bga := by simp [Chip.goLive]
@[simp] theorem Chip.goLive_sup (c : Chip) (p : List Byte) : (c.goLive p).sup = c.sup := by simp [Chip.goLive]
@[simp] theorem Chip.goLive_rtx (c : Chip) (p : List Byte) : (c.goLive p).rtx = c.rtx := by simp [Chip.goLive]
@[simp] theorem Chip.goLive_atx (c : Chip) (p : List Byte) : (c.goLive p).atx = c.atx := by simp [Chip.goLive]
@[simp] theorem Chip.goLive_tbs (c : Chip) (p : List Byte) : (c.goLive p).tbs = c.tbs := by simp [Chip.goLive]

/-! `holdSlots` -/

@[simp] theorem Chip.holdSlots_now (c : Chip) : (c.holdSlots).now = c.now := rfl
@[simp] theorem Chip.holdSlots_spoolStart (c : Chip) : (c.holdSlots).spoolStart = c.spoolStart := rfl
@[simp] theorem Chip.holdSlots_held (c : Chip) : (c.holdSlots).held = c.held := rfl
@[simp] theorem Chip.holdSlots_tables (c : Chip) : (c.holdSlots).tables = c.tables := rfl
@[simp] theorem Chip.holdSlots_cdc (c : Chip) : (c.holdSlots).cdc = c.cdc := rfl
@[simp] theorem Chip.holdSlots_stm (c : Chip) : (c.holdSlots).stm = c.stm := rfl
@[simp] theorem Chip.holdSlots_drm (c : Chip) : (c.holdSlots).drm = c.drm := rfl
@[simp] theorem Chip.holdSlots_wnc (c : Chip) : (c.holdSlots).wnc = c.wnc := rfl
@[simp] theorem Chip.holdSlots_lsq (c : Chip) : (c.holdSlots).lsq = c.lsq := rfl
@[simp] theorem Chip.holdSlots_btm (c : Chip) : (c.holdSlots).btm = c.btm := rfl
@[simp] theorem Chip.holdSlots_bga (c : Chip) : (c.holdSlots).bga = c.bga := rfl
@[simp] theorem Chip.holdSlots_alt (c : Chip) : (c.holdSlots).alt = c.alt := rfl
@[simp] theorem Chip.holdSlots_sup (c : Chip) : (c.holdSlots).sup = c.sup := rfl
@[simp] theorem Chip.holdSlots_rtx (c : Chip) : (c.holdSlots).rtx = c.rtx := rfl
@[simp] theorem Chip.holdSlots_atx (c : Chip) : (c.holdSlots).atx = c.atx := rfl
@[simp] theorem Chip.holdSlots_tbs (c : Chip) : (c.holdSlots).tbs = c.tbs := rfl
@[simp] theorem Chip.holdSlots_mdc (c : Chip) : (c.holdSlots).mdc = c.mdc := rfl

/-! `failsafeSlots` -/

@[simp] theorem Chip.failsafeSlots_now (c : Chip) : (c.failsafeSlots).now = c.now := rfl
@[simp] theorem Chip.failsafeSlots_spoolStart (c : Chip) : (c.failsafeSlots).spoolStart = c.spoolStart := rfl
@[simp] theorem Chip.failsafeSlots_held (c : Chip) : (c.failsafeSlots).held = c.held := rfl
@[simp] theorem Chip.failsafeSlots_tables (c : Chip) : (c.failsafeSlots).tables = c.tables := rfl
@[simp] theorem Chip.failsafeSlots_cdc (c : Chip) : (c.failsafeSlots).cdc = c.cdc := rfl
@[simp] theorem Chip.failsafeSlots_stm (c : Chip) : (c.failsafeSlots).stm = c.stm := rfl
@[simp] theorem Chip.failsafeSlots_drm (c : Chip) : (c.failsafeSlots).drm = c.drm := rfl
@[simp] theorem Chip.failsafeSlots_wnc (c : Chip) : (c.failsafeSlots).wnc = c.wnc := rfl
@[simp] theorem Chip.failsafeSlots_lsq (c : Chip) : (c.failsafeSlots).lsq = c.lsq := rfl
@[simp] theorem Chip.failsafeSlots_btm (c : Chip) : (c.failsafeSlots).btm = c.btm := rfl
@[simp] theorem Chip.failsafeSlots_bga (c : Chip) : (c.failsafeSlots).bga = c.bga := rfl
@[simp] theorem Chip.failsafeSlots_alt (c : Chip) : (c.failsafeSlots).alt = c.alt := rfl
@[simp] theorem Chip.failsafeSlots_sup (c : Chip) : (c.failsafeSlots).sup = c.sup := rfl
@[simp] theorem Chip.failsafeSlots_rtx (c : Chip) : (c.failsafeSlots).rtx = c.rtx := rfl
@[simp] theorem Chip.failsafeSlots_atx (c : Chip) : (c.failsafeSlots).atx = c.atx := rfl
@[simp] theorem Chip.failsafeSlots_tbs (c : Chip) : (c.failsafeSlots).tbs = c.tbs := rfl
@[simp] theorem Chip.failsafeSlots_mdc (c : Chip) : (c.failsafeSlots).mdc = c.mdc := rfl

/-! `enterHold` -/

@[simp] theorem Chip.enterHold_now (c : Chip) (o : List Taker) : (c.enterHold o).now = c.now :=
  (Chip.channelUpdate_now _ _ Chip.refreshStatus_now _).trans (by simp)
@[simp] theorem Chip.enterHold_spoolStart (c : Chip) (o : List Taker) : (c.enterHold o).spoolStart = c.spoolStart :=
  (Chip.channelUpdate_spoolStart _ _ Chip.refreshStatus_spoolStart _).trans (by simp)
@[simp] theorem Chip.enterHold_held (c : Chip) (o : List Taker) : (c.enterHold o).held = c.held :=
  (Chip.channelUpdate_held _ _ Chip.refreshStatus_held _).trans (by simp)
@[simp] theorem Chip.enterHold_tables (c : Chip) (o : List Taker) : (c.enterHold o).tables = c.tables :=
  (Chip.channelUpdate_tables _ _ Chip.refreshStatus_tables _).trans (by simp)
@[simp] theorem Chip.enterHold_bga (c : Chip) (o : List Taker) : (c.enterHold o).bga = c.bga :=
  (Chip.channelUpdate_bga _ _ Chip.refreshStatus_bga _).trans (by simp)
@[simp] theorem Chip.enterHold_sup (c : Chip) (o : List Taker) : (c.enterHold o).sup = c.sup :=
  (Chip.channelUpdate_sup _ _ Chip.refreshStatus_sup _).trans (by simp)
@[simp] theorem Chip.enterHold_tbs (c : Chip) (o : List Taker) : (c.enterHold o).tbs = c.tbs :=
  (Chip.channelUpdate_tbs _ _ Chip.refreshStatus_tbs _).trans (by simp)

/-! `enterFailsafe` -/

@[simp] theorem Chip.enterFailsafe_now (c : Chip) (o : List Taker) : (c.enterFailsafe o).now = c.now :=
  (Chip.channelUpdate_now _ _ Chip.refreshStatus_now _).trans (by simp)
@[simp] theorem Chip.enterFailsafe_spoolStart (c : Chip) (o : List Taker) : (c.enterFailsafe o).spoolStart = c.spoolStart :=
  (Chip.channelUpdate_spoolStart _ _ Chip.refreshStatus_spoolStart _).trans (by simp)
@[simp] theorem Chip.enterFailsafe_held (c : Chip) (o : List Taker) : (c.enterFailsafe o).held = c.held :=
  (Chip.channelUpdate_held _ _ Chip.refreshStatus_held _).trans (by simp)
@[simp] theorem Chip.enterFailsafe_tables (c : Chip) (o : List Taker) : (c.enterFailsafe o).tables = c.tables :=
  (Chip.channelUpdate_tables _ _ Chip.refreshStatus_tables _).trans (by simp)
@[simp] theorem Chip.enterFailsafe_bga (c : Chip) (o : List Taker) : (c.enterFailsafe o).bga = c.bga :=
  (Chip.channelUpdate_bga _ _ Chip.refreshStatus_bga _).trans (by simp)
@[simp] theorem Chip.enterFailsafe_sup (c : Chip) (o : List Taker) : (c.enterFailsafe o).sup = c.sup :=
  (Chip.channelUpdate_sup _ _ Chip.refreshStatus_sup _).trans (by simp)
@[simp] theorem Chip.enterFailsafe_tbs (c : Chip) (o : List Taker) : (c.enterFailsafe o).tbs = c.tbs :=
  (Chip.channelUpdate_tbs _ _ Chip.refreshStatus_tbs _).trans (by simp)

/-! `refreshed` -/

@[simp] theorem Chip.refreshed_now (c : Chip) (o : List Taker) : (c.refreshed o).now = c.now :=
  (Chip.channelUpdate_now _ _ Chip.refreshStatus_now _).trans (by simp)
@[simp] theorem Chip.refreshed_spoolStart (c : Chip) (o : List Taker) : (c.refreshed o).spoolStart = c.spoolStart :=
  (Chip.channelUpdate_spoolStart _ _ Chip.refreshStatus_spoolStart _).trans (by simp)
@[simp] theorem Chip.refreshed_held (c : Chip) (o : List Taker) : (c.refreshed o).held = c.held :=
  (Chip.channelUpdate_held _ _ Chip.refreshStatus_held _).trans (by simp)
@[simp] theorem Chip.refreshed_tables (c : Chip) (o : List Taker) : (c.refreshed o).tables = c.tables :=
  (Chip.channelUpdate_tables _ _ Chip.refreshStatus_tables _).trans (by simp)
@[simp] theorem Chip.refreshed_slots (c : Chip) (o : List Taker) : (c.refreshed o).slots = c.slots :=
  (Chip.channelUpdate_slots _ _ Chip.refreshStatus_slots _).trans (by simp)
@[simp] theorem Chip.refreshed_bga (c : Chip) (o : List Taker) : (c.refreshed o).bga = c.bga :=
  (Chip.channelUpdate_bga _ _ Chip.refreshStatus_bga _).trans (by simp)
@[simp] theorem Chip.refreshed_sup (c : Chip) (o : List Taker) : (c.refreshed o).sup = c.sup :=
  (Chip.channelUpdate_sup _ _ Chip.refreshStatus_sup _).trans (by simp)
@[simp] theorem Chip.refreshed_tbs (c : Chip) (o : List Taker) : (c.refreshed o).tbs = c.tbs :=
  (Chip.channelUpdate_tbs _ _ Chip.refreshStatus_tbs _).trans (by simp)

/-! `acceptControl` -/

@[simp] theorem Chip.acceptControl_now (c : Chip) (o : List Taker) (p : List Byte) : (c.acceptControl o p).now = c.now := by
  unfold Chip.acceptControl
  split
  · rfl
  · exact (Chip.channelUpdate_now _ _ Chip.countControl_now _).trans (by simp)
@[simp] theorem Chip.acceptControl_spoolStart (c : Chip) (o : List Taker) (p : List Byte) : (c.acceptControl o p).spoolStart = c.spoolStart := by
  unfold Chip.acceptControl
  split
  · rfl
  · exact (Chip.channelUpdate_spoolStart _ _ Chip.countControl_spoolStart _).trans (by simp)
@[simp] theorem Chip.acceptControl_held (c : Chip) (o : List Taker) (p : List Byte) : (c.acceptControl o p).held = c.held := by
  unfold Chip.acceptControl
  split
  · rfl
  · exact (Chip.channelUpdate_held _ _ Chip.countControl_held _).trans (by simp)
@[simp] theorem Chip.acceptControl_tables (c : Chip) (o : List Taker) (p : List Byte) : (c.acceptControl o p).tables = c.tables := by
  unfold Chip.acceptControl
  split
  · rfl
  · exact (Chip.channelUpdate_tables _ _ Chip.countControl_tables _).trans (by simp)
@[simp] theorem Chip.acceptControl_bga (c : Chip) (o : List Taker) (p : List Byte) : (c.acceptControl o p).bga = c.bga := by
  unfold Chip.acceptControl
  split
  · rfl
  · exact (Chip.channelUpdate_bga _ _ Chip.countControl_bga _).trans (by simp)
@[simp] theorem Chip.acceptControl_sup (c : Chip) (o : List Taker) (p : List Byte) : (c.acceptControl o p).sup = c.sup := by
  unfold Chip.acceptControl
  split
  · rfl
  · exact (Chip.channelUpdate_sup _ _ Chip.countControl_sup _).trans (by simp)
@[simp] theorem Chip.acceptControl_tbs (c : Chip) (o : List Taker) (p : List Byte) : (c.acceptControl o p).tbs = c.tbs := by
  unfold Chip.acceptControl
  split
  · rfl
  · exact (Chip.channelUpdate_tbs _ _ Chip.countControl_tbs _).trans (by simp)

@[simp] theorem Chip.acceptFrame_now (o : List Taker) (c : Chip) (fr : List Byte) : (Chip.acceptFrame o c fr).now = c.now := by
  cases fr with
  | nil => rfl
  | cons k p => simp only [Chip.acceptFrame]; split <;> simp
@[simp] theorem Chip.handOn_now (c : Chip) (o : List Taker) (r : Intake) : (c.handOn o r).now = c.now := by
  unfold Chip.handOn
  rw [foldl_keeps Chip.now _ (fun d fr => Chip.acceptFrame_now o d fr)]
@[simp] theorem Chip.acceptFrame_spoolStart (o : List Taker) (c : Chip) (fr : List Byte) : (Chip.acceptFrame o c fr).spoolStart = c.spoolStart := by
  cases fr with
  | nil => rfl
  | cons k p => simp only [Chip.acceptFrame]; split <;> simp
@[simp] theorem Chip.handOn_spoolStart (c : Chip) (o : List Taker) (r : Intake) : (c.handOn o r).spoolStart = c.spoolStart := by
  unfold Chip.handOn
  rw [foldl_keeps Chip.spoolStart _ (fun d fr => Chip.acceptFrame_spoolStart o d fr)]
@[simp] theorem Chip.acceptFrame_held (o : List Taker) (c : Chip) (fr : List Byte) : (Chip.acceptFrame o c fr).held = c.held := by
  cases fr with
  | nil => rfl
  | cons k p => simp only [Chip.acceptFrame]; split <;> simp
@[simp] theorem Chip.handOn_held (c : Chip) (o : List Taker) (r : Intake) : (c.handOn o r).held = c.held := by
  unfold Chip.handOn
  rw [foldl_keeps Chip.held _ (fun d fr => Chip.acceptFrame_held o d fr)]
@[simp] theorem Chip.acceptFrame_bga (o : List Taker) (c : Chip) (fr : List Byte) : (Chip.acceptFrame o c fr).bga = c.bga := by
  cases fr with
  | nil => rfl
  | cons k p => simp only [Chip.acceptFrame]; split <;> simp
@[simp] theorem Chip.handOn_bga (c : Chip) (o : List Taker) (r : Intake) : (c.handOn o r).bga = c.bga := by
  unfold Chip.handOn
  rw [foldl_keeps Chip.bga _ (fun d fr => Chip.acceptFrame_bga o d fr)]

end Sys2Proof.Machine
end

