-- ==== Sys2Proof/Laws/Steps.lean ====
section
/-! SUPPORT. What one step can do to the part, said once: the event rules of a running part, and a case principle over every
row of the table and the tick. -/

namespace Sys2Proof.Machine

/-- A running part, as the model's test and as the statements' condition. -/
theorem Chip.running_iff (c : Chip) : c.running = true ↔ c.Running := by
  simp [Chip.running, Chip.Running]

/-- An event of the running part. -/
theorem Chip.whenRunning_eq {c : Chip} (h : c.Running) (f : Chip → Chip) : c.whenRunning f = f c := by
  simp [Chip.whenRunning, c.running_iff.2 h]

/-- The event of a schedule that runs. -/
theorem Chip.whenDue_eq {c : Chip} (h : c.Running) {due : Nat} (f : Chip → Chip) :
    c.whenDue (some due) f = f { c with now := max c.now due } := by
  simp [Chip.whenDue, c.running_iff.2 h, Chip.atInstant]

/-- An event that needs the running part either leaves the part or is taken by a running part. -/
theorem Chip.whenRunning_ind {P : Chip → Prop} {c : Chip} {f : Chip → Chip} (same : P c) (acts : c.Running → P (f c)) :
    P (c.whenRunning f) := by
  by_cases h : c.Running
  · rw [c.whenRunning_eq h]; exact acts h
  · have : c.running = false := by simpa [← c.running_iff] using h
    simpa [Chip.whenRunning, this] using same

/-- The event of a schedule either leaves the part or is taken by a running part at a later instant. -/
theorem Chip.whenDue_ind {P : Chip → Prop} {c : Chip} {due : Option Nat} {f : Chip → Chip} (same : P c)
    (acts : ∀ d now, c.Running → due = some d → now = max c.now d → P (f { c with now := now })) : P (c.whenDue due f) := by
  by_cases h : c.Running
  · cases due with
    | none => simpa [Chip.whenDue] using same
    | some d => rw [c.whenDue_eq h]; exact acts d _ h rfl rfl
  · have : c.running = false := by simpa [← c.running_iff] using h
    simpa [Chip.whenDue, this] using same

/-- What one step can do to the part. -/
theorem step_cases {P : Chip → Prop} {q : List Instr} {c : Chip} {t : State} (h : step { pending := q, chip := c } = .next t) (same : P c) (tick : P c.tick)
    (handOn : ∀ b order, c.Running → P (c.handOn order (c.ulr.take b).1))
    (clearHunt : c.Running → P c.clearHunt)
    (control : ∀ order p, c.Running → P (c.clearHunt.acceptControl order p))
    (setupFrame : ∀ p, c.Running → P (c.clearHunt.acceptSetup p))
    (setup : ∀ p, c.Running → P (c.acceptSetup p))
    (hold : ∀ now order, c.Running → c.ulr.link = .live → P (({ c with now := now } : Chip).enterHold order))
    (failsafe : ∀ now order, c.Running → c.ulr.link = .hold →
      P (({ c with now := now } : Chip).enterFailsafe order))
    (refresh : ∀ now order, c.Running → c.ulr.refreshDue.isSome = true →
      P (({ c with now := now } : Chip).refreshed order))
    (arm : ∀ now, c.Running → P (({ c with now := now } : Chip).arm))
    (reversal : ∀ now a, c.Running → P (({ c with now := now } : Chip).endReversal a))
    (pulse : ∀ now next, c.Running →
      P { c with now := now, stm := c.stm.startPulse c.tables next })
    (pulseEnd : ∀ a, P { c with stm := c.stm.endPulse a })
    (spool : ∀ start, c.Running → P (c.spoolPulse start))
    (timebase : ∀ now, c.Running → P (({ c with now := now } : Chip).advanceTimebase))
    (brakeHold : ∀ now, c.Running → P (({ c with now := now } : Chip).stopBrakeHold.relight))
    (measurement : ∀ now r order, q.head? = some (.measurementCompletion r order) → c.Running → P (({ c with now := now } : Chip).measurement r order))
    (window : ∀ now, c.Running → P { c with now := now, btm := c.btm.endWindow })
    (foldback : ∀ now, c.Running → P { c with now := now, btm := { c.btm with foldback := none } })
    (dormant : ∀ now, c.Running → P (({ c with now := now } : Chip).enterDormant))
    (park : ∀ now, c.Running → P (({ c with now := now } : Chip).parkExpiry))
    (returnSent : c.Running → P c.returnSent)
    (accessorySent : c.Running → P { c with atx := c.atx.complete })
    (storeDone : ∀ now, c.Running → c.sup.store.isSome = true → P (({ c with now := now } : Chip).completeStore))
    (switches : ∀ mask value, c.Running → P (c.putSwitches mask value))
    (cold : P (c.resetTo .cold)) (warm : P (c.resetTo .warm))
    (release : ∀ bench, c.held.isSome = true → P (c.release bench)) : P t.chip := by
  have hs : ∀ code q ps, P (c.setupCommand code q ps) := fun _ _ _ => Chip.whenRunning_ind same (setup _)
  have hw : ∀ mask value, P (c.whenRunning fun c => c.putSwitches mask value) :=
    fun _ _ => Chip.whenRunning_ind same (switches _ _)
  cases q with
  | nil => obtain rfl := Host.Outcome.next.inj h; exact tick
  | cons i rest =>
    cases i <;> obtain rfl := Host.Outcome.next.inj h <;> dsimp only [State.onChip]
    case controlFrameAccepted =>
      exact Chip.whenRunning_ind same fun hr => control _ _ hr
    case setupFrameAccepted =>
      exact Chip.whenRunning_ind same fun hr => setupFrame _ hr
    case uplinkByteTaken =>
      exact Chip.whenRunning_ind same fun hr => handOn _ _ hr
    case candidateDiscarded =>
      refine Chip.whenRunning_ind same fun hr => ?_
      split
      · exact handOn _ _ hr
      · exact same
    case faultedCharacter =>
      exact Chip.whenRunning_ind same clearHunt
    case entryIntoHold =>
      show P (if c.ulr.link = .live then _ else c)
      split
      · exact Chip.whenDue_ind same fun _ _ hr _ _ => hold _ _ hr ‹_›
      · exact same
    case entryIntoFailsafe =>
      show P (if c.ulr.link = .hold then _ else c)
      split
      · exact Chip.whenDue_ind same fun _ _ hr _ _ => failsafe _ _ hr ‹_›
      · exact same
    case refresh =>
      exact Chip.whenDue_ind same fun _ _ hr hd _ => refresh _ _ hr (by simp [hd])
    case armingTimerExpiry =>
      exact Chip.whenDue_ind same fun _ _ hr _ _ => arm _ hr
    case reverseDelayExpiry =>
      exact Chip.whenDue_ind same fun _ _ hr _ _ => reversal _ _ hr
    case pulseStart =>
      exact Chip.whenDue_ind same fun _ _ hr _ _ => pulse _ _ hr
    case servoPulseEnd => exact pulseEnd _
    case spoolPulse =>
      refine Chip.whenRunning_ind same fun hr => ?_
      split
      · exact spool _ hr
      · exact same
    case lightTimebaseEvent =>
      exact Chip.whenDue_ind same fun _ _ hr _ _ => timebase _ hr
    case brakeHoldExpiry =>
      exact Chip.whenDue_ind same fun _ _ hr _ _ => brakeHold _ hr
    case measurementCompletion =>
      exact Chip.whenDue_ind same fun _ _ hr _ _ => measurement _ _ _ rfl hr
    case endOfStartUpWindow =>
      exact Chip.whenDue_ind same fun _ _ hr _ _ => window _ hr
    case foldbackTimerExpiry =>
      exact Chip.whenDue_ind same fun _ _ hr _ _ => foldback _ hr
    case cutoffTimerExpiry =>
      exact Chip.whenDue_ind same fun _ _ hr _ _ => dormant _ hr
    case parkTimerExpiry =>
      exact Chip.whenDue_ind same fun _ _ hr _ _ => park _ hr
    case returnTransmitCompletion =>
      exact Chip.whenRunning_ind same returnSent
    case accessoryTransmitCompletion =>
      refine Chip.whenRunning_ind same fun hr => ?_
      split
      · exact accessorySent hr
      · exact same
    case storeCompletion =>
      refine Chip.whenDue_ind same fun d _ hr hd _ => storeDone _ hr ?_
      cases hst : c.sup.store <;> simp_all
    case coldReset => exact cold
    case warmReset =>
      show P (if c.held = some .cold then c else c.resetTo .warm)
      split
      · exact same
      · exact warm
    case resetRelease =>
      show P (if c.held.isSome then _ else c)
      split
      · exact release _ ‹_›
      · exact same
    all_goals first | exact hs _ _ _ | exact hw _ _

end Sys2Proof.Machine
end

