-- ==== Sys2Proof/Laws/Alerts.lean ====
section
/-! SUPPORT. The alert latches: what each operation makes of a latch and of a cause flag, and that it keeps them legal. -/

namespace Sys2Proof.Machine

/-- The bit of one alert's mask at another's place. -/
theorem Alert.getLsbD_mask (a b : Alert) : a.mask.getLsbD (b.code - 1) = decide (a = b) := by
  cases a <;> cases b <;> decide

/-- An alert's place among the latches. -/
theorem Alert.code_lt (a : Alert) : a.code - 1 < 12 := by cases a <;> decide

/-- The latches after a raise. -/
theorem Alt.has_raise (t : Alt) (a b : Alert) : (t.raise a).has b = (t.has b || decide (a = b)) := by
  simp [Alt.has, Alt.raise, Alert.getLsbD_mask]

/-- The latches after a cause report. -/
theorem Alt.has_cause (t : Alt) (a b : Alert) (h : Bool) : (t.cause a h).has b = (t.has b || (h && decide (a = b))) := by
  cases h <;> simp [Alt.has, Alt.cause, Alert.getLsbD_mask]

/-- The cause flags after a cause report. -/
theorem Alt.caused_cause (t : Alt) (a b : Alert) (h : Bool) : (t.cause a h).caused b = if a = b then h else t.caused b := by
  cases h
  · show (t.causes &&& ~~~a.mask).getLsbD (b.code - 1) = _
    rw [BitVec.getLsbD_and, BitVec.getLsbD_not, Alert.getLsbD_mask]
    by_cases hab : a = b <;> simp [hab, Alert.code_lt, Alt.caused]
  · show (t.causes ||| a.mask).getLsbD (b.code - 1) = _
    rw [BitVec.getLsbD_or, Alert.getLsbD_mask]
    by_cases hab : a = b <;> simp [hab, Alt.caused]

/-- The latches after a clear. -/
theorem Alt.has_clear (t : Alt) (a b : Alert) : (t.clear a).has b = (t.has b && !decide (a = b)) := by
  show (t.latched &&& ~~~a.mask).getLsbD (b.code - 1) = _
  rw [BitVec.getLsbD_and, BitVec.getLsbD_not, Alert.getLsbD_mask]
  by_cases hab : a = b <;> simp [hab, Alert.code_lt, Alt.has]

/-- A raise of another alert than SETUP_FAULT keeps the latches legal. -/
theorem Alt.ok_raise {t : Alt} (h : t.Ok) (a : Alert) (ha : a ≠ .setupFault) : (t.raise a).Ok := by
  refine ⟨fun b hb => ⟨(h.1 b hb).1, ?_⟩, ?_⟩
  · rw [Alt.has_raise, (h.1 b hb).2]; rfl
  · rw [Alt.has_raise]; simpa [ha, Alt.raise] using h.2

/-- A cause report of a condition alert keeps the latches legal. -/
theorem Alt.ok_cause {t : Alt} (h : t.Ok) (a : Alert) (ha : a.isCondition = true) (b : Bool) : (t.cause a b).Ok := by
  have hs : a ≠ .setupFault := by rintro rfl; simp [Alert.isCondition] at ha
  have hf : (t.cause a b).fault = t.fault := by cases b <;> rfl
  refine ⟨fun x hx => ?_, ?_⟩
  · rw [Alt.caused_cause] at hx
    rw [Alt.has_cause]
    split at hx
    · rename_i e; subst e; simp [hx, ha]
    · simp [(h.1 x hx)]
  · rw [Alt.has_cause, hf]; simpa [hs] using h.2

/-- SETUP_FAULT keeps the latches legal. -/
theorem Alt.ok_setupFault {t : Alt} (h : t.Ok) (k : Fin 16) (r : FaultReason) : (t.setupFault k r).Ok := by
  have hh : ∀ b, (t.setupFault k r).has b = (t.raise .setupFault).has b := fun _ => rfl
  refine ⟨fun b hb => ⟨(h.1 b hb).1, ?_⟩, ?_⟩
  · rw [hh, Alt.has_raise, (h.1 b hb).2]; rfl
  · rw [hh, Alt.has_raise]; simp [Alt.setupFault]

/-- An acknowledge keeps the latches legal. -/
theorem Alt.ok_ack {t : Alt} (h : t.Ok) (a : Alert) : (t.ack a).1.Ok := by
  unfold Alt.ack
  split
  · exact h
  split
  · exact h
  · rename_i h1 h2
    have hc : t.caused a = false := by
      by_contra hn
      have hn : t.caused a = true := by simpa using hn
      simp [Alt.retains, hn, (h.1 a hn).1] at h2
    refine ⟨fun b hb => ?_, ?_⟩
    · have hb' : t.caused b = true := hb
      refine ⟨(h.1 b hb').1, ?_⟩
      rw [Alt.has_clear, (h.1 b hb').2]
      have : a ≠ b := by rintro rfl; simp [hc] at hb'
      simp [this]
    · rw [Alt.has_clear]
      by_cases e : a = .setupFault
      · simp [Alt.clear, e]
      · simpa [Alt.clear, e] using h.2

/-- An acknowledge of all keeps the latches legal. -/
theorem Alt.ok_ackAll {t : Alt} (h : t.Ok) : t.ackAll.1.Ok := by
  show (Alert.all.foldl (fun u a => (u.ack a).1) t).Ok
  generalize Alert.all = l
  induction l generalizing t with
  | nil => exact h
  | cons a l ih => exact ih (Alt.ok_ack h a)

/-- The battery causes keep the latches legal. -/
theorem Alt.ok_battery {t : Alt} (h : t.Ok) (l : Level) (f tr : Bool) : (t.battery l f tr).Ok := by
  unfold Alt.battery
  refine Alt.ok_cause (Alt.ok_cause (Alt.ok_cause (Alt.ok_cause ?_ _ rfl _) _ rfl _) _ rfl _) _ rfl _
  cases tr
  · exact h
  · exact Alt.ok_raise h _ (by decide)

/-- What a switch write's alert, a winch record's cause and every other report do to ALT. -/
@[simp] theorem Chip.alert_alt (c : Chip) (f : Alt → Alt) : (c.alert f).alt = f c.alt := rfl

/-! ### The alerts of an evaluation completion (R142, R163) -/

/-- The latches after ALT has taken the level, the capacity force and a trip. -/
theorem Alt.has_battery (t : Alt) (l : Level) (f tr : Bool) (a : Alert) : (t.battery l f tr).has a = true ↔
    t.has a = true ∨ a = .overcurrent ∧ tr = true ∨ a = .battLow ∧ 1 ≤ l.severity ∨ a = .battCritical ∧ 2 ≤ l.severity
      ∨ a = .battCutoff ∧ l = .cutoff ∨ a = .capacity ∧ f = true := by
  unfold Alt.battery
  simp only [Alt.has_cause]
  cases tr
  · simp only [Bool.false_eq_true, if_false, Bool.or_eq_true, Bool.and_eq_true, decide_eq_true_eq]
    cases a <;> simp
  · simp only [if_true, Alt.has_raise, Bool.or_eq_true, Bool.and_eq_true, decide_eq_true_eq]
    cases a <;> simp

/-- The cause flags after it: those of the level and of the capacity force, and the others as they were. -/
theorem Alt.caused_battery (t : Alt) (l : Level) (f tr : Bool) (a : Alert) : (t.battery l f tr).caused a = true ↔
    (a = .battLow ∧ l ≠ .normal ∨ a = .battCritical ∧ (l = .critical ∨ l = .cutoff) ∨ a = .battCutoff ∧ l = .cutoff
        ∨ a = .capacity ∧ f = true)
      ∨ ¬(a = .battLow ∨ a = .battCritical ∨ a = .battCutoff ∨ a = .capacity) ∧ t.caused a = true := by
  unfold Alt.battery
  simp only [Alt.caused_cause]
  have : ∀ u : Alt, (if tr then u.raise .overcurrent else u).caused a = u.caused a := by intro u; cases tr <;> rfl
  rw [this]
  cases a <;> cases l <;> simp [Level.severity]

end Sys2Proof.Machine
end

