-- ==== Sys2Proof/Laws/Budget.lean ====
section
/-! SUPPORT. The division of the budget (R154, R155), and the scaling of a class to its grant (R75, R101, R126). -/

namespace Sys2Proof.Machine

/-- Three floored shares of A by weight stay within A. -/
theorem sum_floor (a w1 w2 w3 : Nat) : a * w1 / (w1 + w2 + w3) + a * w2 / (w1 + w2 + w3) + a * w3 / (w1 + w2 + w3) ≤ a := by
  rcases Nat.eq_zero_or_pos (w1 + w2 + w3) with h | h
  · rw [h]; simp
  · have e : ∀ x y n : Nat, x / n + y / n ≤ (x + y) / n := fun _ _ _ => Nat.div_add_div_le_add_div ..
    have h1 := e (a * w1) (a * w2) (w1 + w2 + w3)
    have h2 := e (a * w1 + a * w2) (a * w3) (w1 + w2 + w3)
    have h3 : (a * w1 + a * w2 + a * w3) / (w1 + w2 + w3) = a := by
      rw [← Nat.mul_add, ← Nat.mul_add]; exact Nat.mul_div_cancel _ h
    omega

/-- The shares of a round stay within A. -/
theorem shares_total_le (a : Nat) (w : Shares) (s : Members) : ((sharesOf a w s).within s).total ≤ a := by
  have := sum_floor a (if s.drive then w.drive else 0) (if s.winch then w.winch else 0) (if s.lights then w.lights else 0)
  simp only [sharesOf, Shares.within, Shares.total] at *
  rcases s with ⟨s1, s2, s3⟩
  cases s1 <;> cases s2 <;> cases s3 <;> simp_all

/-- The demands of those who leave a round stay within A. -/
theorem leavers_le (a : Nat) (d w : Shares) (s : Members) : (d.within (leaversOf d (sharesOf a w s) s)).total ≤ a := by
  have h := shares_total_le a w s
  refine Nat.le_trans ?_ h
  rcases s with ⟨s1, s2, s3⟩
  simp only [leaversOf, Shares.within, Shares.total]
  cases s1 <;> cases s2 <;> cases s3 <;> simp <;> (repeat' split) <;> omega

/-- The total of two grants together. -/
theorem Shares.total_plus (x y : Shares) : (x.plus y).total = x.total + y.total := by
  simp [Shares.plus, Shares.total]; omega

/-- The rounds grant at most A. -/
theorem rounds_le (d w : Shares) (n : Nat) : ∀ (a : Nat) (s : Members), (rounds d w n a s).total ≤ a := by
  induction n with
  | zero => intro a s; simp [rounds, Shares.total]
  | succ n ih =>
    intro a s
    simp only [rounds]
    split
    · exact shares_total_le a w s
    · rw [Shares.total_plus]
      have h1 := leavers_le a d w s
      have h2 := ih (a - (d.within (leaversOf d (sharesOf a w s) s)).total) (s.without (leaversOf d (sharesOf a w s) s))
      omega

/-- A division grants at most A. -/
theorem divideBudget_le (a : Nat) (d w : Shares) : (divideBudget a d w).total ≤ a := by
  unfold divideBudget; split
  · assumption
  · exact rounds_le _ _ _ _ _

/-- A division keeps the four grants within the budget in force. -/
theorem Chip.bok_division (c : Chip) (b : Nat) (l : Level) : (c.division b l).Ok := by
  unfold Chip.division Bga.Ok
  dsimp only
  have h := divideBudget_le (b - c.steerGrant b) c.demands (c.weights l)
  have h2 : c.steerGrant b ≤ b := by unfold Chip.steerGrant; split <;> omega
  unfold Shares.total at h
  omega

/-! ### Scaling -/

/-- Scaling never raises a value. -/
theorem scaleTo_le (g d x : Nat) : scaleTo g d x ≤ x := by
  unfold scaleTo
  split
  · exact Nat.le_refl _
  · rename_i h
    have hd : 0 < d := by omega
    have hk : g * 1000 / d ≤ 1000 := by
      apply Nat.le_of_lt_succ
      rw [Nat.div_lt_iff_lt_mul hd]; nlinarith
    calc x * (g * 1000 / d) / 1000 ≤ x * 1000 / 1000 := Nat.div_le_div_right (Nat.mul_le_mul_left x hk)
      _ = x := Nat.mul_div_cancel _ (by omega)

/-- A scaled value stays within its part of the grant, unless the demand fits. -/
theorem scaleTo_mul (g d x : Nat) : scaleTo g d x * (1000 * d) ≤ x * g * 1000 ∨ d ≤ g := by
  unfold scaleTo
  split
  · right; assumption
  · left
    rename_i h
    have hd : 0 < d := by omega
    have h1 : g * 1000 / d * d ≤ g * 1000 := Nat.div_mul_le_self _ _
    have h2 : x * (g * 1000 / d) / 1000 * 1000 ≤ x * (g * 1000 / d) := Nat.div_mul_le_self _ _
    calc x * (g * 1000 / d) / 1000 * (1000 * d) = (x * (g * 1000 / d) / 1000 * 1000) * d := by ring
      _ ≤ x * (g * 1000 / d) * d := Nat.mul_le_mul_right _ h2
      _ = x * (g * 1000 / d * d) := by ring
      _ ≤ x * (g * 1000) := Nat.mul_le_mul_left _ h1
      _ = x * g * 1000 := by ring

/-- Two values scaled together stay within the grant. -/
theorem scaleTo_pair_le (g d x y p q : Nat) (h : d = x * p + y * q) : scaleTo g d x * p + scaleTo g d y * q ≤ g := by
  by_cases hg : d ≤ g
  · simp only [scaleTo, if_pos hg]; omega
  · have h1 := (scaleTo_mul g d x).resolve_right hg
    have h2 := (scaleTo_mul g d y).resolve_right hg
    have hd : 0 < d := by omega
    have : (scaleTo g d x * p + scaleTo g d y * q) * (1000 * d) ≤ g * (1000 * d) := by
      calc (scaleTo g d x * p + scaleTo g d y * q) * (1000 * d) = scaleTo g d x * (1000 * d) * p + scaleTo g d y * (1000 * d) * q := by ring
        _ ≤ x * g * 1000 * p + y * g * 1000 * q := Nat.add_le_add (Nat.mul_le_mul_right _ h1) (Nat.mul_le_mul_right _ h2)
        _ = g * (1000 * (x * p + y * q)) := by ring
        _ = g * (1000 * d) := by rw [← h]
    exact Nat.le_of_mul_le_mul_right this (by omega)

end Sys2Proof.Machine
end

