-- ==== Sys2Proof/Laws/Commands.lean ====
section
/-! SUPPORT. What a setup command row does when SUP is ready, by the answer it gives. -/

namespace Sys2Proof.Machine

/-! ### The three shapes of an answer -/

/-- A command that is carried out: its effect, and its reply. -/
theorem Chip.command_answer {c : Chip} (h : c.Ready) {code : Nat} (hc : code < 16) (q : Byte) {ps : List Byte} (hp : ps.length ≤ 61)
    {a : Answer} (ha : c.carryOut (setupPayload c.tables.link.unitAddress.val code q ps) = a) (hr : a.chip.rtx = c.rtx) (hs : a.status.code < 4) :
    c.setupCommand code q ps = { a.chip with rtx := c.withReply code a.status a.data } := by
  rw [Chip.setupCommand_ready h hc q hp, ha, Answer.give_setupPayload _ c.tables.link.unitAddress.isLt hc]
  have h1 : a.status.refused = false := by simp [Status.refused]; omega
  have h2 : a.status.carriesData = true := by simp [Status.carriesData]; omega
  have h3 : a.chip.faultIfRefused ⟨code, hc⟩ a.status = a.chip := by simp [Chip.faultIfRefused, h1]
  rw [h3, h2, hr]
  rfl

/-- A command that is refused. -/
theorem Chip.command_refused {c : Chip} (h : c.Ready) {code : Nat} (hc : code < 16) (q : Byte) {ps : List Byte} (hp : ps.length ≤ 61)
    {st : Status} (ha : (c.carryOut (setupPayload c.tables.link.unitAddress.val code q ps)) = { chip := c, status := st, data := [] }) (hs : 5 ≤ st.code) :
    c.setupCommand code q ps = c.refusedAs ⟨code, hc⟩ st := by
  rw [Chip.setupCommand_ready h hc q hp, ha, Answer.give_setupPayload _ c.tables.link.unitAddress.isLt hc]
  have h1 : st.refused = true := by simp [Status.refused]; omega
  have h2 : st.carriesData = false := by simp [Status.carriesData]; omega
  have h3 : c.faultIfRefused ⟨code, hc⟩ st = c.setupFault ⟨code, hc⟩ (.refused st) := by simp [Chip.faultIfRefused, h1]
  dsimp only
  rw [h3, h2]
  rfl

/-- A command answered BUSY. -/
theorem Chip.command_busy {c : Chip} (h : c.Ready) {code : Nat} (hc : code < 16) (q : Byte) {ps : List Byte} (hp : ps.length ≤ 61)
    (ha : (c.carryOut (setupPayload c.tables.link.unitAddress.val code q ps)) = { chip := c, status := .busy, data := [] }) :
    c.setupCommand code q ps = c.answered code .busy [] := by
  rw [Chip.setupCommand_ready h hc q hp, ha, Answer.give_setupPayload _ c.tables.link.unitAddress.isLt hc]
  rfl

/-- A command under its checks: the first that fails decides (R181). -/
theorem Chip.command_checked {c : Chip} (h : c.Ready) {code : Nat} (hc : code < 16) (q : Byte) {ps : List Byte} (hp : ps.length ≤ 61)
    {checks : List (Bool × Status)} {go : Answer}
    (ha : (c.carryOut (setupPayload c.tables.link.unitAddress.val code q ps)) = c.checked checks go)
    (hl : ∀ x ∈ checks, x.2 = .busy ∨ 5 ≤ x.2.code) (hr : go.chip.rtx = c.rtx) (hs : go.status.code < 4) :
    c.setupCommand code q ps = c.underChecks ⟨code, hc⟩ checks { go.chip with rtx := c.withReply code go.status go.data } := by
  unfold Chip.checked at ha
  unfold Chip.underChecks
  cases hf : firstFailure checks with
  | none => rw [hf] at ha; exact Chip.command_answer h hc q hp ha hr hs
  | some st =>
    rw [hf] at ha
    have hst : st = .busy ∨ 5 ≤ st.code := by
      clear ha
      induction checks with
      | nil => simp [firstFailure] at hf
      | cons x xs ih =>
        obtain ⟨b, s⟩ := x
        cases b
        · simp [firstFailure] at hf; subst hf; exact hl (false, s) (List.mem_cons_self ..)
        · exact ih (fun x hx => hl x (List.mem_cons_of_mem _ hx)) (by simpa [firstFailure] using hf)
    rcases hst with rfl | hst
    · exact Chip.command_busy h hc q hp ha
    · cases st
      case busy => simp [Status.code] at hst
      all_goals exact Chip.command_refused h hc q hp ha hst

/-- Checks that fail alike decide alike. -/
theorem Chip.underChecks_congr {c : Chip} {code : Fin 16} {l l' : List (Bool × Status)} {x y : Chip} (h1 : firstFailure l = firstFailure l') (h2 : x = y) : c.underChecks code l x = c.underChecks code l' y := by
  unfold Chip.underChecks; rw [h1, h2]

/-- The command of a setup payload, by its code. -/
theorem Chip.carryOut_setup (c : Chip) (n : Nat) (hn : n < 16) (q : Byte) (ps : List Byte) :
    c.carryOut (setupPayload c.tables.link.unitAddress.val n q ps) =
    match (generalizing := false) n with
    | 0 => c.doIdentify (setupPayload c.tables.link.unitAddress.val n q ps)
    | 1 => c.doReadTable (setupPayload c.tables.link.unitAddress.val n q ps)
    | 2 => c.doWriteTable (setupPayload c.tables.link.unitAddress.val n q ps)
    | 3 => c.doReadSwitches (setupPayload c.tables.link.unitAddress.val n q ps)
    | 4 => c.doWriteSwitches (setupPayload c.tables.link.unitAddress.val n q ps)
    | 5 => c.doSetSwitch (setupPayload c.tables.link.unitAddress.val n q ps)
    | 6 => c.doClearSwitch (setupPayload c.tables.link.unitAddress.val n q ps)
    | 7 => c.doCapture (setupPayload c.tables.link.unitAddress.val n q ps)
    | 8 => c.doWinchRun (setupPayload c.tables.link.unitAddress.val n q ps)
    | 9 => c.doWinchStop (setupPayload c.tables.link.unitAddress.val n q ps)
    | 10 => c.doWinchZero (setupPayload c.tables.link.unitAddress.val n q ps)
    | 11 => c.doWinchFree (setupPayload c.tables.link.unitAddress.val n q ps)
    | 12 => c.doAckAlert (setupPayload c.tables.link.unitAddress.val n q ps)
    | 13 => c.doStoreGroup (setupPayload c.tables.link.unitAddress.val n q ps)
    | 14 => c.doSoftRestart (setupPayload c.tables.link.unitAddress.val n q ps)
    | _ => c.doUnassigned := by
  have h : (codeOf (setupPayload c.tables.link.unitAddress.val n q ps)).val = n := by
    rw [codeOf_setupPayload c.tables.link.unitAddress.isLt hn]
  unfold Chip.carryOut
  rw [h]
  all_goals
    clear h
    have : n = 0 ∨ n = 1 ∨ n = 2 ∨ n = 3 ∨ n = 4 ∨ n = 5 ∨ n = 6 ∨ n = 7 ∨ n = 8 ∨ n = 9 ∨ n = 10 ∨ n = 11 ∨ n = 12 ∨ n = 13 ∨ n = 14 ∨ n = 15 := by omega
    rcases this with rfl | rfl | rfl | rfl | rfl | rfl | rfl | rfl | rfl | rfl | rfl | rfl | rfl | rfl | rfl | rfl <;> rfl

/-- A row that changes the part by a function, with the part it gives. -/
theorem next_congr {s : State} {f : Chip → Chip} {d : Chip} (h : f s.chip = d) : Host.Outcome.next (s.onChip f) = (.next { s with chip := d } : Host.Outcome State Fault Refusal) := by
  subst h; rfl

/-- The length check of a setup payload is one of its parameters. -/
theorem lengthIs_setup (unit code : Nat) (q : Byte) (ps : List Byte) (n : Nat) :
    lengthIs (setupPayload unit code q ps) (n + 2) = (decide (ps.length = n), .refusedLength) := by
  simp [lengthIs]

/-- The first parameter byte. -/
theorem byteAt_param0 (unit code : Nat) (q : Byte) (ps : List Byte) : byteAt (setupPayload unit code q ps) 2 = byteAt ps 0 := byteAt_setupPayload_param unit code q ps 0

/-- A command whose first failing check is a refusal. -/
theorem Chip.checked_refused {c : Chip} (h : c.Ready) {code : Nat} (hc : code < 16) (q : Byte) {ps : List Byte} (hp : ps.length ≤ 61)
    {checks : List (Bool × Status)} {go : Answer} {st : Status}
    (ha : (c.carryOut (setupPayload c.tables.link.unitAddress.val code q ps)) = c.checked checks go) (hf : firstFailure checks = some st) (hs : 5 ≤ st.code) :
    c.setupCommand code q ps = c.refusedAs ⟨code, hc⟩ st := by
  refine Chip.command_refused h hc q hp ?_ hs
  rw [ha]; simp [Chip.checked, hf]

/-- A byte written as a number is itself. -/
theorem byteOf_toNat (b : Byte) : byteOf b.toNat = [b] := by simp [byteOf]

/-! ### Tables and switches -/

/-- The tables after a replacement. -/
@[simp] theorem Chip.setTables_tables (c : Chip) (t : Tables) (p : Vector Bool 5) (w : Bool) : (c.setTables t p w).tables = t := by
  unfold Chip.setTables; dsimp only; split <;> simp [Chip.winchReconfigure]

/-- The decode after a replacement: only ordered flags change. -/
@[simp] theorem Chip.setTables_cdc (c : Chip) (t : Tables) (p : Vector Bool 5) (w : Bool) :
    (c.setTables t p w).cdc = c.cdc.forget p := by
  unfold Chip.setTables; dsimp only; split <;> simp [Chip.winchReconfigure]

/-- SUP after a switch write: the merged bits. -/
theorem Chip.putSwitches_sup (c : Chip) (m v : BitVec 32) :
    (c.putSwitches m v).sup = { c.sup with switches := mergeSwitches c.sup.switches m v } := by
  simp [Chip.putSwitches]

end Sys2Proof.Machine
end

