-- ==== Sys2Proof/Laws/Drive.lean ====
section
/-! SUPPORT. The drive: what handling the axles makes of the mixer's record. -/

namespace Sys2Proof.Machine

/-- The mixer's record after it has taken its place. -/
@[simp] theorem Chip.setDrive_drm (c : Chip) (d : Drm) : (c.setDrive d).drm = d := rfl

/-- The direction of a zero request. -/
theorem AxleState.ofRequest_zero : AxleState.ofRequest 0 = .idle := rfl

/-- A driving axle is in a state of an ARMED drive. -/
theorem AxleState.driving_armedOnly {x : AxleState} (h : x.driving = true) : x.armedOnly = true := by
  cases x <;> simp_all [AxleState.driving, AxleState.armedOnly]

/-- A zero request drives no axle. -/
theorem AxleRec.follow_zero (r : AxleRec) (now delay : Nat) : (r.follow now delay 0).state.driving = false := by
  unfold AxleRec.follow
  cases h : r.state with
  | reversing =>
    cases r.left with
    | none => simp [h, AxleState.driving]
    | some d => cases d <;> simp [h, AxleState.driving]
  | _ => simp [AxleRec.rest, AxleState.ofRequest, AxleState.driving]

/-- Rows 4 and 5 of R67 need an ARMED drive. -/
theorem Chip.axleNext_armedOnly {c : Chip} {d : Drm} {a : Axle} (h : (c.axleNext d a).state.armedOnly = true) : d.arming = .armed := by
  unfold Chip.axleNext at h
  by_contra hn
  simp only [hn, ne_eq, not_false_eq_true, if_true] at h
  split at h
  · simp [AxleRec.rest, AxleState.armedOnly] at h
  · split at h <;> simp [AxleRec.rest, AxleState.armedOnly] at h

/-- A zero request drives no axle, whatever row of R67 holds. -/
theorem Chip.axleNext_zero {c : Chip} {d : Drm} {a : Axle} (h : d.axleRequest = 0) : (c.axleNext d a).state.driving = false := by
  unfold Chip.axleNext
  dsimp only
  split
  · rfl
  split
  · rfl
  split
  · rfl
  split
  · rfl
  rw [h]; exact AxleRec.follow_zero _ _ _

/-- The state of an axle after it has been handled. -/
theorem Chip.handleAxles_state (c : Chip) (d : Drm) (a : Axle) : ((c.handleAxles d).drm.axle a).state = (c.axleNext d a).state := by
  cases a <;> rfl

/-- Handling the axles leaves the arming state. -/
@[simp] theorem Chip.handleAxles_arming (c : Chip) (d : Drm) : (c.handleAxles d).drm.arming = d.arming := rfl

/-- Handling the axles leaves the axle request. -/
@[simp] theorem Chip.handleAxles_axleRequest (c : Chip) (d : Drm) : (c.handleAxles d).drm.axleRequest = d.axleRequest := rfl

/-- Handling the axles leaves the command. -/
@[simp] theorem Chip.handleAxles_command (c : Chip) (d : Drm) : (c.handleAxles d).drm.command = d.command := rfl

/-- Handling the axles leaves the drive mode. -/
@[simp] theorem Chip.handleAxles_mode (c : Chip) (d : Drm) : (c.handleAxles d).drm.mode = d.mode := rfl

/-- Handling the axles leaves the arming timer. -/
@[simp] theorem Chip.handleAxles_armTimer (c : Chip) (d : Drm) : (c.handleAxles d).drm.armTimer = d.armTimer := rfl

/-- Handling the axles leaves the request. -/
@[simp] theorem Chip.handleAxles_request (c : Chip) (d : Drm) : (c.handleAxles d).drm.request = d.request := rfl

/-- Handling the axles leaves the held grant. -/
@[simp] theorem Chip.handleAxles_grant (c : Chip) (d : Drm) : (c.handleAxles d).drm.grant = d.grant := rfl

/-- The record an axle is given, with its duties. -/
theorem Chip.handleAxles_drm (c : Chip) (d : Drm) :
    (c.handleAxles d).drm = ({ d with front := c.axleNext d .front, rear := c.axleNext d .rear } : Drm).settle
      c.tables.driveCfg c.profile.dragBrake := rfl

/-- A cap change leaves everything of the mixer but the axle request and what follows from it. -/
theorem Chip.recapIf_drm (c : Chip) (e : Bool) :
    (c.recapIf e).drm.command = c.drm.command ∧ (c.recapIf e).drm.mode = c.drm.mode
      ∧ (c.recapIf e).drm.arming = c.drm.arming ∧ (c.recapIf e).drm.armTimer = c.drm.armTimer
      ∧ (c.recapIf e).drm.request = c.drm.request ∧ (c.recapIf e).drm.grant = c.drm.grant := by
  unfold Chip.recapIf
  split
  · exact ⟨rfl, rfl, rfl, rfl, rfl, rfl⟩
  · exact ⟨rfl, rfl, rfl, rfl, rfl, rfl⟩

/-- Outside ACTIVE a cap change does nothing. -/
theorem Chip.recapIf_inactive {c : Chip} (h : c.mdc.mode ≠ .active) (e : Bool) : c.recapIf e = c := by
  unfold Chip.recapIf; simp [h]

end Sys2Proof.Machine
end

