-- ==== Sys2Proof/Laws/Winch.lean ====
section
/-! SUPPORT. The winch: what a new record changes beside itself, and that every operation keeps the record legal. -/

namespace Sys2Proof.Machine

/-- The record after it has taken its place. -/
@[simp] theorem Chip.setWinch_wnc (c : Chip) (w : Winch) : (c.setWinch w).wnc = w.settle c.tables.winchCfg := by
  simp [Chip.setWinch]

/-- ALT after a new winch record: the cause of WINCH_STALL. -/
@[simp] theorem Chip.setWinch_alt (c : Chip) (w : Winch) :
    (c.setWinch w).alt = c.alt.cause .winchStall (decide (w.state = .stalled)) := by
  simp [Chip.setWinch, Chip.alert]

/-- The mixer after a new winch record: untouched while driven stays driven, and not driven stays not driven. -/
theorem Chip.setWinch_drm_same {c : Chip} {w : Winch} (h : w.state.driven = c.wnc.state.driven) :
    (c.setWinch w).drm = c.drm := by
  simp [Chip.setWinch, Chip.recapIf, h]

/-- The mixer after a new winch record outside ACTIVE. -/
theorem Chip.setWinch_drm_inactive {c : Chip} (h : c.mdc.mode ≠ .active) (w : Winch) : (c.setWinch w).drm = c.drm := by
  simp [Chip.setWinch, Chip.recapIf, h]

/-- What of the mixer a new winch record leaves. -/
theorem Chip.setWinch_drm (c : Chip) (w : Winch) :
    (c.setWinch w).drm.command = c.drm.command ∧ (c.setWinch w).drm.mode = c.drm.mode
      ∧ (c.setWinch w).drm.arming = c.drm.arming ∧ (c.setWinch w).drm.armTimer = c.drm.armTimer
      ∧ (c.setWinch w).drm.request = c.drm.request ∧ (c.setWinch w).drm.grant = c.drm.grant := by
  unfold Chip.setWinch
  simp only [Chip.relightIf_drm]
  exact Chip.recapIf_drm _ _

/-- A new winch record changes WNC, ALT, DRM and LSQ alone. -/
theorem Chip.setWinch_eq (c : Chip) (w : Winch) :
    c.setWinch w = { c with wnc := (c.setWinch w).wnc, alt := (c.setWinch w).alt, drm := (c.setWinch w).drm,
                            lsq := (c.setWinch w).lsq } := by
  generalize hd : c.setWinch w = d
  have e : d.now = c.now ∧ d.spoolStart = c.spoolStart ∧ d.held = c.held ∧ d.tables = c.tables ∧ d.ulr = c.ulr
      ∧ d.slots = c.slots ∧ d.cdc = c.cdc ∧ d.stm = c.stm ∧ d.btm = c.btm ∧ d.bga = c.bga ∧ d.sup = c.sup
      ∧ d.rtx = c.rtx ∧ d.atx = c.atx ∧ d.tbs = c.tbs ∧ d.mdc = c.mdc := by
    rw [← hd]; refine ⟨?_, ?_, ?_, ?_, ?_, ?_, ?_, ?_, ?_, ?_, ?_, ?_, ?_, ?_, ?_⟩ <;> simp
  rcases d with ⟨⟩
  simp_all

/-- Setting demand and duty anew keeps the record legal. -/
theorem Winch.ok_settle {w : Winch} {cfg : WinchCfg} (h : w.Ok cfg) : (w.settle cfg).Ok cfg := h

/-- A record without a run is legal outside the RUN states. -/
theorem Winch.ok_idle {w : Winch} {cfg : WinchCfg} (h1 : w.position ≤ cfg.pmax) (h2 : w.allowance ≤ cfg.aMax) (hr : w.run = none)
    (hs : w.state.running = false) : w.Ok cfg := by
  refine ⟨h1, h2, by simp [hr, hs], by simp [hr]⟩

/-- An entry into IDLE keeps the record legal. -/
theorem Winch.ok_toIdle {w : Winch} {cfg : WinchCfg} (h1 : w.position ≤ cfg.pmax) (h2 : w.allowance ≤ cfg.aMax) : w.toIdle.Ok cfg :=
  Winch.ok_idle h1 h2 rfl rfl

/-- The lock test keeps the record legal. -/
theorem Winch.ok_lockTest {w : Winch} {cfg : WinchCfg} (h : w.Ok cfg) (b : Bool) : (w.lockTest b).Ok cfg := by
  unfold Winch.lockTest Winch.toLocked
  split
  · split
    · exact h
    · exact Winch.ok_idle h.1 h.2.1 rfl rfl
  · split
    · exact Winch.ok_toIdle h.1 h.2.1
    · exact h

/-- A jog keeps the record legal. -/
theorem Winch.ok_jog {w : Winch} {cfg : WinchCfg} (h1 : w.position ≤ cfg.pmax) (h2 : w.allowance ≤ cfg.aMax) (hr : w.state = .idle → w.run = none) (b : Bool) (u : Int) :
    (if b then w.jogInward cfg u else w.jogOutward cfg u).Ok cfg := by
  unfold Winch.jogInward Winch.jogOutward Winch.standIdle
  have hi : ∀ (h : w.state = .idle), w.Ok cfg := fun h => Winch.ok_idle h1 h2 (hr h) (by rw [h]; rfl)
  split <;> split
  · split
    · exact hi ‹_›
    · exact Winch.ok_toIdle h1 h2
  · exact Winch.ok_idle h1 h2 rfl rfl
  · split
    · exact hi ‹_›
    · exact Winch.ok_toIdle h1 h2
  · exact Winch.ok_idle h1 h2 rfl rfl

/-- There is no run request outside the RUN states. -/
theorem Winch.Ok.run_none {w : Winch} {cfg : WinchCfg} (h : w.Ok cfg) (hs : w.state.running = false) : w.run = none := by
  have := h.2.2.1
  simpa [hs] using this

/-- The winch control keeps the record legal. -/
theorem Winch.ok_follow {w : Winch} {cfg : WinchCfg} (h : w.Ok cfg) (u : Int) : (w.follow cfg u).Ok cfg := by
  unfold Winch.follow
  have h' : (w.clearHoldOff cfg u).Ok cfg := h
  revert h'
  generalize w.clearHoldOff cfg u = v
  intro h'
  dsimp only
  split
  · exact h'
  split
  · unfold Winch.release
    split <;> first | exact Winch.ok_toIdle h'.1 h'.2.1 | exact h'
  · unfold Winch.deflect
    dsimp only
    split
    · exact Winch.ok_jog h'.1 h'.2.1 (fun hs => h'.run_none (by rw [hs]; rfl)) _ _
    · rename_i hs
      split
      · exact h'
      · have := Winch.ok_jog (w := v.finish .done) h'.1 h'.2.1 (fun _ => rfl) false u
        exact this
    · rename_i hs
      split
      · have := Winch.ok_jog (w := v.finish .done) h'.1 h'.2.1 (fun _ => rfl) true u
        exact this
      · exact h'
    · exact Winch.ok_jog (w := v.finish .aborted) h'.1 h'.2.1 (fun _ => rfl) _ u
    · exact Winch.ok_jog (w := v.finish .aborted) h'.1 h'.2.1 (fun _ => rfl) _ u
    · exact Winch.ok_jog (w := v.toIdle) h'.1 h'.2.1 (fun _ => rfl) _ u
    · exact h'
    · exact h'

/-- A grant event keeps the record legal. -/
theorem Winch.ok_takeGrant {w : Winch} {cfg : WinchCfg} (h : w.Ok cfg) (g : Nat) (l : Level) (b : Bool) : (w.takeGrant cfg g l b).Ok cfg := by
  unfold Winch.takeGrant
  have h1 : ({ w.stallTest cfg with grant := g } : Winch).Ok cfg := by
    unfold Winch.stallTest
    split
    · split
      · exact Winch.ok_idle h.1 h.2.1 rfl rfl
      · exact h
    · exact h
  have h2 := Winch.ok_settle h1
  revert h2
  generalize ({ w.stallTest cfg with grant := g } : Winch).settle cfg = v
  intro h2
  have h3 : (v.account cfg).Ok cfg := by
    unfold Winch.account
    split
    · exact ⟨h2.1, by have := h2.2.1; dsimp only; omega, h2.2.2⟩
    · split
      · refine ⟨h2.1, ?_, h2.2.2⟩
        dsimp only; split
        · exact h2.2.1
        · have := h2.2.1; omega
      · exact h2
  unfold Winch.activate
  split <;> exact h3

/-- A write of WINCH_CFG brings the record into its new ranges. -/
theorem Winch.ok_reconfigure {w : Winch} (old cfg : WinchCfg) (h : w.Ok old) : (w.reconfigure cfg).Ok cfg := by
  unfold Winch.reconfigure
  dsimp only
  split
  · exact Winch.ok_toIdle (by simp [Winch.finish]) (by simp [Winch.finish])
  · exact ⟨by simp, by simp, h.2.2⟩

/-- A pulse keeps P within 0..Pmax. -/
theorem Winch.pulsePosition_le {w : Winch} {cfg : WinchCfg} (h : w.Ok cfg) : w.pulsePosition cfg ≤ cfg.pmax := by
  unfold Winch.pulsePosition
  split
  · have := h.1; omega
  · exact Nat.min_le_left _ _

/-- A pulse keeps the record legal. -/
theorem Winch.ok_pulse {w : Winch} {cfg : WinchCfg} (h : w.Ok cfg) : (w.pulse cfg).Ok cfg := by
  have hp := Winch.pulsePosition_le h
  unfold Winch.pulse
  split
  · split
    · exact Winch.ok_toIdle hp h.2.1
    · split
      · exact Winch.ok_toIdle hp h.2.1
      · refine ⟨hp, h.2.1, ?_, ?_⟩
        · simpa [Winch.countDriven] using h.2.2.1
        · intro r hr
          simp only [Winch.countDriven, Option.map_eq_some_iff] at hr
          obtain ⟨r', hr', rfl⟩ := hr
          have := h.2.2.2 r' hr'
          dsimp only; omega
  · split
    · exact ⟨hp, h.2.1, h.2.2⟩
    · exact ⟨hp, h.2.1, h.2.2⟩

/-! ### The lock test and the grant event, said once -/

/-- The lock test (R84, R85): a cause locks the winch, ends an operation LOCKED and sets the hold-off; without a cause a LOCKED
winch comes out IDLE; nothing else changes. -/
theorem Winch.lockTest_spec (w : Winch) (cause : Bool) :
    let ended (kind : OpKind) : Option LastOp :=
      some { kind := kind, requested := w.run.map Run.count, counts := w.countsDone, outcome := .locked }
    let record : Option LastOp :=
      match w.state with
      | .jogIn => ended .jogIn
      | .jogOut => ended .jogOut
      | .runIn => ended .runIn
      | .runOut => ended .runOut
      | .idle | .free | .stalled | .locked => w.lastOp
    w.lockTest cause = if cause = true then
      (if w.state = .locked then w
        else { w with state := .locked, run := none, requested := 0, holdOff := true, lastOp := record })
      else if w.state = .locked then
        { w with state := .idle, run := none, requested := 0, creep := 0, creepReported := false }
      else w := by
  dsimp only
  unfold Winch.lockTest Winch.toLocked
  split
  · split
    · rfl
    · unfold Winch.finish
      cases w.state <;> rfl
  · rfl

/-- A grant event leaves a winch that is not driven where it stands. -/
theorem Winch.takeGrant_still {w : Winch} (h : w.state.driven = false) (cfg : WinchCfg) (g : Nat) (l : Level) (d : Bool) :
    let t := (w.takeGrant cfg g l d).settle cfg
    t.state = w.state ∧ t.run = w.run ∧ t.requested = w.requested ∧ t.creep = w.creep ∧ t.creepReported = w.creepReported
      ∧ t.holdOff = w.holdOff := by
  have e : w.stallTest cfg = w := by unfold Winch.stallTest; rw [if_neg (by simp [h])]
  unfold Winch.takeGrant
  rw [e]
  unfold Winch.activate Winch.account
  dsimp only
  repeat' split
  all_goals exact ⟨rfl, rfl, rfl, rfl, rfl, rfl⟩

/-- Away from NORMAL a grant event starts no boost (R103). -/
theorem Winch.takeGrant_boost {w : Winch} (h : w.boost = false) (cfg : WinchCfg) (g : Nat) (l : Level) (hl : l ≠ .normal)
    (d : Bool) : (w.takeGrant cfg g l d).boost = false := by
  have k : ∀ v : Winch, v.boost = false → ((v.account cfg).activate l d).boost = false := by
    intro v hv
    have ha : (v.account cfg).boost = false := by
      unfold Winch.account
      split
      · simp [hv]
      · split <;> exact hv
    unfold Winch.activate
    rw [if_neg (by unfold Winch.boostConditions; simp [hl])]
    exact ha
  unfold Winch.takeGrant
  refine k _ ?_
  have e : (w.stallTest cfg).boost = false := by
    unfold Winch.stallTest
    repeat' split
    all_goals exact h
  unfold Winch.settle
  simp [e]

/-- When a pulse raises WINCH_CREEP: the winch holds, the count passes the limit, and the flag is clear (R97). -/
theorem Winch.raisesCreep_iff (w : Winch) (cfg : WinchCfg) :
    w.raisesCreep cfg = true ↔ w.state.holds = true ∧ cfg.creepLimit ≤ w.creep ∧ w.creepReported = false := by
  unfold Winch.raisesCreep Winch.creepAfter
  rw [Bool.and_eq_true, Bool.and_eq_true, decide_eq_true_eq, Bool.not_eq_true', and_assoc]
  have : (cfg.creepLimit < if w.creep ≤ cfg.creepLimit then w.creep + 1 else w.creep) ↔ cfg.creepLimit ≤ w.creep := by
    split <;> omega
  rw [this]

/-- When a pulse ends the operation at a line end (R94). -/
theorem Winch.reachesEnd_iff (w : Winch) (cfg : WinchCfg) :
    w.reachesEnd cfg = true ↔ w.referenced = true ∧ w.state.driven = true ∧ w.pressesEnd cfg = false
      ∧ w.pulsePosition cfg = (if w.state.pullsIn then 0 else cfg.pmax) := by
  unfold Winch.reachesEnd
  simp only [Bool.and_eq_true, Bool.not_eq_true', decide_eq_true_eq, and_assoc]

/-- A grant event keeps the creep count and the creep-reported flag, stalling or not (R97). -/
theorem Winch.takeGrant_creep (w : Winch) (cfg : WinchCfg) (g : Nat) (l : Level) (d : Bool) :
    (w.takeGrant cfg g l d).creep = w.creep ∧ (w.takeGrant cfg g l d).creepReported = w.creepReported := by
  have a1 : ∀ u : Winch, (u.activate l d).creep = u.creep ∧ (u.activate l d).creepReported = u.creepReported := by
    intro u; unfold Winch.activate; split <;> exact ⟨rfl, rfl⟩
  have a2 : ∀ u : Winch, (u.account cfg).creep = u.creep ∧ (u.account cfg).creepReported = u.creepReported := by
    intro u; unfold Winch.account; split
    · exact ⟨rfl, rfl⟩
    · split <;> exact ⟨rfl, rfl⟩
  have a3 : (w.stallTest cfg).creep = w.creep ∧ (w.stallTest cfg).creepReported = w.creepReported := by
    unfold Winch.stallTest; split
    · split <;> exact ⟨rfl, rfl⟩
    · exact ⟨rfl, rfl⟩
  exact ⟨(a1 _).1.trans ((a2 _).1.trans a3.1), (a1 _).2.trans ((a2 _).2.trans a3.2)⟩

end Sys2Proof.Machine
end

