-- ==== Sys2Proof/Laws/UpdateEvent.lean ====
section
/-! SUPPORT. A channel update as a whole: what it leaves, and the record it gives each block, whatever the order in which the
blocks take it. -/

namespace Sys2Proof.Machine

/-- Two parts that agree in every field are one. -/
theorem Chip.fieldwise : ∀ (x y : Chip), x.now = y.now → x.spoolStart = y.spoolStart → x.held = y.held → x.tables = y.tables → x.ulr = y.ulr → x.slots = y.slots → x.cdc = y.cdc → x.stm = y.stm → x.drm = y.drm → x.wnc = y.wnc → x.lsq = y.lsq → x.btm = y.btm → x.bga = y.bga → x.alt = y.alt → x.sup = y.sup → x.rtx = y.rtx → x.atx = y.atx → x.tbs = y.tbs → x.mdc = y.mdc → x = y := by
  intro x y; cases x; cases y; simp_all

/-- The two triggers of a status frame that a channel update carries (R173). -/
def StatusTrigger (st : Chip → Chip) : Prop := st = Chip.countControl ∨ st = Chip.refreshStatus

/-- What a turn of a channel update leaves: everything but the consumers' own records, the measurement schedule and the
operating mode, and those two also where the part is ACTIVE or the link is not LIVE. -/
structure UpdateFrame (d c : Chip) : Prop where
  now : c.now = d.now
  spool : c.spoolStart = d.spoolStart
  held : c.held = d.held
  tables : c.tables = d.tables
  ulr : c.ulr = d.ulr
  slots : c.slots = d.slots
  cdc : c.cdc = d.cdc
  btm : c.btm = { d.btm with nextMeas := c.btm.nextMeas }
  bga : c.bga = d.bga
  sup : c.sup = d.sup
  tbs : c.tbs = d.tbs
  mdc : c.mdc = { d.mdc with mode := c.mdc.mode }
  alt : ∀ a, a ≠ .winchStall → c.alt.has a = d.alt.has a ∧ c.alt.caused a = d.alt.caused a
  same : d.mdc.mode = .active ∨ d.ulr.link ≠ .live → c.mdc = d.mdc ∧ c.btm = d.btm

/-- A turn that changes nothing. -/
theorem UpdateFrame.refl (c : Chip) : UpdateFrame c c := ⟨rfl, rfl, rfl, rfl, rfl, rfl, rfl, rfl, rfl, rfl, rfl, rfl, fun _ _ => ⟨rfl, rfl⟩, fun _ => ⟨rfl, rfl⟩⟩

/-- Two turns in a row. -/
theorem UpdateFrame.trans {a b c : Chip} (h : UpdateFrame a b) (k : UpdateFrame b c) : UpdateFrame a c where
  now := k.now.trans h.now
  spool := k.spool.trans h.spool
  held := k.held.trans h.held
  tables := k.tables.trans h.tables
  ulr := k.ulr.trans h.ulr
  slots := k.slots.trans h.slots
  cdc := k.cdc.trans h.cdc
  btm := by rw [k.btm, h.btm]
  bga := k.bga.trans h.bga
  sup := k.sup.trans h.sup
  tbs := k.tbs.trans h.tbs
  mdc := by rw [k.mdc, h.mdc]
  alt := fun x hx => ⟨(k.alt x hx).1.trans (h.alt x hx).1, (k.alt x hx).2.trans (h.alt x hx).2⟩
  same := fun g => by
    have h1 := h.same g
    have h2 := k.same (by rcases g with g | g; · left; rw [h1.1]; exact g
                          · right; rw [h.ulr]; exact g)
    exact ⟨h2.1.trans h1.1, h2.2.trans h1.2⟩

/-- A turn that leaves the schedule and the mode too. -/
theorem UpdateFrame.ofFields {c d : Chip} (h1 : d.now = c.now) (h2 : d.spoolStart = c.spoolStart) (h3 : d.held = c.held) (h4 : d.tables = c.tables) (h5 : d.ulr = c.ulr) (h6 : d.slots = c.slots) (h7 : d.cdc = c.cdc) (h8 : d.btm = c.btm) (h9 : d.bga = c.bga) (h10 : d.sup = c.sup) (h11 : d.tbs = c.tbs) (h12 : d.mdc = c.mdc)
    (h13 : ∀ a, a ≠ .winchStall → d.alt.has a = c.alt.has a ∧ d.alt.caused a = c.alt.caused a) : UpdateFrame c d :=
  ⟨h1, h2, h3, h4, h5, h6, h7, by rw [h8], h9, h10, h11, by rw [h12], h13, fun _ => ⟨h12, h8⟩⟩

/-- A new winch record. -/
theorem Chip.setWinch_frame (c : Chip) (w : Winch) : UpdateFrame c (c.setWinch w) := by
  refine UpdateFrame.ofFields ?_ ?_ ?_ ?_ ?_ ?_ ?_ ?_ ?_ ?_ ?_ ?_ ?_ <;> try simp
  intro a ha
  constructor
  · rw [Alt.has_cause]; have : Alert.winchStall ≠ a := fun e => ha e.symm
    simp [this]
  · rw [Alt.caused_cause]; rw [if_neg (fun e => ha e.symm)]

/-- MDC's turn. -/
theorem Chip.parkExitTest_frame (c : Chip) : UpdateFrame c c.parkExitTest := by
  unfold Chip.parkExitTest
  split
  · rename_i h
    have hl : c.mdc.mode = .parked ∧ c.ulr.link = .live := by
      unfold Chip.leavesParked at h
      simp at h
      exact ⟨h.1.1.1, h.1.1.2⟩
    unfold Chip.returnActive
    have h1 : UpdateFrame (c.setMode .active).rehandle (c.setMode .active).rehandle.winchLockTest := Chip.setWinch_frame _ _
    have h2 : ∀ d : Chip, UpdateFrame c d → UpdateFrame c d.relight.reschedule := by
      intro d k
      refine ⟨k.now, k.spool, k.held, k.tables, k.ulr, k.slots, k.cdc, ?_, k.bga, k.sup, k.tbs, k.mdc, k.alt, ?_⟩
      · have : d.relight.reschedule.btm = { d.btm with nextMeas := d.relight.reschedule.btm.nextMeas } := rfl
        rw [this, k.btm]
      · rintro (g | g)
        · rw [hl.1] at g; cases g
        · exact absurd hl.2 g
    refine h2 _ ?_
    refine ⟨h1.now, h1.spool, h1.held, h1.tables, h1.ulr, h1.slots, h1.cdc, h1.btm, h1.bga, h1.sup, h1.tbs, ?_, h1.alt, ?_⟩
    · rw [h1.mdc]; rfl
    · rintro (g | g)
      · rw [hl.1] at g; cases g
      · exact absurd hl.2 g
  · exact UpdateFrame.refl c

/-- One block's turn. -/
theorem Chip.takeUpdate_frame {st : Chip → Chip} (hs : StatusTrigger st) (c : Chip) (t : Taker) : UpdateFrame c (c.takeUpdate st t) := by
  have hrx : UpdateFrame c (st c) := by
    rcases hs with rfl | rfl <;> (refine UpdateFrame.ofFields ?_ ?_ ?_ ?_ ?_ ?_ ?_ ?_ ?_ ?_ ?_ ?_ (fun _ _ => ⟨rfl, rfl⟩) <;> rfl)
  cases t
  · refine UpdateFrame.ofFields ?_ ?_ ?_ ?_ ?_ ?_ ?_ ?_ ?_ ?_ ?_ ?_ (fun _ _ => ⟨rfl, rfl⟩) <;> rfl
  · refine UpdateFrame.ofFields ?_ ?_ ?_ ?_ ?_ ?_ ?_ ?_ ?_ ?_ ?_ ?_ (fun _ _ => ⟨rfl, rfl⟩) <;> rfl
  · change UpdateFrame c c.winchUpdate
    unfold Chip.winchUpdate
    split
    · exact Chip.setWinch_frame _ _
    · exact UpdateFrame.refl c
  · exact Chip.parkExitTest_frame c
  · refine UpdateFrame.ofFields ?_ ?_ ?_ ?_ ?_ ?_ ?_ ?_ ?_ ?_ ?_ ?_ (fun _ _ => ⟨rfl, rfl⟩) <;> rfl
  · exact hrx

/-- The whole update, after its decode. -/
theorem Chip.channelUpdate_frame {st : Chip → Chip} (hs : StatusTrigger st) (c : Chip) (order : List Taker) : UpdateFrame c.decodeNow (c.channelUpdate st order) :=
  foldl_induct (P := fun e => UpdateFrame c.decodeNow e) (fun e y h => h.trans (Chip.takeUpdate_frame hs e y)) _ _ (UpdateFrame.refl _)

/-- ATX's record stands in the turns of the others. -/
theorem Chip.takeUpdate_atx {st : Chip → Chip} (hs : StatusTrigger st) (c : Chip) (t : Taker) (h : t ≠ .atx) : (c.takeUpdate st t).atx = c.atx := by
  rcases hs with rfl | rfl <;> cases t <;> first | exact absurd rfl h | (simp [Chip.takeUpdate])

/-- RTX's record stands in the turns of the others. -/
theorem Chip.takeUpdate_rtx {st : Chip → Chip} (hs : StatusTrigger st) (c : Chip) (t : Taker) (h : t ≠ .rtx) : (c.takeUpdate st t).rtx = c.rtx := by
  rcases hs with rfl | rfl <;> cases t <;> first | exact absurd rfl h | (simp [Chip.takeUpdate])

/-- An update builds one accessory frame (R177). -/
theorem Chip.channelUpdate_atx {st : Chip → Chip} (hs : StatusTrigger st) (c : Chip) (order : List Taker) : ∃ p, (c.channelUpdate st order).atx = c.atx.putAccessory p := by
  refine foldl_once (P := fun e => ∃ p, e.atx = c.atx.putAccessory p) (Q := fun e => e.atx = c.atx) (x := .atx) ?_ ?_ ?_ (takers order) c.decodeNow (mem_takers _ _) (nodup_takers _) rfl
  · intro e y hy h; rw [Chip.takeUpdate_atx hs e y hy]; exact h
  · intro e h; exact ⟨e.accessoryPayload, by rw [← h]; rfl⟩
  · intro e y hy h; rw [Chip.takeUpdate_atx hs e y hy]; exact h

/-- RTX takes its trigger once (R173). -/
theorem Chip.channelUpdate_rtx {st : Chip → Chip} (hs : StatusTrigger st) (c : Chip) (order : List Taker) : ∃ e : Chip, UpdateFrame c.decodeNow e ∧ e.rtx = c.rtx ∧ (c.channelUpdate st order).rtx = (st e).rtx := by
  refine foldl_once (P := fun g => ∃ e : Chip, UpdateFrame c.decodeNow e ∧ e.rtx = c.rtx ∧ g.rtx = (st e).rtx) (Q := fun e => UpdateFrame c.decodeNow e ∧ e.rtx = c.rtx) (x := .rtx) ?_ ?_ ?_ (takers order) c.decodeNow (mem_takers _ _) (nodup_takers _) ⟨UpdateFrame.refl _, rfl⟩
  · intro e y hy h; rw [Chip.takeUpdate_rtx hs e y hy]; exact ⟨h.1.trans (Chip.takeUpdate_frame hs e y), h.2⟩
  · intro e h; exact ⟨e, h.1, h.2, rfl⟩
  · intro e y hy h; rw [Chip.takeUpdate_rtx hs e y hy]; exact h

/-- A refresh builds a status frame at every fifth ordinal, and leaves RTX otherwise (R173). -/
theorem Chip.refresh_rtx (c : Chip) (order : List Taker) (e : Chip) (he : e = c.channelUpdate Chip.refreshStatus order) :
    (c.ulr.ordinal % 5 ≠ 0 → e.rtx = c.rtx) ∧ (c.ulr.ordinal % 5 = 0 → ∃ p, e.rtx = c.rtx.putStatus p) := by
  subst he
  obtain ⟨g, hw, hr, hx⟩ := Chip.channelUpdate_rtx (Or.inr rfl) c order
  rw [hx]
  unfold Chip.refreshStatus
  rw [hw.ulr, hr]
  have : c.decodeNow.ulr = c.ulr := rfl
  rw [this]
  constructor
  · intro h; dsimp only; rw [if_neg h]
  · intro h; exact ⟨g.statusPayload, by dsimp only; rw [if_pos h]⟩

/-- What a channel update in ACTIVE leaves. -/
structure ActiveFrame (d c : Chip) : Prop where
  now : c.now = d.now
  tables : c.tables = d.tables
  ulr : c.ulr = d.ulr
  slots : c.slots = d.slots
  cdc : c.cdc = d.cdc
  btm : c.btm = d.btm
  sup : c.sup = d.sup
  mdc : c.mdc = d.mdc

/-- In ACTIVE there is no PARKED to leave. -/
theorem Chip.parkExitTest_active {c : Chip} (h : c.mdc.mode = .active) : c.parkExitTest = c := by
  unfold Chip.parkExitTest Chip.leavesParked; simp [h]

/-- One block's turn in ACTIVE. -/
theorem ActiveFrame.take {d c : Chip} (h : ActiveFrame d c) (hm : d.mdc.mode = .active) {st : Chip → Chip} (hs : StatusTrigger st) (t : Taker) :
    ActiveFrame d (c.takeUpdate st t) := by
  have hm' : c.mdc.mode = .active := by rw [h.mdc]; exact hm
  have key : ActiveFrame c (c.takeUpdate st t) := by
    rcases hs with rfl | rfl <;> cases t <;> simp only [Chip.takeUpdate, Chip.parkExitTest_active hm'] <;> constructor <;> simp
  exact ⟨key.now.trans h.now, key.tables.trans h.tables, key.ulr.trans h.ulr, key.slots.trans h.slots, key.cdc.trans h.cdc, key.btm.trans h.btm, key.sup.trans h.sup, key.mdc.trans h.mdc⟩

/-- Nothing has changed. -/
theorem ActiveFrame.refl (c : Chip) : ActiveFrame c c := ⟨rfl, rfl, rfl, rfl, rfl, rfl, rfl, rfl⟩

/-- STM's record stands in the turns of the others. -/
theorem Chip.takeUpdate_stm (c : Chip) {st : Chip → Chip} (hs : StatusTrigger st) (t : Taker) (ht : t ≠ .stm) : (c.takeUpdate st t).stm = c.stm := by
  rcases hs with rfl | rfl <;> cases t <;> simp_all [Chip.takeUpdate]

/-- WNC's record stands in the turns of the others. -/
theorem Chip.takeUpdate_wnc (c : Chip) (hm : c.mdc.mode = .active) {st : Chip → Chip} (hs : StatusTrigger st) (t : Taker) (ht : t ≠ .wnc) : (c.takeUpdate st t).wnc = c.wnc := by
  rcases hs with rfl | rfl <;> cases t <;> simp_all [Chip.takeUpdate, Chip.parkExitTest_active hm]

/-- Turns of an update in ACTIVE among which one block takes its own once. -/
theorem Chip.takeUpdates_once (d : Chip) (hm : d.mdc.mode = .active) {st : Chip → Chip} (hs : StatusTrigger st) {l : List Taker}
    {x : Taker} (hx : x ∈ l) (hn : l.Nodup) (P Q : Chip → Prop) (h0 : Q d)
    (keepsQ : ∀ e y, y ≠ x → ActiveFrame d e → Q e → Q (e.takeUpdate st y))
    (makes : ∀ e, ActiveFrame d e → Q e → P (e.takeUpdate st x))
    (keeps : ∀ e y, y ≠ x → ActiveFrame d e → P e → P (e.takeUpdate st y)) :
    P (l.foldl (Chip.takeUpdate st) d) :=
  (foldl_once (P := fun e => ActiveFrame d e ∧ P e) (Q := fun e => ActiveFrame d e ∧ Q e) (f := Chip.takeUpdate st) (x := x)
    (fun e y hy h => ⟨h.1.take hm hs y, keepsQ e y hy h.1 h.2⟩)
    (fun e h => ⟨h.1.take hm hs x, makes e h.1 h.2⟩)
    (fun e y hy h => ⟨h.1.take hm hs y, keeps e y hy h.1 h.2⟩)
    l d hx hn ⟨ActiveFrame.refl _, h0⟩).2

/-- An update in ACTIVE in which one block takes its turn once. -/
theorem Chip.channelUpdate_once (c : Chip) (hm : c.mdc.mode = .active) {st : Chip → Chip} (hs : StatusTrigger st) (order : List Taker)
    (x : Taker) (P Q : Chip → Prop) (h0 : Q c.decodeNow)
    (keepsQ : ∀ e y, y ≠ x → ActiveFrame c.decodeNow e → Q e → Q (e.takeUpdate st y))
    (makes : ∀ e, ActiveFrame c.decodeNow e → Q e → P (e.takeUpdate st x))
    (keeps : ∀ e y, y ≠ x → ActiveFrame c.decodeNow e → P e → P (e.takeUpdate st y)) :
    P (c.channelUpdate st order) :=
  Chip.takeUpdates_once c.decodeNow hm hs (mem_takers x order) (nodup_takers order) P Q h0 keepsQ makes keeps

/-- A whole update in ACTIVE. -/
theorem Chip.channelUpdate_active (c : Chip) (hm : c.mdc.mode = .active) {st : Chip → Chip} (hs : StatusTrigger st) (order : List Taker) :
    ActiveFrame c.decodeNow (c.channelUpdate st order) :=
  foldl_induct (fun _ y h => h.take hm hs y) _ _ (ActiveFrame.refl _)

/-- STM's record after turns in ACTIVE that hold its own, whatever the part they start from (R37 to R51). -/
theorem Chip.takeUpdates_stm (d : Chip) (hm : d.mdc.mode = .active) {st : Chip → Chip} (hs : StatusTrigger st) {l : List Taker}
    (hx : .stm ∈ l) (hn : l.Nodup) :
    (l.foldl (Chip.takeUpdate st) d).stm = d.steerMix.setOutput d.tables d.now d.pulsingNow := by
  refine Chip.takeUpdates_once d hm hs hx hn (fun e => e.stm = _) (fun e => e.stm = d.stm) rfl ?_ ?_ ?_
  · intro e y hy _ h; rw [Chip.takeUpdate_stm e hs y hy]; exact h
  · intro e f h
    change e.steerUpdate.stm = _
    unfold Chip.steerUpdate
    rw [if_pos (by rw [f.mdc]; exact hm), f.tables, f.now]
    have e1 : e.steerMix = d.steerMix := by
      obtain ⟨f1, f2, f3, f4, f5, f6, f7, f8⟩ := f
      cases e; cases d
      simp only at f1 f2 f3 f4 f5 f6 f7 f8 h
      subst f1 f2 f3 f4 f5 f6 f7 f8 h
      rfl
    have e2 : e.pulsingNow = d.pulsingNow := by
      unfold Chip.pulsingNow Chip.servoQuiet Chip.switchBit; rw [f.ulr, f.sup]
    rw [e1, e2]
  · intro e y hy _ h; rw [Chip.takeUpdate_stm e hs y hy]; exact h

/-- STM's record after an update in ACTIVE (R37 to R51). -/
theorem Chip.channelUpdate_stm (c : Chip) (hm : c.mdc.mode = .active) {st : Chip → Chip} (hs : StatusTrigger st) (order : List Taker) :
    (c.channelUpdate st order).stm = c.decodeNow.steerMix.setOutput c.tables c.now c.pulsingNow :=
  Chip.takeUpdates_stm c.decodeNow hm hs (mem_takers _ order) (nodup_takers order)

/-- WNC's record after turns in ACTIVE that hold its own (R82). -/
theorem Chip.takeUpdates_wnc (d : Chip) (hm : d.mdc.mode = .active) {st : Chip → Chip} (hs : StatusTrigger st) {l : List Taker}
    (hx : .wnc ∈ l) (hn : l.Nodup) :
    (l.foldl (Chip.takeUpdate st) d).wnc
      = ((d.wnc.lockTest d.winchLockCause).follow d.tables.winchCfg d.cdc.winch).settle d.tables.winchCfg := by
  have hmm : ∀ e, ActiveFrame d e → e.mdc.mode = .active := fun e f => by rw [f.mdc]; exact hm
  refine Chip.takeUpdates_once d hm hs hx hn (fun e => e.wnc = _) (fun e => e.wnc = d.wnc) rfl ?_ ?_ ?_
  · intro e y hy f h; rw [Chip.takeUpdate_wnc e (hmm e f) hs y hy]; exact h
  · intro e f h
    change e.winchUpdate.wnc = _
    unfold Chip.winchUpdate
    rw [if_pos (hmm e f), Chip.setWinch_wnc, f.tables, h]
    have e1 : e.winchLockCause = d.winchLockCause := by
      unfold Chip.winchLockCause Chip.winchInhibit Chip.switchBit; rw [f.btm, f.ulr, f.sup, f.mdc]
    rw [e1, f.cdc]
  · intro e y hy f h; rw [Chip.takeUpdate_wnc e (hmm e f) hs y hy]; exact h

/-- WNC's record after an update in ACTIVE (R82). -/
theorem Chip.channelUpdate_wnc (c : Chip) (hm : c.mdc.mode = .active) {st : Chip → Chip} (hs : StatusTrigger st) (order : List Taker) :
    (c.channelUpdate st order).wnc = ((c.wnc.lockTest c.winchLockCause).follow c.tables.winchCfg c.decode.winch).settle c.tables.winchCfg :=
  Chip.takeUpdates_wnc c.decodeNow hm hs (mem_takers _ order) (nodup_takers order)

/-- DRM's record stands in the turns of the blocks other than DRM and WNC. -/
theorem Chip.takeUpdate_drm (c : Chip) (hm : c.mdc.mode = .active) {st : Chip → Chip} (hs : StatusTrigger st) (t : Taker) (h1 : t ≠ .wnc) (h2 : t ≠ .drm) : (c.takeUpdate st t).drm = c.drm := by
  rcases hs with rfl | rfl <;> cases t <;> simp_all [Chip.takeUpdate, Chip.parkExitTest_active hm]

/-- What the cap of R65 is read from. -/
theorem Chip.driveCap_congr {c d : Chip} (h1 : c.wnc = d.wnc) (h2 : c.tables = d.tables) (h3 : c.btm = d.btm) : c.driveCap = d.driveCap := by
  unfold Chip.driveCap; rw [h1, h2, h3]

/-- A new winch record keeps the axle request at the cap that stands (R66). -/
theorem Chip.setWinch_cap (c : Chip) (w : Winch) (hm : c.mdc.mode = .active) (r : Int) (h1 : c.drm.request = r) (h : c.drm.axleRequest = capRequest c.driveCap r) :
    (c.setWinch w).drm.request = r ∧ (c.setWinch w).drm.axleRequest = capRequest (c.setWinch w).driveCap r := by
  refine ⟨(c.setWinch_drm w).2.2.2.2.1.trans h1, ?_⟩
  by_cases hd : w.state.driven = c.wnc.state.driven
  · rw [Chip.setWinch_drm_same hd, h]
    congr 1
    unfold Chip.driveCap
    simp only [Chip.setWinch_wnc, Chip.setWinch_tables, Chip.setWinch_btm]
    have : (w.settle c.tables.winchCfg).state = w.state := rfl
    rw [this, hd]
  · unfold Chip.setWinch
    dsimp only
    rw [Chip.relightIf_drm]
    have hne : decide (c.wnc.state.driven ≠ w.state.driven) = true := by simp; exact fun e => hd e.symm
    rw [hne]
    unfold Chip.recapIf
    rw [if_pos (by simp [hm])]
    unfold Chip.recap
    rw [Chip.handleAxles_axleRequest]
    rw [show (Chip.alert { c with wnc := w.settle c.tables.winchCfg } fun t => t.cause .winchStall (decide (w.state = .stalled))).drm.request = c.drm.request from rfl, h1]
    congr 1

/-- A capped request: its magnitude and its sign (R65). -/
theorem capRequest_bounds (cap : Nat) (a : Int) : (capRequest cap a).natAbs = min a.natAbs cap ∧ (0 ≤ a → 0 ≤ capRequest cap a) ∧ (a ≤ 0 → capRequest cap a ≤ 0) := by
  unfold capRequest
  generalize hm : min a.natAbs cap = m
  rcases lt_trichotomy a 0 with h | h | h
  · rw [Int.sign_eq_neg_one_of_neg h]; omega
  · subst h; simp at hm; subst hm; simp
  · rw [Int.sign_eq_one_of_pos h]; omega

/-- Arming leaves the request. -/
theorem Chip.armingStep_keeps (c : Chip) (d : Drm) : (c.armingStep d).command = d.command ∧ (c.armingStep d).mode = d.mode ∧ (c.armingStep d).request = d.request ∧ (c.armingStep d).axleRequest = d.axleRequest := by
  unfold Chip.armingStep
  split
  · split <;> exact ⟨rfl, rfl, rfl, rfl⟩
  · split <;> exact ⟨rfl, rfl, rfl, rfl⟩
  · split <;> exact ⟨rfl, rfl, rfl, rfl⟩

/-- DRM's record after an update in ACTIVE (R57 to R66). -/
theorem Chip.channelUpdate_drm (c : Chip) (hm : c.mdc.mode = .active) {st : Chip → Chip} (hs : StatusTrigger st) (order : List Taker) :
    let d := c.decodeNow
    let e := c.channelUpdate st order
    e.drm.command = d.driveCommand ∧ e.drm.mode = d.cdc.driveSel ∧ e.drm.request = driveRequest d.driveCommand d.profile.speedLimit
    ∧ e.drm.axleRequest = capRequest e.driveCap (driveRequest d.driveCommand d.profile.speedLimit)
    ∧ e.drm.arming = (c.armingStep { c.drm with command := d.driveCommand }).arming
    ∧ e.drm.armTimer = (c.armingStep { c.drm with command := d.driveCommand }).armTimer := by
  intro d e
  have hmm : ∀ e, ActiveFrame c.decodeNow e → e.mdc.mode = .active := fun e f => by rw [f.mdc]; exact hm
  refine Chip.channelUpdate_once c hm hs order .drm (fun e => e.drm.command = d.driveCommand ∧ e.drm.mode = d.cdc.driveSel ∧ e.drm.request = driveRequest d.driveCommand d.profile.speedLimit
    ∧ e.drm.axleRequest = capRequest e.driveCap (driveRequest d.driveCommand d.profile.speedLimit)
    ∧ e.drm.arming = (c.armingStep { c.drm with command := d.driveCommand }).arming
    ∧ e.drm.armTimer = (c.armingStep { c.drm with command := d.driveCommand }).armTimer) (fun e => e.drm.arming = c.drm.arming ∧ e.drm.armTimer = c.drm.armTimer) ⟨rfl, rfl⟩ ?_ ?_ ?_
  · intro e y hy f h
    by_cases hw : y = .wnc
    · subst hw
      change e.winchUpdate.drm.arming = _ ∧ e.winchUpdate.drm.armTimer = _
      unfold Chip.winchUpdate
      rw [if_pos (hmm e f)]
      exact ⟨(e.setWinch_drm _).2.2.1.trans h.1, (e.setWinch_drm _).2.2.2.1.trans h.2⟩
    · rw [Chip.takeUpdate_drm e (hmm e f) hs y hw hy]; exact h
  · intro e f h
    have hdu : e.takeUpdate st .drm = e.handleAxles e.driveFormed := by
      change e.driveUpdate = _
      unfold Chip.driveUpdate; rw [if_pos (hmm e f)]
    have hprof : e.profile = d.profile := by
      obtain ⟨f1, f2, f3, f4, f5, f6, f7, f8⟩ := f
      change e.cdc = d.cdc at f5
      change e.tables = d.tables at f2
      clear_value d
      cases e; cases d
      simp only at f2 f5
      subst f2 f5; rfl
    have hcmd : e.driveCommand = d.driveCommand := by
      obtain ⟨f1, f2, f3, f4, f5, f6, f7, f8⟩ := f
      change e.cdc = d.cdc at f5
      change e.tables = d.tables at f2
      clear_value d
      cases e; cases d
      simp only at f2 f5
      subst f2 f5; rfl
    have harm : ∀ q : Drm, q.arming = c.drm.arming → q.armTimer = c.drm.armTimer → q.command = d.driveCommand → (e.armingStep q).arming = (c.armingStep { c.drm with command := d.driveCommand }).arming ∧ (e.armingStep q).armTimer = (c.armingStep { c.drm with command := d.driveCommand }).armTimer := by
      intro q q1 q2 q3
      have a1 : ∀ x, e.armingConditions x = c.armingConditions x := by
        intro x; unfold Chip.armingConditions Chip.driveInhibit Chip.switchBit Chip.throttleFresh Chip.roleSlot; rw [f.ulr, f.slots, f.tables, f.sup, f.mdc]; rfl
      have a2 : e.throttleFresh = c.throttleFresh := by
        unfold Chip.throttleFresh Chip.roleSlot; rw [f.slots, f.tables]; rfl
      have a3 : e.ulr = c.ulr := f.ulr
      have a4 : e.now = c.now := f.now
      have a5 : e.tables = c.tables := f.tables
      unfold Chip.armingStep
      dsimp only
      rw [q1, q3, a1, a2, a3, a4, a5]
      cases hc : c.drm.arming <;> dsimp only
      · split
        · exact ⟨rfl, rfl⟩
        · first | exact ⟨q1, q2⟩ | exact ⟨q1.trans hc, q2⟩
      · split
        · exact ⟨rfl, rfl⟩
        · first | exact ⟨q1, q2⟩ | exact ⟨q1.trans hc, q2⟩
      · split
        · exact ⟨rfl, rfl⟩
        · first | exact ⟨q1, q2⟩ | exact ⟨q1.trans hc, q2⟩
    rw [hdu]
    rw [Chip.handleAxles_command, Chip.handleAxles_mode, Chip.handleAxles_request, Chip.handleAxles_axleRequest, Chip.handleAxles_arming, Chip.handleAxles_armTimer]
    unfold Chip.driveFormed
    dsimp only
    have k := Chip.armingStep_keeps e { e.drm with command := e.driveCommand, mode := e.cdc.driveSel, request := driveRequest e.driveCommand e.profile.speedLimit, axleRequest := capRequest e.driveCap (driveRequest e.driveCommand e.profile.speedLimit) }
    rw [k.1, k.2.1, k.2.2.1, k.2.2.2]
    dsimp only
    refine ⟨hcmd, by rw [f.cdc], by rw [hcmd, hprof], ?_, ?_⟩
    · rw [hcmd, hprof]
      congr 1
    · exact harm _ h.1 h.2 hcmd
  · intro e y hy f h
    by_cases hw : y = .wnc
    · subst hw
      change e.winchUpdate.drm.command = _ ∧ e.winchUpdate.drm.mode = _ ∧ e.winchUpdate.drm.request = _ ∧ e.winchUpdate.drm.axleRequest = capRequest e.winchUpdate.driveCap _ ∧ e.winchUpdate.drm.arming = _ ∧ e.winchUpdate.drm.armTimer = _
      unfold Chip.winchUpdate
      rw [if_pos (hmm e f)]
      have k := e.setWinch_drm ((e.wnc.lockTest e.winchLockCause).follow e.tables.winchCfg e.cdc.winch)
      have k2 := Chip.setWinch_cap e ((e.wnc.lockTest e.winchLockCause).follow e.tables.winchCfg e.cdc.winch) (hmm e f) _ h.2.2.1 h.2.2.2.1
      exact ⟨k.1.trans h.1, k.2.1.trans h.2.1, k2.1, k2.2, k.2.2.1.trans h.2.2.2.2.1, k.2.2.2.1.trans h.2.2.2.2.2⟩
    · rw [Chip.takeUpdate_drm e (hmm e f) hs y hw hy]
      have : (e.takeUpdate st y).driveCap = e.driveCap := by
        have g := (ActiveFrame.refl e).take (hmm e f) hs y
        exact Chip.driveCap_congr (Chip.takeUpdate_wnc e (hmm e f) hs y hw) g.tables g.btm
      rw [this]; exact h

/-! ### Updates in PARKED (R37, R79, R82, R197) -/

/-- The conditions of R197 at an update, on its decode. -/
def Chip.LeavesAt (c : Chip) : Prop := c.ulr.link = .live ∧ c.decode.throttle = 0 ∧ c.parkRequest = false

/-- Turns in PARKED other than MDC's: STM and WNC keep their records, and the part stays PARKED. -/
structure ParkedFrame (d e : Chip) : Prop where
  frame : UpdateFrame d e
  mdc : e.mdc = d.mdc
  btm : e.btm = d.btm
  stm : e.stm = d.stm
  wnc : e.wnc = d.wnc

/-- Nothing has changed. -/
theorem ParkedFrame.refl (d : Chip) : ParkedFrame d d := ⟨UpdateFrame.refl d, rfl, rfl, rfl, rfl⟩

/-- One block's turn in PARKED, where MDC does not leave it. -/
theorem ParkedFrame.take {d e : Chip} (h : ParkedFrame d e) (hm : d.mdc.mode = .parked) {st : Chip → Chip} (hs : StatusTrigger st)
    {t : Taker} (ht : t = .mdc → e.parkExitTest = e) : ParkedFrame d (e.takeUpdate st t) := by
  have hna : ¬ e.mdc.mode = .active := by rw [h.mdc, hm]; decide
  refine ⟨h.frame.trans (Chip.takeUpdate_frame hs e t), ?_, ?_, ?_, ?_⟩
  · refine Eq.trans ?_ h.mdc
    rcases hs with rfl | rfl <;> cases t <;> simp_all [Chip.takeUpdate]
  · refine Eq.trans ?_ h.btm
    rcases hs with rfl | rfl <;> cases t <;> simp_all [Chip.takeUpdate]
  · refine Eq.trans ?_ h.stm
    rcases hs with rfl | rfl <;> cases t <;> simp_all [Chip.takeUpdate, Chip.steerUpdate]
  · refine Eq.trans ?_ h.wnc
    rcases hs with rfl | rfl <;> cases t <;> simp_all [Chip.takeUpdate, Chip.winchUpdate]

/-- Turns in PARKED without MDC's. -/
theorem ParkedFrame.takes {d : Chip} (hm : d.mdc.mode = .parked) {st : Chip → Chip} (hs : StatusTrigger st) :
    ∀ (l : List Taker) (e : Chip), Taker.mdc ∉ l → ParkedFrame d e → ParkedFrame d (l.foldl (Chip.takeUpdate st) e)
  | [], _, _, h => h
  | y :: ys, e, hl, h => by
    rw [List.foldl_cons]
    exact ParkedFrame.takes hm hs ys _ (fun k => hl (List.mem_cons_of_mem _ k))
      (h.take hm hs fun k => absurd (k ▸ List.mem_cons_self) hl)

/-- MDC's test in the course of an update reads what the update carries (R197). -/
theorem Chip.leavesParked_iff {c e : Chip} (h : ParkedFrame c.decodeNow e) (hm : c.mdc.mode = .parked) :
    e.leavesParked = true ↔ c.LeavesAt := by
  unfold Chip.leavesParked Chip.parkRequest Chip.switchBit Chip.LeavesAt Chip.parkRequest Chip.switchBit
  rw [h.mdc, h.frame.ulr, h.frame.cdc, h.frame.sup]
  have h1 : c.decodeNow.mdc = c.mdc := rfl
  have h2 : c.decodeNow.ulr = c.ulr := rfl
  have h3 : c.decodeNow.cdc = c.decode := rfl
  have h4 : c.decodeNow.sup = c.sup := rfl
  rw [h1, h2, h3, h4]
  simp [hm, and_assoc]

/-- An update that leaves the part PARKED (R37, R82). -/
theorem Chip.channelUpdate_parked (c : Chip) (hm : c.mdc.mode = .parked) {st : Chip → Chip} (hs : StatusTrigger st)
    (order : List Taker) (hl : ¬c.LeavesAt) : ParkedFrame c.decodeNow (c.channelUpdate st order) :=
  foldl_induct (P := ParkedFrame c.decodeNow) (fun e y h => h.take hm hs fun _ => by
    unfold Chip.parkExitTest
    rw [if_neg (fun k => hl ((Chip.leavesParked_iff h hm).1 k))]) _ _ (ParkedFrame.refl _)

/-- What MDC's return to ACTIVE makes of the part: the lock test of R85, and the axles handled. -/
theorem Chip.returnActive_spec (e : Chip) :
    ∃ a : Chip, a = ((({ e with mdc := { e.mdc with mode := .active } } : Chip).handleAxles e.drm).winchLockTest)
      ∧ e.returnActive = { a with lsq := a.picture, btm := { e.btm with nextMeas := e.returnActive.btm.nextMeas } } := by
  refine ⟨_, rfl, ?_⟩
  have hb : ((({ e with mdc := { e.mdc with mode := .active } } : Chip).handleAxles e.drm).winchLockTest).btm = e.btm := by simp [Chip.winchLockTest]
  have : e.returnActive = { ((({ e with mdc := { e.mdc with mode := .active } } : Chip).handleAxles e.drm).winchLockTest) with
    lsq := ((({ e with mdc := { e.mdc with mode := .active } } : Chip).handleAxles e.drm).winchLockTest).picture
    btm := { ((({ e with mdc := { e.mdc with mode := .active } } : Chip).handleAxles e.drm).winchLockTest).btm with nextMeas := e.returnActive.btm.nextMeas } } := rfl
  rw [hb] at this
  exact this

/-- An update that returns the part to ACTIVE, seen as the turns before MDC's, its own and those after it (R197). -/
theorem Chip.channelUpdate_leaves (c : Chip) (hm : c.mdc.mode = .parked) {st : Chip → Chip} (hs : StatusTrigger st)
    {order before after : List Taker} (hl : c.LeavesAt) (ho : takers order = before ++ .mdc :: after) :
    ∃ e : Chip, e = before.foldl (Chip.takeUpdate st) c.decodeNow ∧ ParkedFrame c.decodeNow e
      ∧ c.channelUpdate st order = after.foldl (Chip.takeUpdate st) e.returnActive
      ∧ (∀ x, x ∈ before → x ∉ after) ∧ after.Nodup ∧ Taker.mdc ∉ before := by
  have hn := nodup_takers order
  rw [ho] at hn
  have h1 := List.nodup_append.1 hn
  have h2 := List.nodup_cons.1 h1.2.1
  have hb : Taker.mdc ∉ before := fun k => h1.2.2 _ k _ List.mem_cons_self rfl
  have hp := ParkedFrame.takes (d := c.decodeNow) hm hs before c.decodeNow hb (ParkedFrame.refl _)
  refine ⟨_, rfl, hp, ?_, fun x hx ha => h1.2.2 _ hx _ (List.mem_cons_of_mem _ ha) rfl, h2.2, hb⟩
  unfold Chip.channelUpdate
  rw [ho, List.foldl_append, List.foldl_cons]
  congr 1
  change Chip.parkExitTest _ = _
  unfold Chip.parkExitTest
  rw [if_pos ((Chip.leavesParked_iff hp hm).2 hl)]

/-! ### The frames built in the course of an update -/

/-- Where x ends a list without repetition, nothing follows its place. -/
theorem nothing_after_last {α : Type} {l1 l2 rest : List α} {x : α} (hn : (l1 ++ x :: l2).Nodup) (h : l1 ++ x :: l2 = rest ++ [x]) : l2 = [] := by
  rcases List.eq_nil_or_concat l2 with h2 | ⟨l3, y, rfl⟩
  · exact h2
  · have : l1 ++ x :: (l3 ++ [y]) = (l1 ++ x :: l3) ++ [y] := by simp
    rw [List.concat_eq_append, this] at h
    have hy := List.append_inj' h rfl
    have : y = x := by simpa using hy.2
    subst this
    exfalso
    have h3 := (List.nodup_cons.1 (List.nodup_append.1 hn).2.1).1
    exact h3 (by simp)

/-- Some turns of an update, in any order, keep what an update keeps. -/
theorem Chip.takeUpdates_frame {st : Chip → Chip} (hs : StatusTrigger st) (c : Chip) (l : List Taker) : UpdateFrame c (l.foldl (Chip.takeUpdate st) c) :=
  foldl_induct (P := fun e => UpdateFrame c e) (fun e y h => h.trans (Chip.takeUpdate_frame hs e y)) _ _ (UpdateFrame.refl _)

/-- The turns of the other blocks leave ATX its record. -/
theorem Chip.takeUpdates_atx {st : Chip → Chip} (hs : StatusTrigger st) (l : List Taker) (h : Taker.atx ∉ l) : ∀ c, (l.foldl (Chip.takeUpdate st) c).atx = c.atx := by
  induction l with
  | nil => intro c; rfl
  | cons y ys ih =>
    intro c
    rw [List.foldl_cons, ih (fun hh => h (List.mem_cons_of_mem _ hh)), Chip.takeUpdate_atx hs c y (fun e => h (e ▸ List.mem_cons_self))]

/-- The turns of the other blocks leave RTX its record. -/
theorem Chip.takeUpdates_rtx {st : Chip → Chip} (hs : StatusTrigger st) (l : List Taker) (h : Taker.rtx ∉ l) : ∀ c, (l.foldl (Chip.takeUpdate st) c).rtx = c.rtx := by
  induction l with
  | nil => intro c; rfl
  | cons y ys ih =>
    intro c
    rw [List.foldl_cons, ih (fun hh => h (List.mem_cons_of_mem _ hh)), Chip.takeUpdate_rtx hs c y (fun e => h (e ▸ List.mem_cons_self))]

/-- A block in the course of an update sees what the update leaves. -/
theorem UpdateFrame.during {c g e : Chip} (h : UpdateFrame c.decodeNow g) (k : UpdateFrame c.decodeNow e) : g.DuringUpdate e :=
  ⟨h.ulr.trans k.ulr.symm, h.slots.trans k.slots.symm, h.cdc.trans k.cdc.symm, h.tables.trans k.tables.symm, h.bga.trans k.bga.symm, by rw [k.btm, h.btm]⟩

/-- An update has ATX build one accessory frame, of the items as they stand at its turn (R177). -/
theorem Chip.channelUpdate_accessoryBuilt {st : Chip → Chip} (hs : StatusTrigger st) (b c : Chip) (order : List Taker) (hb : b.atx = c.atx) :
    b.AccessoryBuilt (c.channelUpdate st order) order := by
  obtain ⟨l1, l2, hl⟩ := List.append_of_mem (mem_takers .atx order)
  have hn := nodup_takers order
  rw [hl] at hn
  have n1 : Taker.atx ∉ l1 := fun h => (List.nodup_append.1 hn).2.2 _ h _ List.mem_cons_self rfl
  have n2 : Taker.atx ∉ l2 := (List.nodup_cons.1 (List.nodup_append.1 hn).2.1).1
  have he : c.channelUpdate st order = l2.foldl (Chip.takeUpdate st) ((l1.foldl (Chip.takeUpdate st) c.decodeNow).takeUpdate st .atx) := by
    unfold Chip.channelUpdate; rw [hl, List.foldl_append, List.foldl_cons]
  refine ⟨l1.foldl (Chip.takeUpdate st) c.decodeNow, UpdateFrame.during (Chip.takeUpdates_frame hs _ _) (Chip.channelUpdate_frame hs c order), ?_, ?_⟩
  · rw [he, Chip.takeUpdates_atx hs l2 n2]
    change Atx.putAccessory (Chip.atx (List.foldl _ _ _)) _ = _
    rw [Chip.takeUpdates_atx hs l1 n1, hb]; rfl
  · intro rest hr
    have : l2 = [] := nothing_after_last hn (hl ▸ hr)
    rw [he, this]; rfl

/-- An update has RTX take one turn, with the items as they stand at it (R173, R174). -/
theorem Chip.channelUpdate_rtxTurn {st : Chip → Chip} (hs : StatusTrigger st) (b c : Chip) (order : List Taker) (hb : b.rtx = c.rtx) :
    ∃ g : Chip, UpdateFrame c.decodeNow g ∧ g.rtx = b.rtx ∧ (c.channelUpdate st order).rtx = (st g).rtx
      ∧ ∀ rest, takers order = rest ++ [.rtx] → g.statusPayload = Chip.statusPayload { c.channelUpdate st order with rtx := b.rtx } := by
  obtain ⟨l1, l2, hl⟩ := List.append_of_mem (mem_takers .rtx order)
  have hn := nodup_takers order
  rw [hl] at hn
  have n1 : Taker.rtx ∉ l1 := fun h => (List.nodup_append.1 hn).2.2 _ h _ List.mem_cons_self rfl
  have n2 : Taker.rtx ∉ l2 := (List.nodup_cons.1 (List.nodup_append.1 hn).2.1).1
  have he : c.channelUpdate st order = l2.foldl (Chip.takeUpdate st) ((l1.foldl (Chip.takeUpdate st) c.decodeNow).takeUpdate st .rtx) := by
    unfold Chip.channelUpdate; rw [hl, List.foldl_append, List.foldl_cons]
  have hgr : (l1.foldl (Chip.takeUpdate st) c.decodeNow).rtx = b.rtx := by rw [Chip.takeUpdates_rtx hs l1 n1, hb]; rfl
  refine ⟨l1.foldl (Chip.takeUpdate st) c.decodeNow, Chip.takeUpdates_frame hs _ _, hgr, ?_, ?_⟩
  · rw [he, Chip.takeUpdates_rtx hs l2 n2]; rfl
  · intro rest hr
    have : l2 = [] := nothing_after_last hn (hl ▸ hr)
    rw [he, this, ← hgr]
    generalize l1.foldl (Chip.takeUpdate st) c.decodeNow = g
    rcases hs with rfl | rfl <;> rfl

end Sys2Proof.Machine
end

