-- ==== Sys2Proof/Laws/Evaluation.lean ====
section
/-! SUPPORT. An evaluation completion and its grant event as a whole: what they leave, and what grants the blocks hold after
them, whatever the orders. -/

namespace Sys2Proof.Machine

/-- The held grants: drive, winch, lights. -/
def Chip.heldGrants (c : Chip) : Nat × Nat × Nat := (c.drm.grant, c.wnc.grant, c.lsq.grant)

/-- A new light picture keeps the held light grant. -/
theorem Chip.relightIf_grant (c : Chip) (e : Bool) : (c.relightIf e).lsq.grant = c.lsq.grant := by cases e <;> rfl
/-- A new mixer record keeps the held light grant. -/
theorem Chip.setDrive_grant (c : Chip) (d : Drm) : (c.setDrive d).lsq.grant = c.lsq.grant := by
  unfold Chip.setDrive; dsimp only; rw [Chip.relightIf_grant]
/-- A cap change keeps the held light grant. -/
theorem Chip.recapIf_lightGrant (c : Chip) (e : Bool) : (c.recapIf e).lsq.grant = c.lsq.grant := by
  unfold Chip.recapIf; split
  · exact Chip.setDrive_grant _ _
  · rfl
/-- A report to ALT keeps the held light grant. -/
theorem Chip.alert_lightGrant (c : Chip) (f : Alt → Alt) : (c.alert f).lsq.grant = c.lsq.grant := by
  unfold Chip.alert; rw [Chip.relightIf_grant]
/-- A new winch record keeps the held light grant. -/
theorem Chip.setWinch_lightGrant (c : Chip) (w : Winch) : (c.setWinch w).lsq.grant = c.lsq.grant := by
  unfold Chip.setWinch; dsimp only; rw [Chip.relightIf_grant, Chip.recapIf_lightGrant, Chip.alert_lightGrant]

/-- The lock test keeps the held winch grant. -/
theorem Winch.lockTest_grant (w : Winch) (b : Bool) : (w.lockTest b).grant = w.grant := by
  unfold Winch.lockTest Winch.toLocked; repeat' split
  all_goals rfl
/-- A grant event gives the winch its grant. -/
theorem Winch.takeGrant_grant (w : Winch) (cfg : WinchCfg) (g : Nat) (l : Level) (b : Bool) : (w.takeGrant cfg g l b).grant = g := by
  unfold Winch.takeGrant Winch.activate Winch.account
  repeat' split
  all_goals rfl

/-- A new winch record reports WINCH_STALL alone. -/
theorem Chip.setWinch_caused (c : Chip) (w : Winch) (a : Alert) (ha : a ≠ .winchStall) : (c.setWinch w).alt.caused a = c.alt.caused a := by
  rw [Chip.setWinch_alt, Alt.caused_cause, if_neg (fun e => ha e.symm)]

/-- A grant taken reports WINCH_STALL alone. -/
theorem Chip.takeGrantOf_caused (c : Chip) (t : EvalTaker) (a : Alert) (ha : a ≠ .winchStall) : (c.takeGrantOf t).alt.caused a = c.alt.caused a := by
  cases t <;> try rfl
  exact Chip.setWinch_caused _ _ _ ha

/-- A grant event reports WINCH_STALL alone. -/
theorem Chip.grantEvent_caused (c : Chip) (o : List EvalTaker) (a : Alert) (ha : a ≠ .winchStall) : (c.grantEvent o).alt.caused a = c.alt.caused a :=
  foldl_induct (P := fun e => e.alt.caused a = c.alt.caused a) (fun e y h => (Chip.takeGrantOf_caused e y a ha).trans h) _ _ rfl

/-- A grant taken leaves BGA and MDC. -/
theorem Chip.takeGrantOf_bga_mdc (c : Chip) (t : EvalTaker) : (c.takeGrantOf t).bga = c.bga ∧ (c.takeGrantOf t).mdc = c.mdc := by
  cases t <;> constructor <;> first | rfl | simp [Chip.takeGrantOf]

/-- After a grant event in ACTIVE DRM holds its grant (R74, R157). -/
theorem Chip.grantEvent_drive (c : Chip) (o : List EvalTaker) (hm : c.mdc.mode = .active) : (c.grantEvent o).drm.grant = c.bga.drive := by
  refine foldl_establish (P := fun e => e.drm.grant = c.bga.drive) (Q := fun e => e.bga = c.bga ∧ e.mdc = c.mdc) (x := .drm) ?_ ?_ ?_ (evalTakers o) c (mem_evalTakers _ _) ⟨rfl, rfl⟩
  · intro e y h; exact ⟨(Chip.takeGrantOf_bga_mdc e y).1.trans h.1, (Chip.takeGrantOf_bga_mdc e y).2.trans h.2⟩
  · intro e h
    change (e.takeDriveGrant e.bga.drive).drm.grant = _
    unfold Chip.takeDriveGrant
    rw [h.1, if_pos (by rw [h.2]; exact hm)]; rfl
  · intro e y h k
    cases y <;> try exact k
    · change (e.takeDriveGrant e.bga.drive).drm.grant = _
      unfold Chip.takeDriveGrant
      rw [h.1, if_pos (by rw [h.2]; exact hm)]; rfl
    · exact (e.setWinch_drm _).2.2.2.2.2.trans k

/-- After a grant event WNC holds its grant (R102, R157). -/
theorem Chip.grantEvent_winch (c : Chip) (o : List EvalTaker) : (c.grantEvent o).wnc.grant = c.bga.winch := by
  refine foldl_establish (P := fun e => e.wnc.grant = c.bga.winch) (Q := fun e => e.bga = c.bga) (x := .wnc) ?_ ?_ ?_ (evalTakers o) c (mem_evalTakers _ _) rfl
  · intro e y h; exact (Chip.takeGrantOf_bga_mdc e y).1.trans h
  · intro e h
    change (e.takeWinchGrant e.bga.winch).wnc.grant = _
    unfold Chip.takeWinchGrant
    rw [Chip.setWinch_wnc, h]; exact Winch.takeGrant_grant _ _ _ _ _
  · intro e y h k
    cases y <;> try exact k
    change (e.takeWinchGrant e.bga.winch).wnc.grant = _
    unfold Chip.takeWinchGrant
    rw [Chip.setWinch_wnc, h]; exact Winch.takeGrant_grant _ _ _ _ _

/-- After a grant event LSQ holds its grant (R126, R157). -/
theorem Chip.grantEvent_lights (c : Chip) (o : List EvalTaker) : (c.grantEvent o).lsq.grant = c.bga.lights := by
  refine foldl_establish (P := fun e => e.lsq.grant = c.bga.lights) (Q := fun e => e.bga = c.bga) (x := .lsq) ?_ ?_ ?_ (evalTakers o) c (mem_evalTakers _ _) rfl
  · intro e y h; exact (Chip.takeGrantOf_bga_mdc e y).1.trans h
  · intro e h
    change e.bga.lights = _
    rw [h]
  · intro e y h k
    cases y <;> try exact k
    · change (e.takeWinchGrant e.bga.winch).lsq.grant = _
      unfold Chip.takeWinchGrant
      rw [Chip.setWinch_lightGrant]; exact k
    · change e.bga.lights = _
      rw [h]

/-- The battery causes (R142). -/
theorem Alt.battery_caused (t : Alt) (l : Level) (f tr : Bool) : (t.battery l f tr).caused .battLow = decide (1 ≤ l.severity) ∧ (t.battery l f tr).caused .battCutoff = decide (l = .cutoff) ∧ (t.battery l f tr).caused .capacity = f := by
  unfold Alt.battery
  simp [Alt.caused_cause]

/-- What an evaluation completion leaves. -/
structure EvaluationFrame (d c : Chip) : Prop where
  now : c.now = d.now
  spool : c.spoolStart = d.spoolStart
  held : c.held = d.held
  tables : c.tables = d.tables
  ulr : c.ulr = d.ulr
  slots : c.slots = d.slots
  cdc : c.cdc = d.cdc
  stm : c.stm = d.stm
  btm : c.btm = d.btm
  sup : c.sup = d.sup
  rtx : c.rtx = d.rtx
  atx : c.atx = d.atx
  tbs : c.tbs = d.tbs
  mdc : c.mdc = { d.mdc with cutoffTimer := c.mdc.cutoffTimer }

/-- One block's turn. -/
theorem EvaluationFrame.take {d c : Chip} (h : EvaluationFrame d c) (b : Level) (tr : Bool) (o : List EvalTaker) (t : EvalTaker) : EvaluationFrame d (c.takeEvaluation b tr o t) := by
  refine ⟨?_, ?_, ?_, ?_, ?_, ?_, ?_, ?_, ?_, ?_, ?_, ?_, ?_, ?_⟩
  · simp [h.now]
  · simp [h.spool]
  · simp [h.held]
  · simp [h.tables]
  · simp [h.ulr]
  · simp [h.slots]
  · simp [h.cdc]
  · simp [h.stm]
  · simp [h.btm]
  · simp [h.sup]
  · simp [h.rtx]
  · simp [h.atx]
  · simp [h.tbs]
  · have : (c.takeEvaluation b tr o t).mdc = { c.mdc with cutoffTimer := (c.takeEvaluation b tr o t).mdc.cutoffTimer } := by
      cases t <;> (simp only [Chip.takeEvaluation]; try (split)) <;> first | rfl | (simp)
    rw [this, h.mdc]

/-- MDC's record stands in the turns of the others. -/
theorem Chip.takeEvaluation_mdc_other (c : Chip) (b : Level) (tr : Bool) (o : List EvalTaker) (t : EvalTaker) (ht : t ≠ .mdc) : (c.takeEvaluation b tr o t).mdc = c.mdc := by
  cases t <;> first | exact absurd rfl ht | (simp only [Chip.takeEvaluation]; try split) <;> first | rfl | simp

/-- BGA's record stands in the turns of the others. -/
theorem Chip.takeEvaluation_bga_other (c : Chip) (b : Level) (tr : Bool) (o : List EvalTaker) (t : EvalTaker) (ht : t ≠ .bga) : (c.takeEvaluation b tr o t).bga = c.bga := by
  cases t <;> first | exact absurd rfl ht | (simp only [Chip.takeEvaluation]; try split) <;> first | rfl | simp

/-- The held grants stand in the turns of the blocks other than BGA. -/
theorem Chip.takeEvaluation_grants (c : Chip) (b : Level) (tr : Bool) (o : List EvalTaker) (t : EvalTaker) (ht : t ≠ .bga) : Chip.heldGrants (c.takeEvaluation b tr o t) = Chip.heldGrants c := by
  have hr : ∀ (d : Chip) e, Chip.heldGrants (d.recapIf e) = Chip.heldGrants d := by
    intro d e
    unfold Chip.heldGrants
    rw [Chip.recapIf_lightGrant, (d.recapIf_drm e).2.2.2.2.2, Chip.recapIf_wnc]
  cases t
  · unfold Chip.heldGrants; simp only [Chip.takeEvaluation]; rw [Chip.alert_lightGrant]; rfl
  · exact hr _ _
  · simp only [Chip.takeEvaluation]
    split
    · unfold Chip.heldGrants Chip.winchLevelChange
      rw [Chip.setWinch_lightGrant, (Chip.setWinch_drm _ _).2.2.2.2.2, Chip.setWinch_wnc]
      have : ∀ v : Winch, (v.settle c.tables.winchCfg).grant = v.grant := fun _ => rfl
      rw [this, ← Winch.lockTest_grant c.wnc c.winchLockCause]
    · rfl
  · simp only [Chip.takeEvaluation]; unfold Chip.heldGrants; rw [Chip.relightIf_grant]; rfl
  · rfl
  · exact absurd rfl ht

/-- The causes other than WINCH_STALL stand in the turns of the blocks other than ALT. -/
theorem Chip.takeEvaluation_caused (c : Chip) (b : Level) (tr : Bool) (o : List EvalTaker) (t : EvalTaker) (ht : t ≠ .alt) (a : Alert) (ha : a ≠ .winchStall) : (c.takeEvaluation b tr o t).alt.caused a = c.alt.caused a := by
  cases t
  · exact absurd rfl ht
  · simp only [Chip.takeEvaluation, Chip.recapIf_alt]
  · simp only [Chip.takeEvaluation]
    split
    · exact Chip.setWinch_caused _ _ _ ha
    · rfl
  · rfl
  · rfl
  · simp only [Chip.takeEvaluation]
    rw [Chip.grantEvent_caused _ _ _ ha]

/-- The whole evaluation completion. -/
theorem Chip.evaluate_frame (c : Chip) (b : Level) (tr : Bool) (o : List EvalTaker) : EvaluationFrame c (c.evaluate b tr o) :=
  foldl_induct (P := fun e => EvaluationFrame c e) (fun _ y h => h.take b tr o y) _ _
    ⟨rfl, rfl, rfl, rfl, rfl, rfl, rfl, rfl, rfl, rfl, rfl, rfl, rfl, rfl⟩

/-- A grant event gives the winch the grant it names, whatever the order of the consumers (R98 to R104). -/
theorem Chip.grantEvent_wnc (c : Chip) (o : List EvalTaker) : (c.grantEvent o).wnc
    = (c.wnc.takeGrant c.tables.winchCfg c.bga.winch c.btm.level c.boostDisable).settle c.tables.winchCfg := by
  have tk : ∀ (e : Chip) y, (e.takeGrantOf y).tables = e.tables ∧ (e.takeGrantOf y).btm = e.btm ∧ (e.takeGrantOf y).sup = e.sup := by
    intro e y
    cases y <;> refine ⟨?_, ?_, ?_⟩ <;> first | rfl | simp [Chip.takeGrantOf]
  refine foldl_once (P := fun e => e.wnc = _) 
    (Q := fun e => e.bga = c.bga ∧ e.tables = c.tables ∧ e.btm = c.btm ∧ e.sup = c.sup ∧ e.wnc = c.wnc)
    (x := EvalTaker.wnc) ?_ ?_ ?_ (evalTakers o) c (mem_evalTakers _ _) (nodup_evalTakers _) ⟨rfl, rfl, rfl, rfl, rfl⟩
  · intro e y hy h
    obtain ⟨t1, t2, t3⟩ := tk e y
    refine ⟨(Chip.takeGrantOf_bga_mdc e y).1.trans h.1, t1.trans h.2.1, t2.trans h.2.2.1, t3.trans h.2.2.2.1, ?_⟩
    rw [← h.2.2.2.2]
    cases y <;> first | exact absurd rfl hy | rfl
  · intro e ⟨h1, h2, h3, h4, h5⟩
    change (e.takeWinchGrant e.bga.winch).wnc = _
    unfold Chip.takeWinchGrant Chip.boostDisable Chip.switchBit
    rw [Chip.setWinch_wnc, h1, h2, h3, h4, h5]
  · intro e y hy h
    rw [← h]
    cases y <;> first | exact absurd rfl hy | rfl

end Sys2Proof.Machine
end

