-- ==== Sys2Proof/Laws/Picture.lean ====
section
/-! SUPPORT. The light picture: an output level before and after the first grant event, what forming it leaves, that it is
the picture of the part that holds it, what an alert change, the mixer's announcements and a new winch record do to it, and
that it keeps the source WINCH with the winch state. -/

namespace Sys2Proof.Machine

/-! ### One output level -/

/-- Before the first grant event a level is 0, whatever the demand and the raw level (R129). -/
@[simp] theorem Lsq.levelUnder_dark {l : Lsq} (h : l.granted = false) (demand raw : Nat) : l.levelUnder demand raw = 0 := by
  simp [Lsq.levelUnder, h]

/-- From the first grant event on a level is the raw level scaled to the held grant (R126). -/
@[simp] theorem Lsq.levelUnder_granted {l : Lsq} (h : l.granted = true) (demand raw : Nat) :
    l.levelUnder demand raw = scaleTo l.grant demand raw := by
  simp [Lsq.levelUnder, h]

/-- A raw level of 0 gives a level of 0. -/
@[simp] theorem Lsq.levelUnder_zero (l : Lsq) (demand : Nat) : l.levelUnder demand 0 = 0 := by
  simp [Lsq.levelUnder, scaleTo]

/-- A level of the picture. -/
theorem Chip.picture_level (c : Chip) (o : Fin 8) :
    c.picture.level[o] = c.lsq.levelUnder c.picture.demand c.picture.raw[o] := by
  simp [Chip.picture]

/-- A picture formed before the first grant event shows nothing (R129). -/
theorem Chip.picture_dark {c : Chip} (h : c.lsq.granted = false) : c.picture.level = Vector.replicate 8 0 := by
  ext i hi
  have := c.picture_level ⟨i, hi⟩
  simpa [h] using this

/-! ### What forming it leaves -/

/-- The picture stands once it is formed. -/
theorem Chip.picture_relight (c : Chip) : c.relight.picture = c.picture := rfl

/-- Forming the picture leaves the timer, the timebase, its next event, the held grant and whether a grant event has come
(R109). -/
theorem Chip.relightIf_kept (c : Chip) (b : Bool) :
    (c.relightIf b).lsq.brakeHold = c.lsq.brakeHold ∧ (c.relightIf b).lsq.timebase = c.lsq.timebase
      ∧ (c.relightIf b).lsq.nextEvent = c.lsq.nextEvent ∧ (c.relightIf b).lsq.grant = c.lsq.grant
      ∧ (c.relightIf b).lsq.granted = c.lsq.granted := by
  cases b <;> exact ⟨rfl, rfl, rfl, rfl, rfl⟩

/-- The picture is formed where the condition says so. -/
theorem Chip.relightIf_lsq (c : Chip) (b : Bool) :
    (b = false → (c.relightIf b).lsq = c.lsq) ∧ (b = true → (c.relightIf b).lsq = (c.relightIf b).picture) := by
  refine ⟨fun h => ?_, fun h => ?_⟩ <;> subst h <;> rfl

/-- An alert change leaves them too. -/
theorem Chip.alert_kept (c : Chip) (f : Alt → Alt) :
    (c.alert f).lsq.brakeHold = c.lsq.brakeHold ∧ (c.alert f).lsq.timebase = c.lsq.timebase
      ∧ (c.alert f).lsq.nextEvent = c.lsq.nextEvent ∧ (c.alert f).lsq.grant = c.lsq.grant
      ∧ (c.alert f).lsq.granted = c.lsq.granted :=
  Chip.relightIf_kept { c with alt := f c.alt } _

/-- LSQ forms its picture exactly where the top alert changes (R169). -/
theorem Chip.alert_lsq (c : Chip) (f : Alt → Alt) :
    c.alert f = { c with alt := f c.alt, lsq := (c.alert f).lsq }
      ∧ ((c.alert f).topAlert = c.topAlert → (c.alert f).lsq = c.lsq)
      ∧ ((c.alert f).topAlert ≠ c.topAlert → (c.alert f).lsq = (c.alert f).picture) := by
  refine ⟨rfl, fun h => ?_, fun h => ?_⟩
  · exact (Chip.relightIf_lsq { c with alt := f c.alt } _).1 (decide_eq_false fun n => n h)
  · exact (Chip.relightIf_lsq { c with alt := f c.alt } _).2 (decide_eq_true h)

/-- The brake-hold timer where the mixer's record takes its place (R112). -/
theorem Chip.setDrive_brakeHold (c : Chip) (d : Drm) : (c.setDrive d).lsq.brakeHold
    = if (stopsDriving c.drm.front.state d.front.state || stopsDriving c.drm.rear.state d.rear.state)
        && decide (0 < c.tables.driveCfg.brakeHold)
      then some (c.now + c.tables.driveCfg.brakeHold) else c.lsq.brakeHold :=
  (Chip.relightIf_kept _ _).1

/-- A cap change leaves the timebase, its next event, the held grant and whether a grant event has come. -/
theorem Chip.recap_kept (c : Chip) :
    c.recap.lsq.timebase = c.lsq.timebase ∧ c.recap.lsq.nextEvent = c.lsq.nextEvent ∧ c.recap.lsq.grant = c.lsq.grant
      ∧ c.recap.lsq.granted = c.lsq.granted :=
  (Chip.relightIf_kept _ _).2

/-- A new winch record: ALT and LSQ first, then the drive's caps, then the picture (R99, R106). -/
theorem Chip.setWinch_stages (c : Chip) (w : Winch) :
    ∃ e : Chip, e = { c with wnc := w.settle c.tables.winchCfg
                             alt := c.alt.cause .winchStall (decide (w.state = .stalled)), lsq := e.lsq }
      ∧ (e.lsq.brakeHold = c.lsq.brakeHold ∧ e.lsq.timebase = c.lsq.timebase ∧ e.lsq.nextEvent = c.lsq.nextEvent
        ∧ e.lsq.grant = c.lsq.grant ∧ e.lsq.granted = c.lsq.granted)
      ∧ c.setWinch w
        = (e.recapIf (decide (c.wnc.state.driven ≠ w.state.driven))).relightIf (decide (c.wnc.state ≠ w.state)) :=
  ⟨_, rfl, Chip.alert_kept { c with wnc := w.settle c.tables.winchCfg } _, rfl⟩

/-- Where the winch becomes driven or stops being so in ACTIVE, the drive applies its caps anew (R66). -/
theorem Chip.setWinch_recap {c : Chip} {w : Winch} (hs : w.state.driven ≠ c.wnc.state.driven) (hm : c.mdc.mode = .active) :
    (c.setWinch w).drm = ({ c with wnc := w.settle c.tables.winchCfg } : Chip).recap.drm
      ∧ (c.setWinch w).lsq.brakeHold = ({ c with wnc := w.settle c.tables.winchCfg } : Chip).recap.lsq.brakeHold := by
  obtain ⟨e, he, hk, h⟩ := c.setWinch_stages w
  have hr : e.recapIf (decide (c.wnc.state.driven ≠ w.state.driven)) = e.recap := by
    unfold Chip.recapIf
    rw [if_pos]
    rw [he]; simpa [hm] using fun k => hs (Eq.symm k)
  rw [h, hr]
  refine ⟨?_, ?_⟩
  · rw [Chip.relightIf_drm, he]; rfl
  · rw [(Chip.relightIf_kept _ _).1]
    unfold Chip.recap Chip.handleAxles
    rw [Chip.setDrive_brakeHold, Chip.setDrive_brakeHold, hk.1, he]
    rfl

/-- Elsewhere a new winch record leaves the brake-hold timer. -/
theorem Chip.setWinch_brakeHold {c : Chip} {w : Winch} (hq : w.state.driven = c.wnc.state.driven ∨ c.mdc.mode ≠ .active) :
    (c.setWinch w).lsq.brakeHold = c.lsq.brakeHold := by
  obtain ⟨e, he, hk, h⟩ := c.setWinch_stages w
  have hr : e.recapIf (decide (c.wnc.state.driven ≠ w.state.driven)) = e := by
    unfold Chip.recapIf
    rw [if_neg]
    rw [he]; rcases hq with hq | hq <;> simp [hq]
  rw [h, hr, (Chip.relightIf_kept _ _).1, hk.1]

/-- A new winch record leaves the timebase, its next event, the held grant and whether a grant event has come. -/
theorem Chip.setWinch_kept (c : Chip) (w : Winch) :
    (c.setWinch w).lsq.timebase = c.lsq.timebase ∧ (c.setWinch w).lsq.nextEvent = c.lsq.nextEvent
      ∧ (c.setWinch w).lsq.grant = c.lsq.grant ∧ (c.setWinch w).lsq.granted = c.lsq.granted := by
  obtain ⟨e, -, hk, h⟩ := c.setWinch_stages w
  have hq := Chip.relightIf_kept (e.recapIf (decide (c.wnc.state.driven ≠ w.state.driven))) (decide (c.wnc.state ≠ w.state))
  rw [h, hq.2.1, hq.2.2.1, hq.2.2.2.1, hq.2.2.2.2]
  unfold Chip.recapIf
  split
  · exact ⟨e.recap_kept.1.trans hk.2.1, e.recap_kept.2.1.trans hk.2.2.1, e.recap_kept.2.2.1.trans hk.2.2.2.1,
      e.recap_kept.2.2.2.trans hk.2.2.2.2⟩
  · exact hk.2

/-- A change of winch state forms the picture (R106, R109). -/
theorem Chip.setWinch_picture {c : Chip} {w : Winch} (hs : w.state ≠ c.wnc.state) :
    (c.setWinch w).lsq = (c.setWinch w).picture := by
  obtain ⟨e, -, -, h⟩ := c.setWinch_stages w
  rw [h]
  unfold Chip.relightIf
  rw [if_pos (by simpa using fun k => hs (Eq.symm k))]
  rfl

/-- A record of the same state that changes no latch leaves LSQ. -/
theorem Chip.setWinch_dark {c : Chip} {w : Winch} (hs : w.state = c.wnc.state)
    (hl : (c.setWinch w).alt.latched = c.alt.latched) : (c.setWinch w).lsq = c.lsq := by
  rw [Chip.setWinch_alt] at hl
  have ht : ({ c with wnc := w.settle c.tables.winchCfg }.alert fun t =>
      t.cause .winchStall (decide (w.state = WinchState.stalled))).lsq = c.lsq := by
    unfold Chip.alert
    simp [Chip.topAlert, Alt.top, Alt.has, hl, Chip.relightIf]
  unfold Chip.setWinch
  simp only [hs, ne_eq, not_true_eq_false, decide_false] at *
  exact ht

/-- The source WINCH as LSQ holds it, against the winch state (R116). -/
theorem Chip.winchLit_iff (c : Chip) : c.WinchLit ↔ c.lsq.active[6] = c.sourceActive .winch := by
  unfold Chip.WinchLit WinchState.lights Chip.sourceActive
  show (c.lsq.active[6] = true ↔ _) ↔ _
  cases c.wnc.state <;> simp

/-- Forming the picture sets the source WINCH by the winch state that stands (R116). -/
theorem Chip.winchLit_relight (c : Chip) : c.relight.WinchLit := (Chip.winchLit_iff _).2 rfl

/-- An LSQ event, taken or not, leaves the source WINCH as the winch state says. -/
theorem Chip.winchLit_relightIf {c : Chip} (h : c.WinchLit) (b : Bool) : (c.relightIf b).WinchLit := by
  cases b
  · exact h
  · exact c.winchLit_relight

/-- So does an alert change. -/
theorem Chip.winchLit_alert {c : Chip} (h : c.WinchLit) (f : Alt → Alt) : (c.alert f).WinchLit :=
  Chip.winchLit_relightIf (c := { c with alt := f c.alt }) h _

/-- So does a new mixer record. -/
theorem Chip.winchLit_setDrive {c : Chip} (h : c.WinchLit) (d : Drm) : (c.setDrive d).WinchLit := by
  unfold Chip.setDrive; dsimp only; refine Chip.winchLit_relightIf ?_ _; exact h

/-- In DORMANT no output has a winner, a raw level or a level, and the light demand is 0 (R120, R125). -/
theorem Chip.picture_dormant {c : Chip} (h : c.mdc.mode = .dormant) :
    (∀ o : Fin 8, c.picture.level[o] = 0 ∧ c.picture.winner[o] = none ∧ c.picture.raw[o] = 0) ∧ c.picture.demand = 0 := by
  have he : ∀ src, c.sourceEligible src = false := by intro src; unfold Chip.sourceEligible; rw [h]
  have hw : ∀ o, c.winnerOf o = none := by intro o; unfold Chip.winnerOf Chip.candidates; simp [he]
  have hraw : ∀ o : Fin 8, c.picture.raw[o] = 0 := by intro o; simp [Chip.picture, hw, Chip.rawOf]
  have hd : c.picture.demand = 0 := by
    show lightCurrent _ c.picture.raw = 0
    unfold lightCurrent
    simp [hraw]
  refine ⟨fun o => ⟨?_, by simp [Chip.picture, hw], hraw o⟩, hd⟩
  rw [Chip.picture_level, hraw o]; simp

/-- With a brake-hold time of 0, handling the axles leaves the brake-hold timer (R112; assumption log, entry 38). -/
theorem Chip.handleAxles_brakeHold_zero {c : Chip} (h : c.tables.driveCfg.brakeHold = 0) (d : Drm) :
    (c.handleAxles d).lsq.brakeHold = c.lsq.brakeHold := by
  unfold Chip.handleAxles
  rw [Chip.setDrive_brakeHold]
  simp [h]

end Sys2Proof.Machine
end

