-- ==== Sys2Proof/Laws/Switches.lean ====
section
/-! SUPPORT. What a write of the switch space does: bit by bit, as a whole, and for a write of one acting bit; the strobe
RESET_CHARGE, and the entry into PARKED that such a write can bring. -/

namespace Sys2Proof.Machine

/-! ### Bits -/

/-- One bit of the 32, as a shift. -/
theorem oneBit_eq_shift (n : Nat) : oneBit n = 1#32 <<< n := by
  apply BitVec.eq_of_toNat_eq
  simp [oneBit, Nat.shiftLeft_eq]

/-- Which bits one bit has. -/
theorem oneBit_getLsbD {n k : Nat} (hk : k < 32) : (oneBit n).getLsbD k = decide (k = n) := by
  rw [oneBit_eq_shift, BitVec.getLsbD_shiftLeft]
  by_cases e : k = n
  · subst e; simp [hk]
  · by_cases l : k < n
    · simp [e, l]
    · have : k - n ≠ 0 := by omega
      simp [e, this]

/-- The bits that one bit has not. -/
theorem oneBit_other {n k : Nat} (hk : k < 32) (h : k ≠ n) : (oneBit n).getLsbD k = false := by
  rw [oneBit_getLsbD hk, decide_eq_false h]

/-- Which bits the value of a one-bit write has. -/
theorem bitValue_getLsbD {n k : Nat} (hk : k < 32) (v : Bool) :
    (bitValue n v).getLsbD k = (v && decide (k = n)) := by
  cases v
  · simp [bitValue]
  · simp [bitValue, oneBit_getLsbD hk]

/-- The bits that can be written. -/
theorem writableBits_getLsbD {n : Nat} (h : n < 32) : writableBits.getLsbD n = decide (n < 12 ∨ n = 13 ∨ n = 14) := by
  revert h; revert n; decide

/-- A write changes the read/write bits that it names and no other (R187). -/
theorem mergeSwitches_getLsbD (old mask value : BitVec 32) {n : Nat} (h : n < 32) :
    (mergeSwitches old mask value).getLsbD n
      = if mask.getLsbD n ∧ (n < 12 ∨ n = 13 ∨ n = 14) then value.getLsbD n else old.getLsbD n := by
  unfold mergeSwitches
  simp only [BitVec.getLsbD_or, BitVec.getLsbD_and, BitVec.getLsbD_not, writableBits_getLsbD h, h, decide_true,
    Bool.true_and]
  by_cases h1 : mask.getLsbD n = true <;> by_cases h2 : n < 12 ∨ n = 13 ∨ n = 14 <;> simp [h1, h2]

/-- A write of a bit is its naming and its value. -/
theorem writesBit_iff (mask value : BitVec 32) (n : Nat) (v : Bool) :
    writesBit mask value n v = true ↔ mask.getLsbD n = true ∧ value.getLsbD n = v := by
  simp [writesBit]

/-- What a one-bit write writes. -/
theorem writesBit_oneBit {n k : Nat} (hk : k < 32) (v b : Bool) :
    writesBit (oneBit n) (bitValue n v) k b = (decide (k = n) && v == b) := by
  simp only [writesBit, oneBit_getLsbD hk, bitValue_getLsbD hk]
  by_cases e : k = n <;> simp [e]

/-- What a write that does not name a bit leaves of it. -/
theorem mergeSwitches_unchanged {old mask value : BitVec 32} {n : Nat} (h : n < 32) (hm : mask.getLsbD n = false) :
    (old ^^^ mergeSwitches old mask value).getLsbD n = false := by
  simp [mergeSwitches_getLsbD _ _ _ h, hm]

/-- A write that names no override bit changes none. -/
theorem mergeSwitches_overrides {old mask value : BitVec 32} (h : ∀ n, 4 ≤ n → n < 12 → mask.getLsbD n = false) :
    (old ^^^ mergeSwitches old mask value).extractLsb' 4 8 = 0#8 := by
  apply BitVec.eq_of_getLsbD_eq
  intro i hi
  have := mergeSwitches_unchanged (old := old) (value := value) (n := 4 + i) (by omega) (h _ (by omega) (by omega))
  simp only [BitVec.getLsbD_extractLsb', this]
  simp

/-- A one-bit write changes its bit where that stood otherwise. -/
theorem mergeSwitches_oneBit_changed (old : BitVec 32) {n : Nat} (h : n < 12 ∨ n = 13 ∨ n = 14) (v : Bool) :
    (old ^^^ mergeSwitches old (oneBit n) (bitValue n v)).getLsbD n = decide (old.getLsbD n ≠ v) := by
  have hn : n < 32 := by omega
  rw [BitVec.getLsbD_xor, mergeSwitches_getLsbD _ _ _ hn, oneBit_getLsbD hn, bitValue_getLsbD hn]
  rw [if_pos ⟨by simp, h⟩]
  cases old.getLsbD n <;> cases v <;> simp

/-! ### A write as a whole -/

/-- The part with the bits written, before any consumer acts. -/
def Chip.written (c : Chip) (mask value : BitVec 32) : Chip :=
  { c with sup := { c.sup with switches := mergeSwitches c.sup.switches mask value } }

/-- A write, turn by turn. -/
theorem Chip.putSwitches_turns (c : Chip) (mask value : BitVec 32) :
    c.putSwitches mask value
      = (((((c.written mask value).driveSwitch (writesBit mask value 0 true)).winchSwitch
        ((c.sup.switches ^^^ mergeSwitches c.sup.switches mask value).getLsbD 1)
        ((c.sup.switches ^^^ mergeSwitches c.sup.switches mask value).getLsbD 13)).chargeSwitch
        (writesBit mask value 12 true)).parkSwitch (writesBit mask value 3 true) (writesBit mask value 3 false)).relightIf
        (decide ((c.sup.switches ^^^ mergeSwitches c.sup.switches mask value).extractLsb' 4 8 ≠ 0#8)) := rfl

/-- A write leaves every block but SUP and the consumers that act. -/
theorem Chip.putSwitches_frame (c : Chip) (mask value : BitVec 32) :
    let t := c.putSwitches mask value
    t = { c.written mask value with stm := t.stm, drm := t.drm, wnc := t.wnc, lsq := t.lsq, btm := t.btm, alt := t.alt,
                                    mdc := t.mdc } := by
  dsimp only
  have hs := Chip.putSwitches_sup c mask value
  generalize hd : c.putSwitches mask value = d at *
  have e : d.now = c.now ∧ d.spoolStart = c.spoolStart ∧ d.held = c.held ∧ d.tables = c.tables ∧ d.ulr = c.ulr
      ∧ d.slots = c.slots ∧ d.cdc = c.cdc ∧ d.bga = c.bga ∧ d.rtx = c.rtx ∧ d.atx = c.atx ∧ d.tbs = c.tbs := by
    rw [← hd]; refine ⟨?_, ?_, ?_, ?_, ?_, ?_, ?_, ?_, ?_, ?_, ?_⟩ <;> simp
  rcases d with ⟨⟩
  simp_all [Chip.written]

/-- A write that names no acting bit and no override bit changes the bits alone. -/
theorem Chip.putSwitches_quiet (c : Chip) (mask value : BitVec 32) (h : ∀ n, n < 14 → n ≠ 2 → mask.getLsbD n = false) :
    c.putSwitches mask value = c.written mask value := by
  have hw : ∀ n b, n < 14 → n ≠ 2 → writesBit mask value n b = false := by
    intro n b h1 h2; simp [writesBit, h n h1 h2]
  have hx : ∀ n, n < 14 → n ≠ 2 → (c.sup.switches ^^^ mergeSwitches c.sup.switches mask value).getLsbD n = false :=
    fun n h1 h2 => mergeSwitches_unchanged (by omega) (h n h1 h2)
  rw [Chip.putSwitches_turns, hx 1 (by omega) (by omega), hx 13 (by omega) (by omega),
    mergeSwitches_overrides (fun n h1 h2 => h n (by omega) (by omega)), hw 0 _ (by omega) (by omega),
    hw 12 _ (by omega) (by omega), hw 3 _ (by omega) (by omega), hw 3 _ (by omega) (by omega)]
  rfl

/-! ### A write of one acting bit -/

/-- DRIVE_INHIBIT: DRM alone takes the write. -/
theorem Chip.putSwitches_drive (c : Chip) (v : Bool) :
    c.putSwitches (oneBit 0) (bitValue 0 v) = (c.written (oneBit 0) (bitValue 0 v)).driveSwitch v := by
  have hm : ∀ k, k < 32 → k ≠ 0 → (oneBit 0).getLsbD k = false := fun k h1 h2 => oneBit_other h1 h2
  rw [Chip.putSwitches_turns, mergeSwitches_unchanged (n := 1) (by omega) (hm 1 (by omega) (by omega)),
    mergeSwitches_unchanged (n := 13) (by omega) (hm 13 (by omega) (by omega)),
    mergeSwitches_overrides (fun n h1 h2 => hm n (by omega) (by omega))]
  simp only [writesBit_oneBit (n := 0) (k := 0) (by omega), writesBit_oneBit (n := 0) (k := 12) (by omega),
    writesBit_oneBit (n := 0) (k := 3) (by omega)]
  cases v <;> rfl

/-- WINCH_INHIBIT: WNC alone takes the write, where it changed the bit. -/
theorem Chip.putSwitches_winch (c : Chip) (v : Bool) :
    c.putSwitches (oneBit 1) (bitValue 1 v)
      = (c.written (oneBit 1) (bitValue 1 v)).winchSwitch (decide (c.winchInhibit ≠ v)) false := by
  have hm : ∀ k, k < 32 → k ≠ 1 → (oneBit 1).getLsbD k = false := fun k h1 h2 => oneBit_other h1 h2
  rw [Chip.putSwitches_turns, mergeSwitches_oneBit_changed _ (n := 1) (by omega),
    mergeSwitches_unchanged (n := 13) (by omega) (hm 13 (by omega) (by omega)),
    mergeSwitches_overrides (fun n h1 h2 => hm n (by omega) (by omega))]
  simp only [writesBit_oneBit (n := 1) (k := 0) (by omega), writesBit_oneBit (n := 1) (k := 12) (by omega),
    writesBit_oneBit (n := 1) (k := 3) (by omega)]
  rfl

/-- PARK_REQUEST: MDC takes the write, and what parking brings follows. -/
theorem Chip.putSwitches_park (c : Chip) (v : Bool) :
    c.putSwitches (oneBit 3) (bitValue 3 v) = (c.written (oneBit 3) (bitValue 3 v)).parkSwitch v (!v) := by
  have hm : ∀ k, k < 32 → k ≠ 3 → (oneBit 3).getLsbD k = false := fun k h1 h2 => oneBit_other h1 h2
  rw [Chip.putSwitches_turns, mergeSwitches_unchanged (n := 1) (by omega) (hm 1 (by omega) (by omega)),
    mergeSwitches_unchanged (n := 13) (by omega) (hm 13 (by omega) (by omega)),
    mergeSwitches_overrides (fun n h1 h2 => hm n (by omega) (by omega))]
  simp only [writesBit_oneBit (n := 3) (k := 0) (by omega), writesBit_oneBit (n := 3) (k := 12) (by omega),
    writesBit_oneBit (n := 3) (k := 3) (by omega)]
  cases v <;> rfl

/-- BOOST_DISABLE: WNC alone takes the write, where it changed the bit. -/
theorem Chip.putSwitches_boost (c : Chip) (v : Bool) :
    c.putSwitches (oneBit 13) (bitValue 13 v)
      = (c.written (oneBit 13) (bitValue 13 v)).winchSwitch false (decide (c.boostDisable ≠ v)) := by
  have hm : ∀ k, k < 32 → k ≠ 13 → (oneBit 13).getLsbD k = false := fun k h1 h2 => oneBit_other h1 h2
  rw [Chip.putSwitches_turns, mergeSwitches_oneBit_changed _ (n := 13) (by omega),
    mergeSwitches_unchanged (n := 1) (by omega) (hm 1 (by omega) (by omega)),
    mergeSwitches_overrides (fun n h1 h2 => hm n (by omega) (by omega))]
  simp only [writesBit_oneBit (n := 13) (k := 0) (by omega), writesBit_oneBit (n := 13) (k := 12) (by omega),
    writesBit_oneBit (n := 13) (k := 3) (by omega)]
  rfl

/-! ### RESET_CHARGE -/

/-- The strobe clears charge, accumulator and capacity force and ends the cause of CAPACITY; the latch, and with it the top
alert, stays (R136, R165). -/
theorem Chip.resetCharge_eq (c : Chip) : c.resetCharge =
    { c with btm := { c.btm with charge := 0, acc := 0, capForce := false }
             alt := { c.alt with causes := c.alt.causes &&& ~~~Alert.capacity.mask } } := by
  have h : ({ c with btm := { c.btm with charge := 0, acc := 0, capForce := false }
                     alt := c.alt.cause .capacity false } : Chip).topAlert = c.topAlert := rfl
  unfold Chip.resetCharge Chip.alert Chip.relightIf
  rw [decide_eq_false (fun k => k h)]
  rfl

/-! ### Winch records -/

/-- Settling twice is settling once. -/
theorem Winch.settle_settle (w : Winch) (cfg : WinchCfg) : (w.settle cfg).settle cfg = w.settle cfg := by
  unfold Winch.settle; dsimp only; congr 1; cases w.boost <;> cases w.state.pullsIn <;> rfl

/-- The record a part holds after a change of the winch brings the same part again. -/
theorem Chip.setWinch_again (c : Chip) (w : Winch) : c.setWinch (c.setWinch w).wnc = c.setWinch w := by
  rw [Chip.setWinch_wnc]
  unfold Chip.setWinch
  rw [Winch.settle_settle]
  rfl

/-! ### Entry into PARKED -/

/-- The record of an axle of a drive that is not ARMED (R67, R79). -/
def Chip.restAxle (c : Chip) : AxleRec :=
  if (c.mdc.mode ≠ .dormant ∧ c.mdc.bench = false) ∧ (c.ulr.link = .await ∨ c.ulr.link = .failsafe) then
    { state := .failsafeBrake, timer := none, left := none, effective := 0, output := c.tables.driveCfg.failsafeBrake }
  else { state := .off, timer := none, left := none, effective := 0, output := 0 }

/-- The next record of each axle of a DISARMED drive. -/
theorem Chip.axleNext_disarmed (c : Chip) (d : Drm) (h : d.arming = .disarmed) (a : Axle) :
    c.axleNext d a = (d.axle a).rest c.restAxle.state := by
  unfold Chip.axleNext Chip.restAxle
  dsimp only
  by_cases h1 : c.mdc.mode = .dormant <;> by_cases h2 : c.mdc.bench = true
    <;> by_cases h3 : c.ulr.link = .await ∨ c.ulr.link = .failsafe <;> simp [h1, h2, h3, h]

/-- Handling the axles of a DISARMED drive. -/
theorem Chip.handleAxles_disarmed (c : Chip) (d : Drm) (h : d.arming = .disarmed) :
    (c.handleAxles d).drm = { d with demand := 0, front := c.restAxle, rear := c.restAxle } := by
  rw [Chip.handleAxles_drm, Chip.axleNext_disarmed _ _ h, Chip.axleNext_disarmed _ _ h]
  have hs : c.restAxle.state = .failsafeBrake ∧ c.restAxle
        = { state := .failsafeBrake, timer := none, left := none, effective := 0, output := c.tables.driveCfg.failsafeBrake }
      ∨ c.restAxle.state = .off
        ∧ c.restAxle = { state := .off, timer := none, left := none, effective := 0, output := 0 } := by
    unfold Chip.restAxle; split <;> simp
  rcases hs with ⟨h1, h2⟩ | ⟨h1, h2⟩ <;> rw [h1, h2] <;> rfl

/-- Disarming the drive. -/
theorem Chip.disarmDrive_drm (c : Chip) :
    c.disarmDrive.drm
      = { c.drm with arming := .disarmed, armTimer := none, demand := 0, front := c.restAxle, rear := c.restAxle } :=
  Chip.handleAxles_disarmed c c.drm.disarm rfl

/-- Locking leaves LOCKED. -/
theorem Winch.toLocked_state (w : Winch) : w.toLocked.state = .locked := by
  unfold Winch.toLocked; split
  · assumption
  · rfl

/-- The blocks that an entry into PARKED changes, and their records but those of WNC, LSQ and ALT (R50, R79, R130, R196). -/
theorem Chip.enterParked_frame (c : Chip) : let t := c.enterParked
    t = { c with
      stm := { c.stm with pulsing := false, schedule := none }
      drm := { c.drm with arming := .disarmed, armTimer := none, demand := 0, front := (c.setMode .parked).restAxle,
                          rear := (c.setMode .parked).restAxle }
      wnc := t.wnc, lsq := t.lsq, alt := t.alt
      btm := { c.btm with nextMeas := c.btm.nextAfter c.now .parked }
      mdc := { c.mdc with mode := .parked } } := by
  dsimp only
  have h1 := Chip.disarmDrive_drm ((c.setMode .parked).steerSilence)
  have h2 : ((c.setMode .parked).steerSilence).restAxle = (c.setMode .parked).restAxle := rfl
  rw [h2] at h1
  have h3 : ∀ d : Chip, d.mdc.mode = .parked → d.winchLockTest.drm = d.drm :=
    fun d hd => Chip.setWinch_drm_inactive (by rw [hd]; decide) _
  unfold Chip.enterParked
  generalize hx : ((c.setMode .parked).steerSilence).disarmDrive = x at *
  have x1 : x = { c with drm := x.drm, lsq := x.lsq, stm := { c.stm with pulsing := false, schedule := none },
                         mdc := { c.mdc with mode := .parked } } := by
    rw [← hx]; rfl
  have h4 := h3 x (by rw [x1])
  have h5 := Chip.setWinch_eq x (x.wnc.lockTest x.winchLockCause)
  change x.winchLockTest = { x with wnc := x.winchLockTest.wnc, alt := x.winchLockTest.alt, drm := x.winchLockTest.drm,
                                    lsq := x.winchLockTest.lsq } at h5
  generalize x.winchLockTest = y at *
  rw [h4, h1] at h5
  have y1 : y = { c with
      drm := { c.drm with arming := .disarmed, armTimer := none, demand := 0, front := (c.setMode .parked).restAxle,
                          rear := (c.setMode .parked).restAxle },
      lsq := y.lsq, wnc := y.wnc, alt := y.alt, stm := { c.stm with pulsing := false, schedule := none },
      mdc := { c.mdc with mode := .parked } } := by
    rw [x1] at h5; exact h5
  have r1 : ∀ z : Chip, z.stopBrakeHold.relight.reschedule
      = { z with lsq := z.stopBrakeHold.relight.lsq, btm := z.reschedule.btm } := fun _ => rfl
  rw [r1]
  dsimp only
  have b1 : y.reschedule.btm = { c.btm with nextMeas := c.btm.nextAfter c.now .parked } := by rw [y1]; rfl
  rw [b1]
  generalize y.stopBrakeHold.relight.lsq = l
  rw [y1]

/-- What an entry into PARKED makes of WNC, LSQ and ALT (R84, R106, R128). -/
theorem Chip.enterParked_records (c : Chip) : let t := c.enterParked
    t.wnc = c.wnc.toLocked.settle c.tables.winchCfg ∧ t.lsq = t.picture ∧ t.lsq.brakeHold = none
      ∧ t.lsq.timebase = c.lsq.timebase ∧ t.lsq.nextEvent = c.lsq.nextEvent ∧ t.lsq.grant = c.lsq.grant
      ∧ t.lsq.granted = c.lsq.granted
      ∧ t.alt = c.alt.cause .winchStall false := by
  dsimp only
  have hl : ∀ x : Chip, x.mdc.mode = .parked → x.winchLockTest.wnc = x.wnc.toLocked.settle x.tables.winchCfg
      ∧ x.winchLockTest.alt = x.alt.cause .winchStall false := by
    intro x hx
    have hc : x.winchLockCause = true := by unfold Chip.winchLockCause; simp [hx]
    unfold Chip.winchLockTest
    rw [hc, Chip.setWinch_wnc, Chip.setWinch_alt]
    simp [Winch.lockTest, Winch.toLocked_state]
  obtain ⟨h1, h2⟩ := hl ((c.setMode .parked).steerSilence.disarmDrive) rfl
  have k2 : ((c.setMode .parked).steerSilence.disarmDrive).lsq.timebase = c.lsq.timebase
      ∧ ((c.setMode .parked).steerSilence.disarmDrive).lsq.nextEvent = c.lsq.nextEvent
      ∧ ((c.setMode .parked).steerSilence.disarmDrive).lsq.grant = c.lsq.grant
      ∧ ((c.setMode .parked).steerSilence.disarmDrive).lsq.granted = c.lsq.granted := by
    unfold Chip.disarmDrive Chip.handleAxles Chip.setDrive
    exact (Chip.relightIf_kept _ _).2
  have ka : ((c.setMode .parked).steerSilence.disarmDrive).alt = c.alt := rfl
  have kw : ((c.setMode .parked).steerSilence.disarmDrive).wnc = c.wnc := rfl
  have kt : ((c.setMode .parked).steerSilence.disarmDrive).tables = c.tables := rfl
  unfold Chip.enterParked
  generalize (c.setMode .parked).steerSilence.disarmDrive = x at *
  have k := Chip.setWinch_kept x (x.wnc.lockTest x.winchLockCause)
  change x.winchLockTest.lsq.timebase = _ ∧ x.winchLockTest.lsq.nextEvent = _ ∧ x.winchLockTest.lsq.grant = _
    ∧ x.winchLockTest.lsq.granted = _ at k
  generalize x.winchLockTest = y at *
  refine ⟨?_, rfl, rfl, k.1.trans k2.1, k.2.1.trans k2.2.1, k.2.2.1.trans k2.2.2.1,
    k.2.2.2.trans k2.2.2.2, ?_⟩
  · change y.wnc = _
    rw [h1, kw, kt]
  · change y.alt = _
    rw [h2, ka]

end Sys2Proof.Machine
end

