-- ==== Sys2Proof/Laws/LightGrant.lean ====
section
/-! SUPPORT. The light levels before the first grant event after a reset (R129): forming the picture leaves them at 0, and no
operation but a grant event and a reset changes the held light grant or the mark that a grant event has come; and what one step
can do to them. -/

namespace Sys2Proof.Machine

/-! ### What leaves the held grant -/

/-- From one LSQ record to the next the held light grant and the mark that a grant event has come stand, and the levels stay 0
where no grant event has come. -/
structure LitAs (l m : Lsq) : Prop where
  grant : m.grant = l.grant
  granted : m.granted = l.granted
  dark : l.granted = false → l.level = Vector.replicate 8 0 → m.level = Vector.replicate 8 0

namespace LitAs

theorem refl (l : Lsq) : LitAs l l := ⟨rfl, rfl, fun _ h => h⟩

theorem trans {l m n : Lsq} (h : LitAs l m) (k : LitAs m n) : LitAs l n :=
  ⟨k.grant.trans h.grant, k.granted.trans h.granted, fun g z => k.dark (h.granted.trans g) (h.dark g z)⟩

/-- An LSQ event. -/
theorem relight (c : Chip) : LitAs c.lsq c.relight.lsq := ⟨rfl, rfl, fun g _ => c.picture_dark g⟩

/-- An LSQ event, taken or not. -/
theorem relightIf (c : Chip) (b : Bool) : LitAs c.lsq (c.relightIf b).lsq := by
  cases b
  · exact refl c.lsq
  · exact relight c

/-- The end of the brake hold. -/
theorem stopBrakeHold (c : Chip) : LitAs c.lsq c.stopBrakeHold.lsq := ⟨rfl, rfl, fun _ h => h⟩

/-- A timebase event. -/
theorem advanceTimebase (c : Chip) : LitAs c.lsq c.advanceTimebase.lsq :=
  have h : LitAs c.lsq
      { c.lsq with timebase := c.lsq.timebase + 1#32, nextEvent := c.lsq.nextEvent.map (· + 10) } :=
    ⟨rfl, rfl, fun _ h => h⟩
  h.trans (relight { c with lsq := _ })

/-- A report to ALT. -/
theorem alert (c : Chip) (f : Alt → Alt) : LitAs c.lsq (c.alert f).lsq := relightIf { c with alt := f c.alt } _

/-- A new mixer record. -/
theorem setDrive (c : Chip) (d : Drm) : LitAs c.lsq (c.setDrive d).lsq := by
  unfold Chip.setDrive
  dsimp only
  refine LitAs.trans ?_ (relightIf _ _)
  exact ⟨rfl, rfl, fun _ h => h⟩

/-- A cap change. -/
theorem recapIf (c : Chip) (b : Bool) : LitAs c.lsq (c.recapIf b).lsq := by
  unfold Chip.recapIf
  split
  · exact setDrive _ _
  · exact refl _

/-- A new winch record. -/
theorem setWinch (c : Chip) (w : Winch) : LitAs c.lsq (c.setWinch w).lsq := by
  unfold Chip.setWinch
  dsimp only
  refine LitAs.trans ?_ (relightIf _ _)
  refine LitAs.trans ?_ (recapIf _ _)
  exact alert { c with wnc := w.settle c.tables.winchCfg } _

/-- An entry into PARKED. -/
theorem enterParked (c : Chip) : LitAs c.lsq c.enterParked.lsq := by
  unfold Chip.enterParked
  rw [Chip.reschedule_lsq]
  refine LitAs.trans ?_ (relight _)
  refine LitAs.trans ?_ (stopBrakeHold _)
  refine LitAs.trans ?_ (setWinch _ _)
  exact setDrive (c.setMode .parked).steerSilence _

/-- The return to ACTIVE. -/
theorem returnActive (c : Chip) : LitAs c.lsq c.returnActive.lsq := by
  unfold Chip.returnActive
  rw [Chip.reschedule_lsq]
  refine LitAs.trans ?_ (relight _)
  refine LitAs.trans ?_ (setWinch _ _)
  exact setDrive (c.setMode .active) _

/-- The test of the park exit. -/
theorem parkExitTest (c : Chip) : LitAs c.lsq c.parkExitTest.lsq := by
  unfold Chip.parkExitTest
  split
  · exact returnActive c
  · exact refl _

/-- The park timer's expiry. -/
theorem parkExpiry (c : Chip) : LitAs c.lsq c.parkExpiry.lsq := by
  unfold Chip.parkExpiry
  dsimp only
  split
  · exact enterParked { c with mdc := { c.mdc with parkTimer := none } }
  · exact refl _

/-- An entry into DORMANT. -/
theorem enterDormant (c : Chip) : LitAs c.lsq c.enterDormant.lsq := by
  have h : LitAs c.lsq (c.setMode .dormant).steerSilence.disarmDrive.lsq := setDrive (c.setMode .dormant).steerSilence _
  unfold Chip.enterDormant
  generalize (c.setMode .dormant).steerSilence.disarmDrive = d at *
  refine LitAs.trans ?_ (relight _)
  exact h.trans ⟨rfl, rfl, fun _ k => k⟩

/-- A reset release. -/
theorem release (c : Chip) (bench : Bool) : LitAs c.lsq (c.release bench).lsq := by
  unfold Chip.release
  refine LitAs.trans ?_ (relight _)
  exact ⟨rfl, rfl, fun _ h => h⟩

/-- A write of the switch space. -/
theorem putSwitches (c : Chip) (mask value : BitVec 32) : LitAs c.lsq (c.putSwitches mask value).lsq := by
  have drive : ∀ (e : Chip) b, LitAs e.lsq (e.driveSwitch b).lsq := by
    intro e b
    unfold Chip.driveSwitch
    split
    · exact setDrive _ _
    · exact refl _
  have winch : ∀ (e : Chip) b b', LitAs e.lsq (e.winchSwitch b b').lsq := by
    intro e b b'
    unfold Chip.winchSwitch
    split
    · exact setWinch _ _
    · exact refl _
  have charge : ∀ (e : Chip) b, LitAs e.lsq (e.chargeSwitch b).lsq := by
    intro e b
    unfold Chip.chargeSwitch
    split
    · exact alert { e with btm := { e.btm with charge := 0, acc := 0, capForce := false } } _
    · exact refl _
  have park : ∀ (e : Chip) b b', LitAs e.lsq (e.parkSwitch b b').lsq := by
    intro e b b'
    unfold Chip.parkSwitch
    split
    · exact enterParked _
    · split
      · exact parkExitTest _
      · exact refl _
  rw [Chip.putSwitches_turns]
  refine LitAs.trans ?_ (relightIf _ _)
  refine LitAs.trans ?_ (park _ _ _)
  refine LitAs.trans ?_ (charge _ _)
  refine LitAs.trans ?_ (winch _ _ _)
  exact drive (c.written mask value) _

/-! ### Channel updates -/

/-- One block takes a channel update. -/
theorem takeUpdate {st : Chip → Chip} (hst : ∀ c, (st c).lsq = c.lsq) (c : Chip) (t : Taker) :
    LitAs c.lsq (c.takeUpdate st t).lsq := by
  cases t
  · exact refl _
  · exact setDrive _ _
  · show LitAs c.lsq c.winchUpdate.lsq
    unfold Chip.winchUpdate
    split
    · exact setWinch _ _
    · exact refl _
  · exact parkExitTest c
  · exact refl _
  · show LitAs c.lsq (st c).lsq
    rw [hst]; exact refl _

/-- A channel update. -/
theorem channelUpdate {st : Chip → Chip} (hst : ∀ c, (st c).lsq = c.lsq) (c : Chip) (order : List Taker) :
    LitAs c.lsq (c.channelUpdate st order).lsq :=
  foldl_induct (P := fun d => LitAs c.lsq d.lsq) (fun d t h => h.trans (takeUpdate hst d t)) _ _ (refl c.lsq)

/-- The entry into HOLD. -/
theorem enterHold (c : Chip) (order : List Taker) : LitAs c.lsq (c.enterHold order).lsq := by
  unfold Chip.enterHold
  refine LitAs.trans ?_ (channelUpdate Chip.refreshStatus_lsq _ _)
  exact LitAs.trans (alert c.holdSlots _) (relight _)

/-- The entry into FAILSAFE. -/
theorem enterFailsafe (c : Chip) (order : List Taker) : LitAs c.lsq (c.enterFailsafe order).lsq := by
  unfold Chip.enterFailsafe
  refine LitAs.trans ?_ (channelUpdate Chip.refreshStatus_lsq _ _)
  exact LitAs.trans (alert c.failsafeSlots.startPark _) (relight _)

/-- A refresh. -/
theorem refreshed (c : Chip) (order : List Taker) : LitAs c.lsq (c.refreshed order).lsq :=
  channelUpdate Chip.refreshStatus_lsq
    { c with ulr := { c.ulr with refreshDue := c.ulr.refreshDue.map (· + 20), ordinal := c.ulr.ordinal + 1 } } order

/-- A control frame accepted. -/
theorem acceptControl (c : Chip) (order : List Taker) (p : List Byte) : LitAs c.lsq (c.acceptControl order p).lsq := by
  unfold Chip.acceptControl Chip.goLive
  split
  · rw [Chip.countControl_lsq]; exact refl _
  · refine LitAs.trans ?_ (channelUpdate Chip.countControl_lsq _ _)
    exact LitAs.trans (alert (c.freshSlots p) _) (relightIf _ _)

/-! ### Setup frames -/

/-- The tables replaced. -/
theorem setTables (c : Chip) (t : Tables) (plain : Vector Bool 5) (winch : Bool) :
    LitAs c.lsq (c.setTables t plain winch).lsq := by
  have h := fun b => relightIf { c with tables := t, cdc := c.cdc.forget plain } b
  unfold Chip.setTables
  dsimp only
  split
  · exact (h _).trans (setWinch _ _)
  · exact h _

/-- A setup command carried out. -/
theorem carryOut (c : Chip) (p : List Byte) : LitAs c.lsq (c.carryOut p).chip.lsq :=
  Chip.carryOut_cases (P := fun d => LitAs c.lsq d.lsq) c p (refl _) (fun _ _ _ _ _ => setTables ..)
    (fun _ _ _ => setTables ..) (fun _ _ => refl c.lsq) (fun _ _ => putSwitches ..) (fun _ _ => setWinch ..)
    (fun _ => alert ..) (alert ..) (fun _ => refl c.lsq) (refl c.lsq)

/-- An answer given. -/
theorem give (a : Answer) (p : List Byte) : LitAs a.chip.lsq (a.give p).lsq := by
  show LitAs a.chip.lsq (a.chip.faultIfRefused (codeOf p) a.status).lsq
  unfold Chip.faultIfRefused
  split
  · exact alert _ _
  · exact refl _

/-- SUP takes a frame. -/
theorem takeSetup (c : Chip) : LitAs c.lsq c.takeSetup.lsq := by
  unfold Chip.takeSetup
  split
  · exact refl _
  · rename_i p rest _
    refine LitAs.trans ?_ (give _ _)
    exact carryOut { c with sup := { c.sup with queue := rest } } p

/-- SUP takes frames. -/
theorem takeSetups (n : Nat) : ∀ c : Chip, LitAs c.lsq (c.takeSetups n).lsq := by
  induction n with
  | zero => exact fun c => refl c.lsq
  | succ n ih =>
    intro c
    unfold Chip.takeSetups
    split
    · exact (takeSetup c).trans (ih _)
    · exact refl _

/-- A setup frame accepted. -/
theorem acceptSetup (c : Chip) (p : List Byte) : LitAs c.lsq (c.acceptSetup p).lsq := by
  unfold Chip.acceptSetup Chip.routeSetup Chip.joinSetup
  split
  · split
    · split
      · exact takeSetups _ { c with sup := { c.sup with queue := c.sup.queue ++ [p] } }
      · exact alert _ _
    · exact refl _
  · exact refl _

/-- The frames of an intake handed on. -/
theorem handOn (c : Chip) (order : List Taker) (r : Intake) : LitAs c.lsq (c.handOn order r).lsq := by
  refine foldl_induct (P := fun d => LitAs c.lsq d.lsq) (fun d fr h => h.trans ?_) _ _ (refl c.lsq)
  cases fr with
  | nil => exact refl _
  | cons k p =>
    show LitAs d.lsq (if frameKind k = 1 then d.acceptControl order p else d.acceptSetup p).lsq
    split
    · exact acceptControl d order p
    · exact acceptSetup d p

/-- One block other than BGA takes an evaluation completion. -/
theorem takeEvaluation (b : Level) (tr : Bool) (o : List EvalTaker) (c : Chip) {t : EvalTaker} (ht : t ≠ .bga) :
    LitAs c.lsq (c.takeEvaluation b tr o t).lsq := by
  cases t <;> unfold Chip.takeEvaluation <;> dsimp only
  · exact alert _ _
  · exact recapIf _ _
  · split
    · exact setWinch _ _
    · exact refl _
  · exact relightIf _ _
  · exact refl _
  · exact absurd rfl ht

end LitAs

/-! ### Grant events -/

/-- A grant event marks that one has come (R129, R157). -/
theorem Chip.grantEvent_granted (c : Chip) (o : List EvalTaker) : (c.grantEvent o).lsq.granted = true := by
  refine foldl_establish (P := fun e => e.lsq.granted = true) (Q := fun _ => True) (x := EvalTaker.lsq) ?_ ?_ ?_
    (evalTakers o) c (mem_evalTakers _ _) trivial
  · exact fun _ _ _ => trivial
  · exact fun _ _ => rfl
  · intro e y _ k
    cases y <;> try exact k
    · exact (LitAs.setWinch e _).granted.trans k
    · rfl

/-- So does an evaluation completion, at which BGA issues one (R149). -/
theorem Chip.evaluate_granted (c : Chip) (b : Level) (tr : Bool) (o : List EvalTaker) :
    (c.evaluate b tr o).lsq.granted = true := by
  have bga : ∀ e : Chip, (e.takeEvaluation b tr o .bga).lsq.granted = true := fun e => by
    unfold Chip.takeEvaluation
    exact Chip.grantEvent_granted _ _
  refine foldl_establish (P := fun e => e.lsq.granted = true) (Q := fun _ => True) (x := EvalTaker.bga) ?_ ?_ ?_
    (evalTakers o) c (mem_evalTakers _ _) trivial
  · exact fun _ _ _ => trivial
  · exact fun e _ => bga e
  · intro e y _ k
    by_cases hy : y = .bga
    · subst hy; exact bga e
    · exact (LitAs.takeEvaluation b tr o e hy).granted.trans k

/-! ### One step -/

/-- The arming timer's expiry. -/
theorem LitAs.arm (c : Chip) : LitAs c.lsq c.arm.lsq := by
  unfold Chip.arm
  split
  · exact LitAs.setDrive _ _
  · exact LitAs.refl _

/-- A reverse delay's expiry. -/
theorem LitAs.endReversal (c : Chip) (a : Axle) : LitAs c.lsq (c.endReversal a).lsq := by
  unfold Chip.endReversal
  split
  · exact LitAs.setDrive _ _
  · exact LitAs.refl _

/-- A spool pulse. -/
theorem LitAs.spoolPulse (c : Chip) (start : Nat) : LitAs c.lsq (c.spoolPulse start).lsq := by
  unfold Chip.spoolPulse
  dsimp only
  refine LitAs.trans ?_ (LitAs.setWinch _ _)
  exact LitAs.alert { c with spoolStart := some start } _

/-- What one step can do to the held light grant and the levels before the first grant event: leave them, clear LSQ at a reset
that is now held, or take the grant event of a measurement completion. -/
inductive LightStep (q : List Instr) (c d : Chip) : Prop where
  | kept (lit : LitAs c.lsq d.lsq) (held : d.held = c.held ∨ d.held = none)
  | cleared (held : d.held ≠ none) (lsq : d.lsq = Lsq.cleared)
  | granted (held : d.held = none) (lsq : d.lsq.granted = true)
      (front : ∃ r order, q.head? = some (.measurementCompletion r order))

/-- A step of the part with the queue `q`. -/
theorem step_lights {q : List Instr} {c : Chip} {t : State} (h : step { pending := q, chip := c } = .next t) :
    LightStep q c t.chip := by
  have kept {d : Chip} (lit : LitAs c.lsq d.lsq) (held : d.held = c.held) : LightStep q c d := .kept lit (.inl held)
  have same {d : Chip} (lsq : d.lsq = c.lsq) (held : d.held = c.held) : LightStep q c d :=
    kept (lsq ▸ LitAs.refl c.lsq) held
  have reset (kind : ResetKind) : LightStep q c (c.resetTo kind) := .cleared (by simp [Chip.resetTo]) rfl
  refine step_cases h (same rfl rfl) (same rfl rfl)
    (handOn := fun b order _ => kept (LitAs.handOn _ _ _) (by simp))
    (clearHunt := fun _ => same rfl rfl)
    (control := fun order p _ => kept (LitAs.acceptControl c.clearHunt _ _) (by simp))
    (setupFrame := fun p _ => kept (LitAs.acceptSetup c.clearHunt _) (by simp))
    (setup := fun p _ => kept (LitAs.acceptSetup _ _) (by simp))
    (hold := fun now order _ _ => kept (LitAs.enterHold { c with now := now } _) (by simp))
    (failsafe := fun now order _ _ => kept (LitAs.enterFailsafe { c with now := now } _) (by simp))
    (refresh := fun now order _ _ => kept (LitAs.refreshed { c with now := now } _) (by simp))
    (arm := fun now _ => kept (LitAs.arm { c with now := now }) (by simp))
    (reversal := fun now a _ => kept (LitAs.endReversal { c with now := now } a) (by simp))
    (pulse := fun _ _ _ => same rfl rfl)
    (pulseEnd := fun _ => same rfl rfl)
    (spool := fun start _ => kept (LitAs.spoolPulse c start) (by simp))
    (timebase := fun now _ => kept (LitAs.advanceTimebase { c with now := now }) rfl)
    (brakeHold := fun now _ => kept ((LitAs.stopBrakeHold { c with now := now }).trans (LitAs.relight _)) rfl)
    (measurement := fun now r order hq hr => .granted (by simpa using hr.1) (Chip.evaluate_granted _ _ _ _) ⟨r, order, hq⟩)
    (window := fun _ _ => same rfl rfl)
    (foldback := fun _ _ => same rfl rfl)
    (dormant := fun now _ => kept (LitAs.enterDormant { c with now := now }) rfl)
    (park := fun now _ => kept (LitAs.parkExpiry { c with now := now }) (by simp))
    (returnSent := fun _ => ?_)
    (accessorySent := fun _ => same rfl rfl)
    (storeDone := fun _ _ _ => same rfl rfl)
    (switches := fun mask value _ => kept (LitAs.putSwitches _ _ _) (by simp))
    (cold := reset .cold) (warm := reset .warm)
    (release := fun bench _ => .kept (LitAs.release _ _) (.inr rfl))
  unfold Chip.returnSent
  split
  · exact reset .warm
  · split
    · exact kept (LitAs.takeSetups _ { c with rtx := c.rtx.complete }) (by simp)
    · exact same rfl rfl

end Sys2Proof.Machine
end

