-- ==== Sys2Proof/Laws/Tables.lean ====
section
/-! SUPPORT. The tables: every write of a record keeps the ranges, and the factory values are within them. How fields are read. -/

namespace Sys2Proof.Machine

/-- A clamped value is at least the lower end. -/
theorem clampNat_ge (lo hi x : Nat) : lo ≤ clampNat lo hi x := Nat.le_max_left _ _

/-- A clamped value is at most the upper end. -/
theorem clampNat_le (lo hi x : Nat) (h : lo ≤ hi) : clampNat lo hi x ≤ hi := by unfold clampNat; omega

/-- A clamped value is at least the lower end. -/
theorem clampInt_ge (lo hi x : Int) : lo ≤ clampInt lo hi x := by unfold clampInt; omega

/-- A clamped value is at most the upper end. -/
theorem clampInt_le (lo hi x : Int) (h : lo ≤ hi) : clampInt lo hi x ≤ hi := by unfold clampInt; omega

/-- A byte is below 256. -/
theorem byteAt_lt (bs : List Byte) (i : Nat) : byteAt bs i < 256 := (bs.getD i 0#8).isLt

/-- A two-byte field is below 65536. -/
theorem wordAt_lt (bs : List Byte) (i : Nat) : wordAt bs i < 65536 := by
  have := byteAt_lt bs i; have := byteAt_lt bs (i + 1); unfold wordAt; omega

/-- What holds of every entry holds of every entry after one has been replaced by another of which it holds. -/
theorem vec_set {α : Type} {n : Nat} {P : Nat → α → Prop} (v : Vector α n) (k : Nat) (x : α) (h : ∀ i : Fin n, P i.val v[i]) (hx : k < n → P k x) :
    ∀ i : Fin n, P i.val (v.setIfInBounds k x)[i] := by
  intro i
  simp only [Fin.getElem_fin, Vector.getElem_setIfInBounds]
  split
  · rename_i e; rw [← e]; exact hx (by omega)
  · exact h i

/-- A record that passes the structural check leaves the tables within their ranges (R183). -/
theorem Tables.ok_write {t : Tables} (h : t.Ok) (id ix : Nat) (bs : List Byte) (hs : structureHolds id ix bs = true) : (t.writeRecord id ix bs).Ok := by
  unfold Tables.writeRecord
  split
  · refine { h with channelCal := vec_set (P := fun _ r => ChannelCal.Ok r) _ _ _ h.channelCal fun _ => ?_ }
    simp only [ChannelCal.Ok, ChannelCal.read, clampNat]; omega
  · exact { h with }
  · refine { h with switchDef := vec_set (P := fun i r => SwitchDef.Ok i r) _ _ _ h.switchDef fun _ => ?_ }
    refine ⟨?_, ?_, ?_, ?_, hs⟩ <;> simp only [SwitchDef.read, clampNat, clampInt] <;> omega
  · refine { h with curve := vec_set (P := fun _ r => Curve.Ok r) _ _ _ h.curve fun _ => ?_ }
    intro i
    simp only [Curve.read, Fin.getElem_fin, Vector.getElem_ofFn, clampInt]; omega
  · refine { h with profile := vec_set (P := fun _ r => Profile.Ok r) _ _ _ h.profile fun _ => ?_ }
    have := byteAt_lt bs 10
    simp only [Profile.Ok, Profile.read, clampNat]; omega
  · have hs : (ServoEnd.read bs).ordered = true := hs
    have ho : (ServoEnd.read bs).Ok := by
      simp only [ServoEnd.ordered, Bool.and_eq_true, decide_eq_true_eq] at hs
      refine ⟨?_, hs.1, hs.2, ?_⟩ <;> simp only [ServoEnd.read, clampNat] <;> omega
    split
    · exact { h with servoFront := ho }
    · exact { h with servoRear := ho }
  · refine { h with driveCfg := ?_ }
    simp only [DriveCfg.Ok, DriveCfg.read, clampNat]; omega
  · refine { h with winchCfg := ?_ }
    have := byteAt_lt bs 11
    have := wordAt_lt bs 1
    simp only [WinchCfg.Ok, WinchCfg.read, clampNat]; omega
  · refine { h with lightOut := vec_set (P := fun _ r => r ≤ 2000) _ _ _ h.lightOut fun _ => ?_ }
    exact clampNat_le _ _ _ (by omega)
  · refine { h with scene := vec_set (P := fun _ r => Scene.Ok r) _ _ _ h.scene fun _ => ?_ }
    simp only [Scene.Ok, Scene.read, clampNat]; omega
  · split
    · exact { h with }
    · refine { h with pattern := vec_set (P := fun _ r => Pattern.Ok r) _ _ _ h.pattern fun _ => ?_ }
      simp only [Pattern.Ok, Pattern.read, clampNat]; omega
  · refine { h with protect := ?_ }
    have hs : (Protect.read bs).ordered = true := hs
    simp only [Protect.ordered, Bool.and_eq_true, decide_eq_true_eq] at hs
    have := wordAt_lt bs 10
    simp only [Protect.Ok, Protect.read, clampNat, clampCells] at hs ⊢
    refine ⟨?_, ?_⟩
    · split
      · left; rfl
      · right; omega
    · omega
  · refine { h with budget := ?_ }
    simp only [Budget.Ok, Budget.read, clampNat]; omega
  · refine { h with link := ?_ }
    simp only [LinkCfg.Ok, LinkCfg.read, clampNat]; omega
  · exact { h with }

/-- The factory tables are within their ranges. -/
theorem factoryTables_ok : factoryTables.Ok := by
  constructor <;> (try dsimp only [ChannelCal.Ok, SwitchDef.Ok, Curve.Ok, Profile.Ok, ServoEnd.Ok, DriveCfg.Ok, WinchCfg.Ok, Scene.Ok, Pattern.Ok, Protect.Ok, Budget.Ok, LinkCfg.Ok]) <;> decide +kernel

/-! ### Reading fields -/

/-- A value within its range is not clamped. -/
theorem clampNat_eq_self {lo hi x : Nat} (h1 : lo ≤ x) (h2 : x ≤ hi) : clampNat lo hi x = x := by unfold clampNat; omega

/-- A value within its range is not clamped. -/
theorem clampInt_eq_self {lo hi x : Int} (h1 : lo ≤ x) (h2 : x ≤ hi) : clampInt lo hi x = x := by unfold clampInt; omega

/-- A word written out reads back. -/
theorem wordAt_wordOf {n : Nat} (h : n < 65536) (l : List Byte) : wordAt (wordOf n ++ l) 0 = n := by
  simp [wordAt, wordOf, byteAt]; omega

/-- A signed field is its word in two's complement. -/
theorem intAt_eq (bs : List Byte) (i : Nat) :
    intAt bs i = if wordAt bs i < 32768 then (wordAt bs i : Int) else (wordAt bs i : Int) - 65536 := by
  unfold intAt
  have h := wordAt_lt bs i
  generalize wordAt bs i = w at *
  rw [BitVec.toInt_eq_toNat_cond, BitVec.toNat_ofNat]
  have : w % 2 ^ 16 = w := Nat.mod_eq_of_lt h
  rw [this]
  split <;> split <;> omega

/-- A role byte below 12 names its channel, and every other one is NONE (R26). -/
theorem roleAt_spec (bs : List Byte) (i : Nat) :
    (byteAt bs i < 12 → (roleAt bs i).map Fin.val = some (byteAt bs i)) ∧ (12 ≤ byteAt bs i → roleAt bs i = none) := by
  unfold roleAt
  refine ⟨fun h => ?_, fun h => ?_⟩
  · rw [dif_pos h]; rfl
  · rw [dif_neg (by omega)]

end Sys2Proof.Machine
end

