-- ==== Sys2Proof/Laws/Uplink.lean ====
section
/-! SUPPORT. Delineation of the uplink: taking a discarded candidate's bytes again one at a time is examining them together
(R3). Characters and the levels of a line (R202). -/

namespace Sys2Proof.Machine

/-- A byte fed to an intake changes its hunt state and bytes as the line byte would, whatever frames came before. -/
theorem Intake.feed_frames (h : HuntState) (bs : List Byte) (fr : List (List Byte)) (b : Byte) :
    Intake.feed { hunt := h, bytes := bs, frames := fr } b
      = { Intake.feed { hunt := h, bytes := bs, frames := [] } b with
          frames := fr ++ (Intake.feed { hunt := h, bytes := bs, frames := [] } b).frames } := by
  simp [Intake.feed]

/-- Frames accepted earlier stand before those accepted later. -/
theorem Intake.foldl_feed_frames (ys : List Byte) (r : Intake) (fr : List (List Byte)) :
    ys.foldl Intake.feed { r with frames := fr ++ r.frames }
      = { ys.foldl Intake.feed r with frames := fr ++ (ys.foldl Intake.feed r).frames } := by
  induction ys generalizing r with
  | nil => rfl
  | cons y ys ih =>
    have h : Intake.feed { r with frames := fr ++ r.frames } y
        = { Intake.feed r y with frames := fr ++ (Intake.feed r y).frames } := by
      simp [Intake.feed]
    rw [List.foldl_cons, List.foldl_cons, h, ih]

/-- An accepted kind/length byte gives a payload of at least two bytes (R2). -/
theorem two_le_frameLength {k : Byte} (h : kindPasses k = true) : 2 ≤ frameLength k := by
  simp [kindPasses] at h
  omega

/-- Skipping bytes before examining is dropping them. -/
theorem examine_skip (n : Nat) (xs : List Byte) : examine n xs = examine 0 (xs.drop n) := by
  induction n generalizing xs with
  | zero => simp
  | succ n ih =>
    cases xs with
    | nil => simp [examine]
    | cons x xs => simp [examine, ih]

/-- Payload bytes fed to a candidate that still waits for them. -/
theorem foldl_feed_payload (k : Byte) (p r : List Byte) (h : p.length < frameLength k)
    (hr : p.length + r.length ≤ frameLength k) :
    r.foldl Intake.feed { hunt := .payload, bytes := k :: p, frames := [] }
      = { hunt := if p.length + r.length < frameLength k then .payload else .check, bytes := k :: p ++ r,
          frames := [] } := by
  induction r generalizing p with
  | nil => simp; omega
  | cons b r ih =>
    have hf : Intake.feed { hunt := .payload, bytes := k :: p, frames := [] } b
        = { hunt := if p.length + 1 = frameLength k then .check else .payload, bytes := k :: (p ++ [b]), frames := [] } := by
      simp only [Intake.feed, Ulr.take, List.nil_append, List.cons_append, List.length_cons, List.length_append,
        List.length_nil, List.headD_cons, Nat.add_comm 1, Nat.add_right_cancel_iff]
    rw [List.foldl_cons, hf]
    simp only [List.length_cons] at hr
    by_cases he : p.length + 1 = frameLength k
    · have : r = [] := List.length_eq_zero_iff.1 (by omega)
      subst this
      simp [he]
    · rw [if_neg he, ih (p ++ [b]) (by simp; omega) (by simp; omega)]
      simp [Nat.add_assoc, Nat.add_comm 1]

/-- Taking bytes one at a time from HUNT finds what examining them together finds (R3). -/
theorem foldl_feed_eq_examine (n : Nat) : ∀ xs : List Byte, xs.length ≤ n →
    xs.foldl Intake.feed Intake.start = examine 0 xs := by
  induction n with
  | zero =>
    intro xs h
    rw [List.length_eq_zero_iff.1 (Nat.le_zero.1 h)]
    rfl
  | succ n ih =>
    intro xs h
    cases xs with
    | nil => rfl
    | cons b rest =>
      have hlen : rest.length ≤ n := by simpa using h
      by_cases hb : b = syncByte
      · subst hb
        have hs : Intake.feed Intake.start syncByte = { hunt := .kind, bytes := [], frames := [] } := rfl
        rw [List.foldl_cons, hs]
        simp only [examine, if_true]
        cases rest with
        | nil => rfl
        | cons k r =>
          have hr : r.length + 1 ≤ n := by simpa using hlen
          by_cases hk : kindPasses k = true
          · have hl := two_le_frameLength hk
            have hf : Intake.feed { hunt := .kind, bytes := [], frames := [] } k
                = { hunt := .payload, bytes := [k], frames := [] } := by
              have : frameLength k ≠ 0 := by omega
              simp [Intake.feed, Ulr.take, hk, this]
            rw [List.foldl_cons, hf]
            by_cases hshort : r.length ≤ frameLength k
            · have hn : r[frameLength k]? = none := List.getElem?_eq_none hshort
              rw [foldl_feed_payload k [] r (by simp; omega) (by simpa using hshort)]
              simp [trial, hk, hn, huntOf]
            · have hlt : frameLength k < r.length := by omega
              obtain ⟨chk, hchk⟩ : ∃ chk, r[frameLength k]? = some chk := ⟨_, List.getElem?_eq_getElem hlt⟩
              have hsplit : r = r.take (frameLength k) ++ chk :: r.drop (frameLength k + 1) := by
                conv_lhs => rw [← List.take_append_drop (frameLength k) r]
                rw [List.drop_eq_getElem_cons hlt]
                rw [List.getElem?_eq_getElem hlt] at hchk
                simp_all
              have htl : (r.take (frameLength k)).length = frameLength k := by simp; omega
              have hgo : r.foldl Intake.feed { hunt := .payload, bytes := [k], frames := [] }
                  = (r.drop (frameLength k + 1)).foldl Intake.feed
                      (Intake.feed { hunt := .check, bytes := k :: r.take (frameLength k), frames := [] } chk) := by
                conv_lhs => rw [hsplit]
                rw [List.foldl_append, List.foldl_cons, foldl_feed_payload k [] _ (by simp; omega) (by simp)]
                simp [htl]
              rw [hgo]
              by_cases hc : crc8 (k :: r.take (frameLength k)) = chk
              · have hfeed : Intake.feed { hunt := .check, bytes := k :: r.take (frameLength k), frames := [] } chk
                    = { Intake.start with frames := [k :: r.take (frameLength k)] ++ Intake.start.frames } := by
                  simp [Intake.feed, Ulr.take, hc, Intake.start]
                rw [hfeed, Intake.foldl_feed_frames, ih _ (by simp; omega)]
                simp only [trial, hk, hchk, hc, Bool.not_true, if_true, Bool.false_eq_true, if_false]
                rw [examine_skip, examine_skip _ (k :: r)]
                simp [Intake.accept, htl]
              · have hfeed : Intake.feed { hunt := .check, bytes := k :: r.take (frameLength k), frames := [] } chk
                    = (k :: r.take (frameLength k) ++ [chk]).foldl Intake.feed Intake.start := by
                  rw [ih _ (by simp; omega)]
                  simp [Intake.feed, Ulr.take, hc]
                rw [hfeed, ← List.foldl_append]
                have : k :: r.take (frameLength k) ++ [chk] ++ r.drop (frameLength k + 1) = k :: r := by
                  conv_rhs => rw [hsplit]
                  simp
                rw [this, ih _ (by simpa using hr)]
                simp [trial, hk, hchk, hc]
          · have hf : Intake.feed { hunt := .kind, bytes := [], frames := [] } k
                = Intake.feed Intake.start k := by
              have h1 := ih [k] (by simp; omega)
              simp only [List.foldl_cons, List.foldl_nil] at h1
              rw [h1]
              simp [Intake.feed, Ulr.take, hk]
            rw [List.foldl_cons, hf, ← List.foldl_cons, ih _ (by simpa using hr)]
            simp [trial, hk]
      · have hs : Intake.feed Intake.start b = Intake.start := by
          simp [Intake.feed, Ulr.take, Intake.start, hb]
        rw [List.foldl_cons, hs, ih _ hlen]
        simp [examine, hb]

/-- The discarded candidate's bytes taken again, one at a time (R3). -/
theorem examine_eq_foldl_feed (xs : List Byte) : examine 0 xs = xs.foldl Intake.feed Intake.start :=
  (foldl_feed_eq_examine xs.length xs (Nat.le_refl _)).symm

/-! ### Characters (R202) -/

/-- The ten levels of a character (R202). -/
theorem characterBits_spec (b : Byte) : (characterBits b).length = 10 ∧ (characterBits b)[0]? = some false ∧ (characterBits b)[9]? = some true
      ∧ (∀ i, i < 8 → (characterBits b)[i + 1]? = some (b.getLsbD i)) := by
  refine ⟨rfl, rfl, rfl, ?_⟩
  intro i hi
  interval_cases i <;> rfl

/-- A character is read as its byte (R202). -/
theorem Character.read_characterBits : ∀ b : Byte, Character.read (characterBits b) = .byte b := by
  intro b
  have : ∀ b : Fin 256, Character.read (characterBits (BitVec.ofFin b)) = .byte (BitVec.ofFin b) := by decide +kernel
  exact this b.toFin

/-- Ten levels to a byte. -/
theorem lineBits_length (bs : List Byte) : (lineBits bs).length = 10 * bs.length := by
  induction bs with
  | nil => rfl
  | cons b bs ih =>
    have : lineBits (b :: bs) = characterBits b ++ lineBits bs := rfl
    rw [this, List.length_append, ih, (characterBits_spec b).1, List.length_cons]; ring

/-- The level at a place of a line is that of the byte it falls in. -/
theorem lineBits_getElem? (bs : List Byte) (n : Nat) (b : Byte) (h : bs[n / 10]? = some b) : (lineBits bs)[n]? = (characterBits b)[n % 10]? := by
  induction bs generalizing n with
  | nil => simp at h
  | cons c bs ih =>
    have e : lineBits (c :: bs) = characterBits c ++ lineBits bs := rfl
    rw [e]
    by_cases hn : n < 10
    · rw [List.getElem?_append_left (by rw [(characterBits_spec c).1]; exact hn)]
      rw [Nat.div_eq_of_lt hn] at h
      simp at h; subst h
      rw [Nat.mod_eq_of_lt hn]
    · rw [List.getElem?_append_right (by rw [(characterBits_spec c).1]; omega), (characterBits_spec c).1]
      have h1 : n / 10 = (n - 10) / 10 + 1 := by omega
      rw [h1, List.getElem?_cons_succ] at h
      rw [ih _ h]
      congr 1; omega

/-! ### One byte, said once -/

/-- The check of a kind byte is the one the statements name (R2). -/
theorem kindPasses_iff (b : Byte) : kindPasses b = true ↔ passesKind b := by
  unfold kindPasses passesKind frameKind frameLength
  simp

/-- What one byte makes of an intake in each hunt state (R2, R3). -/
theorem Intake.feed_spec (r : Intake) (b : Byte) :
    (r.hunt = .hunt → r.feed b = { r with hunt := if b = 0x5C#8 then .kind else .hunt, bytes := [] })
      ∧ (r.hunt = .kind → r.bytes = [] → passesKind b → r.feed b = { r with hunt := .payload, bytes := [b] })
      ∧ (∀ k rest, r.hunt = .payload → r.bytes = k :: rest →
        r.feed b = { r with
          hunt := if rest.length + 1 = k.toNat % 64 then .check else .payload
          bytes := k :: rest ++ [b] })
      ∧ (r.hunt = .check → r.bytes ≠ [] → crc8 r.bytes = b →
        r.feed b = { hunt := .hunt, bytes := [], frames := r.frames ++ [r.bytes] })
      ∧ (r.hunt = .kind ∧ r.bytes = [] ∧ ¬passesKind b ∨ r.hunt = .check ∧ r.bytes ≠ [] ∧ crc8 r.bytes ≠ b →
        let again := (r.bytes ++ [b]).foldl Intake.feed Intake.start
        r.feed b = { again with frames := r.frames ++ again.frames }) := by
  obtain ⟨h, bs, fr⟩ := r
  dsimp only
  refine ⟨?_, ?_, ?_, ?_, ?_⟩
  · rintro rfl; simp only [Intake.feed, Ulr.take, syncByte, List.append_nil]; congr 1
  · rintro rfl rfl hp
    have hk := (kindPasses_iff b).2 hp
    have : frameLength b ≠ 0 := by have := two_le_frameLength hk; omega
    simp [Intake.feed, Ulr.take, hk, this]
  · rintro k rest rfl rfl
    simp [Intake.feed, Ulr.take, frameLength, Nat.add_comm]
  · rintro rfl _ hc
    simp [Intake.feed, Ulr.take, hc]
  · rintro (⟨rfl, rfl, hp⟩ | ⟨rfl, _, hc⟩)
    · have hk : kindPasses b = false := by rw [← Bool.not_eq_true, kindPasses_iff]; exact hp
      rw [← examine_eq_foldl_feed]
      simp [Intake.feed, Ulr.take, hk]
    · rw [← examine_eq_foldl_feed]
      simp [Intake.feed, Ulr.take, hc]

end Sys2Proof.Machine
end

