-- ==== Sys2Proof/WellFormed.lean ====
section
/-! DEFINITION. Which terms of Instr stand for a command that can occur. -/

namespace Sys2Proof

/-- The parameters of a setup command fit a payload of at most 63 bytes (R1, R2): byte 0, the qualifier and 61 more. -/
def Instr.paramsFit (ps : List Byte) : Bool := decide (ps.length ≤ 61)

/-- A command of the table as it can occur: an accepted setup frame has a payload of 2..63 bytes (R2), an order names no
block twice, and a store-group qualifier of UNASSIGNED_COMMAND names no command (R204). -/
def Instr.wellFormed : Instr → Bool
  | .controlFrameAccepted _ order => decide order.Nodup
  | .setupFrameAccepted payload => decide (2 ≤ payload.length) && decide (payload.length ≤ 63)
  | .candidateDiscarded _ order => decide order.Nodup
  | .faultedCharacter => true
  | .entryIntoHold order => decide order.Nodup
  | .entryIntoFailsafe order => decide order.Nodup
  | .refresh order => decide order.Nodup
  | .armingTimerExpiry => true
  | .reverseDelayExpiry _ => true
  | .pulseStart => true
  | .spoolPulse _ _ => true
  | .lightTimebaseEvent => true
  | .brakeHoldExpiry => true
  | .measurementCompletion _ order => decide order.Nodup
  | .endOfStartUpWindow => true
  | .foldbackTimerExpiry => true
  | .cutoffTimerExpiry => true
  | .parkTimerExpiry => true
  | .returnTransmitCompletion => true
  | .accessoryTransmitCompletion => true
  | .storeCompletion => true
  | .coldReset => true
  | .warmReset => true
  | .resetRelease _ => true
  | .identify _ ps => Instr.paramsFit ps
  | .readTable _ ps => Instr.paramsFit ps
  | .writeTable _ ps => Instr.paramsFit ps
  | .readSwitches _ ps => Instr.paramsFit ps
  | .writeSwitches _ ps => Instr.paramsFit ps
  | .setSwitch _ ps => Instr.paramsFit ps
  | .clearSwitch _ ps => Instr.paramsFit ps
  | .driveInhibit _ => true
  | .winchInhibit _ => true
  | .parkRequest _ => true
  | .override _ => true
  | .resetCharge => true
  | .boostDisable _ => true
  | .captureFailsafe _ ps => Instr.paramsFit ps
  | .winchRun _ ps => Instr.paramsFit ps
  | .winchStop _ ps => Instr.paramsFit ps
  | .winchZero _ ps => Instr.paramsFit ps
  | .winchFree _ ps => Instr.paramsFit ps
  | .ackAlert _ ps => Instr.paramsFit ps
  | .store ps => Instr.paramsFit ps
  | .restore ps => Instr.paramsFit ps
  | .defaults ps => Instr.paramsFit ps
  | .softRestart _ ps => Instr.paramsFit ps
  | .unassignedCommand storeGroup q ps =>
      Instr.paramsFit ps && !(storeGroup && decide (1 ≤ q.toNat) && decide (q.toNat ≤ 3))
  | .uplinkByteTaken _ order => decide order.Nodup
  | .servoPulseEnd _ => true

end Sys2Proof
end

