-- ==== Sys2Proof/Tests/Slice0.lean ====
section
/-! SUPPORT. Checks of the model on small fixed cases: ill-formed commands, the worked examples of the spec, and for each
statement with hypotheses a state and operands that meet them. -/

set_option Elab.async false

namespace Sys2Proof.Tests

open Sys2Proof.Machine

/-! ## Small states -/

/-- The state after a few commands. -/
def after (s : State) (l : List Instr) : State :=
  l.foldl (fun t i => match exec i t with | .next u => u | .fault _ => t | .refused _ => t) s

/-- A control frame with the first three channels given and every other channel, the switches among them, low. -/
def sticks (steer throttle winch : Raw) : Vector Byte 19 :=
  controlPayload #v[steer, throttle, winch, 448#12, 448#12, 448#12, 448#12, 448#12, 448#12, 448#12, 448#12, 448#12] 0#8

/-- The link LIVE, the sticks centred, the drive ARMING. -/
def live : State := after .reset [.controlFrameAccepted (sticks 2048#12 2048#12 2048#12) []]

/-- The same, ARMED. -/
def armed : State := after live [.armingTimerExpiry]

/-- Both axles FORWARD under a grant. -/
def driving : State :=
  after armed [.controlFrameAccepted (sticks 2048#12 2648#12 2048#12) [], .measurementCompletion ⟨3800, 3800, 3800, 0, 11400, 0⟩ []]

/-- HOLD, and FAILSAFE. -/
def hold : State := after live [.entryIntoHold []]
def failsafe : State := after hold [.entryIntoFailsafe []]

/-- The mixer of `driving` with the front axle REVERSING. -/
def reversing : State :=
  driving.onChip fun c => { c with
    drm := { c.drm with front := { c.drm.front with state := .reversing, timer := some 700, left := some .reverse } } }

/-- `live` with a winch state, position and referenced flag. -/
def winchAt (st : WinchState) (p : Nat) (referenced : Bool) (r : Option Run) : State :=
  live.onChip fun c => { c with
    wnc := { c.wnc with state := st, position := p, referenced := referenced, run := r, holdOff := false } }

/-- PARKED on a LIVE link. -/
def parked : State := after live [.parkRequest true]

/-- The level CUTOFF, its interval running. -/
def cutoff : State := after live [.measurementCompletion ⟨2000, 2000, 2000, 0, 9000, 0⟩ []]

/-- A STORE in flight. -/
def storing : State := after live [.store []]

/-- The reply queue full behind a reply in transmission. -/
def busy : State :=
  after live [.identify 0#8 [], .identify 0#8 [], .identify 0#8 [], .identify 0#8 [], .identify 0#8 []]

/-- A candidate as far as its check byte. -/
def atCheck (bytes : List Byte) : State :=
  live.onChip fun c => { c with ulr := { c.ulr with hunt := .check, bytes := bytes } }

/-! ## Well-formedness -/

theorem test_refuses_repeated_order : Instr.wellFormed (.refresh [.stm, .stm]) = false := by decide +kernel
theorem test_refuses_repeated_order_control :
    Instr.wellFormed (.controlFrameAccepted (sticks 0#12 0#12 0#12) [.rtx, .rtx]) = false := by decide +kernel
theorem test_refuses_repeated_order_evaluation :
    Instr.wellFormed (.measurementCompletion ⟨0, 0, 0, 0, 0, 0⟩ [.bga, .drm, .bga]) = false := by decide +kernel
theorem test_refuses_short_setup : Instr.wellFormed (.setupFrameAccepted [0x10#8]) = false := by decide +kernel
theorem test_refuses_long_setup : Instr.wellFormed (.setupFrameAccepted (List.replicate 64 0#8)) = false := by decide +kernel
theorem test_refuses_long_parameters : Instr.wellFormed (.identify 0#8 (List.replicate 62 0#8)) = false := by decide +kernel
theorem test_refuses_named_store_qualifier : Instr.wellFormed (.unassignedCommand true 2#8 []) = false := by decide +kernel
theorem test_accepts_longest : Instr.wellFormed (.writeTable 4#8 (List.replicate 61 0#8)) = true := by decide +kernel
theorem test_no_word_spells_a_command : decodeTableWord 8 0x5C = none := rfl

/-! ## Worked examples of the spec -/

/-- R2: the CRC of 0x01 is the generator, and that of the kind/length byte of an IDENTIFY frame. -/
theorem test_crc : crc8 [0x01#8] = 0xA7#8 ∧ crc8 [0x82#8] = 0x3F#8 := by decide +kernel

/-- 02, section 2.2: the worked cases of normalization. -/
theorem test_normalization :
    let cal := factoryTables.channelCal[0]
    cal.normalize 2648#12 = 362 ∧ cal.normalize 4095#12 = 1000 ∧ cal.normalize 0#12 = -1000 ∧ cal.normalize 2055#12 = 0
      ∧ ({ centre := 2000, halfSpan := 500, deadband := 0, reverse := false } : ChannelCal).normalize 2300#12 = 600 := by
  decide +kernel

/-- 02: from raw 2648 to drive command 362 on a linear curve. -/
theorem test_curve : (factoryTables.curve[0]).eval 362 = 362 := by decide +kernel

/-- 03: widths at s = 500 and at the failsafe centre. -/
theorem test_widths :
    ({ left := 1100, centre := 1500, right := 1900 } : ServoEnd).width 500 = 1700
      ∧ ({ left := 1120, centre := 1520, right := 1920 } : ServoEnd).width (-500) = 1320
      ∧ ({ left := 1100, centre := 1500, right := 1900 } : ServoEnd).slewed 40 (some 1645) 1580 = 1605 := by decide +kernel

/-- 08: the worked divisions. -/
theorem test_divisions :
    divideBudget 17000 ⟨15000, 8000, 1200⟩ ⟨4, 3, 2⟩ = ⟨9028, 6771, 1200⟩
      ∧ divideBudget 17000 ⟨15000, 8000, 1200⟩ ⟨4, 7, 2⟩ = ⟨7800, 8000, 1200⟩
      ∧ divideBudget 10000 ⟨20000, 3200, 2250⟩ ⟨4, 3, 2⟩ = ⟨4550, 3200, 2250⟩
      ∧ divideBudget 9000 ⟨14400, 8000, 2400⟩ ⟨4, 3, 4⟩ = ⟨3771, 2828, 2400⟩ := by decide +kernel

/-- 04 and 08: duties under those grants. -/
theorem test_scaling : scaleTo 9028 15000 625 = 375 ∧ scaleTo 6771 8000 800 = 676 ∧ scaleTo 7800 15000 625 = 325 := by
  decide +kernel

/-- 07: the factory cell counts, and one filter step each way. -/
theorem test_battery :
    cellCountOf 0 8700 = 2 ∧ cellCountOf 0 8701 = 3 ∧ cellCountOf 0 13051 = 4
      ∧ filterStep 3800 3807 = 3801 ∧ filterStep 3800 3784 = 3798 ∧ filterStep 3800 3800 = 3800 := by decide +kernel

/-- 01, Delineation examples, Doubled sync: the frame behind a second sync byte is found. -/
theorem test_doubled_sync :
    (0x5C#8 :: wireFrame 1 (sticks 1#12 2#12 3#12).toList).foldl Intake.feed Intake.start
      = { hunt := .hunt, bytes := [], frames := [0x53#8 :: (sticks 1#12 2#12 3#12).toList] } := by decide +kernel

/-- 01, Short setup frame: 0x5C 0x81 is given up at KIND, and 0x81 dropped. -/
theorem test_short_setup : [0x5C#8, 0x81#8].foldl Intake.feed Intake.start = Intake.start := by decide +kernel

/-- R2: the IDENTIFY frame of unit 1 is answered by the identity (R182). -/
theorem test_identify :
    (after .reset [.setupFrameAccepted [0x10#8, 0#8]]).chip.rtx.sending
      = some (.reply { head := 0x10#8, status := .ok, data := [0x2C#8, 0x04#8, 0x01#8] }) := by decide +kernel

/-- 05, A run to the out end: the run is taken at 3990. -/
theorem test_winch_run :
    let t := after (winchAt .idle 3990 true none) [.winchRun 2#8 (wordBytes 20#16 ++ wordBytes 600#16)]
    t.chip.wnc.state = .runOut ∧ t.chip.wnc.run = some { dir := .outward, count := 20, duty := 600, remaining := 20 } := by
  decide +kernel

/-- 05: the pulse that brings P to Pmax ends the run LIMIT. -/
theorem test_winch_limit :
    let t := after (winchAt .runOut 3999 true (some { dir := .outward, count := 20, duty := 600, remaining := 11 }))
      [.spoolPulse 1000 60]
    t.chip.wnc.state = .idle ∧ t.chip.wnc.position = 4000
      ∧ t.chip.wnc.lastOp = some { kind := .runOut, requested := some 20, counts := 10, outcome := .limit } := by
  decide +kernel

/-- 05: the overrun pulse in IDLE raises LINE_END. -/
theorem test_line_end :
    (after (winchAt .idle 4000 true none) [.spoolPulse 1000 60]).chip.alt.has .lineEnd = true := by decide +kernel

/-- 11, a cold start: the reset state is the release of a cold reset. -/
theorem test_cold_start : after .reset [.coldReset, .resetRelease false] = .reset := by decide +kernel

/-- 01: the link falls from LIVE to HOLD at T_hold and to FAILSAFE at T_fs more. -/
theorem test_link_loss :
    live.chip.ulr.link = .live ∧ hold.chip.ulr.link = .hold ∧ hold.chip.now = 100 ∧ hold.chip.ulr.ordinal = 1
      ∧ failsafe.chip.ulr.link = .failsafe ∧ failsafe.chip.now = 1000 ∧ failsafe.chip.alt.has .linkFailsafe = true := by
  decide +kernel

/-- 04: the drive arms 500 ms on, and a forward throttle drives both axles. -/
theorem test_drive :
    live.chip.drm.arming = .arming ∧ armed.chip.now = 500 ∧ armed.chip.drm.arming = .armed
      ∧ driving.chip.drm.front.state = .forward ∧ driving.chip.drm.rear.state = .forward := by decide +kernel

/-- 10: a STORE completes 40 ms on, and the image then checks good. -/
theorem test_store :
    storing.chip.tbs.image.checksGood = false ∧ (after storing [.storeCompletion]).chip.now = 40
      ∧ (after storing [.storeCompletion]).chip.tbs.image.checksGood = true := by decide +kernel

/-- 07: a pack below V_cut at the first measurement reaches CUTOFF, then DORMANT 200 ms on. -/
theorem test_cutoff :
    cutoff.chip.btm.level = .cutoff ∧ (after cutoff [.cutoffTimerExpiry]).chip.mdc.mode = .dormant
      ∧ (after cutoff [.cutoffTimerExpiry]).chip.now = 210 := by decide +kernel

/-- An idle step lets one millisecond pass (assumption log, entry 3). -/
theorem test_idle_step : step .reset = .next (State.reset.onChip fun c => { c with now := 1 }) := rfl

/-! ## What the statements suppose: a state and operands for each, at the ends of each clause -/

theorem test_supposed_StoppedPartTakesNoEvent :
    ¬(after .reset [.coldReset]).chip.Running ∧ ¬(after cutoff [.cutoffTimerExpiry]).chip.Running
      ∧ exec .pulseStart (after .reset [.coldReset]) = .next (after .reset [.coldReset]) := by
  refine ⟨?_, ?_, congrArg Host.Outcome.next (by decide +kernel)⟩ <;> (unfold Chip.Running; decide +kernel)

theorem test_supposed_WarmReset :
    (after .reset [.coldReset]).chip.held = some .cold ∧ (after .reset [.warmReset]).chip.held ≠ some .cold
      ∧ live.chip.held ≠ some .cold := by decide +kernel

theorem test_supposed_ResetRelease : live.chip.held = none ∧ (after .reset [.warmReset]).chip.held ≠ none := by decide +kernel

/-- The invariants at states that a run reaches: driving, and in FAILSAFE. -/
theorem test_supposed_invariants :
    (driving.chip.LinkOk ∧ failsafe.chip.LinkOk) ∧ driving.chip.ulr.HuntOk ∧ driving.chip.DriveOk
      ∧ driving.chip.WinchOk ∧ driving.chip.QueuesOk ∧ storing.chip.StoreOk ∧ failsafe.chip.alt.Ok
      ∧ driving.chip.bga.Ok ∧ driving.chip.sup.SwitchesOk
      ∧ ∃ t, step { live with pending := [.entryIntoHold []] } = .next t := by
  refine ⟨⟨⟨?_, fun _ => ?_⟩, ⟨?_, fun _ => ?_⟩⟩, ?_, ⟨?_, ?_, ?_⟩, ?_, ?_, ?_, ?_, ?_, ?_, _, rfl⟩
  · show ∀ i : Fin 12, _; decide +kernel
  · unfold Chip.linkTimersMatch; decide +kernel
  · show ∀ i : Fin 12, _; decide +kernel
  · unfold Chip.linkTimersMatch; decide +kernel
  · show _ = _; decide +kernel
  · unfold Chip.armingOk Chip.linkUp; decide +kernel
  · unfold Chip.axleOk; decide +kernel
  · unfold Chip.axleOk; decide +kernel
  · refine ⟨?_, ?_, ?_, ?_⟩ <;> decide +kernel
  · unfold Chip.QueuesOk Chip.asleep Chip.queuesFit Chip.linesBusy Chip.setupWaits; decide +kernel
  · refine ⟨by decide +kernel, fun t h => ?_⟩
    have e : storing.chip.tbs.snapshot = some storing.chip.tables := by decide +kernel
    rw [e] at h; cases h
    refine ⟨rfl, ?_, ?_⟩ <;> decide +kernel
  · refine ⟨fun a => ?_, by decide +kernel⟩
    cases a <;> decide +kernel
  · unfold Bga.Ok; decide +kernel
  · unfold Sup.SwitchesOk; decide +kernel

theorem test_supposed_TablesStayInRange : live.chip.TablesOk ∧ ∃ t, step { live with pending := [.defaults []] } = .next t := by
  have e : live.chip.tables = factoryTables ∧ live.chip.tbs = { image := blankImage, snapshot := none } := by decide +kernel
  refine ⟨⟨?_, ?_, ?_⟩, _, rfl⟩
  · rw [e.1]; exact factoryTables_ok
  · rw [e.2]; exact factoryTables_ok
  · rw [e.2]; intro t h; cases h

theorem test_supposed_AssemblyTakesBytes :
    live.chip.Running ∧ live.chip.ulr.hunt = .hunt
      ∧ ((after live [.uplinkByteTaken 0x5C#8 []]).chip.ulr.hunt = .kind
        ∧ (after live [.uplinkByteTaken 0x5C#8 []]).chip.ulr.bytes = [] ∧ passesKind 0x53#8 ∧ passesKind 0x82#8
        ∧ passesKind 0xBF#8 ∧ ¬passesKind 0x52#8 ∧ ¬passesKind 0x81#8 ∧ ¬passesKind 0xC2#8)
      ∧ (after live [.uplinkByteTaken 0x5C#8 [], .uplinkByteTaken 0x82#8 [], .uplinkByteTaken 0x10#8 []]).chip.ulr.bytes
        = [0x82#8, 0x10#8]
      ∧ (after live [.uplinkByteTaken 0x5C#8 [], .uplinkByteTaken 0x82#8 [], .uplinkByteTaken 0x10#8 []]).chip.ulr.hunt
        = .payload := by
  unfold Chip.Running passesKind; decide +kernel

theorem test_supposed_CompletedCandidate :
    let a := atCheck (0x53#8 :: (sticks 1#12 2#12 3#12).toList)
    let b := atCheck [0x82#8, 0x10#8, 0#8]
    a.chip.Running ∧ a.chip.ulr.hunt = .check ∧ b.chip.Running ∧ b.chip.ulr.hunt = .check
      ∧ (0x82#8 : Byte).toNat / 64 = 2 ∧ b.chip.ulr.bytes = [0x82#8, 0x10#8, 0#8] := by
  unfold Chip.Running; decide +kernel

theorem test_supposed_DiscardTakesHeldBytesAgain :
    let k := after live [.uplinkByteTaken 0x5C#8 []]
    let b := atCheck [0x82#8, 0x10#8, 0#8]
    (k.chip.Running ∧ k.chip.ulr.hunt = .kind ∧ k.chip.ulr.bytes = [] ∧ ¬passesKind 0x5C#8)
      ∧ (b.chip.Running ∧ b.chip.ulr.hunt = .check ∧ crc8 b.chip.ulr.bytes ≠ 0#8) := by
  unfold Chip.Running passesKind; decide +kernel

theorem test_supposed_FramesRoundTrip :
    (sticks 0#12 4095#12 0x5C5#12).toList.length = 19 ∧ (List.replicate 63 0x5C#8).length ≤ 63 := by decide +kernel

theorem test_supposed_FaultedCharacter :
    live.chip.Running ∧ live.chip.ulr.HuntOk ∧ live.chip.ulr.hunt = .hunt ∧ (atCheck [0x82#8, 0x10#8, 0#8]).chip.ulr.HuntOk
      ∧ (atCheck [0x82#8, 0x10#8, 0#8]).chip.Running ∧ (atCheck [0x82#8, 0x10#8, 0#8]).chip.ulr.hunt ≠ .hunt := by
  refine ⟨⟨?_, ?_⟩, (show _ = _ by decide +kernel), ?_, ⟨0x82#8, [0x10#8, 0#8], rfl, ?_, ?_⟩, ⟨?_, ?_⟩, ?_⟩ <;> decide +kernel

theorem test_supposed_control_frames :
    live.chip.Running ∧ rxHold (controlPayload (Vector.replicate 12 0#12) 1#8).toList = true
      ∧ rxHold (sticks 0#12 0#12 0#12).toList = false ∧ live.chip.mdc.mode = .active
      ∧ live.chip.rtx.count + 1 < live.chip.tables.link.statusN
      ∧ (live.onChip fun c => { c with rtx := { c.rtx with count := 4 } }).chip.tables.link.statusN ≤ 4 + 1 := by
  unfold Chip.Running; decide +kernel

theorem test_supposed_link_timers :
    (live.chip.Running ∧ live.chip.ulr.link = .live ∧ live.chip.ulr.linkTimer = some 100)
      ∧ (hold.chip.Running ∧ hold.chip.ulr.link = .hold ∧ hold.chip.ulr.linkTimer = some 1000
        ∧ (hold.chip.ulr.ordinal + 1) % 5 ≠ 0)
      ∧ (failsafe.chip.Running ∧ failsafe.chip.ulr.link ≠ .live ∧ failsafe.chip.ulr.refreshDue = some 1020
        ∧ (failsafe.chip.ulr.ordinal + 1) % 5 ≠ 0)
      ∧ ((after failsafe [.refresh [], .refresh []]).chip.ulr.ordinal + 1) % 5 = 0
      ∧ ((after hold [.refresh [], .refresh [], .refresh []]).chip.ulr.ordinal + 1) % 5 = 0 := by
  unfold Chip.Running; decide +kernel

/-- UpdateSteers: first update, selection kept, taken and pending; the output LIVE, quiet and starting. -/
theorem test_supposed_UpdateSteers :
    State.reset.chip.mdc.mode = .active ∧ State.reset.chip.stm.first = true
      ∧ (live.chip.mdc.mode = .active ∧ live.chip.stm.first = false ∧ live.chip.decodeNow.cdc.steerSel = live.chip.stm.active)
      ∧ (let c := { live.chip with stm := { live.chip.stm with active := .crab } }
        c.mdc.mode = .active ∧ c.decodeNow.cdc.steerSel ≠ c.stm.active
          ∧ c.decodeNow.steerCommand.natAbs ≤ c.tables.link.window)
      ∧ (let c := { live.chip with stm := { live.chip.stm with active := .front }, slots := Vector.replicate 12 (.fresh 4095#12) }
        c.mdc.mode = .active ∧ c.decodeNow.cdc.steerSel ≠ c.stm.active
          ∧ c.tables.link.window < c.decodeNow.steerCommand.natAbs)
      ∧ (State.reset.chip.stm.pulsing = false ∧ live.chip.stm.pulsing = true) := by decide +kernel

/-- UpdateFormsTheDriveRequest: DISARMED under and outside the conditions, ARMING, ARMED, and ARMED in FAILSAFE. -/
theorem test_supposed_UpdateFormsTheDriveRequest :
    let c := { live.chip with drm := { live.chip.drm with arming := .disarmed } }
    let f := { failsafe.chip with drm := { failsafe.chip.drm with arming := .armed } }
    (c.mdc.mode = .active ∧ c.drm.arming = .disarmed ∧ c.ulr.link = .live ∧ c.throttleFresh = true
        ∧ c.decodeNow.driveCommand = 0 ∧ c.driveInhibit = false
        ∧ c.mdc.bench = false)
      ∧ (State.reset.chip.drm.arming = .disarmed ∧ State.reset.chip.ulr.link ≠ .live)
      ∧ (live.chip.drm.arming = .arming ∧ hold.chip.drm.arming = .disarmed ∧ hold.chip.throttleFresh = false)
      ∧ (driving.chip.drm.arming = .armed ∧ driving.chip.ulr.link ≠ .failsafe)
      ∧ (f.mdc.mode = .active ∧ f.drm.arming = .armed ∧ f.ulr.link = .failsafe) := by decide +kernel

/-- UpdateWorksTheWinch: a lock cause; a LOCKED winch; the control at, above and below the threshold; both line ends. -/
theorem test_supposed_UpdateWorksTheWinch :
    (State.reset.chip.mdc.mode = .active ∧ State.reset.chip.winchLockCause = true ∧ State.reset.chip.wnc.state = .locked)
      ∧ ((winchAt .jogIn 5 true none).chip.mdc.mode = .active
        ∧ { (winchAt .jogIn 5 true none).chip with ulr := failsafe.chip.ulr }.winchLockCause = true)
      ∧ (let c := { live.chip with wnc := State.reset.chip.wnc }
        c.winchLockCause = false ∧ c.wnc.state = .locked ∧ c.wnc.holdOff = true)
      ∧ (let c := (winchAt .jogIn 5 true none).chip
        c.winchLockCause = false ∧ c.decode.winch.natAbs ≤ c.tables.winchCfg.jogThreshold)
      ∧ (let c := { (winchAt .idle 0 true none).chip with slots := Vector.replicate 12 (.fresh 4095#12) }
        c.winchLockCause = false ∧ (c.tables.winchCfg.jogThreshold : Int) < c.decode.winch ∧ c.wnc.holdOff = false
          ∧ c.wnc.state = .idle ∧ c.wnc.referenced = true ∧ c.wnc.position = 0)
      ∧ (let c := { (winchAt .runIn 9 true none).chip with slots := Vector.replicate 12 (.fresh 0#12) }
        c.winchLockCause = false ∧ c.decode.winch < -(c.tables.winchCfg.jogThreshold : Int) ∧ c.wnc.holdOff = false
          ∧ c.wnc.state = .runIn ∧ c.wnc.position ≠ c.tables.winchCfg.pmax)
      ∧ (let c := { (winchAt .stalled 4000 true none).chip with slots := Vector.replicate 12 (.fresh 0#12) }
        c.decode.winch < -(c.tables.winchCfg.jogThreshold : Int) ∧ c.wnc.position = c.tables.winchCfg.pmax) := by
  decide +kernel

theorem test_supposed_ranges :
    Curve.Ok factoryTables.curve[0] ∧ (factoryTables.channelCal[0]).Ok ∧ factoryTables.servoFront.Ok :=
  ⟨factoryTables_ok.curve 0, factoryTables_ok.channelCal 0, factoryTables_ok.servoFront⟩

theorem test_supposed_ServoPulses : live.chip.Running ∧ live.chip.stm.schedule = some 20 := by
  unfold Chip.Running; decide +kernel

/-- ArmingExpiryArms, with a driven and with a locked axle. -/
theorem test_supposed_ArmingExpiryArms :
    live.chip.Running ∧ live.chip.drm.armTimer = some 500 ∧ live.chip.drm.arming = .arming ∧ live.chip.mdc.mode = .active
      ∧ live.chip.mdc.bench = false ∧ live.chip.linkUp ∧ live.chip.drm.axleRequest = 0
      ∧ (∀ a, (live.chip.drm.axle a).state = .off) ∧ live.chip.drm.mode.locks .rear = false
      ∧ DriveMode.frontDig.locks .rear = true := by
  refine ⟨⟨?_, ?_⟩, ?_, ?_, ?_, ?_, Or.inl ?_, ?_, fun a => ?_, ?_, ?_⟩ <;> (try cases a) <;> decide +kernel

theorem test_supposed_ReverseDelay :
    reversing.chip.Running ∧ (reversing.chip.drm.axle .front).timer = some 700
      ∧ (reversing.chip.drm.axle .front).state = .reversing ∧ Axle.front ≠ Axle.rear ∧ reversing.chip.drm.axleRequest = 362 := by
  unfold Chip.Running; decide +kernel

theorem test_supposed_WinchRecord :
    WinchState.idle.driven = live.chip.wnc.state.driven ∧ parked.chip.mdc.mode ≠ .active := by decide +kernel

/-- SpoolPulseCounts: too short, too early, and each kind of state, at a line end and one short of it. -/
theorem test_supposed_SpoolPulseCounts :
    let r : Run := { dir := .outward, count := 20, duty := 600, remaining := 11 }
    let early := after live [.spoolPulse 1000 50]
    (live.chip.Running ∧ 49 < 50 ∧ (49 : Nat) ≤ 50)
      ∧ (early.chip.Running ∧ early.chip.spoolStart = some 1000 ∧ 1199 < 1000 + 200 ∧ 1000 + 200 ≤ 1200)
      ∧ ((winchAt .jogIn 1 true none).chip.wnc.state = .jogIn ∧ (winchAt .jogIn 1 true none).chip.wnc.run = none
        ∧ (winchAt .jogIn 1 true none).chip.wnc.position - 1 = 0 ∧ (winchAt .jogIn 0 true none).chip.wnc.position = 0
        ∧ (winchAt .jogIn 1 true none).chip.Running)
      ∧ ((winchAt .jogOut 3999 true none).chip.tables.winchCfg.pmax = 4000)
      ∧ ((winchAt .runOut 3999 true (some r)).chip.wnc.run = some r ∧ r.remaining ≤ r.count ∧ 1 < r.remaining)
      ∧ ((winchAt .runIn 7 false (some { r with remaining := 1 })).chip.wnc.run = some { r with remaining := 1 })
      ∧ ((winchAt .free 7 false none).chip.wnc.state = .free) := by
  unfold Chip.Running; decide +kernel

/-- A ready part: at reset, LIVE, with each winch state, ARMED, with a STORE in flight, and with latches set. -/
theorem test_supposed_Ready :
    State.reset.chip.Ready ∧ live.chip.Ready ∧ armed.chip.Ready ∧ (winchAt .jogIn 5 true none).chip.Ready
      ∧ (after storing [.returnTransmitCompletion]).chip.Ready ∧ storing.chip.sup.store ≠ none
      ∧ failsafe.chip.Ready ∧ cutoff.chip.Ready ∧ cutoff.chip.btm.level = .cutoff := by
  unfold Chip.Ready Chip.Running; decide +kernel

/-- WinchRunIsTakenOrRefused: a wrong length, no direction, no run taken, a line end, and a run taken. -/
theorem test_supposed_WinchRun :
    (([1#8, 0#8, 0#8] : List Byte).length ≠ 4) ∧ ((3#8 : Byte) ≠ 1#8 ∧ (3#8 : Byte) ≠ 2#8)
      ∧ (State.reset.chip.wnc.state = .locked)
      ∧ ((winchAt .idle 0 true none).chip.wnc.referenced = true ∧ (winchAt .idle 0 true none).chip.wnc.position = 0)
      ∧ ((winchAt .jogOut 5 true none).chip.wnc.state = .jogOut ∧ (winchAt .jogOut 5 true none).chip.cdc.winch.natAbs
          ≤ (winchAt .jogOut 5 true none).chip.tables.winchCfg.jogThreshold) := by decide +kernel

theorem test_supposed_timers :
    (live.chip.Running ∧ live.chip.lsq.nextEvent = some 10)
      ∧ { live.chip with lsq := { live.chip.lsq with brakeHold := some 500 } }.lsq.brakeHold = some 500
      ∧ live.chip.btm.window = some 200 ∧ live.chip.btm.nextMeas = some 10
      ∧ { live.chip with btm := { live.chip.btm with foldback := some 2000 } }.btm.foldback = some 2000
      ∧ (cutoff.chip.Running ∧ cutoff.chip.mdc.cutoffTimer = some 210) := by
  unfold Chip.Running; decide +kernel

/-- MeasurementArithmetic and LevelMovesByEntryAndRecovery: the window open and ended, each start due, recovery due. -/
theorem test_supposed_battery :
    live.chip.btm.lastMeas ≤ 10 ∧ live.chip.btm.window ≠ none ∧ live.chip.btm.vf = [] ∧ driving.chip.btm.vf ≠ []
      ∧ factoryTables.protect.vCut < factoryTables.protect.vCrit ∧ factoryTables.protect.vCrit < factoryTables.protect.vLow
      ∧ (let b := { live.chip.btm with vc := 2000, startCut := some 0, startCrit := some 0, startLow := some 0 }
        (b.levelStep factoryTables.protect 500).level = .cutoff ∧ (b.levelStep factoryTables.protect 499).level = .normal
          ∧ ({ b with startCut := none }.levelStep factoryTables.protect 1000).level = .critical
          ∧ ({ b with startCut := none, startCrit := none }.levelStep factoryTables.protect 2000).level = .low
          ∧ ({ b with level := .low, vc := 4200, recovery := some 0 }.levelStep factoryTables.protect 5000).level = .normal
          ∧ ({ b with level := .critical, vc := 4200, recovery := some 0 }.levelStep factoryTables.protect 5000).level
            = .low) := by decide +kernel

theorem test_supposed_Division : 0 < factoryTables.budget.driveWeight ∧ 0 < factoryTables.budget.winchWeight
    ∧ 0 < factoryTables.budget.lightWeight := by decide +kernel

/-- Parking: the timer running in ACTIVE and in PARKED; leaving PARKED on a LIVE link with a centred throttle, and not. -/
theorem test_supposed_parking :
    (State.reset.chip.Running ∧ State.reset.chip.mdc.parkTimer = some 30000 ∧ State.reset.chip.mdc.mode = .active)
      ∧ (let p := after .reset [.parkRequest true]; p.chip.Running ∧ p.chip.mdc.mode = .parked
          ∧ p.chip.mdc.parkTimer = some 30000 ∧ p.chip.ulr.link ≠ .live)
      ∧ (parked.chip.Running ∧ parked.chip.mdc.mode = .parked ∧ parked.chip.ulr.link = .live ∧ parked.chip.cdc.throttle = 0
        ∧ parked.chip.drm.arming = .disarmed ∧ parked.chip.wnc.state = .locked ∧ parked.chip.btm.level = .normal) := by
  unfold Chip.Running; decide +kernel

/-- TransmissionsEnd: idle lines, a frame sent, a pending restart, and a frame waiting behind a full reply queue. -/
theorem test_supposed_transmissions :
    let full := after busy [.identify 0#8 []]
    (State.reset.chip.atx.sending = none ∧ State.reset.chip.rtx.sending = none ∧ live.chip.atx.sending ≠ none)
      ∧ (storing.chip.rtx.sending ≠ none ∧ storing.chip.sup.queue = [] ∧ storing.chip.sup.restart = false)
      ∧ (let s := after .reset [.softRestart 0#8 []]
        s.chip.rtx.sending = some (.reply { head := 0x1E#8, status := .ok, data := [] }) ∧ s.chip.sup.restart = true
          ∧ (0x1E#8 : Byte).toNat % 16 = 14)
      ∧ (full.chip.Running ∧ full.chip.rtx.sending ≠ none ∧ full.chip.sup.queue = [[0x10#8, 0#8]]
        ∧ full.chip.sup.restart = false ∧ full.chip.rtx.replies.length = 4) := by
  unfold Chip.Running; decide +kernel

/-- SetupFramesAreRouted: another unit's frame with room and without, ours with the queue full, waiting and ready. -/
theorem test_supposed_setup_frames :
    ((0x20#8 : Byte).toNat / 16 ≠ live.chip.tables.link.unitAddress.val
        ∧ (0x10#8 : Byte).toNat / 16 = live.chip.tables.link.unitAddress.val)
      ∧ (live.chip.Running ∧ live.chip.atx.queue.length < 2 ∧ live.chip.atx.sending ≠ none)
      ∧ (State.reset.chip.atx.queue = [] ∧ State.reset.chip.atx.sending = none)
      ∧ ((after live [.setupFrameAccepted [0x20#8, 0#8], .setupFrameAccepted [0x20#8, 0#8]]).chip.atx.queue.length = 2)
      ∧ (busy.chip.rtx.replies.length = 4 ∧ busy.chip.sup.queue.length < 4)
      ∧ 4 ≤ (after busy [.identify 0#8 [], .identify 0#8 [], .identify 0#8 [], .identify 0#8 []]).chip.sup.queue.length := by
  unfold Chip.Running; decide +kernel

/-- The table commands: every table's record at its last index, and the bounds of ids and indices. -/
theorem test_supposed_tables :
    factoryTables.Ok ∧ 9 < recordCount 10 ∧ ¬10 < recordCount 10 ∧ 4 < recordCount 11 ∧ recordLength 11 4 = 3
      ∧ recordLength 11 3 = 2 ∧ (factoryTables.recordBytes 15 0).length ≤ 60
      ∧ factoryTables.recordBytes 11 4 = [0#8, 1#8, 2#8] := by
  refine ⟨factoryTables_ok, ?_, ?_, ?_, ?_, ?_, ?_, ?_⟩ <;> decide +kernel

theorem test_supposed_store :
    (storing.chip.Running ∧ storing.chip.sup.store = some 0 ∧ storing.chip.tbs.snapshot = some storing.chip.tables)
      ∧ (live.chip.sup.store = none ∧ live.chip.btm.level ≠ .cutoff) := by
  unfold Chip.Running; decide +kernel

/-- The switch commands: a bit changed, the strobe, and a write that touches no acting bit. -/
theorem test_supposed_switches :
    (live.chip.putSwitches 1#32 1#32).sup.switches = 1#32 ∧ (4#32 ||| 0x4000#32) &&& 0x00003FFB#32 = 0#32
      ∧ (live.chip.putSwitches 0x1000#32 0x1000#32).sup.switches = 0#32 := by decide +kernel

theorem test_supposed_switch_actions :
    (live.chip.Running ∧ live.chip.drm.arming ≠ .disarmed ∧ live.chip.linkUp) ∧ State.reset.chip.drm.arming = .disarmed
      ∧ live.chip.winchInhibit = false ∧ (after live [.winchInhibit true]).chip.winchInhibit = true
      ∧ live.chip.boostDisable = false ∧ (after live [.boostDisable true]).chip.boostDisable = true
      ∧ (winchAt .jogIn 5 true none).chip.wnc.state.driven = true := by
  refine ⟨⟨⟨?_, ?_⟩, ?_, Or.inl ?_⟩, ?_, ?_, ?_, ?_, ?_, ?_⟩ <;> decide +kernel

/-- AcknowledgeClearsLatches: a clear latch, a retained one, one to clear, no such code, and ALL. -/
theorem test_supposed_alerts :
    failsafe.chip.alt.has .lineEnd = false
      ∧ (failsafe.chip.alt.has .linkFailsafe = true ∧ failsafe.chip.alt.caused .linkFailsafe = true)
      ∧ (failsafe.chip.alt.has .linkHold = true ∧ failsafe.chip.alt.caused .linkHold = false)
      ∧ (13#8 : Byte).toNat = 13 ∧ (0xFF#8 : Byte).toNat = 255 ∧ live.chip.alt.latched = 0#12
      ∧ failsafe.chip.alt.top 5 = some .linkFailsafe ∧ live.chip.alt.top 5 = none := by decide +kernel

/-! ## The further clauses of the statements, each at states that meet it -/

/-- R202: the character of a sync byte as its ten levels, a faulted one, an idle line, and the levels of a frame. -/
theorem test_characters :
    characterBits 0x5C#8 = [false, false, false, true, true, true, false, true, false, true]
      ∧ uplinkCommand [] (characterBits 0x5C#8) = some (.uplinkByteTaken 0x5C#8 [])
      ∧ uplinkCommand [] (List.replicate 10 false) = some .faultedCharacter
      ∧ uplinkCommand [] (List.replicate 10 true) = none
      ∧ lineLevel (some [0x5C#8, 0x01#8]) 10 = false ∧ lineLevel (some [0x5C#8, 0x01#8]) 11 = true
      ∧ lineLevel (some [0x5C#8, 0x01#8]) 20 = true ∧ lineLevel none 0 = true := by decide +kernel

/-- An order that ends with ATX, and one that ends with RTX, of the blocks of an update. -/
theorem test_orders_that_end_with_a_frame :
    takers [.stm, .drm, .wnc, .mdc, .rtx] = [.stm, .drm, .wnc, .mdc, .rtx] ++ [.atx]
      ∧ takers [] = [.stm, .drm, .wnc, .mdc, .atx] ++ [.rtx] := by decide +kernel

/-- FreshFrameMakesTheLinkLive and UpdateFormsTheDriveRequest in PARKED: a throttle held keeps the part PARKED, a centred one
returns it to ACTIVE once PARK_REQUEST is clear; before and after the first measurement. -/
theorem test_supposed_frames_in_parked :
    let p := after .reset [.parkTimerExpiry]
    let m := after p [.measurementCompletion ⟨3800, 3800, 3800, 0, 11400, 0⟩ []]
    let centred := Instr.controlFrameAccepted (sticks 2048#12 2048#12 2048#12) []
    let held := after p [.controlFrameAccepted (sticks 2048#12 2648#12 2048#12) []]
    (p.chip.Running ∧ p.chip.mdc.mode = .parked ∧ p.chip.parkRequest = false ∧ p.chip.btm.readings = none
        ∧ p.chip.drm.arming ≠ .armed ∧ p.chip.ulr.link ≠ .live)
      ∧ (m.chip.mdc.mode = .parked ∧ m.chip.btm.readings ≠ none)
      ∧ (held.chip.mdc.mode = .parked ∧ held.chip.cdc.throttle ≠ 0 ∧ held.chip.btm.nextMeas = p.chip.btm.nextMeas)
      ∧ ((after p [centred]).chip.mdc.mode = .active ∧ (after p [centred]).chip.btm.nextMeas = p.chip.btm.nextMeas)
      ∧ ((after m [centred]).chip.mdc.mode = .active
        ∧ (after m [centred]).chip.btm.nextMeas = some (m.chip.btm.lastMeas + 10))
      ∧ (parked.chip.parkRequest = true ∧ (after parked [centred]).chip.mdc.mode = .parked) := by
  unfold Chip.Running; decide +kernel

/-- UpdateWorksTheWinch: a jog that goes on either way, and FREE under a deflection. -/
theorem test_supposed_continued_jogs :
    let deflected (st : WinchState) (raw : Raw) : Chip :=
      { (winchAt st 9 false none).chip with slots := Vector.replicate 12 (.fresh raw) }
    let i := deflected .jogIn 3000#12
    let o := deflected .jogOut 1000#12
    let f := deflected .free 3000#12
    (i.mdc.mode = .active ∧ i.winchLockCause = false ∧ i.wnc.holdOff = false ∧ i.wnc.state = .jogIn
        ∧ (i.tables.winchCfg.jogThreshold : Int) < i.decode.winch)
      ∧ (o.wnc.state = .jogOut ∧ o.winchLockCause = false ∧ o.decode.winch < -(o.tables.winchCfg.jogThreshold : Int))
      ∧ (f.wnc.state = .free ∧ f.winchLockCause = false) := by decide +kernel

/-- CurvesChannelsAndWidthsStayInRange: the switch decode at its thresholds, plain and with hysteresis, and EMPTY. -/
theorem test_switch_decode :
    let d : SwitchDef :=
      { kind := .three, t1 := -333, t2 := 333, hyst := 20, map0 := 0, map1 := 1, map2 := 2 }
    let e : SwitchDef := { d with kind := .two, t1 := 0 }
    (d.decode { pos := 2, ordered := false } (some 332)).pos = 1
      ∧ (d.decode { pos := 2, ordered := true } (some 332)).pos = 2
      ∧ (d.decode { pos := 2, ordered := true } (some 312)).pos = 1
      ∧ (d.decode { pos := 0, ordered := true } (some 352)).pos = 1
      ∧ (d.decode { pos := 0, ordered := true } (some 353)).pos = 2
      ∧ (e.decode { pos := 0, ordered := true } (some 19)).pos = 0
      ∧ (e.decode { pos := 1, ordered := true } (some (-21))).pos = 0
      ∧ d.decode { pos := 1, ordered := true } none = { pos := 0, ordered := false }
      ∧ State.reset.chip.roleU (some 0) = none ∧ live.chip.roleU (some 1) = some 0
      ∧ live.chip.decode.steerSel = SteerMode.front := by decide +kernel

/-- ReverseDelayExpiryTakesDirection: each row of R67, a reversal with and without delay, and the brake-hold start. -/
theorem test_axle_rows :
    let c := driving.chip
    let back : Drm := { c.drm with axleRequest := -300 }
    let rest : Drm := { c.drm with axleRequest := 0 }
    let slow : AxleRec := c.drm.front.follow c.now 200 (-300)
    (c.axleNext c.drm .front).state = .forward ∧ (c.axleNext back .front).state = .reverse
      ∧ (slow.state = .reversing ∧ slow.left = some .forward ∧ slow.timer = some (c.now + 200)) ∧ (c.axleNext rest .front).state = .idle
      ∧ (c.axleNext { back with mode := .frontDig } .rear).state = .digLocked
      ∧ ({ c with mdc := { c.mdc with bench := true } }.axleNext c.drm .front).state = .off
      ∧ (failsafe.chip.axleNext c.drm .front).state = .failsafeBrake
      ∧ (c.axleNext { c.drm with arming := .disarmed } .front).state = .off
      ∧ (reversing.chip.axleNext { reversing.chip.drm with axleRequest := -1 } .front).state = .reverse
      ∧ (reversing.chip.axleNext reversing.chip.drm .front).state = .reversing
      ∧ ((c.handleAxles rest).lsq.brakeHold = some (c.now + 500) ∧ (c.handleAxles c.drm).lsq.brakeHold = c.lsq.brakeHold) := by
  decide +kernel

/-- WinchRecordTakesItsPlace: a grant event that stalls, one that starts boost, one that ends it, one that recharges, and a
WINCH_CFG that ends an outward jog. -/
theorem test_grant_events :
    let cfg := { live.chip.tables.winchCfg with stallFloor := 100, pmax := 4000 }
    let w : Winch := { live.chip.wnc with state := .jogIn, requested := 800, effective := 800, demand := 8000, stallTimer := 9 }
    let stalled := { w with stallTimer := 1 }.takeGrant cfg 8000 .normal false
    let boosted := { w with allowance := 3 }.takeGrant cfg 4000 .normal false
    let spent := { w with allowance := 1, boost := true, boostAtStart := true }.takeGrant cfg 8000 .normal false
    let charged := { w with state := .idle, allowance := 3, recharge := 3 }.takeGrant cfg 0 .normal false
    let out := ({ w with state := .jogOut, position := 4001, referenced := true } : Winch)
    (stalled.state = .stalled ∧ stalled.holdOff = true ∧ (w.takeGrant cfg 8000 .normal false).stallTimer = 8)
      ∧ (boosted.boost = true ∧ boosted.boostAtStart = true ∧ boosted.effective = 400 ∧ boosted.allowance = 3)
      ∧ (spent.boost = false ∧ spent.allowance = 0)
      ∧ (charged.allowance = 4 ∧ charged.recharge = 0)
      ∧ ((out.reconfigure cfg).state = .idle ∧ (out.reconfigure cfg).position = 4000
        ∧ ({ out with position := 4000 }.reconfigure cfg).state = .jogOut) := by decide +kernel

/-- WinnersAreArbitrated: the failsafe scene and the brake lamps of a part in AWAIT; the main lights of an eligible source. -/
theorem test_lights :
    let c := State.reset.chip
    let lit : Chip := { live.chip with cdc := { live.chip.cdc with mainLight := .full } }
    let flat : Chip := { lit with btm := { lit.btm with level := .critical } }
    (c.sourceActive .failsafe = true ∧ c.sourceActive .brake = true ∧ c.sourceEligible .brake = true)
      ∧ (c.mdc.mode = .active ∧ c.btm.level = .normal ∧ (List.finRange 8).any (fun o => c.picture.winner[o] = some .failsafe))
      ∧ (lit.sourceActive .mainFull = true ∧ (List.finRange 8).any (fun o => lit.picture.winner[o] = some .mainFull))
      ∧ (flat.sourceEligible .mainFull = false ∧ flat.sourceEligible .alert = true)
      ∧ (parked.chip.mdc.mode = .parked ∧ parked.chip.sourceEligible .failsafe = true)
      ∧ (failsafe.chip.topAlert = some .linkFailsafe ∧ failsafe.chip.sourceActive .alert = true) := by decide +kernel

/-- MeasurementDividesTheBudget: an order with BGA first, a trip of the overcurrent test, and a change of level. -/
theorem test_measurements :
    let high : Readings := ⟨3800, 3800, 3800, 0, 11400, 60001⟩
    let t := after driving [.measurementCompletion high [.bga]]
    let trips := driving.onChip fun c => { c with now := 1000, btm := { c.btm with overcurrent := some 900 } }
    let tripped := after trips [.measurementCompletion high []]
    (driving.chip.Running ∧ driving.chip.btm.nextMeas = some 510 ∧ t.chip.btm.readings = some { high with current := 60000 }
        ∧ t.chip.btm.overcurrent = some 510
        ∧ divideBudget (t.chip.bga.budget - t.chip.bga.steer) driving.chip.demands (driving.chip.weights .normal)
          = ⟨t.chip.bga.drive, t.chip.bga.winch, t.chip.bga.lights⟩)
      ∧ (tripped.chip.alt.has .overcurrent = true ∧ tripped.chip.btm.foldback ≠ none ∧ tripped.chip.btm.overcurrent = none)
      ∧ (cutoff.chip.btm.level ≠ live.chip.btm.level ∧ cutoff.chip.wnc.state = .locked ∧ cutoff.chip.bga.budget = 0) := by
  unfold Chip.Running; decide +kernel

/-- LevelMovesByEntryAndRecovery: recovery begun, held up, and given up where the capacity force stands. -/
theorem test_recovery :
    let b := { live.chip.btm with window := none, level := .low, vc := 4200, recovery := none }
    (b.levelStep factoryTables.protect 70).recovery = some 70
      ∧ ({ b with recovery := some 70 }.levelStep factoryTables.protect 5069).level = .low
      ∧ ({ b with recovery := some 70, capForce := true }.levelStep factoryTables.protect 5070).recovery = none
      ∧ ({ b with level := .normal, capForce := true }.levelStep factoryTables.protect 70).level = .low
      ∧ (b.measure factoryTables.protect 70 ⟨4200, 4200, 4200, 0, 12600, 0⟩).recovery = some 70 := by decide +kernel

/-- TransmissionsEnd: another frame ends while the restart is pending. -/
theorem test_supposed_restart_behind_a_reply :
    let s := after live [.identify 0#8 [], .softRestart 0#8 []]
    s.chip.Running ∧ s.chip.sup.restart = true
      ∧ s.chip.rtx.sending = some (.reply { head := 0x10#8, status := .ok, data := [0x2C#8, 0x04#8, 0x01#8] })
      ∧ (0x10#8 : Byte).toNat % 16 ≠ 14 ∧ (after s [.returnTransmitCompletion]).chip.ulr.link = .live
      ∧ (after s [.returnTransmitCompletion, .returnTransmitCompletion]).chip.ulr.link = .await := by
  unfold Chip.Running; decide +kernel

/-- SetupFramesAreRouted: a setup-command row and its frame, on an uplink in HUNT. -/
theorem test_setup_row_is_its_frame :
    live.chip.ulr.hunt = .hunt ∧ live.chip.ulr.bytes = [] ∧ live.chip.head 13 = 0x1D#8
      ∧ after live [.store []] = after live [.setupFrameAccepted [0x1D#8, 1#8]] := by decide +kernel

/-! ## The clauses added after the second review -/

/-- DrawsStayWithinGrants and CurvesChannelsAndWidthsStayInRange: a demand within the grant and one above it; a value within the
deadband, a reversed one and one rounded toward zero; a slew that is reached, one that is not, and none. -/
theorem test_scaling_normalization_slew :
    let cal : ChannelCal := { centre := 2048, halfSpan := 1600, deadband := 20, reverse := true }
    let e := factoryTables.servoFront
    scaleTo 8000 8000 800 = 800 ∧ scaleTo 7999 8000 800 = 799 ∧ scaleTo 0 1 800 = 0
      ∧ cal.normalize 2080#12 = 0 ∧ cal.normalize 2648#12 = -362 ∧ { cal with reverse := false }.normalize 1000#12 = -647
      ∧ e.slewed 5 (some 1500) 1700 = 1505 ∧ e.slewed 5 (some 1500) 1503 = 1503 ∧ e.slewed 0 (some 1500) 2000 = 1900
      ∧ e.slewed 5 none 1503 = 1503 := by decide +kernel

/-- WinchRecordTakesItsPlace: a winch that becomes driven in ACTIVE lowers the request to the winch cap, and a change between
two driven states leaves the drive. -/
theorem test_winch_takes_the_drive_cap :
    let c := driving.chip
    let t := c.setWinch { c.wnc with state := .jogIn, requested := 800 }
    c.mdc.mode = .active ∧ c.wnc.state.driven = false ∧ t.wnc.state.driven = true ∧ t.driveCap = 400 ∧ c.driveCap = 1000
      ∧ (t.setWinch { t.wnc with state := .jogOut }).drm = t.drm := by decide +kernel

/-- MeasurementDividesTheBudget: BGA in the middle of the order, and a change from CRITICAL to LOW that releases the winch. -/
theorem test_level_releases_the_winch :
    let s := driving.onChip fun c => { c with
      now := 6000, wnc := { c.wnc with state := .locked },
      btm := { c.btm with level := .critical, window := none, recovery := some 500, nextMeas := some 6000 } }
    let t := after s [.measurementCompletion ⟨3800, 3800, 3800, 0, 11400, 0⟩ [.drm, .bga]]
    s.chip.Running ∧ s.chip.linkUp ∧ s.chip.winchInhibit = false ∧ s.chip.mdc.bench = false ∧ s.chip.mdc.mode = .active
      ∧ evalTakers [.drm, .bga] = [.drm] ++ .bga :: [.alt, .wnc, .lsq, .mdc]
      ∧ t.chip.btm.level = .low ∧ t.chip.wnc.state = .idle ∧ t.chip.alt.has .battLow = true := by
  refine ⟨⟨?_, ?_⟩, Or.inl ?_, ?_, ?_, ?_, ?_, ?_, ?_, ?_⟩ <;> decide +kernel

/-- WriteTableWritesTheRecord and TopAlertIsTheMostSevere: a LINK write that masks the top alert, and one that keeps it. -/
theorem test_link_write_masks_the_top_alert :
    let c := (live.onChip fun c => { c with alt := c.alt.raise .lineEnd }).chip
    let masked := c.writeRecord 14 0 ({ c.tables with link := { c.tables.link with maskLevel := 4 } }.recordBytes 14 0)
    c.topAlert = some .lineEnd ∧ masked.topAlert = none ∧ masked.alt = c.alt ∧ masked.wnc = c.wnc
      ∧ (c.writeRecord 14 0 (c.tables.recordBytes 14 0)).lsq = c.lsq := by decide +kernel

/-- R112: an announcement while the timer runs restarts it, and keeps it where the brake-hold time is now 0 (entry 38). -/
theorem test_brake_hold_restarts :
    let c : Chip := { driving.chip with lsq := { driving.chip.lsq with brakeHold := some 700 } }
    let rest : Drm := { c.drm with axleRequest := 0 }
    let zero : Chip := { c with tables := { c.tables with driveCfg := { c.tables.driveCfg with brakeHold := 0 } } }
    (c.handleAxles rest).lsq.brakeHold = some (c.now + 500) ∧ (zero.handleAxles rest).lsq.brakeHold = some 700 := by
  decide +kernel

/-- R188: a READ_SWITCHES whose count and base are both out of range is refused for its count (entry 39). -/
theorem test_read_switches_order :
    (live.chip.doReadSwitches [0#8, 40#8, 17#8]).status = .refusedLength
      ∧ (live.chip.doReadSwitches [0#8, 40#8, 16#8]).status = .refusedAddress := by decide +kernel

/-! ## The clauses added after the third review -/

/-- UpdateSteers: an output that pulses before and after an update keeps its schedule. -/
theorem test_pulsing_output_keeps_its_schedule :
    let t := after live [.controlFrameAccepted (sticks 3000#12 2048#12 2048#12) []]
    live.chip.mdc.mode = .active ∧ live.chip.stm.pulsing = true ∧ t.chip.stm.pulsing = true
      ∧ t.chip.stm.schedule = live.chip.stm.schedule ∧ t.chip.stm.front ≠ live.chip.stm.front := by decide +kernel

/-- UpdateWorksTheWinch: an update that unlocks the winch and starts the jog, and a lock cause that ends a run. -/
theorem test_update_unlocks_and_locks :
    let u := after (winchAt .locked 5 true none) [.controlFrameAccepted (sticks 2048#12 2048#12 3000#12) []]
    let w := (winchAt .runIn 5 true (some { dir := .inward, count := 4, duty := 600, remaining := 3 })).onChip fun c =>
      { c with sup := { c.sup with switches := 2#32 } }
    let t := after w [.controlFrameAccepted (sticks 2048#12 2048#12 3000#12) []]
    ((winchAt .locked 5 true none).chip.winchLockCause = false ∧ u.chip.wnc.state = .jogIn ∧ u.chip.wnc.holdOff = false)
      ∧ (w.chip.winchLockCause = true ∧ t.chip.wnc.state = .locked ∧ t.chip.wnc.holdOff = true
        ∧ t.chip.wnc.lastOp = some { kind := .runIn, requested := some 4, counts := 1, outcome := .locked }) := by
  decide +kernel

/-- The updates in PARKED: one that leaves the part PARKED, and one that returns it to ACTIVE, MDC's turn first and last. -/
theorem test_updates_that_return_to_active :
    let p := (after parked [.parkTimerExpiry]).onChip fun c => { c with sup := { c.sup with switches := 0#32 } }
    let frame := Instr.controlFrameAccepted (sticks 2048#12 2048#12 2048#12)
    let last := after p [frame [.stm, .drm, .wnc, .mdc]]
    let first := after p [frame [.mdc]]
    (parked.chip.mdc.mode = .parked ∧ parked.chip.drm.arming = .disarmed ∧ parked.chip.wnc.state.driven = false
        ∧ (after parked [frame []]).chip.stm = parked.chip.stm ∧ (after parked [frame []]).chip.wnc = parked.chip.wnc)
      ∧ (p.chip.mdc.mode = .parked ∧ p.chip.ulr.link = .live ∧ p.chip.decode.throttle = 0 ∧ p.chip.parkRequest = false)
      ∧ (takers [.stm, .drm, .wnc, .mdc] = [.stm, .drm, .wnc] ++ .mdc :: [.atx, .rtx]
        ∧ last.chip.mdc.mode = .active ∧ last.chip.stm.pulsing = false ∧ last.chip.drm.arming = .disarmed
        ∧ last.chip.wnc.state = .idle)
      ∧ (takers [.mdc] = [] ++ .mdc :: [.stm, .drm, .wnc, .atx, .rtx]
        ∧ first.chip.mdc.mode = .active ∧ first.chip.stm.pulsing = true ∧ first.chip.drm.arming = .arming
        ∧ first.chip.wnc.state = .idle) := by decide +kernel

/-- ReverseDelayExpiryTakesDirection and the link expiries: axles that change state form the light picture, and axles that keep
theirs leave it. -/
theorem test_axle_change_forms_the_picture :
    let c : Chip := { driving.chip with lsq := { driving.chip.lsq with raw := Vector.replicate 8 7 } }
    let rest : Drm := { c.drm with axleRequest := 0 }
    (c.handleAxles rest).lsq = (c.handleAxles rest).picture ∧ (c.handleAxles rest).lsq.raw ≠ c.lsq.raw
      ∧ (c.handleAxles c.drm).lsq = c.lsq := by decide +kernel

/-- SwitchCommandsWriteTheirBits: a write of several acting bits at once, and one that sets a single override bit. -/
theorem test_writes_of_acting_bits :
    let t := driving.chip.putSwitches 0x3009#32 0x3009#32
    let o := live.chip.putSwitches 0x10#32 0x10#32
    (t.drm.arming = .disarmed ∧ t.mdc.mode = .parked ∧ t.sup.switches = 0x2009#32 ∧ t.btm.charge = 0)
      ∧ (o.sup.switches = 0x10#32 ∧ o.lsq.active[9] = true ∧ o.drm = live.chip.drm ∧ o.mdc = live.chip.mdc) := by
  decide +kernel

/-- ParkingStopsTheChassis: parking a jog locks the winch and records the jog LOCKED. -/
theorem test_parking_ends_a_jog :
    let t := after (winchAt .jogIn 5 true none) [.parkRequest true]
    t.chip.wnc.state = .locked ∧ t.chip.wnc.position = 5
      ∧ t.chip.wnc.lastOp = some { kind := .jogIn, requested := none, counts := 0, outcome := .locked } := by decide +kernel

/-- R129: while a reset is held no source is active and no output has a winner (entry 40); the release makes FAILSAFE active. -/
theorem test_sources_wait_for_the_release :
    let h := after live [.warmReset]
    h.chip.lsq.active[8] = false ∧ h.chip.lsq.winner[0] = none ∧ h.chip.lsq.demand = 0
      ∧ (after h [.resetRelease false]).chip.lsq.active[8] = true := by decide +kernel

/-! ## The clauses added after the fourth review -/

/-- SpoolPulseCounts: the pulse past the creep limit raises WINCH_CREEP and sets the flag, the next raises nothing; a run ends
DONE at its last pulse, with the creep record cleared. -/
theorem test_creep_is_reported_once :
    let w := (winchAt .idle 9 false none).onChip fun c => { c with wnc := { c.wnc with creep := 20 } }
    let once := after w [.spoolPulse 1000 60]
    let again := after (once.onChip fun c => { c with alt := { c.alt with latched := 0#12 } }) [.spoolPulse 2000 60]
    let run := (winchAt .runIn 9 false (some { dir := .inward, count := 4, duty := 600, remaining := 1 })).onChip fun c =>
      { c with wnc := { c.wnc with creep := 3, creepReported := true } }
    let done := after run [.spoolPulse 1000 60]
    (once.chip.wnc.creep = 21 ∧ once.chip.wnc.creepReported = true ∧ once.chip.alt.has .winchCreep = true
        ∧ once.chip.topAlert ≠ w.chip.topAlert ∧ once.chip.drm = w.chip.drm)
      ∧ (again.chip.wnc.creep = 21 ∧ again.chip.alt.has .winchCreep = false)
      ∧ (done.chip.wnc.state = .idle ∧ done.chip.wnc.creep = 0 ∧ done.chip.wnc.creepReported = false
        ∧ done.chip.wnc.lastOp = some { kind := .runIn, requested := some 4, counts := 4, outcome := .done }) := by
  decide +kernel

/-- AcknowledgeClearsLatches and SetupFramesAreRouted: an acknowledge and a discard that change the top alert, and ones that do
not. -/
theorem test_top_alert_after_acknowledge_and_discard :
    let one := hold
    let two := hold.onChip fun c => { c with alt := c.alt.raise .overcurrent }
    let masked := busy.onChip fun c => { c with sup := { c.sup with queue := List.replicate 4 [0x10#8, 0#8] } }
    let full := masked.onChip fun c => { c with tables := { c.tables with link := { c.tables.link with maskLevel := 6 } } }
    let frame := Instr.setupFrameAccepted [0x15#8, 0#8]
    (one.chip.topAlert = some .linkHold ∧ (after one [.ackAlert 7#8 []]).chip.topAlert = none)
      ∧ (two.chip.topAlert = some .overcurrent ∧ (after two [.ackAlert 7#8 []]).chip.topAlert = two.chip.topAlert
        ∧ (after two [.ackAlert 0xFF#8 []]).chip.topAlert = none)
      ∧ (full.chip.Running ∧ 4 ≤ full.chip.sup.queue.length ∧ full.chip.topAlert = none
        ∧ (after full [frame]).chip.topAlert = some .setupFault
        ∧ (after full [frame]).chip.alt.fault = some { command := 5, reason := .queueFull })
      ∧ ((after masked [frame]).chip.topAlert = none ∧ (after masked [frame]).chip.alt.has .setupFault = true) := by
  unfold Chip.Running; decide +kernel

/-- CutoffExpiryEntersDormant: the light picture of a part in AWAIT at NORMAL, whose demand is above 0, is dark in DORMANT. -/
theorem test_dormant_is_dark :
    let s := State.reset.onChip fun c => { c with mdc := { c.mdc with cutoffTimer := some 5 } }
    s.chip.lsq.demand = 602 ∧ (after s [.cutoffTimerExpiry]).chip.lsq.demand = 0
      ∧ (after s [.cutoffTimerExpiry]).chip.lsq.raw = Vector.replicate 8 0
      ∧ (after s [.cutoffTimerExpiry]).chip.lsq.active[8] = true := by decide +kernel

/-- R112: with a brake-hold time of 0 a stopped timer stays stopped where an axle stops driving. -/
theorem test_no_brake_hold :
    let c := driving.chip
    let zero : Chip := { c with tables := { c.tables with driveCfg := { c.tables.driveCfg with brakeHold := 0 } } }
    let rest : Drm := { c.drm with axleRequest := 0 }
    c.lsq.brakeHold = none ∧ (zero.handleAxles rest).drm.front.state = .idle ∧ (zero.handleAxles rest).lsq.brakeHold = none := by
  decide +kernel

/-- WinchRecordTakesItsPlace: a stall records the operation that stood, and keeps the creep-reported flag. -/
theorem test_stall_records_the_operation :
    let run : Run := { dir := .outward, count := 9, duty := 600, remaining := 4 }
    let w : Winch := { live.chip.wnc with
      state := .runOut, run := some run, requested := 600, effective := 600, stallTimer := 1, creepReported := true }
    let t := w.takeGrant factoryTables.winchCfg 8000 .normal false
    t.state = .stalled ∧ t.creepReported = true
      ∧ t.lastOp = some { kind := .runOut, requested := some 9, counts := 5, outcome := .stalled } := by decide +kernel

/-- WinchSourceFollowsTheWinch: the winch in FREE, lit, a spool pulse there, a run that a jog takes over lit throughout, and
a lock that ends it. -/
theorem test_winch_source :
    let free := after live [.winchFree 1#8 []]
    let run := after live [.winchRun 2#8 (wordBytes 20#16 ++ wordBytes 600#16)]
    let jog := after run [.controlFrameAccepted (sticks 2048#12 2048#12 2648#12) []]
    let locked := after jog [.winchInhibit true]
    (live.chip.lsq.active[6] = false ∧ live.chip.wnc.state = .idle)
      ∧ (free.chip.lsq.active[6] = true ∧ free.chip.wnc.state = .free)
      ∧ ((after free [.spoolPulse 1000 60]).chip.wnc.state = .free ∧ (after free [.spoolPulse 1000 60]).chip.lsq.active[6] = true)
      ∧ (run.chip.lsq.active[6] = true ∧ run.chip.wnc.state = .runOut)
      ∧ (jog.chip.lsq.active[6] = true ∧ jog.chip.wnc.state = .jogIn)
      ∧ (locked.chip.lsq.active[6] = false ∧ locked.chip.wnc.state = .locked) := by decide +kernel

/-- DivisionSharesTheBudget: a round in which the lights leave with less than their share and the others stay. -/
theorem test_round_of_a_division :
    let demands : Shares := { drive := 9000, winch := 5000, lights := 100 }
    let all : Members := { drive := true, winch := true, lights := true }
    let shares := sharesOf 6000 { drive := 4, winch := 3, lights := 1 } all
    leaversOf demands shares all = { drive := false, winch := false, lights := true }
      ∧ shares = { drive := 3000, winch := 2250, lights := 750 } := by decide +kernel

/-- UpdateSteers: a control frame that finds a pulse still running after a quiet refresh starts a new one in its place. -/
theorem test_pulse_replaced :
    let quiet := after live [.entryIntoHold [], .pulseStart, .setSwitch 2#8 [], .entryIntoFailsafe []]
    let back := after quiet [.controlFrameAccepted (sticks 3000#12 2048#12 2048#12) []]
    quiet.chip.stm.pulsing = false ∧ quiet.chip.stm.schedule = none ∧ quiet.chip.stm.pulseFront = some 1500
      ∧ back.chip.stm.pulsing = true ∧ back.chip.stm.pulseFront = back.chip.stm.front
      ∧ back.chip.stm.pulseFront ≠ some 1500 := by decide +kernel

/-- R130: PARKED, a return to ACTIVE at L + 95 ms, and PARKED again at L + 100 ms or later: the next completion is 100 ms after
the latest one, at L, and is due at once where that instant has gone by (log entry 21). -/
theorem test_next_measurement_parked :
    let first := after parked [.measurementCompletion ⟨3800, 3800, 3800, 0, 11400, 0⟩ []]
    let clock (n : Nat) (s : State) : State := s.onChip fun c => { c with now := c.btm.lastMeas + n }
    let back := after (clock 95 first) [.parkRequest false]
    let at100 := after (clock 100 back) [.parkRequest true]
    let at103 := after (clock 103 back) [.parkRequest true]
    let late := after at103 [.measurementCompletion ⟨3800, 3800, 3800, 0, 11400, 0⟩ []]
    let l := first.chip.btm.lastMeas
    back.chip.mdc.mode = .active ∧ back.chip.btm.nextMeas = some (l + 105)
      ∧ at100.chip.mdc.mode = .parked ∧ at100.chip.btm.nextMeas = some (l + 100)
      ∧ at103.chip.btm.nextMeas = some (l + 100) ∧ late.chip.btm.lastMeas = l + 103
      ∧ late.chip.btm.nextMeas = some (l + 203) := by decide +kernel

/-! ## The light levels before the first grant event -/

/-- Every lamp with an Ifs of 0, which makes the light demand 0, right after a release (R110, R129). -/
def unweighted : State :=
  after (State.reset.onChip fun c => { c with tables := { c.tables with lightOut := Vector.replicate 8 0 } })
    [.warmReset, .resetRelease false]

/-- ResetReleaseStartsThePart and WinnersAreArbitrated: R129 keeps a level at 0 beside a raw level of 128 and a demand of 0 until
the first grant event, whatever LSQ events come before it; from that event on it is the raw level (R126). -/
theorem test_dark_until_the_first_grant_event :
    let held := after unweighted [.warmReset]
    let timebase := after unweighted [.lightTimebaseEvent]
    let granted := after timebase [.measurementCompletion ⟨3800, 3800, 3800, 0, 11400, 0⟩ []]
    (held.chip.held ≠ none ∧ held.chip.lsq.granted = false)
      ∧ (unweighted.chip.lsq.raw[0] = 128 ∧ unweighted.chip.lsq.demand = 0 ∧ unweighted.chip.lsq.level[0] = 0)
      ∧ (timebase.chip.lsq.raw[0] = 128 ∧ timebase.chip.lsq.granted = false ∧ timebase.chip.lsq.level[0] = 0)
      ∧ (granted.chip.lsq.granted = true ∧ granted.chip.lsq.level[0] = 128) := by decide +kernel

/-- LatchesGrantsAndSwitchesStayLegal: states in which no grant event has come, before and under a reset, and one in which one
has; a step that is no measurement, and a reset after a grant event. -/
theorem test_supposed_LightsOk :
    State.reset.chip.LightsOk ∧ (after .reset [.coldReset]).chip.LightsOk ∧ driving.chip.LightsOk
      ∧ (driving.chip.lsq.granted = true ∧ driving.chip.lsq.grant = (after driving [.lightTimebaseEvent]).chip.lsq.grant
        ∧ (after driving [.lightTimebaseEvent]).chip.lsq.granted = true)
      ∧ (after driving [.warmReset]).chip.lsq.granted = false := by
  unfold Chip.LightsOk; decide +kernel

end Sys2Proof.Tests
end

section
/-! The uplink after a faulted character (R4): what giving up the candidate leaves, and that in HUNT there is none to give
up. -/

namespace Sys2Proof.Machine

/-- HUNT holds no bytes (R1). -/
theorem Ulr.HuntOk.bytes_eq_nil {u : Ulr} (ok : u.HuntOk) (hunting : u.hunt = .hunt) : u.bytes = [] := by
  unfold Ulr.HuntOk at ok
  rwa [hunting] at ok

/-- Giving up the candidate changes nothing where the uplink hunts and holds no bytes. -/
theorem Chip.clearHunt_eq_self {c : Chip} (hunting : c.ulr.hunt = .hunt) (empty : c.ulr.bytes = []) : c.clearHunt = c := by
  unfold Chip.clearHunt
  rw [← hunting, ← empty]

/-- A faulted character gives up the candidate of a running part, in every hunt state. -/
theorem exec_faultedCharacter {s : State} (running : s.chip.Running) :
    exec .faultedCharacter s = .next { s with chip := s.chip.clearHunt } :=
  calc exec .faultedCharacter s
      = .next (s.onChip fun c => c.whenRunning Chip.clearHunt) := rfl
    _ = .next { s with chip := s.chip.whenRunning Chip.clearHunt } := rfl
    _ = .next { s with chip := s.chip.clearHunt } := by rw [Chip.whenRunning_eq running]

/-- Settles O20: in HUNT the candidate given up is empty, by the invariant of the hunt states; in KIND, PAYLOAD and CHECK
giving it up is the whole effect. -/
theorem faultedCharacterDropsCandidate : Obligations.FaultedCharacterDropsCandidate := by
  intro s running ok
  rw [exec_faultedCharacter running]
  refine ⟨fun hunting => ?inHunt, fun _ => ?inCandidate⟩
  case inHunt => rw [Chip.clearHunt_eq_self hunting (ok.bytes_eq_nil hunting)]
  case inCandidate => rfl

end Sys2Proof.Machine
end

section
/-! The light source WINCH (R116): every operation of the part keeps it active exactly in the winch states that light it, since
WNC announces each change of winch state to LSQ; so does every step. -/

namespace Sys2Proof.Machine

/-! ### Where LSQ has just formed its picture -/

/-- A change of winch state that WNC announces forms the picture, whatever LSQ held before (R106, R109). -/
theorem Chip.winchLit_setWinch_of_ne {c : Chip} {w : Winch} (changed : w.state ≠ c.wnc.state) : (c.setWinch w).WinchLit := by
  obtain ⟨e, -, -, stages⟩ := c.setWinch_stages w
  rw [stages, decide_eq_true changed.symm]
  exact Chip.winchLit_relight _

/-- LSQ takes the light grant. -/
theorem Chip.winchLit_takeLightGrant (c : Chip) (g : Nat) : (c.takeLightGrant g).WinchLit := Chip.winchLit_relight _

/-- A timebase event. -/
theorem Chip.winchLit_advanceTimebase (c : Chip) : c.advanceTimebase.WinchLit := Chip.winchLit_relight _

/-- An entry into PARKED: the change of the measurement schedule comes after the picture and touches neither LSQ nor WNC. -/
theorem Chip.winchLit_enterParked (c : Chip) : c.enterParked.WinchLit := Chip.winchLit_relight _

/-- The return to ACTIVE. -/
theorem Chip.winchLit_returnActive (c : Chip) : c.returnActive.WinchLit := Chip.winchLit_relight _

/-- An entry into DORMANT. -/
theorem Chip.winchLit_enterDormant (c : Chip) : c.enterDormant.WinchLit := Chip.winchLit_relight _

/-- A reset release. -/
theorem Chip.winchLit_release (c : Chip) (bench : Bool) : (c.release bench).WinchLit := Chip.winchLit_relight _

/-- While a reset is held the winch is LOCKED and no source is active (R108, R129). -/
theorem Chip.winchLit_resetTo (c : Chip) (kind : ResetKind) : (c.resetTo kind).WinchLit :=
  (Chip.winchLit_iff _).2 rfl

/-! ### The drive and the winch -/

/-- A cap change. -/
theorem Chip.winchLit_recapIf {c : Chip} (lit : c.WinchLit) (event : Bool) : (c.recapIf event).WinchLit := by
  unfold Chip.recapIf
  split
  · exact Chip.winchLit_setDrive lit _
  · exact lit

/-- A new winch record: one of the same state leaves the source where it stands, one of another state forms the picture. -/
theorem Chip.winchLit_setWinch {c : Chip} (lit : c.WinchLit) (w : Winch) : (c.setWinch w).WinchLit := by
  by_cases same : w.state = c.wnc.state
  · have placed : ({ c with wnc := w.settle c.tables.winchCfg } : Chip).WinchLit := by
      unfold Chip.WinchLit
      rw [Winch.settle_state, same]
      exact lit
    unfold Chip.setWinch
    exact Chip.winchLit_relightIf (Chip.winchLit_recapIf (Chip.winchLit_alert placed _) _) _
  · exact Chip.winchLit_setWinch_of_ne same

/-- The arming timer's expiry. -/
theorem Chip.winchLit_arm {c : Chip} (lit : c.WinchLit) : c.arm.WinchLit := by
  unfold Chip.arm
  split
  · exact Chip.winchLit_setDrive lit _
  · exact lit

/-- A reverse delay's expiry. -/
theorem Chip.winchLit_endReversal {c : Chip} (lit : c.WinchLit) (a : Axle) : (c.endReversal a).WinchLit := by
  unfold Chip.endReversal
  split
  · exact Chip.winchLit_setDrive lit _
  · exact lit

/-- A spool pulse. -/
theorem Chip.winchLit_spoolPulse {c : Chip} (lit : c.WinchLit) (start : Nat) : (c.spoolPulse start).WinchLit := by
  have noted : ({ c with spoolStart := some start } : Chip).WinchLit := lit
  exact Chip.winchLit_setWinch (Chip.winchLit_alert noted _) _

/-! ### Operating modes and the switch space -/

/-- The test of the park exit. -/
theorem Chip.winchLit_parkExitTest {c : Chip} (lit : c.WinchLit) : c.parkExitTest.WinchLit := by
  unfold Chip.parkExitTest
  split
  · exact c.winchLit_returnActive
  · exact lit

/-- The park timer's expiry. -/
theorem Chip.winchLit_parkExpiry {c : Chip} (lit : c.WinchLit) : c.parkExpiry.WinchLit := by
  unfold Chip.parkExpiry
  dsimp only
  split
  · exact Chip.winchLit_enterParked _
  · exact lit

/-- DRM's turn at a write of the switch space. -/
theorem Chip.winchLit_driveSwitch {c : Chip} (lit : c.WinchLit) (set : Bool) : (c.driveSwitch set).WinchLit := by
  unfold Chip.driveSwitch
  split
  · exact Chip.winchLit_setDrive lit _
  · exact lit

/-- WNC's turn. -/
theorem Chip.winchLit_winchSwitch {c : Chip} (lit : c.WinchLit) (inhibit boost : Bool) :
    (c.winchSwitch inhibit boost).WinchLit := by
  unfold Chip.winchSwitch
  split
  · exact Chip.winchLit_setWinch lit _
  · exact lit

/-- BTM's turn. -/
theorem Chip.winchLit_chargeSwitch {c : Chip} (lit : c.WinchLit) (fires : Bool) : (c.chargeSwitch fires).WinchLit := by
  have cleared : ({ c with btm := { c.btm with charge := 0, acc := 0, capForce := false } } : Chip).WinchLit := lit
  unfold Chip.chargeSwitch
  split
  · exact Chip.winchLit_alert cleared _
  · exact lit

/-- MDC's turn. -/
theorem Chip.winchLit_parkSwitch {c : Chip} (lit : c.WinchLit) (sets clears : Bool) :
    (c.parkSwitch sets clears).WinchLit := by
  unfold Chip.parkSwitch
  split
  · exact c.winchLit_enterParked
  · split
    · exact Chip.winchLit_parkExitTest lit
    · exact lit

/-- A write of the switch space, turn by turn. -/
theorem Chip.winchLit_putSwitches {c : Chip} (lit : c.WinchLit) (mask value : BitVec 32) :
    (c.putSwitches mask value).WinchLit := by
  have written : (c.written mask value).WinchLit := lit
  rw [Chip.putSwitches_turns]
  exact Chip.winchLit_relightIf (Chip.winchLit_parkSwitch (Chip.winchLit_chargeSwitch
    (Chip.winchLit_winchSwitch (Chip.winchLit_driveSwitch written _) _ _) _) _ _) _

/-! ### Channel updates -/

/-- One block takes a channel update. -/
theorem Chip.winchLit_takeUpdate {status : Chip → Chip} (keeps : ∀ c : Chip, c.WinchLit → (status c).WinchLit) {c : Chip}
    (lit : c.WinchLit) (t : Taker) : (c.takeUpdate status t).WinchLit := by
  cases t with
  | stm => exact lit
  | drm => exact Chip.winchLit_setDrive lit _
  | wnc =>
    show c.winchUpdate.WinchLit
    unfold Chip.winchUpdate
    split
    · exact Chip.winchLit_setWinch lit _
    · exact lit
  | mdc => exact Chip.winchLit_parkExitTest lit
  | atx => exact lit
  | rtx => exact keeps c lit

/-- A channel update. -/
theorem Chip.winchLit_channelUpdate {status : Chip → Chip} (keeps : ∀ c : Chip, c.WinchLit → (status c).WinchLit) {c : Chip}
    (lit : c.WinchLit) (order : List Taker) : (c.channelUpdate status order).WinchLit :=
  foldl_induct (P := Chip.WinchLit) (fun _ t h => Chip.winchLit_takeUpdate keeps h t) _ _ lit

/-- The status frame of a refresh: RTX alone. -/
theorem Chip.winchLit_refreshStatus (c : Chip) (lit : c.WinchLit) : c.refreshStatus.WinchLit := lit

/-- The count of control frames, and the status frame it can build: RTX alone. -/
theorem Chip.winchLit_countControl (c : Chip) (lit : c.WinchLit) : c.countControl.WinchLit := lit

/-- The entry into HOLD: the entry forms the picture, and the blocks then take its refresh. -/
theorem Chip.winchLit_enterHold (c : Chip) (order : List Taker) : (c.enterHold order).WinchLit :=
  Chip.winchLit_channelUpdate Chip.winchLit_refreshStatus (Chip.winchLit_relight _) order

/-- The entry into FAILSAFE. -/
theorem Chip.winchLit_enterFailsafe (c : Chip) (order : List Taker) : (c.enterFailsafe order).WinchLit :=
  Chip.winchLit_channelUpdate Chip.winchLit_refreshStatus (Chip.winchLit_relight _) order

/-- A refresh. -/
theorem Chip.winchLit_refreshed {c : Chip} (lit : c.WinchLit) (order : List Taker) : (c.refreshed order).WinchLit := by
  have counted : ({ c with ulr := { c.ulr with refreshDue := c.ulr.refreshDue.map (· + 20)
                                               ordinal := c.ulr.ordinal + 1 } } : Chip).WinchLit := lit
  exact Chip.winchLit_channelUpdate Chip.winchLit_refreshStatus counted order

/-- A control frame accepted. -/
theorem Chip.winchLit_acceptControl {c : Chip} (lit : c.WinchLit) (order : List Taker) (p : List Byte) :
    (c.acceptControl order p).WinchLit := by
  have written : (c.freshSlots p).WinchLit := lit
  unfold Chip.acceptControl
  split
  · exact c.winchLit_countControl lit
  · exact Chip.winchLit_channelUpdate Chip.winchLit_countControl
      (Chip.winchLit_relightIf (Chip.winchLit_alert written _) _) order

/-! ### Setup frames -/

/-- The tables replaced. -/
theorem Chip.winchLit_setTables {c : Chip} (lit : c.WinchLit) (t : Tables) (plain : Vector Bool 5) (winch : Bool) :
    (c.setTables t plain winch).WinchLit := by
  have replaced : ({ c with tables := t, cdc := c.cdc.forget plain } : Chip).WinchLit := lit
  unfold Chip.setTables
  dsimp only
  split
  · exact Chip.winchLit_setWinch (Chip.winchLit_relightIf replaced _) _
  · exact Chip.winchLit_relightIf replaced _

/-- A setup command carried out. -/
theorem Chip.winchLit_carryOut {c : Chip} (lit : c.WinchLit) (p : List Byte) : (c.carryOut p).chip.WinchLit :=
  Chip.carryOut_cases c p lit
    (write := fun _ _ _ _ _ => Chip.winchLit_setTables lit _ _ _)
    (load := fun _ _ _ => Chip.winchLit_setTables lit _ _ _)
    (capture := fun _ _ => lit)
    (switches := fun _ _ => Chip.winchLit_putSwitches lit _ _)
    (winch := fun _ _ => Chip.winchLit_setWinch lit _)
    (ack := fun _ => Chip.winchLit_alert lit _)
    (ackAll := Chip.winchLit_alert lit _)
    (store := fun _ => lit)
    (restart := lit)

/-- An answer given. -/
theorem Answer.winchLit_give {a : Answer} (lit : a.chip.WinchLit) (p : List Byte) : (a.give p).WinchLit := by
  show (a.chip.faultIfRefused (codeOf p) a.status).WinchLit
  unfold Chip.faultIfRefused
  split
  · exact Chip.winchLit_alert lit _
  · exact lit

/-- SUP takes a frame. -/
theorem Chip.winchLit_takeSetup {c : Chip} (lit : c.WinchLit) : c.takeSetup.WinchLit := by
  unfold Chip.takeSetup
  split
  · exact lit
  · next p rest _ =>
    have removed : ({ c with sup := { c.sup with queue := rest } } : Chip).WinchLit := lit
    exact Answer.winchLit_give (Chip.winchLit_carryOut removed p) p

/-- SUP takes frames one after another. -/
theorem Chip.winchLit_takeSetups (n : Nat) {c : Chip} (lit : c.WinchLit) : (c.takeSetups n).WinchLit := by
  induction n generalizing c with
  | zero => exact lit
  | succ n ih =>
    unfold Chip.takeSetups
    split
    · exact ih (Chip.winchLit_takeSetup lit)
    · exact lit

/-- A setup frame accepted: taken at once, discarded, forwarded or none of these. -/
theorem Chip.winchLit_acceptSetup {c : Chip} (lit : c.WinchLit) (p : List Byte) : (c.acceptSetup p).WinchLit := by
  have joined : ({ c with sup := { c.sup with queue := c.sup.queue ++ [p] } } : Chip).WinchLit := lit
  unfold Chip.acceptSetup Chip.routeSetup Chip.joinSetup
  split
  · split
    · split
      · exact Chip.winchLit_takeSetups _ joined
      · exact Chip.winchLit_alert lit _
    · exact lit
  · exact lit

/-- The frames of an intake handed on. -/
theorem Chip.winchLit_handOn {c : Chip} (lit : c.WinchLit) (order : List Taker) (r : Intake) :
    (c.handOn order r).WinchLit := by
  refine foldl_induct (P := Chip.WinchLit) (fun d frame h => ?_) _ _ lit
  cases frame with
  | nil => exact h
  | cons k p =>
    show (if frameKind k = 1 then d.acceptControl order p else d.acceptSetup p).WinchLit
    split
    · exact Chip.winchLit_acceptControl h order p
    · exact Chip.winchLit_acceptSetup h p

/-- The frame on the return line has been sent. -/
theorem Chip.winchLit_returnSent {c : Chip} (lit : c.WinchLit) : c.returnSent.WinchLit := by
  have chosen : ({ c with rtx := c.rtx.complete } : Chip).WinchLit := lit
  unfold Chip.returnSent
  split
  · exact c.winchLit_resetTo .warm
  · split
    · exact Chip.winchLit_takeSetups _ chosen
    · exact lit

/-! ### Evaluation completions -/

/-- A consumer takes its grant. -/
theorem Chip.winchLit_takeGrantOf {c : Chip} (lit : c.WinchLit) (t : EvalTaker) : (c.takeGrantOf t).WinchLit := by
  cases t with
  | drm | alt | mdc | bga => exact lit
  | wnc => exact Chip.winchLit_setWinch lit _
  | lsq => exact c.winchLit_takeLightGrant _

/-- A grant event. -/
theorem Chip.winchLit_grantEvent {c : Chip} (lit : c.WinchLit) (order : List EvalTaker) : (c.grantEvent order).WinchLit :=
  foldl_induct (P := Chip.WinchLit) (fun _ t h => Chip.winchLit_takeGrantOf h t) _ _ lit

/-- One block takes an evaluation completion. -/
theorem Chip.winchLit_takeEvaluation {c : Chip} (lit : c.WinchLit) (before : Level) (trip : Bool) (order : List EvalTaker)
    (t : EvalTaker) : (c.takeEvaluation before trip order t).WinchLit := by
  unfold Chip.takeEvaluation
  dsimp only
  cases t with
  | alt => exact Chip.winchLit_alert lit _
  | drm => exact Chip.winchLit_recapIf lit _
  | wnc =>
    dsimp only
    split
    · exact Chip.winchLit_setWinch lit _
    · exact lit
  | lsq => exact Chip.winchLit_relightIf lit _
  | mdc => exact lit
  | bga =>
    have divided : ({ c with bga := c.division (c.btm.budget.getD 0) c.btm.level } : Chip).WinchLit := lit
    exact Chip.winchLit_grantEvent divided order

/-- A measurement and its evaluation completion. -/
theorem Chip.winchLit_measurement {c : Chip} (lit : c.WinchLit) (r : Readings) (order : List EvalTaker) :
    (c.measurement r order).WinchLit :=
  foldl_induct (P := Chip.WinchLit) (fun _ t h => Chip.winchLit_takeEvaluation h _ _ order t) _ _ lit

/-! ### One step -/

/-- Every command and the idle step keep the source WINCH with the winch state (R116). -/
theorem step_keeps_winchLit {s t : State} (lit : s.chip.WinchLit) (h : step s = .next t) : t.chip.WinchLit := by
  obtain ⟨q, c⟩ := s
  have later (now : Nat) : ({ c with now := now } : Chip).WinchLit := lit
  have released : c.clearHunt.WinchLit := lit
  exact step_cases h lit (tick := lit)
    (handOn := fun _ _ _ => Chip.winchLit_handOn lit _ _)
    (clearHunt := fun _ => released)
    (control := fun _ _ _ => Chip.winchLit_acceptControl released _ _)
    (setupFrame := fun _ _ => Chip.winchLit_acceptSetup released _)
    (setup := fun _ _ => Chip.winchLit_acceptSetup lit _)
    (hold := fun _ _ _ _ => Chip.winchLit_enterHold _ _)
    (failsafe := fun _ _ _ _ => Chip.winchLit_enterFailsafe _ _)
    (refresh := fun now _ _ _ => Chip.winchLit_refreshed (later now) _)
    (arm := fun now _ => Chip.winchLit_arm (later now))
    (reversal := fun now _ _ => Chip.winchLit_endReversal (later now) _)
    (pulse := fun _ _ _ => lit)
    (pulseEnd := fun _ => lit)
    (spool := fun _ _ => Chip.winchLit_spoolPulse lit _)
    (timebase := fun _ _ => Chip.winchLit_advanceTimebase _)
    (brakeHold := fun _ _ => Chip.winchLit_relight _)
    (measurement := fun now _ _ _ _ => Chip.winchLit_measurement (later now) _ _)
    (window := fun _ _ => lit)
    (foldback := fun _ _ => lit)
    (dormant := fun _ _ => Chip.winchLit_enterDormant _)
    (park := fun now _ => Chip.winchLit_parkExpiry (later now))
    (returnSent := fun _ => Chip.winchLit_returnSent lit)
    (accessorySent := fun _ => lit)
    (storeDone := fun _ _ _ => lit)
    (switches := fun _ _ _ => Chip.winchLit_putSwitches lit _ _)
    (cold := c.winchLit_resetTo .cold) (warm := c.winchLit_resetTo .warm)
    (release := fun _ _ => Chip.winchLit_release _ _)

/-! ### The statement's parts -/

/-- The source WINCH is active in the five states alone (R116). -/
theorem Chip.sourceActive_winch_iff (c : Chip) : c.sourceActive .winch = true ↔ c.wnc.state.lights := by
  unfold Chip.sourceActive WinchState.lights
  cases c.wnc.state <;> simp

/-- IDLE, STALLED and LOCKED light no winch lamp. -/
theorem WinchState.not_lights {st : WinchState} (h : st = .idle ∨ st = .stalled ∨ st = .locked) : ¬ st.lights := by
  unfold WinchState.lights
  rcases h with rfl | rfl | rfl <;> simp

/-- Between two parts that hold the source as the winch state says, it changes only with that state. -/
theorem Chip.WinchLit.state_ne {c d : Chip} (before : c.WinchLit) (after : d.WinchLit)
    (changed : d.lsq.active[Source.winch.index] ≠ c.lsq.active[Source.winch.index]) : d.wnc.state ≠ c.wnc.state := by
  intro same
  unfold Chip.WinchLit at before after
  rw [same] at after
  exact changed (Bool.eq_iff_iff.2 (after.trans before.symm))

/-- A spool pulse draws line in FREE: the winch stays there (R92). -/
theorem Winch.pulse_state_of_free {w : Winch} (free : w.state = .free) (cfg : WinchCfg) : (w.pulse cfg).state = .free := by
  have undriven : ¬ w.state.driven = true := by rw [free]; exact Bool.false_ne_true
  have loose : ¬ w.state.holds = true := by rw [free]; exact Bool.false_ne_true
  unfold Winch.pulse
  rw [if_neg undriven, if_neg loose]
  exact free

/-- The part keeps a winch in FREE there at a spool pulse. -/
theorem Chip.spoolPulse_state_of_free {c : Chip} (free : c.wnc.state = .free) (start : Nat) :
    (c.spoolPulse start).wnc.state = .free := by
  unfold Chip.spoolPulse
  rw [Chip.setWinch_wnc, Winch.settle_state]
  exact Winch.pulse_state_of_free free _

/-- A pulse on the spool input, whether it counts as a spool pulse or not, leaves a winch in FREE there and lit. -/
theorem exec_spoolPulse_of_free {s t : State} {start lasts : Nat} (lit : s.chip.WinchLit) (free : s.chip.wnc.state = .free)
    (h : exec (.spoolPulse start lasts) s = .next t) : t.chip.wnc.state = .free ∧ t.chip.WinchLit := by
  obtain rfl := Host.Outcome.next.inj h
  refine Chip.whenRunning_ind (P := fun d => d.wnc.state = .free ∧ d.WinchLit) ⟨free, lit⟩ fun _ => ?_
  split
  · exact ⟨Chip.spoolPulse_state_of_free free start, Chip.winchLit_spoolPulse lit start⟩
  · exact ⟨free, lit⟩

/-- Settles O57: the activity of the source by the winch state, the announcement of a change of winch state, and the invariant
that every step keeps, from which the other clauses about a step follow. -/
theorem winchSourceFollowsTheWinch : Obligations.WinchSourceFollowsTheWinch := by
  refine ⟨Chip.sourceActive_winch_iff, fun c w changed => ?announced, fun s t lit h => ?step,
    fun s t start lasts lit free h => ?pulse⟩
  case announced =>
    have lit := Chip.winchLit_setWinch_of_ne changed
    unfold Chip.WinchLit at lit
    rwa [Chip.setWinch_wnc, Winch.settle_state] at lit
  case step =>
    have after := step_keeps_winchLit lit h
    exact ⟨after, lit.state_ne after, fun was is => ⟨lit.2 was, after.2 is⟩,
      fun dark => Bool.eq_false_iff.2 fun on => WinchState.not_lights dark (after.1 on)⟩
  case pulse =>
    obtain ⟨stays, after⟩ := exec_spoolPulse_of_free lit free h
    refine ⟨stays, after.2 ?_⟩
    simp [WinchState.lights, stays]

end Sys2Proof.Machine
end

section
/-! What the composite events keep: a property of the part that each single effect of SUP keeps is kept by every setup frame,
and with the control frames by every byte taken from the uplink. -/

namespace Sys2Proof.Machine

/-- The effects SUP, RTX and ATX have at a setup frame keep a property of the part. -/
structure SetupKeeps (P : Chip → Prop) : Prop where
  queue : ∀ (c : Chip) q, P c → P { c with sup := { c.sup with queue := q } }
  carryOut : ∀ (c : Chip) p, P c → P (c.carryOut p).chip
  fault : ∀ (c : Chip) k r, P c → P (c.setupFault k r)
  rtx : ∀ (c : Chip) x, P c → P { c with rtx := x }
  atx : ∀ (c : Chip) x, P c → P { c with atx := x }

namespace SetupKeeps

variable {P : Chip → Prop}

/-- The answer to a command: the refusal latched and the reply queued. -/
theorem give (k : SetupKeeps P) {a : Answer} (h : P a.chip) (p : List Byte) : P (a.give p) := by
  refine k.rtx _ _ ?_
  unfold Chip.faultIfRefused
  split
  · exact k.fault _ _ _ h
  · exact h

/-- SUP takes the head frame. -/
theorem takeSetup (k : SetupKeeps P) {c : Chip} (h : P c) : P c.takeSetup := by
  unfold Chip.takeSetup
  split
  · exact h
  · exact k.give (k.carryOut _ _ (k.queue c _ h)) _

/-- SUP takes frames one after another. -/
theorem takeSetups (k : SetupKeeps P) (n : Nat) {c : Chip} (h : P c) : P (c.takeSetups n) := by
  induction n generalizing c with
  | zero => exact h
  | succ n ih =>
    unfold Chip.takeSetups
    split
    · exact ih (k.takeSetup h)
    · exact h

/-- A setup frame accepted. -/
theorem acceptSetup (k : SetupKeeps P) {c : Chip} (h : P c) (p : List Byte) : P (c.acceptSetup p) := by
  unfold Chip.acceptSetup Chip.routeSetup Chip.joinSetup
  split
  · split
    · split
      · exact k.takeSetups _ (k.queue c _ h)
      · exact k.fault _ _ _ h
    · exact k.atx _ _ h
  · exact h

/-- The frame on the return line has been sent. -/
theorem returnSent (k : SetupKeeps P) {c : Chip} (h : P c) (restart : P (c.resetTo .warm)) : P c.returnSent := by
  unfold Chip.returnSent
  split
  · exact restart
  · split
    · exact k.takeSetups _ (k.rtx c _ h)
    · exact h

end SetupKeeps

/-- A frame accepted from the line is a control frame, a setup frame, or has no kind byte. -/
theorem Chip.acceptFrame_ind {P : Chip → Prop} {c : Chip} {order : List Taker} (same : P c)
    (control : ∀ p, P (c.acceptControl order p)) (setup : ∀ p, P (c.acceptSetup p)) (frame : List Byte) :
    P (c.acceptFrame order frame) := by
  cases frame with
  | nil => exact same
  | cons k p =>
    show P (if frameKind k = 1 then c.acceptControl order p else c.acceptSetup p)
    split
    · exact control p
    · exact setup p

/-- What the frames of an intake keep, once the hunt state and the bytes of the intake stand. -/
theorem Chip.handOn_ind {P : Chip → Prop} {c : Chip} {order : List Taker} {r : Intake}
    (hunts : P { c with ulr := { c.ulr with hunt := r.hunt, bytes := r.bytes } })
    (control : ∀ (d : Chip) p, P d → P (d.acceptControl order p)) (setup : ∀ (d : Chip) p, P d → P (d.acceptSetup p)) :
    P (c.handOn order r) :=
  foldl_induct (fun d frame h => Chip.acceptFrame_ind h (fun p => control d p h) (fun p => setup d p h) frame) _ _ hunts

end Sys2Proof.Machine
end

section
/-! The link state table (R20): tags, link timer and refresh schedule follow the link state, and every event but the four that
change the link leaves all of them alone. -/

namespace Sys2Proof.Machine

/-- Tags, link timer and refresh schedule match the link state, asleep or not. -/
def Chip.LinkFits (c : Chip) : Prop := c.tagsMatch ∧ c.linkTimersMatch

/-- A running part has its link timers running. -/
theorem Chip.Running.not_asleep {c : Chip} (running : c.Running) : ¬ c.asleep := fun asleep => running.2 asleep.2

/-- In a running part the link table holds with its timers. -/
theorem Chip.LinkOk.fits {c : Chip} (ok : c.LinkOk) (running : c.Running) : c.LinkFits := ⟨ok.1, ok.2 running.not_asleep⟩

/-- The table holds where its timers match as well. -/
theorem Chip.LinkFits.ok {c : Chip} (fits : c.LinkFits) : c.LinkOk := ⟨fits.1, fun _ => fits.2⟩

/-- The tags depend on the link state and the slots alone. -/
theorem Chip.tagsMatch_congr {c d : Chip} (link : d.ulr.link = c.ulr.link) (slots : d.slots = c.slots) :
    d.tagsMatch ↔ c.tagsMatch := by
  unfold Chip.tagsMatch Chip.tagsIn
  rw [link, slots]

/-- The match depends on ULR and the slots alone. -/
theorem Chip.LinkFits.congr {c d : Chip} (fits : c.LinkFits) (ulr : d.ulr = c.ulr) (slots : d.slots = c.slots) :
    d.LinkFits := by
  refine ⟨(Chip.tagsMatch_congr (by rw [ulr]) slots).2 fits.1, ?_⟩
  unfold Chip.linkTimersMatch
  rw [ulr]
  exact fits.2

/-! ### The four events of the link (R12 to R16) -/

/-- A control frame with RXHOLD clear: every slot is FRESH, the link timer runs and the refreshes stop (R9, R16). -/
theorem Chip.linkFits_freshSlots (c : Chip) (p : List Byte) : (c.freshSlots p).LinkFits := by
  constructor
  · intro i
    simp [Chip.freshSlots, Slot.tag]
  · simp [Chip.linkTimersMatch, Chip.freshSlots]

/-- A slot that is FRESH becomes HELD (R13). -/
theorem Slot.tag_hold {x : Slot} (fresh : x.tag = .fresh) : x.hold.tag = .held := by
  cases x <;> simp_all [Slot.tag, Slot.hold]

/-- A HELD slot becomes FAILSAFE or stays HELD (R14). -/
theorem Slot.tag_fallBack {x : Slot} (held : x.tag = .held) (entry : Option Raw) :
    (x.fallBack entry).tag = .failsafe ∨ (x.fallBack entry).tag = .held := by
  cases entry with
  | none => exact .inr held
  | some r => exact .inl rfl

/-- The entry into HOLD: the FRESH slots of LIVE become HELD (R13). -/
theorem Chip.linkFits_holdSlots {c : Chip} (fits : c.LinkFits) (live : c.ulr.link = .live) : c.holdSlots.LinkFits := by
  have tags : c.tagsIn .fresh .fresh := by simpa [Chip.tagsMatch, live] using fits.1
  constructor
  · intro i
    have fresh : (c.slots[i]).tag = .fresh := (tags i).elim id id
    simpa [Chip.holdSlots] using Slot.tag_hold fresh
  · simp [Chip.linkTimersMatch, Chip.holdSlots]

/-- The entry into FAILSAFE: the HELD slots of HOLD take their failsafe entries (R14). -/
theorem Chip.linkFits_failsafeSlots {c : Chip} (fits : c.LinkFits) (hold : c.ulr.link = .hold) :
    c.failsafeSlots.LinkFits := by
  have tags : c.tagsIn .held .held := by simpa [Chip.tagsMatch, hold] using fits.1
  constructor
  · intro i
    have held : (c.slots[i]).tag = .held := (tags i).elim id id
    simpa [Chip.failsafeSlots] using Slot.tag_fallBack held (c.tables.failsafe[i])
  · simp [Chip.linkTimersMatch, Chip.failsafeSlots]

/-- A channel update leaves ULR and the slots alone. -/
theorem Chip.linkFits_channelUpdate {c : Chip} (fits : c.LinkFits) {st : Chip → Chip} (trigger : StatusTrigger st)
    (order : List Taker) : (c.channelUpdate st order).LinkFits := by
  have frame := c.channelUpdate_frame trigger order
  exact fits.congr frame.ulr frame.slots

/-- A control frame: with RXHOLD set it is counted alone, with RXHOLD clear the link goes LIVE (R9, R10). -/
theorem Chip.linkFits_acceptControl {c : Chip} (fits : c.LinkFits) (order : List Taker) (p : List Byte) :
    (c.acceptControl order p).LinkFits := by
  unfold Chip.acceptControl
  split
  · exact fits.congr (by simp) (by simp)
  · refine Chip.linkFits_channelUpdate ?_ (.inl rfl) order
    exact (c.linkFits_freshSlots p).congr (by simp [Chip.goLive]) (by simp [Chip.goLive])

/-- The entry into HOLD. -/
theorem Chip.linkFits_enterHold {c : Chip} (fits : c.LinkFits) (live : c.ulr.link = .live) (order : List Taker) :
    (c.enterHold order).LinkFits :=
  Chip.linkFits_channelUpdate ((Chip.linkFits_holdSlots fits live).congr (by simp) (by simp)) (.inr rfl) order

/-- The entry into FAILSAFE. -/
theorem Chip.linkFits_enterFailsafe {c : Chip} (fits : c.LinkFits) (hold : c.ulr.link = .hold) (order : List Taker) :
    (c.enterFailsafe order).LinkFits :=
  Chip.linkFits_channelUpdate ((Chip.linkFits_failsafeSlots fits hold).congr (by simp) (by simp)) (.inr rfl) order

/-- A refresh moves a schedule that runs (R15). -/
theorem Chip.linkFits_refreshed {c : Chip} (fits : c.LinkFits) (order : List Taker) : (c.refreshed order).LinkFits := by
  obtain ⟨tags, timer, due⟩ := fits
  have moved : ({ c with ulr := { c.ulr with refreshDue := c.ulr.refreshDue.map (· + 20), ordinal := c.ulr.ordinal + 1 } } :
      Chip).LinkFits := ⟨tags, timer, by simpa using due⟩
  exact Chip.linkFits_channelUpdate moved (.inr rfl) order

/-- The frames of an intake. -/
theorem Chip.linkFits_handOn {c : Chip} (fits : c.LinkFits) (order : List Taker) (r : Intake) :
    (c.handOn order r).LinkFits :=
  Chip.handOn_ind (P := Chip.LinkFits) fits (fun _ p h => Chip.linkFits_acceptControl h order p)
    fun d p h => h.congr (d.acceptSetup_ulr p) (d.acceptSetup_slots p)

/-- A reset leaves AWAIT, EMPTY slots and no timer (R12). -/
theorem Chip.linkFits_resetTo (c : Chip) (kind : ResetKind) : (c.resetTo kind).LinkFits := by
  constructor
  · intro i
    simp [Chip.resetTo, Slot.tag]
  · simp [Chip.linkTimersMatch, Chip.resetTo, Ulr.cleared]

/-- The entry into DORMANT stops the timers and leaves link state and slots (R7, R198). -/
theorem Chip.linkOk_enterDormant {c : Chip} (fits : c.LinkFits) (free : c.held = none) : c.enterDormant.LinkOk := by
  have asleep : c.enterDormant.asleep := ⟨by simp [free], by simp [Chip.enterDormant, Chip.setMode]⟩
  exact ⟨(Chip.tagsMatch_congr (by simp [Chip.enterDormant]) (by simp)).2 fits.1, fun awake => absurd asleep awake⟩

/-- The release keeps what a held reset has left. -/
theorem Chip.linkOk_release {c : Chip} (ok : c.LinkOk) (held : c.held.isSome = true) (bench : Bool) :
    (c.release bench).LinkOk := by
  have awake : ¬ c.asleep := fun asleep => by simp [asleep.1] at held
  have fits : c.LinkFits := ⟨ok.1, ok.2 awake⟩
  exact Chip.LinkFits.ok (fits.congr (d := c.release bench) rfl rfl)

/-- Settles O8: each command of a running part keeps the match, the resets set it up, and DORMANT stops the timers alone. -/
theorem linkTableHolds : Obligations.LinkTableHolds := by
  intro s t ok h
  obtain ⟨q, c⟩ := s
  have fits (running : c.Running) : c.LinkFits := ok.fits running
  exact step_cases h ok (tick := ok)
    (handOn := fun _ _ running => (Chip.linkFits_handOn (fits running) _ _).ok)
    (clearHunt := fun running => Chip.LinkFits.ok (fits running))
    (control := fun _ _ running => (Chip.linkFits_acceptControl (c := c.clearHunt) (fits running) _ _).ok)
    (setupFrame := fun _ running =>
      (Chip.LinkFits.congr (c := c.clearHunt) (fits running) (Chip.acceptSetup_ulr _ _) (Chip.acceptSetup_slots _ _)).ok)
    (setup := fun _ running => ((fits running).congr (Chip.acceptSetup_ulr _ _) (Chip.acceptSetup_slots _ _)).ok)
    (hold := fun now _ running live => (Chip.linkFits_enterHold (c := { c with now := now }) (fits running) live _).ok)
    (failsafe := fun now _ running hold =>
      (Chip.linkFits_enterFailsafe (c := { c with now := now }) (fits running) hold _).ok)
    (refresh := fun now _ running _ => (Chip.linkFits_refreshed (c := { c with now := now }) (fits running) _).ok)
    (arm := fun _ running => ((fits running).congr (by simp) (by simp)).ok)
    (reversal := fun _ _ running => ((fits running).congr (by simp) (by simp)).ok)
    (pulse := fun _ _ _ => ok)
    (pulseEnd := fun _ => ok)
    (spool := fun _ running => ((fits running).congr (by simp) (by simp)).ok)
    (timebase := fun _ _ => ok)
    (brakeHold := fun _ _ => ok)
    (measurement := fun _ _ _ _ running => ((fits running).congr (by simp) (by simp)).ok)
    (window := fun _ _ => ok)
    (foldback := fun _ _ => ok)
    (dormant := fun now running => Chip.linkOk_enterDormant (c := { c with now := now }) (fits running) running.1)
    (park := fun _ running => ((fits running).congr (by simp) (by simp)).ok)
    (returnSent := fun running => by
      unfold Chip.returnSent
      split
      · exact (c.linkFits_resetTo .warm).ok
      · split
        · exact ((fits running).congr (by simp) (by simp)).ok
        · exact ok)
    (accessorySent := fun _ => ok)
    (storeDone := fun _ _ _ => ok)
    (switches := fun _ _ running => ((fits running).congr (by simp) (by simp)).ok)
    (cold := (c.linkFits_resetTo .cold).ok) (warm := (c.linkFits_resetTo .warm).ok)
    (release := fun bench held => Chip.linkOk_release ok held bench)

end Sys2Proof.Machine
end

section
/-! The bytes ULR holds (R1): every byte taken from the line leaves the bytes of a candidate in its hunt state, the byte that
fails a candidate among them; no other event touches them but to give the candidate up. -/

namespace Sys2Proof.Machine

/-- The invariant reads the hunt state and the bytes alone. -/
theorem Ulr.HuntOk.congr {u v : Ulr} (ok : u.HuntOk) (hunt : v.hunt = u.hunt) (bytes : v.bytes = u.bytes) : v.HuntOk := by
  unfold Ulr.HuntOk
  rw [hunt, bytes]
  exact ok

/-- ULR with the hunt state and the bytes an intake leaves. -/
def Ulr.after (u : Ulr) (r : Intake) : Ulr := { u with hunt := r.hunt, bytes := r.bytes }

/-- In PAYLOAD fewer payload bytes are held than the candidate's length. -/
theorem Ulr.huntOk_payload (u : Ulr) {k : Byte} {rest : List Byte} (passes : kindPasses k = true)
    (short : rest.length < frameLength k) : Ulr.HuntOk { u with hunt := .payload, bytes := k :: rest } :=
  ⟨k, rest, rfl, passes, short⟩

/-- In CHECK all the payload bytes are held. -/
theorem Ulr.huntOk_check (u : Ulr) {k : Byte} {rest : List Byte} (passes : kindPasses k = true)
    (whole : rest.length = frameLength k) : Ulr.HuntOk { u with hunt := .check, bytes := k :: rest } :=
  ⟨k, rest, rfl, passes, whole⟩

/-- A candidate whose bytes are still open has a kind/length byte that passes, and its check byte has not come (R2). -/
theorem trial_open {k : Byte} {rest : List Byte} (opened : trial (k :: rest) = .open) :
    kindPasses k = true ∧ rest.length ≤ frameLength k := by
  by_cases passes : kindPasses k = true
  · refine ⟨passes, ?_⟩
    by_contra long
    have found : rest[frameLength k]? = some rest[frameLength k] := List.getElem?_eq_getElem (by omega)
    simp only [trial, passes, found, Bool.not_true, Bool.false_eq_true, if_false] at opened
    split at opened <;> cases opened
  · simp [trial, passes] at opened

/-- A candidate still open holds what its hunt state says (R1, R2). -/
theorem Ulr.huntOk_of_open {rest : List Byte} (opened : trial rest = .open) (u : Ulr) :
    Ulr.HuntOk { u with hunt := huntOf rest, bytes := rest } := by
  cases rest with
  | nil => rfl
  | cons k rest =>
    obtain ⟨passes, fits⟩ := trial_open opened
    unfold huntOf
    dsimp only
    split
    · next short => exact u.huntOk_payload passes short
    · next whole => exact u.huntOk_check passes (by omega)

/-- Bytes taken again from HUNT leave the bytes of a candidate (R3). -/
theorem Ulr.huntOk_examine (u : Ulr) (bytes : List Byte) (skip : Nat) : (u.after (examine skip bytes)).HuntOk := by
  induction bytes generalizing skip with
  | nil => cases skip <;> rfl
  | cons b rest ih =>
    cases skip with
    | succ n => exact ih n
    | zero =>
      unfold examine
      split
      · split
        · next opened => exact Ulr.huntOk_of_open opened u
        · exact ih 0
        · exact ih _
      · exact ih 0

/-- One byte taken from the line, in every hunt state (R1 to R3). -/
theorem Ulr.huntOk_take {u : Ulr} (ok : u.HuntOk) (b : Byte) : (u.after (u.take b).1).HuntOk := by
  unfold Ulr.take
  cases hunting : u.hunt with
  | hunt =>
    by_cases sync : b = syncByte <;> simp [Ulr.HuntOk, Ulr.after, sync]
  | kind =>
    have empty : u.bytes = [] := by simpa [Ulr.HuntOk, hunting] using ok
    dsimp only
    split
    · next passes =>
      have long := two_le_frameLength passes
      simp [Ulr.HuntOk, Ulr.after, empty, passes, show frameLength b ≠ 0 by omega]
      omega
    · exact Ulr.huntOk_examine u _ 0
  | payload =>
    obtain ⟨k, rest, bytes, passes, short⟩ :
        ∃ k rest, u.bytes = k :: rest ∧ kindPasses k = true ∧ rest.length < frameLength k := by
      simpa [Ulr.HuntOk, hunting] using ok
    dsimp only [Ulr.after]
    rw [bytes]
    split
    · next whole => exact u.huntOk_check (rest := rest ++ [b]) passes (by simp at whole ⊢; omega)
    · next partly => exact u.huntOk_payload (rest := rest ++ [b]) passes (by simp at partly ⊢; omega)
  | check =>
    dsimp only
    split
    · rfl
    · exact Ulr.huntOk_examine u _ 0

/-- A control frame leaves the candidate alone. -/
theorem Chip.acceptControl_hunt (c : Chip) (order : List Taker) (p : List Byte) :
    (c.acceptControl order p).ulr.hunt = c.ulr.hunt ∧ (c.acceptControl order p).ulr.bytes = c.ulr.bytes := by
  unfold Chip.acceptControl
  split
  · simp
  · rw [(Chip.channelUpdate_frame (.inl rfl) (c.goLive p) order).ulr]
    simp [Chip.decodeNow, Chip.goLive, Chip.freshSlots]

/-- The frames of an intake leave the candidate of the intake. -/
theorem Chip.huntOk_handOn {c : Chip} {r : Intake} (ok : (c.ulr.after r).HuntOk) (order : List Taker) :
    (c.handOn order r).ulr.HuntOk :=
  Chip.handOn_ind (P := fun d => d.ulr.HuntOk) ok
    (fun d p h => h.congr (d.acceptControl_hunt order p).1 (d.acceptControl_hunt order p).2)
    fun d p h => (d.acceptSetup_ulr p).symm ▸ h

/-- A channel update leaves the candidate of the part that takes it. -/
theorem Chip.huntOk_channelUpdate {c : Chip} (ok : c.ulr.HuntOk) {st : Chip → Chip} (trigger : StatusTrigger st)
    (order : List Taker) : (c.channelUpdate st order).ulr.HuntOk := by
  rw [(c.channelUpdate_frame trigger order).ulr]
  exact ok

/-- A reset leaves HUNT (R1). -/
theorem Chip.huntOk_resetTo (c : Chip) (kind : ResetKind) : (c.resetTo kind).ulr.HuntOk := rfl

/-- Settles O9: the byte taken is the one event that adds to the bytes held. -/
theorem candidateBytesMatchHuntState : Obligations.CandidateBytesMatchHuntState := by
  intro s t ok h
  obtain ⟨q, c⟩ := s
  have same {d : Chip} (ulr : d.ulr = c.ulr) : d.ulr.HuntOk := ulr ▸ ok
  exact step_cases (P := fun d => d.ulr.HuntOk) h ok (tick := ok)
    (handOn := fun b order _ => Chip.huntOk_handOn (Ulr.huntOk_take ok b) order)
    (clearHunt := fun _ => rfl)
    (control := fun order p _ => Ulr.HuntOk.congr (u := c.clearHunt.ulr) rfl (c.clearHunt.acceptControl_hunt order p).1
      (c.clearHunt.acceptControl_hunt order p).2)
    (setupFrame := fun p _ => (c.clearHunt.acceptSetup_ulr p).symm ▸ (rfl : c.clearHunt.ulr.HuntOk))
    (setup := fun _ _ => same (by simp))
    (hold := fun now order _ _ => Chip.huntOk_channelUpdate
      (Ulr.HuntOk.congr ok (by simp [Chip.holdSlots]) (by simp [Chip.holdSlots])) (.inr rfl) order)
    (failsafe := fun now order _ _ => Chip.huntOk_channelUpdate
      (Ulr.HuntOk.congr ok (by simp [Chip.failsafeSlots]) (by simp [Chip.failsafeSlots])) (.inr rfl) order)
    (refresh := fun now order _ _ => by
      have moved : ({ c with now := now, ulr := { c.ulr with refreshDue := c.ulr.refreshDue.map (· + 20),
                                                             ordinal := c.ulr.ordinal + 1 } } : Chip).ulr.HuntOk := ok
      exact Chip.huntOk_channelUpdate moved (.inr rfl) order)
    (arm := fun _ _ => same (by simp))
    (reversal := fun _ _ _ => same (by simp))
    (pulse := fun _ _ _ => ok)
    (pulseEnd := fun _ => ok)
    (spool := fun _ _ => same (by simp))
    (timebase := fun _ _ => ok)
    (brakeHold := fun _ _ => ok)
    (measurement := fun _ _ _ _ _ => same (by simp))
    (window := fun _ _ => ok)
    (foldback := fun _ _ => ok)
    (dormant := fun now _ => Ulr.HuntOk.congr ok (by simp [Chip.enterDormant]) (by simp [Chip.enterDormant]))
    (park := fun _ _ => same (by simp))
    (returnSent := fun _ => by
      unfold Chip.returnSent
      split
      · exact c.huntOk_resetTo .warm
      · split
        · exact same (by simp)
        · exact ok)
    (accessorySent := fun _ => ok)
    (storeDone := fun _ _ _ => ok)
    (switches := fun _ _ _ => same (by simp))
    (cold := c.huntOk_resetTo .cold) (warm := c.huntOk_resetTo .warm)
    (release := fun _ _ => ok)

end Sys2Proof.Machine
end

section
/-! The tables and the store (R183, R190 to R194): the seven effects of a step that touch the tables in use, the table store or
the STORE in flight, and the two invariants they keep. -/

namespace Sys2Proof.Machine

/-- A property of the part that only the tables in use, the table store and the STORE in flight decide, and that the effects
which touch them keep. -/
structure StoreKeeps (P : Chip → Prop) : Prop where
  frame : ∀ {c d : Chip}, d.tables = c.tables → d.tbs = c.tbs → d.sup.store = c.sup.store → P c → P d
  write : ∀ (c : Chip) id index bs, c.sup.store = none → structureHolds id index bs = true → P c →
    P { c with tables := c.tables.writeRecord id index bs }
  load : ∀ (c : Chip) t, c.sup.store = none → (t = c.tbs.image.copy ∨ t = factoryTables) → P c → P { c with tables := t }
  capture : ∀ (c : Chip) f, c.sup.store = none → P c → P { c with tables := { c.tables with failsafe := f } }
  start : ∀ c : Chip, c.sup.store = none → P c → P c.startStore
  complete : ∀ c : Chip, c.sup.store.isSome = true → P c → P c.completeStore
  reset : ∀ (c : Chip) kind, P c → P (c.resetTo kind)

namespace StoreKeeps

variable {P : Chip → Prop}

/-- What a setup command does. -/
theorem carryOut (k : StoreKeeps P) {c : Chip} (h : P c) (p : List Byte) : P (c.carryOut p).chip := by
  refine c.carryOut_cases p h (write := fun id index bs idle holds => ?_) (load := fun t idle which => ?_)
    (capture := fun mask idle => k.capture c _ idle h)
    (switches := fun mask value => k.frame (by simp) (by simp) (by simp [Chip.putSwitches_sup]) h)
    (winch := fun w _ => k.frame (by simp) (by simp) (by simp) h)
    (ack := fun a => k.frame (by simp) (by simp) (by simp) h) (ackAll := k.frame (by simp) (by simp) (by simp) h)
    (store := fun idle => k.start c idle h) (restart := k.frame (c := c) rfl rfl rfl h)
  · exact k.frame (by simp [Chip.writeRecord]) (by simp [Chip.writeRecord]) (by simp [Chip.writeRecord])
      (k.write c id index bs idle holds h)
  · exact k.frame (by simp [Chip.loadTables]) (by simp [Chip.loadTables]) (by simp [Chip.loadTables]) (k.load c t idle which h)

/-- What SUP, RTX and ATX do at a setup frame. -/
theorem setup (k : StoreKeeps P) : SetupKeeps P where
  queue _ _ := k.frame rfl rfl rfl
  carryOut _ p h := k.carryOut h p
  fault _ _ _ := k.frame (by simp) (by simp) (by simp)
  rtx _ _ := k.frame rfl rfl rfl
  atx _ _ := k.frame rfl rfl rfl

/-- What a step does. -/
theorem step (k : StoreKeeps P) {s t : State} (ok : P s.chip) (h : step s = .next t) : P t.chip := by
  obtain ⟨q, c⟩ := s
  have same {d : Chip} (tables : d.tables = c.tables) (tbs : d.tbs = c.tbs) (sup : d.sup = c.sup) : P d :=
    k.frame tables tbs (by rw [sup]) ok
  have later (now : Nat) : P { c with now := now } := k.frame (c := c) rfl rfl rfl ok
  have released : P c.clearHunt := k.frame (c := c) rfl rfl rfl ok
  exact step_cases h ok (tick := same rfl rfl rfl)
    (handOn := fun b order _ => Chip.handOn_ind (k.frame (c := c) rfl rfl rfl ok)
      (fun d p => k.frame (by simp) (by simp) (by simp)) fun d p h => k.setup.acceptSetup h p)
    (clearHunt := fun _ => released)
    (control := fun _ _ _ => same (by simp) (by simp) (by simp))
    (setupFrame := fun p _ => k.setup.acceptSetup released p)
    (setup := fun p _ => k.setup.acceptSetup ok p)
    (hold := fun _ _ _ _ => same (by simp) (by simp) (by simp))
    (failsafe := fun _ _ _ _ => same (by simp) (by simp) (by simp))
    (refresh := fun _ _ _ _ => same (by simp) (by simp) (by simp))
    (arm := fun _ _ => same (by simp) (by simp) (by simp))
    (reversal := fun _ _ _ => same (by simp) (by simp) (by simp))
    (pulse := fun _ _ _ => same rfl rfl rfl)
    (pulseEnd := fun _ => same rfl rfl rfl)
    (spool := fun _ _ => same (by simp) (by simp) (by simp))
    (timebase := fun _ _ => same rfl rfl rfl)
    (brakeHold := fun _ _ => same rfl rfl rfl)
    (measurement := fun _ _ _ _ _ => same (by simp) (by simp) (by simp))
    (window := fun _ _ => same rfl rfl rfl)
    (foldback := fun _ _ => same rfl rfl rfl)
    (dormant := fun _ _ => same (by simp) (by simp) (by simp))
    (park := fun _ _ => same (by simp) (by simp) (by simp))
    (returnSent := fun _ => k.setup.returnSent ok (k.reset c .warm ok))
    (accessorySent := fun _ => same rfl rfl rfl)
    (storeDone := fun now _ busy => k.complete { c with now := now } busy (later now))
    (switches := fun _ _ _ => k.frame (by simp) (by simp) (by simp [Chip.putSwitches_sup]) ok)
    (cold := k.reset c .cold ok) (warm := k.reset c .warm ok)
    (release := fun _ _ => same rfl rfl rfl)

end StoreKeeps

/-! ### The ranges (R183, R192) -/

/-- A captured failsafe record leaves the other records in range (R19). -/
theorem Tables.ok_failsafe {t : Tables} (ok : t.Ok) (f : Vector (Option Raw) 12) : Tables.Ok { t with failsafe := f } :=
  ⟨ok.channelCal, ok.switchDef, ok.curve, ok.profile, ok.servoFront, ok.servoRear, ok.driveCfg, ok.winchCfg, ok.lightOut,
    ok.scene, ok.pattern, ok.protect, ok.budget, ok.link⟩

/-- The tables after a reset are those in use, the image's copy or the factory values (R194). -/
theorem Chip.tablesAfter_ok {c : Chip} (ok : c.TablesOk) (kind : ResetKind) : (c.tablesAfter kind).Ok := by
  obtain ⟨inUse, copy, -⟩ := ok
  cases kind with
  | warm => exact inUse
  | cold =>
    show (if c.tbs.image.checksGood then c.tbs.image.copy else factoryTables).Ok
    split
    · exact copy
    · exact factoryTables_ok

/-- The image written by a completed STORE holds the snapshot (R191). -/
theorem Chip.tablesOk_completeStore {c : Chip} (ok : c.TablesOk) : c.completeStore.TablesOk := by
  obtain ⟨inUse, copy, snapshot⟩ := ok
  refine ⟨inUse, ?_⟩
  unfold Chip.completeStore
  split
  · next t taken => exact ⟨snapshot t taken, by simp⟩
  · exact ⟨copy, snapshot⟩

/-- Every effect on the tables keeps all records in range. -/
theorem storeKeeps_tablesOk : StoreKeeps Chip.TablesOk where
  frame tables tbs _ ok := by
    unfold Chip.TablesOk
    rw [tables, tbs]
    exact ok
  write _ id index bs _ holds ok := ⟨Tables.ok_write ok.1 id index bs holds, ok.2⟩
  load _ t _ which ok := ⟨which.elim (fun h => h ▸ ok.2.1) (fun h => h ▸ factoryTables_ok), ok.2⟩
  capture _ f _ ok := ⟨Tables.ok_failsafe ok.1 f, ok.2⟩
  start _ _ ok := ⟨ok.1, ok.2.1, fun _ taken => Option.some.inj taken ▸ ok.1⟩
  complete _ _ ok := Chip.tablesOk_completeStore ok
  reset _ kind ok := ⟨Chip.tablesAfter_ok ok kind, ok.2.1, fun _ taken => nomatch taken⟩

/-- Settles O15. -/
theorem tablesStayInRange : Obligations.TablesStayInRange := fun _ _ => storeKeeps_tablesOk.step

/-! ### The snapshot (R190) -/

/-- With no STORE in flight there is no snapshot, and the tables may change. -/
theorem Chip.StoreOk.retable {c : Chip} (ok : c.StoreOk) (idle : c.sup.store = none) (t : Tables) :
    Chip.StoreOk { c with tables := t } := by
  have none_taken : c.tbs.snapshot = none := by simpa [idle] using ok.1
  exact ⟨ok.1, fun u taken => by simp [none_taken] at taken⟩

/-- The end of a STORE takes the snapshot away with it (R191). -/
theorem Chip.storeOk_completeStore {c : Chip} (ok : c.StoreOk) (busy : c.sup.store.isSome = true) :
    c.completeStore.StoreOk := by
  obtain ⟨t, taken⟩ := Option.isSome_iff_exists.1 (ok.1.1 busy)
  simp [Chip.StoreOk, Chip.completeStore, taken]

/-- Every effect on the tables keeps them equal to a snapshot. -/
theorem storeKeeps_storeOk : StoreKeeps Chip.StoreOk where
  frame tables tbs store ok := by
    unfold Chip.StoreOk
    rw [tables, tbs, store]
    exact ok
  write _ _ _ _ idle _ ok := ok.retable idle _
  load _ t idle _ ok := ok.retable idle t
  capture _ _ idle ok := ok.retable idle _
  start c _ _ := ⟨by simp [Chip.startStore], fun t taken => ⟨Option.some.inj taken, rfl, rfl⟩⟩
  complete _ busy ok := Chip.storeOk_completeStore ok busy
  reset c kind _ := ⟨by simp [Chip.resetTo], fun _ taken => nomatch taken⟩

/-- Settles O13. -/
theorem tablesEqualSnapshotDuringStore : Obligations.TablesEqualSnapshotDuringStore := fun _ _ => storeKeeps_storeOk.step

end Sys2Proof.Machine
end

section
/-! The winch record and the latches over a step: every event that touches them is a turn of WNC (R82), an event or a cause
that ALT takes (R163), a new WINCH_CFG record (R95), the entry into DORMANT (R107) or a reset. -/

namespace Sys2Proof.Machine

/-- The records that WNC's events make of the one that stands: lock test, update, level change or switch write, grant, pulse and
setup command (R82). -/
inductive WinchTurn (c : Chip) : Winch → Prop where
  | lock (cause : Bool) : WinchTurn c (c.wnc.lockTest cause)
  | update (cause : Bool) (u : Int) : WinchTurn c ((c.wnc.lockTest cause).follow c.tables.winchCfg u)
  | level (cause boost : Bool) : WinchTurn c { c.wnc.lockTest cause with boost := boost }
  | boost (boost : Bool) : WinchTurn c { c.wnc with boost := boost }
  | grant (g : Nat) (level : Level) (disabled : Bool) :
      WinchTurn c (c.wnc.takeGrant c.tables.winchCfg g level disabled)
  | pulse : WinchTurn c (c.wnc.pulse c.tables.winchCfg)
  | move {w : Winch} (move : WinchMove c w) : WinchTurn c w

/-- A property of the part that the winch record, the latches and the tables decide, and that the effects which touch them
keep. -/
structure WinchKeeps (P : Chip → Prop) : Prop where
  frame : ∀ {c d : Chip}, d.wnc = c.wnc → d.alt = c.alt → d.tables.winchCfg = c.tables.winchCfg → P c → P d
  alert : ∀ (c : Chip) f, (c.alt.Ok → (f c.alt).Ok) → P c → P (c.alert f)
  turn : ∀ (c : Chip) w, WinchTurn c w → P c → P (c.setWinch w)
  reconfigure : ∀ {c d : Chip}, d.wnc = c.wnc → d.alt = c.alt → P c → P d.winchReconfigure
  sleep : ∀ c : Chip, P c → P { c with wnc := c.wnc.sleep }
  reset : ∀ (c : Chip) kind, P c → P (c.resetTo kind)

/-- Only a record of table 8 writes WINCH_CFG. -/
theorem Tables.writeRecord_winchCfg (t : Tables) {id : Nat} (other : id ≠ 8) (index : Nat) (bs : List Byte) :
    (t.writeRecord id index bs).winchCfg = t.winchCfg := by
  unfold Tables.writeRecord
  split
  case h_8 => exact absurd rfl other
  case h_6 | h_11 => split <;> rfl
  all_goals rfl

namespace WinchKeeps

variable {P : Chip → Prop}

/-! ### Modes and switches -/

/-- The lock test, and what the light picture and the measurement schedule add to it. -/
theorem lockTest (k : WinchKeeps P) {c : Chip} (h : P c) : P c.winchLockTest := k.turn c _ (.lock _) h

/-- The entry into PARKED. -/
theorem enterParked (k : WinchKeeps P) {c : Chip} (h : P c) : P c.enterParked := by
  have disarmed : P (c.setMode .parked).steerSilence.disarmDrive :=
    k.frame (c := c) (by simp) (by simp) (by simp) h
  exact k.frame (c := (c.setMode .parked).steerSilence.disarmDrive.winchLockTest) rfl rfl rfl (k.lockTest disarmed)

/-- The return to ACTIVE. -/
theorem returnActive (k : WinchKeeps P) {c : Chip} (h : P c) : P c.returnActive := by
  have handled : P (c.setMode .active).rehandle := k.frame (c := c) (by simp) (by simp) (by simp) h
  exact k.frame (c := (c.setMode .active).rehandle.winchLockTest) rfl rfl rfl (k.lockTest handled)

/-- The test of the park exit. -/
theorem parkExitTest (k : WinchKeeps P) {c : Chip} (h : P c) : P c.parkExitTest := by
  unfold Chip.parkExitTest
  split
  · exact k.returnActive h
  · exact h

/-- The park timer's expiry. -/
theorem parkExpiry (k : WinchKeeps P) {c : Chip} (h : P c) : P c.parkExpiry := by
  have stopped : P { c with mdc := { c.mdc with parkTimer := none } } := k.frame (c := c) rfl rfl rfl h
  unfold Chip.parkExpiry
  dsimp only
  split
  · exact k.enterParked stopped
  · exact stopped

/-- The entry into DORMANT: the winch keeps its record but for boost, demand and reference. -/
theorem enterDormant (k : WinchKeeps P) {c : Chip} (h : P c) : P c.enterDormant := by
  have disarmed : P (c.setMode .dormant).steerSilence.disarmDrive :=
    k.frame (c := c) (by simp) (by simp) (by simp) h
  exact k.frame (c := { (c.setMode .dormant).steerSilence.disarmDrive with
    wnc := (c.setMode .dormant).steerSilence.disarmDrive.wnc.sleep }) rfl rfl rfl (k.sleep _ disarmed)

/-- WNC at a write of its switches. -/
theorem winchSwitch (k : WinchKeeps P) {c : Chip} (h : P c) (inhibit boost : Bool) : P (c.winchSwitch inhibit boost) := by
  unfold Chip.winchSwitch
  split
  · refine k.turn c _ ?_ h
    cases inhibit with
    | true => exact .level _ _
    | false => exact .boost _
  · exact h

/-- BTM at the strobe. -/
theorem chargeSwitch (k : WinchKeeps P) {c : Chip} (h : P c) (fires : Bool) : P (c.chargeSwitch fires) := by
  have cleared : P { c with btm := { c.btm with charge := 0, acc := 0, capForce := false } } :=
    k.frame (c := c) rfl rfl rfl h
  unfold Chip.chargeSwitch
  split
  · exact k.alert _ _ (fun ok => Alt.ok_cause ok .capacity rfl false) cleared
  · exact h

/-- MDC at a write of PARK_REQUEST. -/
theorem parkSwitch (k : WinchKeeps P) {c : Chip} (h : P c) (sets clears : Bool) : P (c.parkSwitch sets clears) := by
  unfold Chip.parkSwitch
  split
  · exact k.enterParked h
  · split
    · exact k.parkExitTest h
    · exact h

/-- A write of the switch space: one turn of each consumer concerned. -/
theorem putSwitches (k : WinchKeeps P) {c : Chip} (h : P c) (mask value : BitVec 32) : P (c.putSwitches mask value) := by
  rw [Chip.putSwitches_turns]
  have driven : P ((c.written mask value).driveSwitch (writesBit mask value 0 true)) :=
    k.frame (c := c) (by simp [Chip.written]) (by simp [Chip.written]) (by simp [Chip.written]) h
  refine k.frame (Chip.relightIf_wnc _ _) (Chip.relightIf_alt _ _) (by simp) (k.parkSwitch ?_ _ _)
  exact k.chargeSwitch (k.winchSwitch driven _ _) _

/-! ### Channel updates and evaluation completions -/

/-- A block's turn at a channel update. -/
theorem takeUpdate (k : WinchKeeps P) {st : Chip → Chip} (trigger : StatusTrigger st) {c : Chip} (h : P c) (t : Taker) :
    P (c.takeUpdate st t) := by
  cases t with
  | stm => exact k.frame (c := c) rfl rfl rfl h
  | drm => exact k.frame (c := c) (Chip.driveUpdate_wnc c) (Chip.driveUpdate_alt c) (by simp [Chip.takeUpdate]) h
  | wnc =>
    show P c.winchUpdate
    unfold Chip.winchUpdate
    split
    · exact k.turn c _ (.update _ _) h
    · exact h
  | mdc => exact k.parkExitTest h
  | atx => exact k.frame (c := c) rfl rfl rfl h
  | rtx =>
    obtain rfl | rfl := trigger
    · exact k.frame (c := c) rfl rfl rfl h
    · exact k.frame (c := c) rfl rfl rfl h

/-- A channel update. -/
theorem channelUpdate (k : WinchKeeps P) {st : Chip → Chip} (trigger : StatusTrigger st) {c : Chip} (h : P c)
    (order : List Taker) : P (c.channelUpdate st order) := by
  have decoded : P c.decodeNow := k.frame (c := c) rfl rfl rfl h
  exact foldl_induct (P := P) (fun _ t h => k.takeUpdate trigger h t) _ _ decoded

/-- A control frame. -/
theorem acceptControl (k : WinchKeeps P) {c : Chip} (h : P c) (order : List Taker) (p : List Byte) :
    P (c.acceptControl order p) := by
  unfold Chip.acceptControl
  split
  · exact k.frame (c := c) rfl rfl rfl h
  · refine k.channelUpdate (.inl rfl) ?_ order
    have fresh : P (c.freshSlots p) := k.frame (c := c) rfl rfl rfl h
    exact k.frame (Chip.relightIf_wnc _ _) (Chip.relightIf_alt _ _) (by simp)
      (k.alert _ _ (fun ok => Alt.ok_cause ok .linkFailsafe rfl false) fresh)

/-- The entry into HOLD. -/
theorem enterHold (k : WinchKeeps P) {c : Chip} (h : P c) (order : List Taker) : P (c.enterHold order) := by
  have held : P c.holdSlots := k.frame (c := c) rfl rfl rfl h
  have latched := k.alert _ (fun t => t.raise .linkHold) (fun ok => Alt.ok_raise ok .linkHold (by decide)) held
  exact k.channelUpdate (.inr rfl) (k.frame (Chip.relight_wnc _) (Chip.relight_alt _) rfl latched) order

/-- The entry into FAILSAFE. -/
theorem enterFailsafe (k : WinchKeeps P) {c : Chip} (h : P c) (order : List Taker) : P (c.enterFailsafe order) := by
  have started : P c.failsafeSlots.startPark := k.frame (c := c) rfl rfl rfl h
  have latched := k.alert _ (fun t => t.cause .linkFailsafe true) (fun ok => Alt.ok_cause ok .linkFailsafe rfl true) started
  exact k.channelUpdate (.inr rfl) (k.frame (Chip.relight_wnc _) (Chip.relight_alt _) rfl latched) order

/-- A refresh. -/
theorem refreshed (k : WinchKeeps P) {c : Chip} (h : P c) (order : List Taker) : P (c.refreshed order) := by
  refine k.channelUpdate (.inr rfl) ?scheduled order
  exact k.frame (c := c) rfl rfl rfl h

/-- A consumer takes its grant. -/
theorem takeGrantOf (k : WinchKeeps P) {c : Chip} (h : P c) (t : EvalTaker) : P (c.takeGrantOf t) := by
  cases t with
  | alt | mdc | bga => exact h
  | drm => exact k.frame (c := c) rfl rfl rfl h
  | wnc => exact k.turn c _ (.grant _ _ _) h
  | lsq => exact k.frame (c := c) rfl rfl rfl h

/-- A grant event. -/
theorem grantEvent (k : WinchKeeps P) {c : Chip} (h : P c) (order : List EvalTaker) : P (c.grantEvent order) :=
  foldl_induct (P := P) (fun _ t h => k.takeGrantOf h t) _ _ h

/-- A block's turn at an evaluation completion. -/
theorem takeEvaluation (k : WinchKeeps P) {c : Chip} (h : P c) (before : Level) (trip : Bool) (order : List EvalTaker)
    (t : EvalTaker) : P (c.takeEvaluation before trip order t) := by
  unfold Chip.takeEvaluation
  dsimp only
  cases t with
  | alt => exact k.alert c _ (fun ok => Alt.ok_battery ok _ _ _) h
  | drm => exact k.frame (c := c) (by simp) (by simp) (by simp) h
  | wnc =>
    dsimp only
    split
    · exact k.turn c _ (.level _ _) h
    · exact h
  | lsq => exact k.frame (c := c) (by simp) (by simp) (by simp) h
  | mdc => exact k.frame (c := c) rfl rfl rfl h
  | bga =>
    have divided : P { c with bga := c.division (c.btm.budget.getD 0) c.btm.level } := k.frame (c := c) rfl rfl rfl h
    exact k.grantEvent divided order

/-- A measurement and its evaluation completion. -/
theorem measurement (k : WinchKeeps P) {c : Chip} (h : P c) (r : Readings) (order : List EvalTaker) :
    P (c.measurement r order) := by
  refine foldl_induct (P := P) (fun _ t h => k.takeEvaluation h _ _ order t) _ _ ?measured
  exact k.frame (c := c) rfl rfl rfl h

/-! ### Setup commands and pulses -/

/-- New tables: a WINCH_CFG record among them is acted on. -/
theorem setTables (k : WinchKeeps P) {c : Chip} (h : P c) (t : Tables) (plain : Vector Bool 5) (winch : Bool)
    (same : winch = false → t.winchCfg = c.tables.winchCfg) : P (c.setTables t plain winch) := by
  unfold Chip.setTables
  dsimp only
  split
  · exact k.reconfigure (by simp) (by simp) h
  · next other => exact k.frame (by simp) (by simp) (by simpa using same (by simpa using other)) h

/-- What a setup command does. -/
theorem carryOut (k : WinchKeeps P) {c : Chip} (h : P c) (p : List Byte) : P (c.carryOut p).chip :=
  c.carryOut_cases p h
    (write := fun _ index bs _ _ => k.setTables h _ _ _ fun other =>
      Tables.writeRecord_winchCfg _ (by simpa using other) index bs)
    (load := fun _ _ _ => k.setTables h _ _ _ nofun)
    (capture := fun _ _ => k.frame (c := c) rfl rfl rfl h)
    (switches := fun mask value => k.putSwitches h mask value)
    (winch := fun _ move => k.turn c _ (.move move) h)
    (ack := fun a => k.alert c _ (fun ok => Alt.ok_ack ok a) h) (ackAll := k.alert c _ (fun ok => Alt.ok_ackAll ok) h)
    (store := fun _ => k.frame (c := c) rfl rfl rfl h) (restart := k.frame (c := c) rfl rfl rfl h)

/-- What SUP, RTX and ATX do at a setup frame. -/
theorem setup (k : WinchKeeps P) : SetupKeeps P where
  queue c _ h := k.frame (c := c) rfl rfl rfl h
  carryOut _ p h := k.carryOut h p
  fault c command r h := k.alert c _ (fun ok => Alt.ok_setupFault ok command r) h
  rtx c _ h := k.frame (c := c) rfl rfl rfl h
  atx c _ h := k.frame (c := c) rfl rfl rfl h

/-- A spool pulse: the events it raises are not SETUP_FAULT. -/
theorem spoolPulse (k : WinchKeeps P) {c : Chip} (h : P c) (start : Nat) : P (c.spoolPulse start) := by
  have noted : P { c with spoolStart := some start } := k.frame (c := c) rfl rfl rfl h
  unfold Chip.spoolPulse
  dsimp only
  refine k.turn _ _ ?_ (k.alert _ _ (fun ok => ?_) noted)
  · simpa using WinchTurn.pulse (c := Chip.alert { c with spoolStart := some start } _)
  · dsimp only
    have ended : (if c.wnc.raisesLineEnd c.tables.winchCfg then c.alt.raise .lineEnd else c.alt).Ok := by
      split
      · exact Alt.ok_raise ok .lineEnd (by decide)
      · exact ok
    split
    · exact Alt.ok_raise ended .winchCreep (by decide)
    · exact ended

/-- What a step does. -/
theorem step (k : WinchKeeps P) {s t : State} (ok : P s.chip) (h : step s = .next t) : P t.chip := by
  obtain ⟨q, c⟩ := s
  have same {d : Chip} (wnc : d.wnc = c.wnc) (alt : d.alt = c.alt) (tables : d.tables = c.tables) : P d :=
    k.frame wnc alt (by rw [tables]) ok
  have later (now : Nat) : P { c with now := now } := same rfl rfl rfl
  have released : P c.clearHunt := same rfl rfl rfl
  exact step_cases h ok (tick := same rfl rfl rfl)
    (handOn := fun b order _ => Chip.handOn_ind (same rfl rfl rfl) (fun _ p h => k.acceptControl h order p)
      fun d p h => k.setup.acceptSetup h p)
    (clearHunt := fun _ => released)
    (control := fun order p _ => k.acceptControl released order p)
    (setupFrame := fun p _ => k.setup.acceptSetup released p)
    (setup := fun p _ => k.setup.acceptSetup ok p)
    (hold := fun now order _ _ => k.enterHold (later now) order)
    (failsafe := fun now order _ _ => k.enterFailsafe (later now) order)
    (refresh := fun now order _ _ => k.refreshed (later now) order)
    (arm := fun _ _ => same (by simp) (by simp) (by simp))
    (reversal := fun _ _ _ => same (by simp) (by simp) (by simp))
    (pulse := fun _ _ _ => same rfl rfl rfl)
    (pulseEnd := fun _ => same rfl rfl rfl)
    (spool := fun start _ => k.spoolPulse ok start)
    (timebase := fun _ _ => same rfl rfl rfl)
    (brakeHold := fun _ _ => same rfl rfl rfl)
    (measurement := fun now r order _ _ => k.measurement (later now) r order)
    (window := fun _ _ => same rfl rfl rfl)
    (foldback := fun _ _ => same rfl rfl rfl)
    (dormant := fun now _ => k.enterDormant (later now))
    (park := fun now _ => k.parkExpiry (later now))
    (returnSent := fun _ => k.setup.returnSent ok (k.reset c .warm ok))
    (accessorySent := fun _ => same rfl rfl rfl)
    (storeDone := fun _ _ _ => same rfl rfl rfl)
    (switches := fun mask value _ => k.putSwitches ok mask value)
    (cold := k.reset c .cold ok) (warm := k.reset c .warm ok)
    (release := fun _ _ => same rfl rfl rfl)

end WinchKeeps

end Sys2Proof.Machine
end

section
/-! The winch record within its ranges (R89, R95, R104): each turn of WNC keeps them, and a new WINCH_CFG brings the record
within its own. -/

namespace Sys2Proof.Machine

/-- Only the state of a run, the presence of its request and the two bounded counts are asked for. -/
theorem Winch.Ok.congr {v w : Winch} {cfg : WinchCfg} (ok : w.Ok cfg) (state : v.state = w.state) (run : v.run = w.run)
    (position : v.position = w.position) (allowance : v.allowance = w.allowance) : v.Ok cfg := by
  unfold Winch.Ok
  rw [state, run, position, allowance]
  exact ok

/-- A run that is taken starts with its whole count (R89). -/
theorem Winch.ok_startRun {w : Winch} {cfg : WinchCfg} (position : w.position ≤ cfg.pmax) (allowance : w.allowance ≤ cfg.aMax)
    (dir : WinchDir) (count duty : Nat) : (w.startRun cfg dir count duty).Ok cfg := by
  refine ⟨position, allowance, ?_, ?_⟩
  · cases dir <;> simp [Winch.startRun, WinchDir.runState, WinchState.running]
  · rintro r ⟨⟩
    exact le_rfl

/-- A cut short operation keeps P and A_b. -/
theorem Winch.cutShort_keeps (w : Winch) : w.cutShort.position = w.position ∧ w.cutShort.allowance = w.allowance := by
  unfold Winch.cutShort
  split <;> simp

/-- WINCH_STOP ends a run or a jog in IDLE (R90). -/
theorem Winch.ok_stop {w : Winch} {cfg : WinchCfg} (ok : w.Ok cfg) : w.stop.Ok cfg := by
  have ⟨position, allowance, _⟩ := ok
  unfold Winch.stop
  split
  · exact Winch.ok_toIdle position allowance
  · exact Winch.ok_toIdle position allowance
  · exact (Winch.ok_toIdle (w := w.finish .aborted) position allowance).congr rfl rfl rfl rfl
  · exact (Winch.ok_toIdle (w := w.finish .aborted) position allowance).congr rfl rfl rfl rfl
  · exact Winch.ok_toIdle position allowance
  · exact Winch.ok_toIdle position allowance
  · exact ok
  · exact ok

/-- What a winch command makes of the record (R88, R90, R93, R96). -/
theorem WinchMove.ok {c : Chip} {w : Winch} (move : WinchMove c w) (ok : c.WinchOk) : w.Ok c.tables.winchCfg := by
  have ⟨position, allowance, _⟩ := ok
  cases move with
  | run dir count duty _ =>
    obtain ⟨kept, held⟩ := c.wnc.cutShort_keeps
    exact Winch.ok_startRun (kept ▸ position) (held ▸ allowance) dir _ _
  | stop => exact Winch.ok_stop ok
  | zero _ => exact ⟨Nat.zero_le _, ok.2⟩
  | free taken =>
    have still : c.wnc.state.running = false := by
      cases state : c.wnc.state <;> simp_all [WinchState.takesFree, WinchState.running]
    exact Winch.ok_idle position allowance (ok.run_none still) rfl
  | idle _ => exact Winch.ok_toIdle position allowance

/-- Every turn of WNC. -/
theorem WinchTurn.ok {c : Chip} {w : Winch} (turn : WinchTurn c w) (ok : c.WinchOk) : w.Ok c.tables.winchCfg := by
  cases turn with
  | lock cause => exact Winch.ok_lockTest ok cause
  | update cause u => exact Winch.ok_follow (Winch.ok_lockTest ok cause) u
  | level cause boost => exact (Winch.ok_lockTest ok cause).congr rfl rfl rfl rfl
  | boost boost => exact Winch.Ok.congr ok rfl rfl rfl rfl
  | grant g level disabled => exact Winch.ok_takeGrant ok g level disabled
  | pulse => exact Winch.ok_pulse ok
  | move move => exact move.ok ok

/-- A reset leaves no run; a cold one P at 0 and A_b full, a warm one both under the tables that stay (R108). -/
theorem Chip.winchOk_resetTo {c : Chip} (ok : c.WinchOk) (kind : ResetKind) : (c.resetTo kind).WinchOk := by
  obtain ⟨position, allowance, -⟩ := ok
  cases kind with
  | cold => exact Winch.ok_idle (Nat.zero_le _) le_rfl rfl rfl
  | warm => exact Winch.ok_idle position allowance rfl rfl

/-- Every effect on the winch keeps its record in range. -/
theorem winchKeeps_winchOk : WinchKeeps Chip.WinchOk where
  frame wnc _ cfg ok := by
    unfold Chip.WinchOk
    rw [wnc, cfg]
    exact ok
  alert c f _ ok := by
    unfold Chip.WinchOk
    rw [Chip.alert_wnc, Chip.alert_tables]
    exact ok
  turn c w turn ok := by
    unfold Chip.WinchOk
    rw [Chip.setWinch_wnc, Chip.setWinch_tables]
    exact Winch.ok_settle (turn.ok ok)
  reconfigure {c d} wnc _ ok := by
    unfold Chip.WinchOk Chip.winchReconfigure
    rw [Chip.setWinch_wnc, Chip.setWinch_tables, wnc]
    exact Winch.ok_settle (Winch.ok_reconfigure c.tables.winchCfg _ ok)
  sleep _ ok := ok
  reset _ kind ok := Chip.winchOk_resetTo ok kind

/-- Settles O11. -/
theorem winchRecordStaysInRange : Obligations.WinchRecordStaysInRange := fun _ _ => winchKeeps_winchOk.step

end Sys2Proof.Machine
end

section
/-! Latches, grants, switch bits and the lights before the first grant event (R129, R155, R163, R165, R187), each by its own
invariant. -/

namespace Sys2Proof.Machine

/-! ### Latches (R163, R165) -/

/-- A reset clears every latch but that of STORE_FAULT, which is no condition (R170). -/
theorem Alt.ok_reset (bad : Bool) : (Alt.reset bad).Ok := by
  constructor
  · intro a caused
    simp [Alt.reset, Alt.caused] at caused
  · cases bad <;> decide

/-- Every effect on the winch and the latches keeps the latches legal. -/
theorem winchKeeps_altOk : WinchKeeps fun c => c.alt.Ok where
  frame _ alt _ ok := alt ▸ ok
  alert c f keeps ok := by
    rw [Chip.alert_alt]
    exact keeps ok
  turn c w _ ok := by
    rw [Chip.setWinch_alt]
    exact Alt.ok_cause ok .winchStall rfl _
  reconfigure {c d} _ alt ok := by
    unfold Chip.winchReconfigure
    rw [Chip.setWinch_alt, alt]
    exact Alt.ok_cause ok .winchStall rfl _
  sleep _ ok := ok
  reset c kind _ := Alt.ok_reset (c.storeFault kind)

/-! ### Grants (R155) -/

/-- A turn at an evaluation completion leaves the grants or divides the budget anew. -/
theorem Chip.bgaOk_takeEvaluation {c : Chip} (ok : c.bga.Ok) (before : Level) (trip : Bool) (order : List EvalTaker)
    (t : EvalTaker) : (c.takeEvaluation before trip order t).bga.Ok := by
  by_cases bga : t = .bga
  · subst bga
    show (Chip.grantEvent _ order).bga.Ok
    rw [Chip.grantEvent_bga]
    exact Chip.bok_division _ _ _
  · rw [Chip.takeEvaluation_bga_other c before trip order t bga]
    exact ok

/-- A measurement. -/
theorem Chip.bgaOk_measurement {c : Chip} (ok : c.bga.Ok) (r : Readings) (order : List EvalTaker) :
    (c.measurement r order).bga.Ok :=
  foldl_induct (P := fun d => d.bga.Ok) (fun _ t h => Chip.bgaOk_takeEvaluation h _ _ order t) _ _ ok

/-- Only a division and a reset change the grants. -/
theorem step_keeps_bgaOk {s t : State} (ok : s.chip.bga.Ok) (h : step s = .next t) : t.chip.bga.Ok := by
  obtain ⟨q, c⟩ := s
  have same {d : Chip} (bga : d.bga = c.bga) : d.bga.Ok := bga ▸ ok
  have reset (kind : ResetKind) : (c.resetTo kind).bga.Ok := le_rfl
  exact step_cases (P := fun d => d.bga.Ok) h ok (tick := ok)
    (handOn := fun _ _ _ => same (by simp)) (clearHunt := fun _ => ok)
    (control := fun _ _ _ => same (by simp)) (setupFrame := fun _ _ => same (by simp))
    (setup := fun _ _ => same (by simp)) (hold := fun _ _ _ _ => same (by simp))
    (failsafe := fun _ _ _ _ => same (by simp)) (refresh := fun _ _ _ _ => same (by simp))
    (arm := fun _ _ => same (by simp)) (reversal := fun _ _ _ => same (by simp))
    (pulse := fun _ _ _ => ok) (pulseEnd := fun _ => ok) (spool := fun _ _ => same (by simp))
    (timebase := fun _ _ => ok) (brakeHold := fun _ _ => ok)
    (measurement := fun now r order _ _ => Chip.bgaOk_measurement (c := { c with now := now }) ok r order)
    (window := fun _ _ => ok) (foldback := fun _ _ => ok) (dormant := fun _ _ => same (by simp))
    (park := fun _ _ => same (by simp))
    (returnSent := fun _ => by
      unfold Chip.returnSent
      split
      · exact reset .warm
      · split
        · exact same (by simp)
        · exact ok)
    (accessorySent := fun _ => ok) (storeDone := fun _ _ _ => ok) (switches := fun _ _ _ => same (by simp))
    (cold := reset .cold) (warm := reset .warm) (release := fun _ _ => ok)

/-! ### Switch bits (R187) -/

/-- A write changes read/write bits alone (R188). -/
theorem mergeSwitches_legal {old : BitVec 32} (ok : old &&& ~~~writableBits = 0#32) (mask value : BitVec 32) :
    mergeSwitches old mask value &&& ~~~writableBits = 0#32 := by
  ext n hn
  have held := congrArg (·[n]) ok
  simp only [mergeSwitches, BitVec.getElem_and, BitVec.getElem_or, BitVec.getElem_not, BitVec.getElem_zero] at held ⊢
  revert held
  cases old[n] <;> cases writableBits[n] <;> simp

/-- The bits after a write. -/
theorem Chip.switchesOk_putSwitches {c : Chip} (ok : c.sup.SwitchesOk) (mask value : BitVec 32) :
    (c.putSwitches mask value).sup.SwitchesOk := by
  rw [Chip.putSwitches_sup]
  exact mergeSwitches_legal ok mask value

/-- What a setup command does to the bits. -/
theorem setupKeeps_switchesOk : SetupKeeps fun c => c.sup.SwitchesOk where
  queue _ _ ok := ok
  carryOut c p ok := by
    have same {d : Chip} (sup : d.sup = c.sup) : d.sup.SwitchesOk := sup ▸ ok
    exact c.carryOut_cases (P := fun d => d.sup.SwitchesOk) p ok
      (write := fun _ _ _ _ _ => same (by simp [Chip.writeRecord]))
      (load := fun _ _ _ => same (by simp [Chip.loadTables])) (capture := fun _ _ => ok)
      (switches := fun mask value => Chip.switchesOk_putSwitches ok mask value)
      (winch := fun _ _ => same (by simp)) (ack := fun _ => same (by simp)) (ackAll := same (by simp))
      (store := fun _ => ok) (restart := ok)
  fault c k r ok := by
    rw [Chip.setupFault_sup]
    exact ok
  rtx _ _ ok := ok
  atx _ _ ok := ok

/-- Only a write and a reset change the bits. -/
theorem step_keeps_switchesOk {s t : State} (ok : s.chip.sup.SwitchesOk) (h : step s = .next t) : t.chip.sup.SwitchesOk := by
  obtain ⟨q, c⟩ := s
  have same {d : Chip} (sup : d.sup = c.sup) : d.sup.SwitchesOk := sup ▸ ok
  have reset (kind : ResetKind) : (c.resetTo kind).sup.SwitchesOk := by simp [Sup.SwitchesOk, Chip.resetTo]
  exact step_cases (P := fun d => d.sup.SwitchesOk) h ok (tick := ok)
    (handOn := fun b order _ => Chip.handOn_ind (P := fun d => d.sup.SwitchesOk) ok
      (fun d p h => (Chip.acceptControl_sup d order p).symm ▸ h) fun _ p h => setupKeeps_switchesOk.acceptSetup h p)
    (clearHunt := fun _ => ok) (control := fun _ _ _ => same (by simp))
    (setupFrame := fun p _ => setupKeeps_switchesOk.acceptSetup (c := c.clearHunt) ok p)
    (setup := fun p _ => setupKeeps_switchesOk.acceptSetup ok p)
    (hold := fun _ _ _ _ => same (by simp)) (failsafe := fun _ _ _ _ => same (by simp))
    (refresh := fun _ _ _ _ => same (by simp)) (arm := fun _ _ => same (by simp))
    (reversal := fun _ _ _ => same (by simp)) (pulse := fun _ _ _ => ok) (pulseEnd := fun _ => ok)
    (spool := fun _ _ => same (by simp)) (timebase := fun _ _ => ok) (brakeHold := fun _ _ => ok)
    (measurement := fun _ _ _ _ _ => same (by simp)) (window := fun _ _ => ok) (foldback := fun _ _ => ok)
    (dormant := fun _ _ => same (by simp)) (park := fun _ _ => same (by simp))
    (returnSent := fun _ => setupKeeps_switchesOk.returnSent ok (reset .warm))
    (accessorySent := fun _ => ok) (storeDone := fun _ _ _ => ok)
    (switches := fun mask value _ => Chip.switchesOk_putSwitches ok mask value)
    (cold := reset .cold) (warm := reset .warm) (release := fun _ _ => ok)

/-! ### The lights until the first grant event (R129) -/

/-- What a step can do to the light grant keeps the lights dark until one comes. -/
theorem LightStep.lightsOk {q : List Instr} {c d : Chip} (lights : LightStep q c d) (ok : c.LightsOk) : d.LightsOk := by
  obtain ⟨untilRelease, untilGrant⟩ := ok
  cases lights with
  | kept lit held =>
    refine ⟨fun still => ?_, fun dark => ?_⟩
    · rw [lit.granted]
      rcases held with same | freed
      · exact untilRelease (same ▸ still)
      · exact absurd freed still
    · obtain ⟨grant, level⟩ := untilGrant (lit.granted ▸ dark)
      exact ⟨lit.grant.trans grant, lit.dark (lit.granted ▸ dark) level⟩
  | cleared held lsq =>
    rw [Chip.LightsOk, lsq]
    exact ⟨fun _ => rfl, fun _ => ⟨rfl, rfl⟩⟩
  | granted held lsq _ => exact ⟨fun still => absurd held still, fun dark => by simp [lsq] at dark⟩

/-- Settles O14. -/
theorem latchesGrantsAndSwitchesStayLegal : Obligations.LatchesGrantsAndSwitchesStayLegal := by
  intro s t h
  have lights : LightStep s.pending s.chip t.chip := step_lights h
  refine ⟨fun ok => winchKeeps_altOk.step ok h, fun ok => step_keeps_bgaOk ok h, fun ok => step_keeps_switchesOk ok h,
    lights.lightsOk, fun front => ?_⟩
  cases lights with
  | kept lit _ => exact .inl ⟨lit.grant, lit.granted⟩
  | cleared held lsq =>
    refine .inr ⟨held, ?_⟩
    rw [lsq]
    exact ⟨rfl, rfl⟩
  | granted _ _ measured =>
    obtain ⟨r, order, head⟩ := measured
    obtain ⟨rest, queue⟩ := List.head?_eq_some_iff.1 head
    exact absurd queue (front r order rest)

end Sys2Proof.Machine
end

section
/-! The queues (R171, R172, R176, R178, R179): each line's queue stays within its capacity and waits only behind a frame in
transmission, and SUP takes frames until it cannot. -/

namespace Sys2Proof.Machine

/-! ### The return line (R171, R172) -/

/-- At most four replies wait, and nothing waits for an idle return line. -/
def Rtx.Fit (x : Rtx) : Prop := x.replies.length ≤ 4 ∧ (x.sending = none → x.replies = [] ∧ x.slot = none)

/-- A choice on a line with at most five replies of which one can go: the rest fit. -/
theorem Rtx.fit_choose {x : Rtx} (busy : x.sending ≠ none → x.replies.length ≤ 4) (room : x.replies.length ≤ 5) :
    x.choose.Fit := by
  unfold Rtx.choose
  cases sending : x.sending with
  | some f => exact ⟨busy (by simp [sending]), fun idle => by simp [sending] at idle⟩
  | none =>
    dsimp only
    cases replies : x.replies with
    | cons r rs =>
      rw [replies] at room
      exact ⟨Nat.le_of_succ_le_succ room, nofun⟩
    | nil => exact ⟨by simp, fun _ => ⟨rfl, rfl⟩⟩

/-- The choice leaves the replies behind a frame in transmission, and an empty queue. -/
theorem Rtx.choose_replies {x : Rtx} (waits : x.sending = none → x.replies = []) : x.choose.replies = x.replies := by
  unfold Rtx.choose
  cases sending : x.sending with
  | some f => rfl
  | none =>
    have empty := waits sending
    simp [empty]

/-- A status frame built takes no place in the reply queue. -/
theorem Rtx.putStatus_replies {x : Rtx} (fit : x.Fit) (p : List Byte) : (x.putStatus p).replies = x.replies :=
  Rtx.choose_replies (x := { x with slot := some p, free := x.free + 1 }) fun idle => (fit.2 idle).1

/-- A status frame built. -/
theorem Rtx.fit_putStatus {x : Rtx} (fit : x.Fit) (p : List Byte) : (x.putStatus p).Fit :=
  Rtx.fit_choose (fun _ => fit.1) (Nat.le_succ_of_le fit.1)

/-- A reply queued where there is room. -/
theorem Rtx.fit_putReply {x : Rtx} (room : x.replies.length < 4) (r : Reply) : (x.putReply r).Fit :=
  Rtx.fit_choose (fun _ => by simpa using room) (by simp; omega)

/-- The frame in transmission sent. -/
theorem Rtx.fit_complete {x : Rtx} (fit : x.Fit) : x.complete.Fit :=
  Rtx.fit_choose (fun _ => fit.1) (Nat.le_succ_of_le fit.1)

/-- RTX's turn at an update counts, builds a status frame or does nothing. -/
theorem StatusTrigger.rtx_fit {st : Chip → Chip} (trigger : StatusTrigger st) {c : Chip} (fit : c.rtx.Fit) :
    (st c).rtx.Fit ∧ (st c).rtx.replies = c.rtx.replies := by
  have zeroed : Rtx.Fit { c.rtx with count := 0 } := fit
  obtain rfl | rfl := trigger
  · unfold Chip.countControl
    dsimp only
    split
    · exact ⟨Rtx.fit_putStatus zeroed _, Rtx.putStatus_replies zeroed _⟩
    · exact ⟨fit, rfl⟩
  · unfold Chip.refreshStatus
    dsimp only
    split
    · exact ⟨Rtx.fit_putStatus fit _, Rtx.putStatus_replies fit _⟩
    · exact ⟨fit, rfl⟩

/-! ### The accessory line (R176, R178) -/

/-- At most two pass-through frames wait, and nothing waits for an idle accessory line. -/
def Atx.Fit (x : Atx) : Prop := x.queue.length ≤ 2 ∧ (x.sending = none → x.queue = [] ∧ x.slot = none)

/-- A choice on the accessory line. -/
theorem Atx.fit_choose {x : Atx} (room : x.queue.length ≤ 2) : x.choose.Fit := by
  unfold Atx.choose
  cases sending : x.sending with
  | some f => exact ⟨room, fun idle => by simp [sending] at idle⟩
  | none =>
    dsimp only
    cases queue : x.queue with
    | cons p ps =>
      rw [queue] at room
      exact ⟨Nat.le_of_succ_le room, nofun⟩
    | nil => exact ⟨by simp, fun _ => ⟨rfl, rfl⟩⟩

/-- A pass-through frame joins a queue with room, or is discarded. -/
theorem Atx.fit_putForward {x : Atx} (fit : x.Fit) (p : List Byte) : (x.putForward p).Fit := by
  unfold Atx.putForward
  split
  · next room => exact Atx.fit_choose (by simp; omega)
  · exact fit

/-- An accessory frame built. -/
theorem Atx.fit_putAccessory {x : Atx} (fit : x.Fit) (p : List Byte) : (x.putAccessory p).Fit := Atx.fit_choose fit.1

/-- The frame in transmission sent. -/
theorem Atx.fit_complete {x : Atx} (fit : x.Fit) : x.complete.Fit := Atx.fit_choose fit.1

/-! ### The queues of a running part -/

/-- The queues as a running part holds them, line by line. -/
structure Chip.Lined (c : Chip) : Prop where
  replies : c.rtx.Fit
  forwards : c.atx.Fit
  setups : c.sup.queue.length ≤ 4
  waits : c.setupWaits

/-- A running part with legal queues. -/
theorem Chip.QueuesOk.lined {c : Chip} (ok : c.QueuesOk) (awake : ¬ c.asleep) : c.Lined := by
  obtain ⟨⟨setups, replies, forwards⟩, lines⟩ := ok
  obtain ⟨⟨returns, accessory⟩, waits⟩ := lines awake
  exact ⟨⟨replies, returns⟩, ⟨forwards, accessory⟩, setups, waits⟩

/-- Such queues are legal, asleep or not. -/
theorem Chip.Lined.ok {c : Chip} (lined : c.Lined) : c.QueuesOk :=
  ⟨⟨lined.setups, lined.replies.1, lined.forwards.1⟩,
    fun _ => ⟨⟨lined.replies.2, lined.forwards.2⟩, lined.waits⟩⟩

/-- The queues are those of SUP, RTX and ATX; of RTX the number of replies is what a setup frame waits for. -/
theorem Chip.Lined.congr {c d : Chip} (lined : c.Lined) (fit : d.rtx.Fit) (same : d.rtx.replies = c.rtx.replies)
    (forwards : d.atx.Fit) (queue : d.sup.queue = c.sup.queue) (restart : d.sup.restart = c.sup.restart) : d.Lined where
  replies := fit
  forwards := forwards
  setups := queue ▸ lined.setups
  waits := by
    unfold Chip.setupWaits
    rw [same, queue, restart]
    exact lined.waits

/-- An event that leaves SUP, RTX and ATX alone. -/
theorem Chip.Lined.frame {c d : Chip} (lined : c.Lined) (rtx : d.rtx = c.rtx) (atx : d.atx = c.atx)
    (sup : d.sup.queue = c.sup.queue ∧ d.sup.restart = c.sup.restart) : d.Lined :=
  lined.congr (rtx ▸ lined.replies) (by rw [rtx]) (atx ▸ lined.forwards) sup.1 sup.2

/-- A channel update builds frames alone. -/
theorem Chip.lined_channelUpdate {c : Chip} (lined : c.Lined) {st : Chip → Chip} (trigger : StatusTrigger st)
    (order : List Taker) : (c.channelUpdate st order).Lined := by
  obtain ⟨p, built⟩ := c.channelUpdate_atx trigger order
  obtain ⟨e, -, before, after⟩ := c.channelUpdate_rtx trigger order
  have turn := trigger.rtx_fit (c := e) (before ▸ lined.replies)
  have sup := (c.channelUpdate_frame trigger order).sup
  exact lined.congr (after ▸ turn.1) (by rw [after, turn.2, before]) (built ▸ Atx.fit_putAccessory lined.forwards p)
    (by rw [sup]; rfl) (by rw [sup]; rfl)

/-- A control frame. -/
theorem Chip.lined_acceptControl {c : Chip} (lined : c.Lined) (order : List Taker) (p : List Byte) :
    (c.acceptControl order p).Lined := by
  unfold Chip.acceptControl
  split
  · have turn := StatusTrigger.rtx_fit (.inl rfl) lined.replies
    exact lined.congr turn.1 turn.2 lined.forwards rfl rfl
  · exact Chip.lined_channelUpdate (lined.frame (by simp) (by simp) (by simp)) (.inl rfl) order

/-! ### SUP takes frames (R179) -/

/-- A command leaves the setup queue alone; only a SOFT_RESTART sets restart pending. -/
theorem Chip.carryOut_queue (c : Chip) (p : List Byte) : (c.carryOut p).chip.sup.queue = c.sup.queue :=
  c.carryOut_cases (P := fun d => d.sup.queue = c.sup.queue) p rfl
    (write := fun _ _ _ _ _ => by simp [Chip.writeRecord]) (load := fun _ _ _ => by simp [Chip.loadTables])
    (capture := fun _ _ => rfl) (switches := fun _ _ => by simp [Chip.putSwitches_sup]) (winch := fun _ _ => by simp)
    (ack := fun _ => by simp) (ackAll := by simp) (store := fun _ => rfl) (restart := rfl)

/-- What stands while SUP takes frames: all of the queues' rules but the one that SUP is acting on. -/
def Chip.Taking (c : Chip) : Prop := c.rtx.Fit ∧ c.atx.Fit ∧ c.sup.queue.length ≤ 4

/-- SUP takes a frame it can take: the queue is one shorter, and the reply finds room. -/
theorem Chip.taking_takeSetup {c : Chip} (taking : c.Taking) (can : c.canTake = true) :
    c.takeSetup.Taking ∧ c.takeSetup.sup.queue.length + 1 = c.sup.queue.length := by
  obtain ⟨replies, forwards, setups⟩ := taking
  have room : c.rtx.replies.length < 4 := by
    simp only [Chip.canTake, Bool.and_eq_true, decide_eq_true_eq] at can
    exact can.1.2
  unfold Chip.takeSetup
  split
  · next empty => simp [Chip.canTake, empty] at can
  · next p rest queue =>
    rw [queue] at setups
    refine ⟨⟨?_, by simpa using forwards, ?_⟩, ?_⟩
    · simpa [Answer.give] using Rtx.fit_putReply room _
    · simpa [Chip.carryOut_queue] using Nat.le_of_succ_le setups
    · simp [Chip.carryOut_queue, queue]

/-- SUP takes frames until a condition fails: none is left, or the next must wait. -/
theorem Chip.lined_takeSetups (n : Nat) {c : Chip} (taking : c.Taking) (few : c.sup.queue.length ≤ n) :
    (c.takeSetups n).Lined := by
  have lined_of {d : Chip} (taking : d.Taking) (stuck : d.canTake = false) : d.Lined := by
    refine ⟨taking.1, taking.2.1, taking.2.2, fun waiting => ?_⟩
    have full := taking.1.1
    by_cases restart : d.sup.restart = true
    · exact .inr restart
    · simp [Chip.canTake, waiting, restart] at stuck
      exact .inl (by omega)
  induction n generalizing c with
  | zero =>
    have empty : c.sup.queue = [] := List.eq_nil_of_length_eq_zero (Nat.le_zero.1 few)
    exact lined_of taking (by simp [Chip.canTake, Chip.takeSetups, empty])
  | succ n ih =>
    unfold Chip.takeSetups
    split
    · next can =>
      obtain ⟨after, shorter⟩ := Chip.taking_takeSetup taking can
      exact ih after (by omega)
    · next cannot => exact lined_of taking (by simpa using cannot)

/-- SUP acts on an event at which it checks its conditions. -/
theorem Chip.lined_supRun {c : Chip} (taking : c.Taking) : c.supRun.Lined := Chip.lined_takeSetups _ taking le_rfl

/-- A setup frame accepted: taken or queued, discarded, or forwarded. -/
theorem Chip.lined_acceptSetup {c : Chip} (lined : c.Lined) (p : List Byte) : (c.acceptSetup p).Lined := by
  unfold Chip.acceptSetup Chip.routeSetup Chip.joinSetup
  split
  · split
    · split
      · next room => exact Chip.lined_supRun ⟨lined.replies, lined.forwards, by simp; omega⟩
      · exact lined.frame (by simp) (by simp) (by simp)
    · exact lined.congr lined.replies rfl (Atx.fit_putForward lined.forwards p) rfl rfl
  · exact lined

/-- The frame on the return line has been sent. -/
theorem Chip.lined_returnSent {c : Chip} (lined : c.Lined) (reset : (c.resetTo .warm).Lined) : c.returnSent.Lined := by
  unfold Chip.returnSent
  split
  · exact reset
  · split
    · exact Chip.lined_supRun ⟨Rtx.fit_complete lined.replies, lined.forwards, lined.setups⟩
    · exact lined

/-- A reset empties every queue (R175, R178). -/
theorem Chip.lined_resetTo (c : Chip) (kind : ResetKind) : (c.resetTo kind).Lined where
  replies := ⟨Nat.zero_le _, fun _ => ⟨rfl, rfl⟩⟩
  forwards := ⟨Nat.zero_le _, fun _ => ⟨rfl, rfl⟩⟩
  setups := Nat.zero_le _
  waits := fun waiting => absurd rfl waiting

/-- The entry into DORMANT cuts both lines off; what waited waits on (R175, R178). -/
theorem Chip.queuesOk_enterDormant {c : Chip} (lined : c.Lined) (free : c.held = none) : c.enterDormant.QueuesOk := by
  have asleep : c.enterDormant.asleep := ⟨by simp [free], by simp [Chip.enterDormant, Chip.setMode]⟩
  refine ⟨⟨?_, ?_, ?_⟩, fun awake => absurd asleep awake⟩
  · simpa using lined.setups
  · simpa [Chip.enterDormant] using lined.replies.1
  · simpa [Chip.enterDormant] using lined.forwards.1

/-- Settles O12. -/
theorem queuesStayWithinCapacity : Obligations.QueuesStayWithinCapacity := by
  intro s t ok h
  obtain ⟨q, c⟩ := s
  have lined (running : c.Running) : c.Lined := ok.lined running.not_asleep
  have same {d : Chip} (running : c.Running) (rtx : d.rtx = c.rtx) (atx : d.atx = c.atx) (sup : d.sup = c.sup) :
      d.QueuesOk := ((lined running).frame rtx atx (by simp [sup])).ok
  have later (running : c.Running) (now : Nat) : Chip.Lined { c with now := now } :=
    (lined running).frame rfl rfl ⟨rfl, rfl⟩
  have released (running : c.Running) : c.clearHunt.Lined := (lined running).frame rfl rfl ⟨rfl, rfl⟩
  exact step_cases h ok (tick := ok)
    (handOn := fun b order running => Chip.Lined.ok <| Chip.handOn_ind (P := Chip.Lined)
      ((lined running).frame rfl rfl ⟨rfl, rfl⟩) (fun _ p h => Chip.lined_acceptControl h order p)
      fun _ p h => Chip.lined_acceptSetup h p)
    (clearHunt := fun _ => ok)
    (control := fun order p running => (Chip.lined_acceptControl (released running) order p).ok)
    (setupFrame := fun p running => (Chip.lined_acceptSetup (released running) p).ok)
    (setup := fun p running => (Chip.lined_acceptSetup (lined running) p).ok)
    (hold := fun now order running _ =>
      (Chip.lined_channelUpdate ((lined running).frame (by simp) (by simp) (by simp)) (.inr rfl) order).ok)
    (failsafe := fun now order running _ =>
      (Chip.lined_channelUpdate ((lined running).frame (by simp) (by simp) (by simp)) (.inr rfl) order).ok)
    (refresh := fun now order running _ => by
      refine (Chip.lined_channelUpdate ?_ (.inr rfl) order).ok
      exact (lined running).frame rfl rfl ⟨rfl, rfl⟩)
    (arm := fun _ running => same running (by simp) (by simp) (by simp))
    (reversal := fun _ _ running => same running (by simp) (by simp) (by simp))
    (pulse := fun _ _ _ => ok) (pulseEnd := fun _ => ok)
    (spool := fun _ running => same running (by simp) (by simp) (by simp))
    (timebase := fun _ _ => ok) (brakeHold := fun _ _ => ok)
    (measurement := fun _ _ _ _ running => same running (by simp) (by simp) (by simp))
    (window := fun _ _ => ok) (foldback := fun _ _ => ok)
    (dormant := fun now running => Chip.queuesOk_enterDormant (later running now) running.1)
    (park := fun _ running => same running (by simp) (by simp) (by simp))
    (returnSent := fun running => (Chip.lined_returnSent (lined running) (c.lined_resetTo .warm)).ok)
    (accessorySent := fun running =>
      ((lined running).congr (d := { c with atx := c.atx.complete }) (lined running).replies rfl
        (Atx.fit_complete (lined running).forwards) rfl rfl).ok)
    (storeDone := fun _ _ _ => ok)
    (switches := fun _ _ running => ((lined running).frame (by simp) (by simp) (by simp [Chip.putSwitches_sup])).ok)
    (cold := (c.lined_resetTo .cold).ok) (warm := (c.lined_resetTo .warm).ok)
    (release := fun bench held => by
      have awake : ¬ c.asleep := fun asleep => by simp [asleep.1] at held
      exact (Chip.Lined.frame (d := c.release bench) (ok.lined awake) rfl rfl ⟨rfl, rfl⟩).ok)

end Sys2Proof.Machine
end

section
/-! The drive (R60, R63, R65, R67): the rules of arming and of the axles hold after every event, and through the turns of an
update that enters FAILSAFE or a measurement that enters CUTOFF they hold up to the one rule that DRM's own turn restores. -/

namespace Sys2Proof.Machine

/-- The rules of the drive, with the rule of the link where `linked` says so and the rule of the CUTOFF level where `leveled`
says so. -/
structure Chip.DriveFits (linked leveled : Bool) (c : Chip) : Prop where
  arming : c.drm.arming ≠ .disarmed → c.held = none ∧ c.mdc.mode = .active ∧ c.mdc.bench = false
  link : c.drm.arming ≠ .disarmed → linked = true → c.linkUp
  request : c.drm.arming ≠ .disarmed → leveled = true → c.btm.level = .cutoff → c.drm.axleRequest = 0
  armed : ∀ a, (c.drm.axle a).state.armedOnly = true → c.drm.arming = .armed
  driving : ∀ a, (c.drm.axle a).state.driving = true → leveled = true → c.btm.level ≠ .cutoff

/-- The invariant is the rules with nothing left out. -/
theorem Chip.driveOk_iff (c : Chip) : c.DriveOk ↔ c.DriveFits true true := by
  constructor
  · rintro ⟨arming, front, rear⟩
    have axles (a : Axle) : c.axleOk a := by cases a <;> assumption
    exact ⟨fun h => ⟨(arming h).1, (arming h).2.1, (arming h).2.2.1⟩, fun h _ => (arming h).2.2.2.1,
      fun h _ => (arming h).2.2.2.2, fun a => (axles a).1, fun a h _ => (axles a).2 h⟩
  · intro fits
    have axles (a : Axle) : c.axleOk a := ⟨fits.armed a, fun h => fits.driving a h rfl⟩
    refine ⟨fun h => ?_, axles _, axles _⟩
    obtain ⟨held, mode, bench⟩ := fits.arming h
    exact ⟨held, mode, bench, fits.link h rfl, fits.request h rfl⟩

/-- At CUTOFF the caps leave no request (R65). -/
theorem Chip.capRequest_cutoff {c : Chip} (cutoff : c.btm.level = .cutoff) (a : Int) :
    capRequest c.driveCap a = 0 := by
  have closed : c.driveCap = 0 := by simp [Chip.driveCap, Protect.cap, cutoff]
  simp [capRequest, closed]

namespace Chip.DriveFits

variable {linked leveled : Bool} {c d : Chip}

/-- The rules read the mixer, the reset held, mode and strap value, the link state and the level. -/
theorem congr (fits : c.DriveFits linked leveled) (drm : d.drm = c.drm) (held : d.held = c.held)
    (mode : d.mdc.mode = c.mdc.mode) (bench : d.mdc.bench = c.mdc.bench) (link : d.ulr.link = c.ulr.link)
    (level : d.btm.level = c.btm.level) : d.DriveFits linked leveled := by
  constructor
  · rw [drm, held, mode, bench]; exact fits.arming
  · unfold Chip.linkUp; rw [drm, link]; exact fits.link
  · rw [drm, level]; exact fits.request
  · rw [drm]; exact fits.armed
  · rw [drm, level]; exact fits.driving

/-- An event that leaves the mixer and what its rules read alone. -/
theorem frame (fits : c.DriveFits linked leveled) (drm : d.drm = c.drm) (held : d.held = c.held) (mdc : d.mdc = c.mdc)
    (ulr : d.ulr = c.ulr) (btm : d.btm = c.btm) : d.DriveFits linked leveled :=
  fits.congr drm held (by rw [mdc]) (by rw [mdc]) (by rw [ulr]) (by rw [btm])

/-- A change of the link leaves the other rules. -/
theorem unlinked (fits : c.DriveFits true leveled) (drm : d.drm = c.drm) (held : d.held = c.held)
    (mode : d.mdc.mode = c.mdc.mode) (bench : d.mdc.bench = c.mdc.bench) (level : d.btm.level = c.btm.level) :
    d.DriveFits false leveled := by
  constructor
  · rw [drm, held, mode, bench]; exact fits.arming
  · exact nofun
  · rw [drm, level]; exact fits.request
  · rw [drm]; exact fits.armed
  · rw [drm, level]; exact fits.driving

/-- A change of the level leaves the other rules. -/
theorem unleveled (fits : c.DriveFits linked true) (drm : d.drm = c.drm) (held : d.held = c.held) (mdc : d.mdc = c.mdc)
    (ulr : d.ulr = c.ulr) : d.DriveFits linked false := by
  constructor
  · rw [drm, held, mdc]; exact fits.arming
  · unfold Chip.linkUp; rw [drm, ulr]; exact fits.link
  · exact nofun
  · rw [drm]; exact fits.armed
  · exact nofun

/-- A disarmed drive with both axles in a state of the DISARMED rows meets every rule. -/
theorem of_disarmed (disarmed : c.drm.arming = .disarmed) (rest : ∀ a, (c.drm.axle a).state.armedOnly = false) :
    c.DriveFits linked leveled where
  arming h := absurd disarmed h
  link h := absurd disarmed h
  request h := absurd disarmed h
  armed a h := by simp [rest a] at h
  driving a h := by simpa [rest a] using AxleState.driving_armedOnly h

/-- Outside ACTIVE, and while a reset is held, the drive is disarmed. -/
theorem disarmed (fits : c.DriveFits linked leveled) (stopped : c.mdc.mode ≠ .active ∨ c.held ≠ none) :
    c.drm.arming = .disarmed := by
  by_contra h
  obtain ⟨held, mode, -⟩ := fits.arming h
  exact stopped.elim (fun k => k mode) fun k => k held

/-- The axles handled under a mixer record that meets the rules of arming. -/
theorem handleAxles {m : Drm} (arming : m.arming ≠ .disarmed → c.held = none ∧ c.mdc.mode = .active ∧ c.mdc.bench = false)
    (link : m.arming ≠ .disarmed → linked = true → c.linkUp)
    (request : m.arming ≠ .disarmed → leveled = true → c.btm.level = .cutoff → m.axleRequest = 0) :
    (c.handleAxles m).DriveFits linked leveled where
  arming h := by simpa using arming h
  link h := by simpa [Chip.linkUp] using link h
  request h := by simpa using request h
  armed a h := by
    rw [Chip.handleAxles_state] at h
    exact Chip.axleNext_armedOnly (d := m) h
  driving a h strict cutoff := by
    rw [Chip.handleAxles_state] at h
    have armed : m.arming = .armed := Chip.axleNext_armedOnly (AxleState.driving_armedOnly h)
    have still : m.axleRequest = 0 := request (by simp [armed]) strict (by simpa using cutoff)
    rw [Chip.axleNext_zero still] at h
    cases h

/-- A drive that is disarmed now. -/
theorem disarmDrive (c : Chip) : c.disarmDrive.DriveFits linked leveled :=
  handleAxles (fun h => absurd rfl h) (fun h => absurd rfl h) fun h => absurd rfl h

/-- A cap change. -/
theorem recap (fits : c.DriveFits linked leveled) : c.recap.DriveFits linked true :=
  handleAxles fits.arming fits.link fun _ _ cutoff => Chip.capRequest_cutoff cutoff _

/-- A cap change where there is one. -/
theorem recapIf (fits : c.DriveFits linked leveled) (event : Bool) : (c.recapIf event).DriveFits linked leveled := by
  unfold Chip.recapIf
  split
  · have strict := fits.recap
    exact ⟨strict.arming, strict.link, fun h _ => strict.request h rfl, strict.armed, fun a h _ => strict.driving a h rfl⟩
  · exact fits

/-- A new winch record. -/
theorem setWinch (fits : c.DriveFits linked leveled) (w : Winch) : (c.setWinch w).DriveFits linked leveled := by
  have told : (Chip.alert { c with wnc := w.settle c.tables.winchCfg } fun t =>
      t.cause .winchStall (decide (w.state = .stalled))).DriveFits linked leveled :=
    fits.frame (by simp) (by simp) (by simp) (by simp) (by simp)
  exact (told.recapIf (decide (c.wnc.state.driven ≠ w.state.driven))).frame (by simp [Chip.setWinch])
    (by simp [Chip.setWinch]) (by simp [Chip.setWinch]) (by simp [Chip.setWinch]) (by simp [Chip.setWinch])

/-! ### Operating modes and switches -/

/-- The entry into PARKED disarms the drive (R79). -/
theorem enterParked (c : Chip) : c.enterParked.DriveFits linked leveled := by
  have locked : (c.setMode .parked).steerSilence.disarmDrive.winchLockTest.DriveFits linked leveled :=
    (disarmDrive (c.setMode .parked).steerSilence).setWinch _
  exact locked.congr rfl rfl rfl rfl rfl rfl

/-- The entry into DORMANT disarms the drive. -/
theorem enterDormant (c : Chip) : c.enterDormant.DriveFits linked leveled :=
  (disarmDrive (c.setMode .dormant).steerSilence).congr rfl rfl rfl rfl rfl rfl

/-- The return to ACTIVE finds the drive disarmed (R79). -/
theorem returnActive (disarmed : c.drm.arming = .disarmed) : c.returnActive.DriveFits linked leveled := by
  have handled : (c.setMode .active).rehandle.DriveFits linked leveled :=
    handleAxles (fun h => absurd disarmed h) (fun h => absurd disarmed h) fun h => absurd disarmed h
  have tested : (c.setMode .active).rehandle.winchLockTest.DriveFits linked leveled := handled.setWinch _
  exact tested.congr rfl rfl rfl rfl rfl rfl

/-- The test of the park exit. -/
theorem parkExitTest (fits : c.DriveFits linked leveled) : c.parkExitTest.DriveFits linked leveled := by
  unfold Chip.parkExitTest
  split
  · next leaves =>
    have parked : c.mdc.mode = .parked := by simp [Chip.leavesParked] at leaves; exact leaves.1.1.1
    exact returnActive (fits.disarmed (.inl (by simp [parked])))
  · exact fits

/-- The park timer's expiry. -/
theorem parkExpiry (fits : c.DriveFits linked leveled) : c.parkExpiry.DriveFits linked leveled := by
  unfold Chip.parkExpiry
  dsimp only
  split
  · exact enterParked _
  · exact fits.congr rfl rfl rfl rfl rfl rfl

/-- A write of the switch space. -/
theorem putSwitches (fits : c.DriveFits linked leveled) (mask value : BitVec 32) :
    (c.putSwitches mask value).DriveFits linked leveled := by
  have driveTurn {e : Chip} (h : e.DriveFits linked leveled) (set : Bool) : (e.driveSwitch set).DriveFits linked leveled := by
    unfold Chip.driveSwitch
    split
    · exact disarmDrive e
    · exact h
  have winchTurn {e : Chip} (h : e.DriveFits linked leveled) (i b : Bool) : (e.winchSwitch i b).DriveFits linked leveled := by
    unfold Chip.winchSwitch
    split
    · exact h.setWinch _
    · exact h
  have chargeTurn {e : Chip} (h : e.DriveFits linked leveled) (fires : Bool) :
      (e.chargeSwitch fires).DriveFits linked leveled := by
    unfold Chip.chargeSwitch
    split
    · exact h.congr (by simp) (by simp) (by simp) (by simp) (by simp) (by simp [Chip.resetCharge])
    · exact h
  have parkTurn {e : Chip} (h : e.DriveFits linked leveled) (sets clears : Bool) :
      (e.parkSwitch sets clears).DriveFits linked leveled := by
    unfold Chip.parkSwitch
    split
    · exact enterParked e
    · split
      · exact h.parkExitTest
      · exact h
  have written : (c.written mask value).DriveFits linked leveled := fits.congr rfl rfl rfl rfl rfl rfl
  rw [Chip.putSwitches_turns]
  exact (parkTurn (chargeTurn (winchTurn (driveTurn written _) _ _) _) _ _).frame (Chip.relightIf_drm _ _)
    (Chip.relightIf_held _ _) (Chip.relightIf_mdc _ _) (Chip.relightIf_ulr _ _) (Chip.relightIf_btm _ _)

/-! ### Channel updates (R58 to R65) -/

/-- The blocks other than DRM take an update. -/
theorem takeUpdate (fits : c.DriveFits linked leveled) {st : Chip → Chip} (trigger : StatusTrigger st) {t : Taker}
    (other : t ≠ .drm) : (c.takeUpdate st t).DriveFits linked leveled := by
  cases t with
  | drm => exact absurd rfl other
  | stm | atx => exact fits.congr rfl rfl rfl rfl rfl rfl
  | wnc =>
    show c.winchUpdate.DriveFits linked leveled
    unfold Chip.winchUpdate
    split
    · exact fits.setWinch _
    · exact fits
  | mdc => exact fits.parkExitTest
  | rtx => obtain rfl | rfl := trigger <;> exact fits.congr rfl rfl rfl rfl rfl rfl

end Chip.DriveFits

/-- With the link up THROTTLE can be FRESH; in FAILSAFE no slot is (R20). -/
theorem Chip.linkUp_of_throttleFresh {c : Chip} (tags : c.tagsMatch) (heard : c.ulr.link ≠ .await)
    (fresh : c.throttleFresh = true) : c.linkUp := by
  unfold Chip.linkUp
  cases link : c.ulr.link with
  | await => exact absurd link heard
  | live => exact .inl rfl
  | hold => exact .inr rfl
  | failsafe =>
    have lost : c.tagsIn .failsafe .held := by simpa [Chip.tagsMatch, link] using tags
    simp only [Chip.throttleFresh, decide_eq_true_eq] at fresh
    cases role : c.tables.roleMap.throttle with
    | none => simp [role, Chip.roleSlot, Slot.tag] at fresh
    | some ch =>
      rw [role] at fresh
      rcases lost ch with h | h <;> exact absurd (fresh.symm.trans h) (by decide)

/-- Arming after an update: the drive stays disarmed, or the link is up and, where it arms now, no bench mode (R60, R63). -/
theorem Chip.armingStep_armed {c : Chip} (tags : c.tagsMatch) (heard : c.ulr.link ≠ .await) {m : Drm}
    (armed : (c.armingStep m).arming ≠ .disarmed) : c.linkUp ∧ (m.arming = .disarmed → c.mdc.bench = false) := by
  unfold Chip.armingStep at armed
  split at armed
  · next off =>
    split at armed
    · next conditions =>
      simp only [Chip.armingConditions, Bool.and_eq_true, decide_eq_true_eq, Bool.not_eq_true'] at conditions
      exact ⟨.inl conditions.1.1.1.1, fun _ => conditions.2⟩
    · exact absurd off armed
  · next arming =>
    split at armed
    · exact absurd rfl armed
    · next stays =>
      have fresh : c.throttleFresh = true := by
        by_contra stale
        exact stays (.inr (by simpa using stale))
      exact ⟨Chip.linkUp_of_throttleFresh tags heard fresh, fun off => by simp [off] at arming⟩
  · next up =>
    split at armed
    · exact absurd rfl armed
    · next alive =>
      refine ⟨?_, fun off => by simp [off] at up⟩
      unfold Chip.linkUp
      cases link : c.ulr.link <;> simp_all

/-- DRM's turn at an update meets every rule, with the link lost as with the link up (R63, R65). -/
theorem Chip.driveFits_driveUpdate {c : Chip} (fits : c.DriveFits false true) (free : c.held = none) (tags : c.tagsMatch)
    (heard : c.ulr.link ≠ .await) : c.driveUpdate.DriveFits true true := by
  unfold Chip.driveUpdate
  split
  · next active =>
    have kept := c.armingStep_keeps
      { c.drm with command := c.driveCommand, mode := c.cdc.driveSel,
                   request := driveRequest c.driveCommand c.profile.speedLimit,
                   axleRequest := capRequest c.driveCap (driveRequest c.driveCommand c.profile.speedLimit) }
    refine Chip.DriveFits.handleAxles (fun armed => ⟨free, active, ?_⟩)
      (fun armed _ => (Chip.armingStep_armed tags heard armed).1)
      fun _ _ cutoff => kept.2.2.2.trans (Chip.capRequest_cutoff cutoff _)
    by_cases off : c.drm.arming = .disarmed
    · exact (Chip.armingStep_armed tags heard armed).2 off
    · exact (fits.arming off).2.2
  · next parked =>
    have off := fits.disarmed (.inl parked)
    exact Chip.DriveFits.handleAxles (fun h => absurd off h) (fun h => absurd off h) fun h => absurd off h

/-- A part that has heard a control frame, before DRM's turn at an update: the rule of the link can be broken. -/
def Chip.BeforeDrive (c : Chip) : Prop :=
  c.DriveFits false true ∧ c.held = none ∧ c.tagsMatch ∧ c.ulr.link ≠ .await

/-- The other blocks leave it to DRM. -/
theorem Chip.BeforeDrive.takeUpdate {c : Chip} (h : c.BeforeDrive) {st : Chip → Chip} (trigger : StatusTrigger st)
    {t : Taker} (other : t ≠ .drm) : (c.takeUpdate st t).BeforeDrive := by
  obtain ⟨fits, free, tags, heard⟩ := h
  have frame := c.takeUpdate_frame trigger t
  exact ⟨fits.takeUpdate trigger other, frame.held ▸ free,
    (Chip.tagsMatch_congr (by rw [frame.ulr]) frame.slots).2 tags, frame.ulr ▸ heard⟩

/-- A channel update restores the rule of the link. -/
theorem Chip.driveFits_channelUpdate {c : Chip} (before : c.BeforeDrive) {st : Chip → Chip} (trigger : StatusTrigger st)
    (order : List Taker) : (c.channelUpdate st order).DriveFits true true := by
  have decoded : c.decodeNow.BeforeDrive := ⟨before.1.congr rfl rfl rfl rfl rfl rfl, before.2⟩
  exact foldl_once (P := Chip.DriveFits true true) (Q := Chip.BeforeDrive) (x := Taker.drm)
    (fun _ _ other h => h.takeUpdate trigger other)
    (fun _ h => Chip.driveFits_driveUpdate h.1 h.2.1 h.2.2.1 h.2.2.2) (fun _ _ other h => h.takeUpdate trigger other) _ _
    (mem_takers .drm order) (nodup_takers order) decoded

/-! ### Evaluation completions (R66, R74) -/

namespace Chip.DriveFits

variable {linked leveled : Bool} {c : Chip}

/-- DRM's rescaling leaves arming, request and axle states (R74). -/
theorem takeDriveGrant (fits : c.DriveFits linked leveled) (g : Nat) : (c.takeDriveGrant g).DriveFits linked leveled := by
  have states (a : Axle) : ((c.takeDriveGrant g).drm.axle a).state = (c.drm.axle a).state := by
    unfold Chip.takeDriveGrant
    dsimp only
    split <;> cases a <;> rfl
  have kept : (c.takeDriveGrant g).drm.arming = c.drm.arming ∧ (c.takeDriveGrant g).drm.axleRequest = c.drm.axleRequest := by
    unfold Chip.takeDriveGrant
    dsimp only
    split <;> exact ⟨rfl, rfl⟩
  constructor
  · rw [kept.1]; exact fits.arming
  · rw [kept.1]; exact fits.link
  · rw [kept.1, kept.2]; exact fits.request
  · intro a; rw [states, kept.1]; exact fits.armed a
  · intro a; rw [states]; exact fits.driving a

/-- A grant event. -/
theorem grantEvent (fits : c.DriveFits linked leveled) (order : List EvalTaker) :
    (c.grantEvent order).DriveFits linked leveled := by
  refine foldl_induct (P := Chip.DriveFits linked leveled) (fun d t h => ?_) _ _ fits
  cases t with
  | alt | mdc | bga => exact h
  | drm => exact h.takeDriveGrant _
  | wnc => exact h.setWinch _
  | lsq => exact h.congr rfl rfl rfl rfl rfl rfl

/-- A block's turn at an evaluation completion. -/
theorem takeEvaluation (fits : c.DriveFits linked leveled) (before : Level) (trip : Bool) (order : List EvalTaker)
    (t : EvalTaker) : (c.takeEvaluation before trip order t).DriveFits linked leveled := by
  unfold Chip.takeEvaluation
  dsimp only
  cases t with
  | alt => exact fits.frame (by simp) (by simp) (by simp) (by simp) (by simp)
  | drm => exact fits.recapIf _
  | wnc =>
    dsimp only
    split
    · exact fits.setWinch _
    · exact fits
  | lsq => exact fits.frame (by simp) (by simp) (by simp) (by simp) (by simp)
  | mdc => exact fits.congr rfl rfl rfl rfl rfl rfl
  | bga =>
    have divided : Chip.DriveFits linked leveled { c with bga := c.division (c.btm.budget.getD 0) c.btm.level } :=
      fits.congr rfl rfl rfl rfl rfl rfl
    exact divided.grantEvent order

/-- DRM's turn where the level changed restores the rule of the CUTOFF level. -/
theorem recap_changed (fits : c.DriveFits linked leveled) : (c.recapIf true).DriveFits linked true := by
  unfold Chip.recapIf
  split
  · exact fits.recap
  · next idle =>
    have off := fits.disarmed (.inl (by simpa using idle))
    exact of_disarmed off fun a => Bool.eq_false_iff.2 fun h => by simp [fits.armed a h] at off

/-- A measurement: where the level stands, so do the rules, and where it changed, DRM caps the request anew (R66). -/
theorem measurement (fits : c.DriveFits linked true) (r : Readings) (order : List EvalTaker) :
    (c.measurement r order).DriveFits linked true := by
  unfold Chip.measurement
  dsimp only
  generalize c.btm.trips c.tables.protect c.now (clampReadings r).current = trip
  generalize hb : c.btm.measure c.tables.protect c.now r = b
  by_cases same : b.level = c.btm.level
  · refine foldl_induct (P := Chip.DriveFits linked true) (fun d t h => h.takeEvaluation _ _ _ t) _ _ ?_
    exact fits.congr rfl rfl rfl rfl rfl same
  · refine foldl_once (P := Chip.DriveFits linked true) (Q := fun d => d.DriveFits linked false ∧ d.btm.level = b.level)
      (x := EvalTaker.drm) (fun d t _ h => ?others) (fun d h => ?drive) (fun d t _ h => h.takeEvaluation _ _ _ t) _ _
      (mem_evalTakers .drm order) (nodup_evalTakers order) ?measured
    case others => exact ⟨h.1.takeEvaluation _ _ _ t, by rw [Chip.takeEvaluation_btm]; exact h.2⟩
    case drive =>
      show (d.recapIf (decide (d.btm.level ≠ c.btm.level))).DriveFits linked true
      rw [h.2, decide_eq_true same]
      exact h.1.recap_changed
    case measured => exact ⟨fits.unleveled rfl rfl rfl rfl, rfl⟩

/-! ### Timers, pulses and setup commands -/

/-- The arming timer's expiry (R62). -/
theorem arm (fits : c.DriveFits linked leveled) : c.arm.DriveFits linked leveled := by
  unfold Chip.arm
  split
  · next arming =>
    have on : c.drm.arming ≠ .disarmed := by simp [arming]
    exact handleAxles (fun _ => fits.arming on) (fun _ => fits.link on) fun _ => fits.request on
  · exact fits

/-- A reversal that ends takes the direction of the request held (R70). -/
theorem endReversal (fits : c.DriveFits linked leveled) (a : Axle) : (c.endReversal a).DriveFits linked leveled := by
  unfold Chip.endReversal
  split
  · next reversing =>
    have armed : c.drm.arming = .armed := fits.armed a (by simp [reversing, AxleState.armedOnly])
    have on : c.drm.arming ≠ .disarmed := by simp [armed]
    have still (cutoff : c.btm.level = .cutoff) (strict : leveled = true) :
        (AxleState.ofRequest c.drm.axleRequest).driving = false := by
      rw [fits.request on strict cutoff]
      rfl
    have states (b : Axle) : (((c.drm.setAxle a ((c.drm.axle a).reversed c.drm.axleRequest c.profile.dragBrake)).rescale
        c.tables.driveCfg).axle b).state
          = if b = a then AxleState.ofRequest c.drm.axleRequest else (c.drm.axle b).state := by
      cases a <;> cases b <;> rfl
    have arming : ((c.drm.setAxle a ((c.drm.axle a).reversed c.drm.axleRequest c.profile.dragBrake)).rescale
        c.tables.driveCfg).arming = c.drm.arming := by cases a <;> rfl
    have request : ((c.drm.setAxle a ((c.drm.axle a).reversed c.drm.axleRequest c.profile.dragBrake)).rescale
        c.tables.driveCfg).axleRequest = c.drm.axleRequest := by cases a <;> rfl
    constructor
    · intro _; simpa using fits.arming on
    · intro _; simpa [Chip.linkUp] using fits.link on
    · intro _; rw [Chip.setDrive_drm, request, Chip.setDrive_btm]; exact fits.request on
    · intro _ _; rw [Chip.setDrive_drm, arming]; exact armed
    · intro b
      rw [Chip.setDrive_drm, states, Chip.setDrive_btm]
      split
      · intro h strict cutoff
        rw [still cutoff strict] at h
        cases h
      · exact fits.driving b
  · exact fits

/-- A setup command. -/
theorem carryOut (fits : c.DriveFits linked leveled) (p : List Byte) : (c.carryOut p).chip.DriveFits linked leveled := by
  have tables (t : Tables) (plain : Vector Bool 5) (winch : Bool) : (c.setTables t plain winch).DriveFits linked leveled := by
    unfold Chip.setTables
    dsimp only
    split
    · exact setWinch (fits.frame (by simp) (by simp) (by simp) (by simp) (by simp)) _
    · exact fits.frame (by simp) (by simp) (by simp) (by simp) (by simp)
  exact c.carryOut_cases p fits (write := fun _ _ _ _ _ => tables _ _ _) (load := fun _ _ _ => tables _ _ _)
    (capture := fun _ _ => fits.congr rfl rfl rfl rfl rfl rfl) (switches := fun mask value => fits.putSwitches mask value)
    (winch := fun w _ => fits.setWinch w)
    (ack := fun _ => fits.frame (by simp) (by simp) (by simp) (by simp) (by simp))
    (ackAll := fits.frame (by simp) (by simp) (by simp) (by simp) (by simp))
    (store := fun _ => fits.congr rfl rfl rfl rfl rfl rfl) (restart := fits.congr rfl rfl rfl rfl rfl rfl)

/-- What SUP, RTX and ATX do at a setup frame. -/
theorem setup : SetupKeeps (Chip.DriveFits linked leveled) where
  queue _ _ fits := fits.congr rfl rfl rfl rfl rfl rfl
  carryOut _ p fits := fits.carryOut p
  fault _ _ _ fits := fits.frame (by simp) (by simp) (by simp) (by simp) (by simp)
  rtx _ _ fits := fits.congr rfl rfl rfl rfl rfl rfl
  atx _ _ fits := fits.congr rfl rfl rfl rfl rfl rfl

/-- A spool pulse. -/
theorem spoolPulse (fits : c.DriveFits linked leveled) (start : Nat) : (c.spoolPulse start).DriveFits linked leveled := by
  unfold Chip.spoolPulse
  exact setWinch (fits.frame (by simp) (by simp) (by simp) (by simp) (by simp)) _

/-- A reset disarms the drive and holds the axles in FAILSAFE_BRAKE (R81). -/
theorem resetTo (c : Chip) (kind : ResetKind) : (c.resetTo kind).DriveFits linked leveled :=
  of_disarmed rfl fun a => by cases a <;> rfl

/-- The release: the drive that the reset disarmed, in bench mode with its axles OFF (R80). -/
theorem release (fits : c.DriveFits linked leveled) (held : c.held.isSome = true) (bench : Bool) :
    (c.release bench).DriveFits linked leveled := by
  have off : c.drm.arming = .disarmed := fits.disarmed (.inr fun free => by simp [free] at held)
  have rest (a : Axle) : (c.drm.axle a).state.armedOnly = false :=
    Bool.eq_false_iff.2 fun h => by simp [fits.armed a h] at off
  cases bench with
  | true => exact of_disarmed off fun a => by cases a <;> rfl
  | false => exact of_disarmed off rest

/-- A control frame with RXHOLD clear makes the link LIVE before the blocks take its update (R16). -/
theorem acceptControl (fits : c.DriveFits true true) (free : c.held = none) (order : List Taker) (p : List Byte) :
    (c.acceptControl order p).DriveFits true true := by
  unfold Chip.acceptControl
  split
  · exact fits.congr rfl rfl rfl rfl rfl rfl
  · have ulr : (c.goLive p).ulr = (c.freshSlots p).ulr := by simp [Chip.goLive]
    have tags : (c.goLive p).tagsMatch :=
      (Chip.tagsMatch_congr (by rw [ulr]) (by simp [Chip.goLive])).2 (c.linkFits_freshSlots p).1
    have before : (c.goLive p).BeforeDrive :=
      ⟨fits.unlinked (by simp) (by simp) (by simp [Chip.goLive, Chip.freshSlots]) (by simp [Chip.goLive, Chip.freshSlots])
        (by simp), by simpa using free, tags, by simp [ulr, Chip.freshSlots]⟩
    exact Chip.driveFits_channelUpdate before (.inl rfl) order

/-- The entry into HOLD. -/
theorem enterHold (fits : c.DriveFits true true) (links : c.LinkFits) (free : c.held = none) (live : c.ulr.link = .live)
    (order : List Taker) : (c.enterHold order).DriveFits true true := by
  have before : ((c.holdSlots.alert fun t => t.raise .linkHold).relight).BeforeDrive :=
    ⟨fits.unlinked (by simp) (by simp) (by simp) (by simp) (by simp), by simpa using free,
      ((Chip.linkFits_holdSlots links live).congr (by simp) (by simp)).1, by simp [Chip.holdSlots]⟩
  exact Chip.driveFits_channelUpdate before (.inr rfl) order

/-- The entry into FAILSAFE. -/
theorem enterFailsafe (fits : c.DriveFits true true) (links : c.LinkFits) (free : c.held = none)
    (hold : c.ulr.link = .hold) (order : List Taker) : (c.enterFailsafe order).DriveFits true true := by
  have before : ((c.failsafeSlots.startPark.alert fun t => t.cause .linkFailsafe true).relight).BeforeDrive :=
    ⟨fits.unlinked (by simp) (by simp) (by simp [Chip.startPark]) (by simp [Chip.startPark]) (by simp), by simpa using free,
      ((Chip.linkFits_failsafeSlots links hold).congr (by simp) (by simp)).1, by simp [Chip.failsafeSlots]⟩
  exact Chip.driveFits_channelUpdate before (.inr rfl) order

/-- A refresh comes in HOLD and FAILSAFE (R15). -/
theorem refreshed (fits : c.DriveFits true true) (links : c.LinkFits) (free : c.held = none)
    (due : c.ulr.refreshDue.isSome = true) (order : List Taker) : (c.refreshed order).DriveFits true true := by
  have heard : c.ulr.link ≠ .await := by rcases links.2.2.1 due with h | h <;> simp [h]
  have before : Chip.BeforeDrive { c with
      ulr := { c.ulr with refreshDue := c.ulr.refreshDue.map (· + 20), ordinal := c.ulr.ordinal + 1 } } :=
    ⟨fits.unlinked rfl rfl rfl rfl rfl, free, links.1, heard⟩
  exact Chip.driveFits_channelUpdate before (.inr rfl) order

end Chip.DriveFits

/-- Settles O10: with the link table for the tags of THROTTLE, every event keeps the rules of the drive. -/
theorem axlesDriveOnlyWhenAllowed : Obligations.AxlesDriveOnlyWhenAllowed := by
  intro s t linkOk driveOk h
  obtain ⟨q, c⟩ := s
  have fits : c.DriveFits true true := c.driveOk_iff.1 driveOk
  have links (running : c.Running) : c.LinkFits := linkOk.fits running
  have later (now : Nat) : Chip.DriveFits true true { c with now := now } := fits.congr rfl rfl rfl rfl rfl rfl
  have released : c.clearHunt.DriveFits true true := fits.congr rfl rfl rfl rfl rfl rfl
  rw [Chip.driveOk_iff]
  exact step_cases h fits (tick := fits.congr rfl rfl rfl rfl rfl rfl)
    (handOn := fun b order running => And.right <| Chip.handOn_ind (P := fun d => d.held = none ∧ d.DriveFits true true)
      ⟨running.1, fits.congr rfl rfl rfl rfl rfl rfl⟩
      (fun d p k => ⟨by simpa using k.1, k.2.acceptControl k.1 order p⟩)
      fun d p k => ⟨by simpa using k.1, Chip.DriveFits.setup.acceptSetup k.2 p⟩)
    (clearHunt := fun _ => released)
    (control := fun order p running => released.acceptControl running.1 order p)
    (setupFrame := fun p _ => Chip.DriveFits.setup.acceptSetup released p)
    (setup := fun p _ => Chip.DriveFits.setup.acceptSetup fits p)
    (hold := fun now order running live => (later now).enterHold (links running) running.1 live order)
    (failsafe := fun now order running hold => (later now).enterFailsafe (links running) running.1 hold order)
    (refresh := fun now order running due => (later now).refreshed (links running) running.1 due order)
    (arm := fun now _ => (later now).arm)
    (reversal := fun now a _ => (later now).endReversal a)
    (pulse := fun _ _ _ => fits.congr rfl rfl rfl rfl rfl rfl)
    (pulseEnd := fun _ => fits.congr rfl rfl rfl rfl rfl rfl)
    (spool := fun start _ => fits.spoolPulse start)
    (timebase := fun _ _ => fits.congr rfl rfl rfl rfl rfl rfl)
    (brakeHold := fun _ _ => fits.congr rfl rfl rfl rfl rfl rfl)
    (measurement := fun now r order _ _ => (later now).measurement r order)
    (window := fun _ _ => fits.congr rfl rfl rfl rfl rfl rfl)
    (foldback := fun _ _ => fits.congr rfl rfl rfl rfl rfl rfl)
    (dormant := fun _ _ => Chip.DriveFits.enterDormant _)
    (park := fun now _ => (later now).parkExpiry)
    (returnSent := fun _ => Chip.DriveFits.setup.returnSent fits (Chip.DriveFits.resetTo c .warm))
    (accessorySent := fun _ => fits.congr rfl rfl rfl rfl rfl rfl)
    (storeDone := fun _ _ _ => fits.congr rfl rfl rfl rfl rfl rfl)
    (switches := fun mask value _ => fits.putSwitches mask value)
    (cold := Chip.DriveFits.resetTo c .cold) (warm := Chip.DriveFits.resetTo c .warm)
    (release := fun bench held => fits.release held bench)

end Sys2Proof.Machine
end

section
/-! The step, the stopped part and the resets (R7, R52, R194, R195, R199 to R201). -/

namespace Sys2Proof.Machine

/-! ### The step and its answer -/

/-- Settles O1. -/
theorem stepRunsFrontCommand : Obligations.StepRunsFrontCommand := fun _ _ c => ⟨rfl, step_idle c⟩

/-- Settles O2: each command's meaning is one change of the part. -/
theorem everyCommandAnswersNext : Obligations.EveryCommandAnswersNext := by
  intro i s
  cases i <;> exact ⟨_, rfl, State.onChip_pending s _⟩

/-! ### The stopped part (R7, R195, R199) -/

/-- A stopped part takes no event that needs the running part. -/
theorem Chip.whenRunning_stopped {c : Chip} (stopped : ¬ c.Running) (f : Chip → Chip) : c.whenRunning f = c := by
  have off : c.running = false := Bool.eq_false_iff.2 fun on => stopped (c.running_iff.1 on)
  simp [Chip.whenRunning, off]

/-- A stopped part takes no event of a timer or schedule. -/
theorem Chip.whenDue_stopped {c : Chip} (stopped : ¬ c.Running) (due : Option Nat) (f : Chip → Chip) :
    c.whenDue due f = c := by
  have off : c.running = false := Bool.eq_false_iff.2 fun on => stopped (c.running_iff.1 on)
  simp [Chip.whenDue, off]

/-- A command that leaves the part leaves the state. -/
theorem State.next_same {s : State} {f : Chip → Chip} (same : f s.chip = s.chip) :
    (.next (s.onChip f) : Host.Outcome State Fault Refusal) = .next s := next_congr same

/-- Settles O3: every command but the four named waits for the running part, by the part or by its timer. -/
theorem stoppedPartTakesNoEvent : Obligations.StoppedPartTakesNoEvent := by
  intro i s stopped notCold notWarm notRelease notEnd
  have event (f : Chip → Chip) : s.chip.whenRunning f = s.chip := Chip.whenRunning_stopped stopped f
  have timer (due : Option Nat) (f : Chip → Chip) : s.chip.whenDue due f = s.chip := Chip.whenDue_stopped stopped due f
  cases i with
  | coldReset => exact absurd rfl notCold
  | warmReset => exact absurd rfl notWarm
  | resetRelease bench => exact absurd rfl (notRelease bench)
  | servoPulseEnd a => exact absurd rfl (notEnd a)
  | entryIntoHold order => exact State.next_same (by split <;> [exact timer _ _; rfl])
  | entryIntoFailsafe order => exact State.next_same (by split <;> [exact timer _ _; rfl])
  | refresh | armingTimerExpiry | reverseDelayExpiry | pulseStart | lightTimebaseEvent | brakeHoldExpiry
  | measurementCompletion | endOfStartUpWindow | foldbackTimerExpiry | cutoffTimerExpiry | parkTimerExpiry
  | storeCompletion => exact State.next_same (timer _ _)
  | _ => exact State.next_same (event _)

/-! ### The resets (R194, R199) -/

/-- What both kinds of reset leave alike, with the tables each leaves. -/
theorem Chip.resetLeaves_resetTo (c : Chip) (kind : ResetKind) : c.ResetLeaves (c.resetTo kind) (c.tablesAfter kind) := by
  have axles (a : Axle) : (c.resetTo kind).drm.axle a = heldAxle (c.tablesAfter kind).driveCfg := by cases a <;> rfl
  exact ⟨rfl, rfl, rfl, ⟨rfl, rfl, rfl, rfl, rfl, rfl, rfl, rfl, rfl⟩, ⟨rfl, rfl, rfl, rfl, rfl, rfl, rfl, rfl⟩,
    ⟨rfl, rfl, rfl, rfl, rfl, rfl, axles, rfl, rfl⟩, ⟨rfl, rfl, rfl, rfl, rfl, rfl, rfl, rfl, rfl, rfl, rfl, rfl, rfl, rfl, rfl⟩,
    ⟨rfl, rfl, rfl, rfl, rfl⟩, ⟨rfl, rfl, rfl, rfl, rfl, rfl, rfl, rfl, rfl, rfl, rfl, rfl, rfl⟩, rfl, ⟨rfl, rfl⟩, rfl, rfl,
    rfl, rfl, rfl, rfl⟩

/-- The latches after a cold reset: STORE_FAULT, bit 11, where the image is neither blank nor good (R170, R194). -/
theorem Chip.resetTo_cold_latched (c : Chip) : (c.resetTo .cold).alt.latched
    = if c.tbs.image.blank = false ∧ c.tbs.image.checksGood = false then 0x800#12 else 0#12 := by
  show (if c.storeFault .cold then Alert.storeFault.mask else 0#12) = _
  unfold Chip.storeFault
  cases c.tbs.image.blank <;> cases c.tbs.image.checksGood <;> rfl

/-- Settles O4. -/
theorem coldResetClearsAndLoads : Obligations.ColdResetClearsAndLoads := fun s =>
  ⟨_, rfl, rfl, rfl, rfl, s.chip.resetLeaves_resetTo .cold, rfl, rfl, rfl, rfl, rfl, rfl, rfl, s.chip.resetTo_cold_latched⟩

/-- Settles O5: a cold reset that is held stays, any other state takes the warm one. -/
theorem warmResetKeepsTablesAndCounts : Obligations.WarmResetKeepsTablesAndCounts := by
  intro s
  refine ⟨fun cold => State.next_same (if_pos cold), fun notCold => ⟨s.onChip fun c => c.resetTo .warm, ?_, rfl, rfl, rfl,
    s.chip.resetLeaves_resetTo .warm, rfl, rfl, rfl, rfl, rfl, rfl, rfl, rfl⟩⟩
  exact next_congr (if_neg notCold)

/-! ### The release (R200, R201) -/

/-- The release of a held reset. -/
theorem exec_resetRelease {s : State} (held : s.chip.held ≠ none) (bench : Bool) :
    exec (.resetRelease bench) s = .next { s with chip := s.chip.release bench } :=
  next_congr (if_pos (Option.isSome_iff_ne_none.2 held))

/-- Settles O6. -/
theorem resetReleaseStartsThePart : Obligations.ResetReleaseStartsThePart := by
  intro bench s
  refine ⟨fun free => State.next_same (by simp [free]), fun held => exec_resetRelease held bench, fun held dark => ?_⟩
  have levels : (s.chip.release bench).lsq.level = Vector.replicate 8 0 := Chip.picture_dark dark
  refine ⟨_, exec_resetRelease held bench, dark, fun o => ?_⟩
  have level : (s.chip.release bench).lsq.level[o] = 0 := by simp [levels]
  exact ⟨level, by simp [Chip.lightPin, level]⟩

/-! ### The state after reset -/

/-- The part after reset has its drive disarmed with both axles in FAILSAFE_BRAKE. -/
theorem Chip.reset_driveOk : Chip.reset.DriveOk :=
  (Chip.driveOk_iff _).2 (Chip.DriveFits.of_disarmed rfl fun a => by cases a <;> rfl)

/-- The part after reset has factory tables in use and behind the blank mark. -/
theorem Chip.reset_tablesOk : Chip.reset.TablesOk := ⟨factoryTables_ok, factoryTables_ok, fun _ taken => nomatch taken⟩

/-- The part after reset awaits its first frame. -/
theorem Chip.reset_linkOk : Chip.reset.LinkOk := by
  refine Chip.LinkFits.ok ⟨fun i => ?_, ?_⟩
  · simp [Chip.reset, Slot.tag]
  · simp [Chip.linkTimersMatch, Chip.reset]

/-- The part after reset has its queues empty. -/
theorem Chip.reset_queuesOk : Chip.reset.QueuesOk :=
  Chip.Lined.ok ⟨⟨by decide, fun _ => ⟨rfl, rfl⟩⟩, ⟨by decide, fun _ => ⟨rfl, rfl⟩⟩, by decide,
    fun waiting => absurd rfl waiting⟩

/-- The state after reset, put under a cold reset again and released. -/
theorem State.reset_released : exec (.resetRelease false) (State.reset.onChip fun c => c.resetTo .cold) = .next State.reset := by
  refine next_congr ?_
  decide

/-- Settles O7. -/
theorem resetStateIsAColdRelease : Obligations.ResetStateIsAColdRelease :=
  ⟨⟨_, rfl, State.reset_released⟩, rfl, Chip.reset_linkOk, rfl, Chip.reset_driveOk,
    Winch.ok_idle (by decide) (by decide) rfl rfl, Chip.reset_queuesOk, ⟨by decide, fun _ taken => nomatch taken⟩,
    Alt.ok_reset false, le_rfl, rfl,
    Chip.reset_tablesOk, by simp [Chip.WinchLit, WinchState.lights, Chip.reset, resetLsq, Source.index],
    fun held => absurd rfl held, fun _ => ⟨rfl, rfl⟩⟩

end Sys2Proof.Machine
end

section
/-! Plain timers and the servo pulses (R51, R52, R113, R124, R141, R144). -/

namespace Sys2Proof.Machine

/-- The event of a running timer is taken at the instant it names. -/
theorem State.next_whenDue {s : State} (running : s.chip.Running) {timer : Option Nat} {due : Nat} (runs : timer = some due)
    (f : Chip → Chip) : (.next { s with chip := s.chip.whenDue timer f } : Host.Outcome State Fault Refusal)
      = .next { s with chip := f { s.chip with now := s.chip.dueAt due } } := by
  rw [runs, Chip.whenDue_eq running]
  rfl

/-- Settles O38. -/
theorem plainTimersExpire : Obligations.PlainTimersExpire := by
  refine ⟨fun s due running => ⟨fun runs => ?timebase, fun runs => ?brakeHold⟩,
    fun s due running => ⟨fun runs => ?window, fun runs => ?foldback⟩⟩
  case timebase =>
    refine (State.next_whenDue running runs Chip.advanceTimebase).trans ?_
    simp [Chip.advanceTimebase, runs]
  case brakeHold => exact State.next_whenDue running runs _
  case window => exact State.next_whenDue running runs _
  case foldback => exact State.next_whenDue running runs _

/-- Settles O30. -/
theorem servoPulsesStartAndEnd : Obligations.ServoPulsesStartAndEnd := by
  refine ⟨fun s due running runs => ?start, fun s => ⟨rfl, rfl⟩⟩
  refine (State.next_whenDue running runs _).trans ?_
  simp only [runs]
  rfl

end Sys2Proof.Machine
end

section
/-! One byte taken from the uplink (R1 to R3, R5): the byte that advances a candidate, the one that completes it and the one that
fails it. -/

namespace Sys2Proof.Machine

/-- The byte row hands on what taking the byte leads to. -/
theorem exec_uplinkByteTaken {s : State} (running : s.chip.Running) (b : Byte) (order : List Taker) :
    exec (.uplinkByteTaken b order) s = .next { s with chip := s.chip.handOn order (s.chip.ulr.take b).1 } :=
  next_congr (Chip.whenRunning_eq running _)

/-- The row of a discard hands on what the failing byte leads to. -/
theorem exec_candidateDiscarded {s : State} (running : s.chip.Running) {b : Byte} (fails : (s.chip.ulr.take b).2 = true)
    (order : List Taker) :
    exec (.candidateDiscarded b order) s = .next { s with chip := s.chip.handOn order (s.chip.ulr.take b).1 } :=
  next_congr ((Chip.whenRunning_eq running _).trans (if_pos fails))

/-- The row of a control frame releases the candidate and accepts the frame. -/
theorem exec_controlFrameAccepted {s : State} (running : s.chip.Running) (payload : Vector Byte 19) (order : List Taker) :
    exec (.controlFrameAccepted payload order) s
      = .next { s with chip := s.chip.clearHunt.acceptControl order payload.toList } :=
  next_congr (Chip.whenRunning_eq running _)

/-- The row of a setup frame releases the candidate and accepts the frame. -/
theorem exec_setupFrameAccepted {s : State} (running : s.chip.Running) (payload : List Byte) :
    exec (.setupFrameAccepted payload) s = .next { s with chip := s.chip.clearHunt.acceptSetup payload } :=
  next_congr (Chip.whenRunning_eq running _)

/-- An intake that accepted nothing changes the hunt state and the bytes alone. -/
theorem Chip.handOn_of_no_frames (c : Chip) (order : List Taker) (state : HuntState) (bytes : List Byte) :
    c.handOn order { hunt := state, bytes := bytes, frames := [] } = { c with ulr := { c.ulr with hunt := state, bytes := bytes } } :=
  rfl

/-! ### What a byte leads to, by hunt state -/

/-- In HUNT. -/
theorem Ulr.take_hunt {u : Ulr} (hunting : u.hunt = .hunt) (b : Byte) :
    (u.take b).1 = { hunt := if b = syncByte then .kind else .hunt, bytes := [], frames := [] } := by
  unfold Ulr.take
  rw [hunting]

/-- In KIND, where the kind/length byte passes; a length of 0 does not pass. -/
theorem Ulr.take_kind {u : Ulr} (kind : u.hunt = .kind) (empty : u.bytes = []) {b : Byte} (passes : kindPasses b = true) :
    (u.take b).1 = { hunt := .payload, bytes := [b], frames := [] } := by
  have long : frameLength b ≠ 0 := by
    have := two_le_frameLength passes
    omega
  simp [Ulr.take, kind, empty, passes, long]

/-- In PAYLOAD. -/
theorem Ulr.take_payload {u : Ulr} (payload : u.hunt = .payload) {k : Byte} {rest : List Byte} (bytes : u.bytes = k :: rest)
    (b : Byte) : (u.take b).1 = { hunt := if rest.length + 1 = frameLength k then .check else .payload,
                                  bytes := k :: rest ++ [b], frames := [] } := by
  have whole : (k :: rest ++ [b]).length = 1 + frameLength ((k :: rest ++ [b]).headD 0#8)
      ↔ rest.length + 1 = frameLength k := by
    rw [List.cons_append, List.headD_cons, List.length_cons, List.length_append, List.length_singleton]
    omega
  simp only [Ulr.take, payload, bytes, whole]

/-- In CHECK, where the check byte agrees with the CRC. -/
theorem Ulr.take_check {u : Ulr} (check : u.hunt = .check) :
    (u.take (crc8 u.bytes)).1 = { hunt := .hunt, bytes := [], frames := [u.bytes] } := by
  simp [Ulr.take, check]

/-- A failing byte, in KIND or in CHECK: the bytes held are taken again from HUNT (R3). -/
theorem Ulr.take_fails {u : Ulr} {b : Byte}
    (fails : u.hunt = .kind ∧ u.bytes = [] ∧ ¬ passesKind b ∨ u.hunt = .check ∧ crc8 u.bytes ≠ b) :
    u.take b = ((u.bytes ++ [b]).foldl Intake.feed Intake.start, true) := by
  rw [← examine_eq_foldl_feed]
  rcases fails with ⟨kind, -, fails⟩ | ⟨check, fails⟩
  · have fails : ¬ kindPasses b = true := fun passes => fails ((kindPasses_iff b).1 passes)
    simp [Ulr.take, kind, fails]
  · simp [Ulr.take, check, fails]

/-- Settles O16. -/
theorem assemblyTakesBytes : Obligations.AssemblyTakesBytes := by
  intro b order s running
  rw [exec_uplinkByteTaken running]
  refine ⟨fun hunting => ?_, fun kind empty passes => ?_, fun k rest payload bytes => ?_⟩
  · rw [Ulr.take_hunt hunting, Chip.handOn_of_no_frames]
    rfl
  · rw [Ulr.take_kind kind empty ((kindPasses_iff b).2 passes), Chip.handOn_of_no_frames]
  · rw [Ulr.take_payload payload bytes, Chip.handOn_of_no_frames]
    rfl

/-- Settles O17: the frame completed is handed on from HUNT by its kind. -/
theorem completedCandidateIsAccepted : Obligations.CompletedCandidateIsAccepted := by
  intro order s running check
  have accepted : exec (.uplinkByteTaken (crc8 s.chip.ulr.bytes) order) s
      = .next { s with chip := s.chip.clearHunt.acceptFrame order s.chip.ulr.bytes } := by
    rw [exec_uplinkByteTaken running, Ulr.take_check check]
    rfl
  rw [accepted]
  refine ⟨fun payload bytes => ?_, fun k payload bytes kind => ?_⟩
  · rw [exec_controlFrameAccepted running, bytes]
    rfl
  · have other : ¬ frameKind k = 1 := by
      unfold frameKind
      omega
    rw [exec_setupFrameAccepted running, bytes]
    exact congrArg (fun c => Host.Outcome.next { s with chip := c }) (if_neg other)

/-- Settles O18. -/
theorem discardTakesHeldBytesAgain : Obligations.DiscardTakesHeldBytesAgain := by
  intro b order s running fails
  have taken := Ulr.take_fails fails
  have discarded := exec_candidateDiscarded running (b := b) (by rw [taken]) order
  refine ⟨?_, (exec_uplinkByteTaken running b order).trans discarded.symm⟩
  rw [discarded, taken]
  rfl

/-- Settles O21: with RXHOLD set the frame is counted and that is all. -/
theorem holdFrameOnlyCounts : Obligations.HoldFrameOnlyCounts := by
  intro payload order s running hold
  rw [exec_controlFrameAccepted running, Chip.acceptControl, if_pos hold]
  rfl

end Sys2Proof.Machine
end

section
/-! What the lines carry (R1, R2, R202, R203; 12, sections 12.1 to 12.5): frames, samples, characters, payloads and codes. -/

namespace Sys2Proof.Machine

/-! ### Frames (R1, R2) -/

/-- The kind/length byte of a frame gives its kind and length back. -/
theorem frameKind_body {kind length : Nat} (hk : kind ≤ 2) (hl : length < 64) :
    frameKind (BitVec.ofNat 8 (64 * kind + length)) = kind ∧ frameLength (BitVec.ofNat 8 (64 * kind + length)) = length := by
  simp only [frameKind, frameLength, BitVec.toNat_ofNat]
  omega

/-- The kind/length byte of a control or setup frame passes KIND. -/
theorem kindPasses_body {kind length : Nat} (known : kind = 1 ∧ length = 19 ∨ kind = 2 ∧ 2 ≤ length ∧ length ≤ 63) :
    kindPasses (BitVec.ofNat 8 (64 * kind + length)) = true := by
  obtain ⟨kindByte, lengthByte⟩ := frameKind_body (kind := kind) (length := length) (by omega) (by omega)
  simp only [kindPasses, kindByte, lengthByte, Bool.or_eq_true, Bool.and_eq_true, decide_eq_true_eq]
  omega

/-- A frame on the line is found whole and alone: sync, kind/length byte, payload and check byte in their states. -/
theorem feed_wireFrame {kind : Nat} {payload : List Byte}
    (known : kind = 1 ∧ payload.length = 19 ∨ kind = 2 ∧ 2 ≤ payload.length ∧ payload.length ≤ 63) :
    (wireFrame kind payload).foldl Intake.feed Intake.start
      = { hunt := .hunt, bytes := [], frames := [BitVec.ofNat 8 (64 * kind + payload.length) :: payload] } := by
  have passes := kindPasses_body known
  have length := (frameKind_body (kind := kind) (length := payload.length) (by omega) (by omega)).2
  unfold wireFrame
  dsimp only
  generalize BitVec.ofNat 8 (64 * kind + payload.length) = k at *
  have sync : Intake.start.feed syncByte = { hunt := .kind, bytes := [], frames := [] } :=
    (Intake.feed_spec Intake.start syncByte).1 rfl
  have kindByte : Intake.feed { hunt := .kind, bytes := [], frames := [] } k = { hunt := .payload, bytes := [k], frames := [] } :=
    (Intake.feed_spec _ k).2.1 rfl rfl ((kindPasses_iff k).1 passes)
  have body : payload.foldl Intake.feed { hunt := .payload, bytes := [k], frames := [] }
      = { hunt := .check, bytes := k :: payload, frames := [] } := by
    have := foldl_feed_payload k [] payload (by have := two_le_frameLength passes; simp; omega) (by simp [length])
    simpa [length] using this
  have check : Intake.feed { hunt := .check, bytes := k :: payload, frames := [] } (crc8 (k :: payload))
      = { hunt := .hunt, bytes := [], frames := [k :: payload] } :=
    (Intake.feed_spec _ _).2.2.2.1 rfl (List.cons_ne_nil _ _) rfl
  calc (syncByte :: (k :: payload) ++ [crc8 (k :: payload)]).foldl Intake.feed Intake.start
      = Intake.feed (payload.foldl Intake.feed (Intake.feed (Intake.start.feed syncByte) k)) (crc8 (k :: payload)) := by
        simp [List.foldl_append]
    _ = _ := by rw [sync, kindByte, body, check]

/-! ### Samples (01, section 1.3) -/

/-- A byte of a payload is the entry at its index. -/
theorem byteAt_toList {n : Nat} (v : Vector Byte n) (i : Nat) (h : i < n) : byteAt v.toList i = (v[i]).toNat := by
  simp [byteAt, List.getD_eq_getElem?_getD, h]

/-- The even sample of a pair, from its low byte and the low nibble of the shared byte. -/
theorem evenSample (even odd : Raw) : BitVec.ofNat 12
    ((even.extractLsb' 0 8).toNat + 256 * ((odd.extractLsb' 0 4 ++ even.extractLsb' 8 4).toNat % 16)) = even := by
  apply BitVec.eq_of_toNat_eq
  have nibble : (even.extractLsb' 8 4).toNat < 2 ^ 4 := (even.extractLsb' 8 4).isLt
  rw [BitVec.toNat_append, ← Nat.shiftLeft_add_eq_or_of_lt nibble]
  simp only [BitVec.toNat_ofNat, BitVec.extractLsb'_toNat, Nat.shiftRight_eq_div_pow, Nat.shiftLeft_eq]
  have := even.isLt
  omega

/-- The odd sample of a pair, from the high nibble of the shared byte and its own byte. -/
theorem oddSample (even odd : Raw) : BitVec.ofNat 12
    ((odd.extractLsb' 0 4 ++ even.extractLsb' 8 4).toNat / 16 + 16 * (odd.extractLsb' 4 8).toNat) = odd := by
  apply BitVec.eq_of_toNat_eq
  have nibble : (even.extractLsb' 8 4).toNat < 2 ^ 4 := (even.extractLsb' 8 4).isLt
  rw [BitVec.toNat_append, ← Nat.shiftLeft_add_eq_or_of_lt nibble]
  simp only [BitVec.toNat_ofNat, BitVec.extractLsb'_toNat, Nat.shiftRight_eq_div_pow, Nat.shiftLeft_eq]
  have := odd.isLt
  have := even.isLt
  omega

/-- The three bytes of a pair of channels. -/
theorem byteAt_controlPayload (xs : Vector Raw 12) (flags : Byte) (k : Nat) (hk : k < 6) :
    byteAt (controlPayload xs flags).toList (3 * k) = ((xs[2 * k]).extractLsb' 0 8).toNat
      ∧ byteAt (controlPayload xs flags).toList (3 * k + 1)
          = ((xs[2 * k + 1]).extractLsb' 0 4 ++ (xs[2 * k]).extractLsb' 8 4).toNat
      ∧ byteAt (controlPayload xs flags).toList (3 * k + 2) = ((xs[2 * k + 1]).extractLsb' 4 8).toNat := by
  have third : (3 * k + 1) / 3 = k ∧ (3 * k + 2) / 3 = k := by omega
  have notFlags : 3 * k ≠ 18 ∧ 3 * k + 1 ≠ 18 ∧ 3 * k + 2 ≠ 18 := by omega
  have entries : xs.toList.getD (2 * k) 0#12 = xs[2 * k] ∧ xs.toList.getD (2 * k + 1) 0#12 = xs[2 * k + 1] := by
    constructor <;> simp [List.getD_eq_getElem?_getD, show 2 * k < 12 by omega, show 2 * k + 1 < 12 by omega]
  rw [byteAt_toList _ _ (by omega), byteAt_toList _ _ (by omega), byteAt_toList _ _ (by omega)]
  simp only [controlPayload, Vector.getElem_ofFn, notFlags, third, Nat.mul_div_cancel_left, Nat.mul_mod_right,
    Nat.mul_add_mod, entries, Nat.zero_lt_succ, if_true, if_false]
  simp

/-- Packing and reading back gives every sample. -/
theorem sampleAt_controlPayload (xs : Vector Raw 12) (flags : Byte) (ch : Fin 12) :
    sampleAt (controlPayload xs flags).toList ch.val = xs[ch] := by
  obtain ⟨low, shared, high⟩ := byteAt_controlPayload xs flags (ch.val / 2) (by omega)
  unfold sampleAt
  dsimp only
  rw [low, shared, high]
  split
  · next even =>
    have index : 2 * (ch.val / 2) = ch.val := by omega
    rw [evenSample]
    simp only [index]
    rfl
  · next odd =>
    have index : 2 * (ch.val / 2) + 1 = ch.val := by omega
    rw [oddSample]
    simp only [index]
    rfl

/-- The flags byte gives RXHOLD. -/
theorem rxHold_controlPayload (xs : Vector Raw 12) (flags : Byte) :
    rxHold (controlPayload xs flags).toList = flags.getLsbD 0 := by
  rw [rxHold, byteAt_toList _ _ (by decide)]
  simp [controlPayload, BitVec.getLsbD, Nat.testBit_zero]

/-! ### Characters and lines (R202) -/

/-- Ten levels with a high first level are no character. -/
theorem uplinkCommand_idle {levels : List Bool} (high : levels[0]? = some true) (order : List Taker) :
    uplinkCommand order levels = none := by
  simp [uplinkCommand, Character.read, List.getD_eq_getElem?_getD, high]

/-- A low first and a low last level are a faulted character. -/
theorem uplinkCommand_faulted {levels : List Bool} (start : levels[0]? = some false) (stop : levels[9]? = some false)
    (order : List Taker) : uplinkCommand order levels = some .faultedCharacter := by
  simp [uplinkCommand, Character.read, List.getD_eq_getElem?_getD, start, stop]

/-- The character of a byte is taken as that byte. -/
theorem uplinkCommand_characterBits (order : List Taker) (b : Byte) :
    uplinkCommand order (characterBits b) = some (.uplinkByteTaken b order) := by
  rw [uplinkCommand, Character.read_characterBits]

/-- A line is high where its frame has ended. -/
theorem lineLevel_after {bs : List Byte} {n : Nat} (ended : 10 * bs.length ≤ n) : lineLevel (some bs) n = true := by
  have past : (lineBits bs)[n]? = none := List.getElem?_eq_none (by rwa [lineBits_length])
  simp [lineLevel, List.getD_eq_getElem?_getD, past]

/-- Within its frame a line carries the characters of the frame's bytes. -/
theorem lineLevel_within {bs : List Byte} {n : Nat} {b : Byte} (byte : bs[n / 10]? = some b) :
    (characterBits b)[n % 10]? = some (lineLevel (some bs) n) := by
  have bit := lineBits_getElem? bs n b byte
  have inside : n % 10 < (characterBits b).length := by
    rw [(characterBits_spec b).1]
    omega
  simp only [lineLevel, Option.getD_some, List.getD_eq_getElem?_getD]
  rw [bit, List.getElem?_eq_getElem inside, Option.getD_some]

/-! ### Payloads (12, section 12.5) -/

/-- The last two bytes of a status frame, by the cause record. -/
theorem faultBytes_eq (free : Nat) (fault : Option FaultCause) : faultBytes free fault
    = match fault with
      | none => [0xFF#8, Config.freeReason free]
      | some f => [BitVec.ofNat 8 f.command.val, BitVec.ofNat 8 f.reason.code] := by
  cases fault <;> rfl

/-- The upper nibble of the steer mode byte. -/
theorem pendingCode_eq (pending : Option SteerMode) : pendingCode pending = match pending with
    | none => 15
    | some m => m.code := by
  cases pending <;> rfl

/-- The current of a status frame, 0 before the first measurement. -/
theorem Btm.current_eq (m : Btm) : m.current = match m.readings with
    | none => 0
    | some r => r.current := by
  unfold Btm.current
  cases m.readings <;> rfl

/-- The code of the top alert, 0 where none stands. -/
theorem topCode_eq (top : Option Alert) : (top.map Alert.code).getD 0 = match top with
    | none => 0
    | some a => a.code := by
  cases top <;> rfl

/-- A status frame carries 38 bytes. -/
theorem Chip.statusPayload_length (c : Chip) : c.statusPayload.length = 38 := by
  have fault : (faultBytes c.rtx.free c.alt.fault).length = 2 := by cases c.alt.fault <;> rfl
  have one (n : Nat) : (byteOf n).length = 1 := rfl
  have two (n : Nat) : (wordOf n).length = 2 := rfl
  unfold Chip.statusPayload Alt.latchedBytes
  simp only [List.length_append, fault, one, two, List.length_singleton]

/-- The light levels of an accessory frame, one byte each. -/
theorem levels_flatMap (v : Vector Nat 8) : v.toList.flatMap byteOf
    = [BitVec.ofNat 8 v[0], BitVec.ofNat 8 v[1], BitVec.ofNat 8 v[2], BitVec.ofNat 8 v[3], BitVec.ofNat 8 v[4],
        BitVec.ofNat 8 v[5], BitVec.ofNat 8 v[6], BitVec.ofNat 8 v[7]] := by
  rcases v with ⟨⟨l⟩, h⟩
  match l, h with
  | [_, _, _, _, _, _, _, _], _ => rfl

/-- An accessory frame carries 21 bytes. -/
theorem Chip.accessoryPayload_length (c : Chip) : c.accessoryPayload.length = 21 := by
  unfold Chip.accessoryPayload
  rw [levels_flatMap]
  rfl

/-! ### The check byte (R2) -/

/-- One more covered byte. -/
theorem crc8_append (bs : List Byte) (b : Byte) : crc8 (bs ++ [b])
    = (List.range 8).foldl (fun x _ => if x.getLsbD 7 then (x <<< 1) ^^^ 0xA7#8 else x <<< 1) (crc8 bs ^^^ b) := by
  simp only [crc8, List.foldl_append, List.foldl_cons, List.foldl_nil, crcByte, crcShift, BitVec.msb_eq_getLsbD_last]

/-- Settles O19. -/
theorem framesAndSamplesRoundTrip : Obligations.FramesAndSamplesRoundTrip := by
  refine ⟨fun kind payload known => feed_wireFrame known,
    fun xs flags => ⟨sampleAt_controlPayload xs flags, rxHold_controlPayload xs flags⟩,
    fun b order => ?characters, fun levels order _ => ⟨fun high => uplinkCommand_idle high order,
      fun start stop => uplinkCommand_faulted start stop order⟩,
    fun bs n => ⟨rfl, lineLevel_after, fun b => lineLevel_within⟩,
    ⟨fun c => ⟨?status, c.statusPayload_length, ?accessory, c.accessoryPayload_length⟩, by decide, by decide, by decide,
      by decide, by decide, by decide, by decide, by decide, by decide⟩,
    ⟨rfl, crc8_append⟩, fun _ _ => rfl, fun _ _ => ⟨rfl, rfl, rfl, rfl⟩, fun _ => ⟨rfl, rfl⟩, fun _ => ⟨rfl, rfl⟩,
    by decide, by decide, by decide, ⟨fun _ => rfl, rfl⟩, by decide, Intake.feed_spec, fun order s running hunting empty => ?rows⟩
  case characters =>
    obtain ⟨length, start, stop, bits⟩ := characterBits_spec b
    exact ⟨length, start, stop, bits, uplinkCommand_characterBits order b⟩
  case status =>
    unfold Chip.statusPayload
    rw [Btm.current_eq, topCode_eq, faultBytes_eq, pendingCode_eq]
    simp only [byteOf, wordOf, Alt.latchedBytes, List.cons_append, List.nil_append]
    rfl
  case accessory =>
    unfold Chip.accessoryPayload
    rw [levels_flatMap]
    rfl
  case rows =>
    have released := Chip.clearHunt_eq_self hunting empty
    refine ⟨fun payload => ?_, fun k payload kind => ?_⟩
    · rw [exec_controlFrameAccepted running, released]
      rfl
    · have other : ¬ frameKind k = 1 := by
        unfold frameKind
        omega
      rw [exec_setupFrameAccepted running, released]
      exact congrArg (fun c => Host.Outcome.next { s with chip := c }) (if_neg other).symm

end Sys2Proof.Machine
end

section
/-! The events of the link (R9 to R16): a fresh frame, the entries into HOLD and FAILSAFE, and a refresh, each with the one
channel update it issues. -/

namespace Sys2Proof.Machine

/-! ### What an update leaves, as one record -/

/-- An update writes the blocks' own records, the decode, the measurement schedule and the mode. -/
theorem Chip.channelUpdate_record {st : Chip → Chip} (trigger : StatusTrigger st) (c : Chip) (order : List Taker) :
    c.channelUpdate st order = { c with
      cdc := c.decode
      stm := (c.channelUpdate st order).stm
      drm := (c.channelUpdate st order).drm
      wnc := (c.channelUpdate st order).wnc
      lsq := (c.channelUpdate st order).lsq
      btm := { c.btm with nextMeas := (c.channelUpdate st order).btm.nextMeas }
      alt := (c.channelUpdate st order).alt
      rtx := (c.channelUpdate st order).rtx
      atx := (c.channelUpdate st order).atx
      mdc := { c.mdc with mode := (c.channelUpdate st order).mdc.mode } } := by
  have frame := Chip.channelUpdate_frame trigger c order
  exact Chip.fieldwise _ _ frame.now frame.spool frame.held frame.tables frame.ulr frame.slots frame.cdc rfl rfl rfl rfl
    frame.btm frame.bga rfl frame.sup rfl rfl frame.tbs frame.mdc

/-- Away from LIVE an update leaves the measurement schedule and the mode too. -/
theorem Chip.channelUpdate_record_unlive {st : Chip → Chip} (trigger : StatusTrigger st) {c : Chip} (link : c.ulr.link ≠ .live)
    (order : List Taker) : c.channelUpdate st order = { c with
      cdc := c.decode
      stm := (c.channelUpdate st order).stm
      drm := (c.channelUpdate st order).drm
      wnc := (c.channelUpdate st order).wnc
      lsq := (c.channelUpdate st order).lsq
      alt := (c.channelUpdate st order).alt
      rtx := (c.channelUpdate st order).rtx
      atx := (c.channelUpdate st order).atx } := by
  have frame := Chip.channelUpdate_frame trigger c order
  obtain ⟨mdc, btm⟩ := frame.same (.inr link)
  exact Chip.fieldwise _ _ frame.now frame.spool frame.held frame.tables frame.ulr frame.slots frame.cdc rfl rfl rfl rfl
    btm frame.bga rfl frame.sup rfl rfl frame.tbs mdc

/-- A refresh at a fifth ordinal has RTX build a status frame. -/
theorem Chip.refresh_statusBuilt {b c : Chip} (rtx : b.rtx = c.rtx) (order : List Taker) (fifth : c.ulr.ordinal % 5 = 0) :
    b.StatusBuilt (c.channelUpdate Chip.refreshStatus order) b.rtx order := by
  obtain ⟨g, frame, record, built, last⟩ := Chip.channelUpdate_rtxTurn (.inr rfl) b c order rtx
  refine ⟨g, frame.during (Chip.channelUpdate_frame (.inr rfl) c order), record, ?_, last⟩
  have ordinal : g.ulr.ordinal % 5 = 0 := by rw [frame.ulr]; exact fifth
  rw [built, Chip.refreshStatus, if_pos ordinal, record]

/-- RTX's record at an update of a control frame: its count, and at the count of STATUS_N a status frame. -/
theorem Chip.control_rtx {b c : Chip} (rtx : b.rtx = c.rtx) (order : List Taker) :
    (b.rtx.count + 1 < c.tables.link.statusN →
      (c.channelUpdate Chip.countControl order).rtx = { b.rtx with count := b.rtx.count + 1 })
    ∧ (c.tables.link.statusN ≤ b.rtx.count + 1 →
      b.StatusBuilt (c.channelUpdate Chip.countControl order) { b.rtx with count := 0 } order) := by
  obtain ⟨g, frame, record, built, last⟩ := Chip.channelUpdate_rtxTurn (.inl rfl) b c order rtx
  have tables : g.tables = c.tables := frame.tables
  refine ⟨fun few => ?_, fun due => ⟨g, frame.during (Chip.channelUpdate_frame (.inl rfl) c order), record, ?_, last⟩⟩
  · rw [built, Chip.countControl, tables, record, if_neg (by omega)]
  · rw [built, Chip.countControl, tables, record, if_pos due]

/-! ### The return to ACTIVE (R197) -/

/-- The return sets the mode. -/
theorem Chip.returnActive_mode (c : Chip) : c.returnActive.mdc = { c.mdc with mode := .active } := by
  simp [Chip.returnActive, Chip.setMode]

/-- The return schedules the next measurement completion and leaves BTM otherwise. -/
theorem Chip.returnActive_btm (c : Chip) :
    c.returnActive.btm = { c.btm with nextMeas := c.btm.nextAfter c.now .active } := by
  simp [Chip.returnActive, Chip.reschedule, Chip.setMode]

/-- Turns of an update in ACTIVE leave what ActiveFrame names. -/
theorem ActiveFrame.takes {d : Chip} (mode : d.mdc.mode = .active) {st : Chip → Chip} (trigger : StatusTrigger st)
    (l : List Taker) : ActiveFrame d (l.foldl (Chip.takeUpdate st) d) :=
  foldl_induct (P := ActiveFrame d) (fun _ t frame => frame.take mode trigger t) l d (ActiveFrame.refl d)

/-- An update under the conditions of R197 returns the part to ACTIVE. -/
theorem Chip.channelUpdate_returns {c : Chip} (parked : c.mdc.mode = .parked) (leaves : c.LeavesAt) {st : Chip → Chip}
    (trigger : StatusTrigger st) (order : List Taker) :
    (c.channelUpdate st order).mdc.mode = .active
      ∧ (c.channelUpdate st order).btm.nextMeas = c.btm.nextAfter c.now .active := by
  obtain ⟨before, after, split⟩ := List.append_of_mem (mem_takers .mdc order)
  obtain ⟨e, -, frame, turns, -⟩ := c.channelUpdate_leaves parked trigger leaves split
  have returned : e.returnActive.mdc.mode = .active := by rw [Chip.returnActive_mode]
  have rest := ActiveFrame.takes returned trigger after
  rw [turns, rest.mdc, rest.btm, Chip.returnActive_btm, frame.btm, frame.frame.now]
  exact ⟨returned, rfl⟩

/-! ### A fresh frame (R9, R11) -/

/-- Ending a cause leaves every latch, so the top alert stands and the light picture is not formed for it. -/
theorem Chip.alert_endCause_lsq (c : Chip) (a : Alert) : (c.alert fun t => t.cause a false).lsq = c.lsq :=
  (Chip.alert_lsq c _).2.1 rfl

/-- What the frame makes of the lights before its update. -/
theorem Chip.goLive_lsq (c : Chip) (payload : List Byte) :
    (c.ulr.link = .live → (c.goLive payload).lsq = c.lsq)
      ∧ (c.ulr.link ≠ .live → (c.goLive payload).lsq = (c.goLive payload).picture)
      ∧ (c.goLive payload).lsq.brakeHold = c.lsq.brakeHold ∧ (c.goLive payload).lsq.timebase = c.lsq.timebase
      ∧ (c.goLive payload).lsq.nextEvent = c.lsq.nextEvent ∧ (c.goLive payload).lsq.grant = c.lsq.grant
      ∧ (c.goLive payload).lsq.granted = c.lsq.granted := by
  have ended : ((c.freshSlots payload).alert fun t => t.cause .linkFailsafe false).lsq = c.lsq := Chip.alert_endCause_lsq _ _
  have lit := Chip.relightIf_lsq ((c.freshSlots payload).alert fun t => t.cause .linkFailsafe false) (decide (c.ulr.link ≠ .live))
  have kept := Chip.relightIf_kept ((c.freshSlots payload).alert fun t => t.cause .linkFailsafe false)
    (decide (c.ulr.link ≠ .live))
  rw [ended] at lit kept
  exact ⟨fun live => lit.1 (decide_eq_false fun other => other live), fun other => lit.2 (decide_eq_true other), kept⟩

/-- Settles O22. -/
theorem freshFrameMakesTheLinkLive : Obligations.FreshFrameMakesTheLinkLive := by
  intro payload order s running fresh
  obtain ⟨same, formed, kept⟩ := s.chip.clearHunt.goLive_lsq payload.toList
  have record := Chip.channelUpdate_record (.inl rfl) (s.chip.clearHunt.goLive payload.toList) order
  have frame := Chip.channelUpdate_frame (.inl rfl) (s.chip.clearHunt.goLive payload.toList) order
  have rtx := Chip.control_rtx (b := s.chip) (c := s.chip.clearHunt.goLive payload.toList) rfl order
  have accessory := Chip.channelUpdate_accessoryBuilt (.inl rfl) s.chip (s.chip.clearHunt.goLive payload.toList) order rfl
  refine ⟨{ s with chip := (s.chip.clearHunt.goLive payload.toList).channelUpdate Chip.countControl order },
    s.chip.clearHunt.goLive payload.toList, ?accepted, rfl, rfl, rfl, same, formed, kept.1, kept.2.1, kept.2.2.1, kept.2.2.2.1,
    kept.2.2.2.2, rfl, record, ?cause, fun a other => ?latch, fun active => ?acts, fun parked => ⟨?leaves, ?stays⟩,
    accessory, rtx.1, rtx.2⟩
  case accepted =>
    rw [exec_controlFrameAccepted running, Chip.acceptControl, if_neg (by rw [fresh]; decide)]
  case cause => exact (frame.alt .linkFailsafe (by decide)).2.trans (Alt.caused_cause _ _ _ false)
  case latch => exact (frame.alt a other).1.trans (Alt.has_cause _ _ _ false |>.trans (by simp))
  case leaves =>
    rintro ⟨throttle, request⟩
    rw [frame.cdc] at throttle
    obtain ⟨mode, next⟩ := Chip.channelUpdate_returns (c := s.chip.clearHunt.goLive payload.toList) parked
      ⟨rfl, throttle, request⟩ (.inl rfl) order
    exact ⟨mode, next.trans (Btm.nextAfter_active _ _)⟩
  case stays =>
    intro stays
    have parkedFrame := Chip.channelUpdate_parked (s.chip.clearHunt.goLive payload.toList) parked (.inl rfl) order
      fun leaves => stays ⟨by rw [frame.cdc]; exact leaves.2.1, leaves.2.2⟩
    exact ⟨(congrArg Mdc.mode parkedFrame.mdc).trans parked, parkedFrame.btm⟩
  case acts =>
    have activeFrame := Chip.channelUpdate_active (s.chip.clearHunt.goLive payload.toList) active (.inl rfl) order
    exact ⟨(congrArg Mdc.mode activeFrame.mdc).trans active, activeFrame.btm⟩

/-! ### The timer's expiries (R13, R14) -/

/-- What an alert and the picture formed after it keep of LSQ. -/
theorem Chip.alert_relight_kept (c : Chip) (f : Alt → Alt) :
    (c.alert f).relight.lsq.brakeHold = c.lsq.brakeHold ∧ (c.alert f).relight.lsq.timebase = c.lsq.timebase
      ∧ (c.alert f).relight.lsq.nextEvent = c.lsq.nextEvent ∧ (c.alert f).relight.lsq.grant = c.lsq.grant
      ∧ (c.alert f).relight.lsq.granted = c.lsq.granted :=
  c.alert_kept f

/-- The part at the entry into HOLD, as its refresh finds it. -/
def Chip.enteringHold (c : Chip) : Chip := (c.holdSlots.alert fun t => t.raise .linkHold).relight

/-- The part at the entry into FAILSAFE, as its refresh finds it. -/
def Chip.enteringFailsafe (c : Chip) : Chip := (c.failsafeSlots.startPark.alert fun t => t.cause .linkFailsafe true).relight

/-- The entry into HOLD is its refresh of the part so prepared. -/
theorem Chip.enterHold_eq (c : Chip) (order : List Taker) :
    c.enterHold order = c.enteringHold.channelUpdate Chip.refreshStatus order := rfl

/-- The entry into FAILSAFE is its refresh of the part so prepared. -/
theorem Chip.enterFailsafe_eq (c : Chip) (order : List Taker) :
    c.enterFailsafe order = c.enteringFailsafe.channelUpdate Chip.refreshStatus order := rfl

/-- The row of the entry into HOLD, where the timer runs in LIVE. -/
theorem exec_entryIntoHold {s : State} (running : s.chip.Running) (live : s.chip.ulr.link = .live) {due : Nat}
    (runs : s.chip.ulr.linkTimer = some due) (order : List Taker) : exec (.entryIntoHold order) s
      = .next { s with chip := Chip.enterHold { s.chip with now := s.chip.dueAt due } order } :=
  next_congr ((if_pos live).trans (by rw [runs, Chip.whenDue_eq running]; rfl))

/-- The row of the entry into FAILSAFE, where the timer runs in HOLD. -/
theorem exec_entryIntoFailsafe {s : State} (running : s.chip.Running) (hold : s.chip.ulr.link = .hold) {due : Nat}
    (runs : s.chip.ulr.linkTimer = some due) (order : List Taker) : exec (.entryIntoFailsafe order) s
      = .next { s with chip := Chip.enterFailsafe { s.chip with now := s.chip.dueAt due } order } :=
  next_congr ((if_pos hold).trans (by rw [runs, Chip.whenDue_eq running]; rfl))

/-- The row of a refresh, where one is due. -/
theorem exec_refresh {s : State} (running : s.chip.Running) {due : Nat} (runs : s.chip.ulr.refreshDue = some due)
    (order : List Taker) : exec (.refresh order) s = .next { s with
      chip := Chip.channelUpdate
        { s.chip with
          now := s.chip.dueAt due
          ulr := { s.chip.ulr with refreshDue := some (due + 20), ordinal := s.chip.ulr.ordinal + 1 } }
        Chip.refreshStatus order } := by
  refine next_congr ?_
  rw [runs, Chip.whenDue_eq running, Chip.refreshed]
  simp only [runs, Option.map_some]
  rfl

/-- A slot's step into HOLD, by its cases. -/
theorem Slot.hold_eq (x : Slot) : x.hold = match x with
    | .fresh r => .held r
    | other => other := by
  cases x <;> rfl

/-- A slot's step into FAILSAFE, by its entry. -/
theorem Slot.fallBack_eq (x : Slot) (entry : Option Raw) : x.fallBack entry = match entry with
    | some r => .failsafe r
    | none => x := by
  cases entry <;> rfl

/-- Settles O23. -/
theorem linkTimerExpiryEntersHold : Obligations.LinkTimerExpiryEntersHold := by
  intro order s due running live runs now slots
  have held : (Vector.ofFn fun i => (s.chip.slots[i]).hold) = slots :=
    congrArg Vector.ofFn (funext fun i => Slot.hold_eq _)
  generalize start : ({ s.chip with now := now } : Chip) = c
  have kept := c.holdSlots.alert_relight_kept fun t => t.raise .linkHold
  have record := Chip.channelUpdate_record_unlive (.inr rfl) (c := c.enteringHold) (fun live => nomatch live) order
  have frame := Chip.channelUpdate_frame (.inr rfl) c.enteringHold order
  have rtx := (c.enteringHold.refresh_rtx order _ rfl).1 (show 1 % 5 ≠ 0 by decide)
  subst start
  refine ⟨{ s with chip := _ }, _, exec_entryIntoHold running live runs order, rfl, ?prepared, rfl, rfl, kept.1, kept.2.1,
    kept.2.2.1, kept.2.2.2.1, kept.2.2.2.2, rfl, ?record, fun a other => ?latch,
    Chip.channelUpdate_accessoryBuilt (.inr rfl) s.chip _ order rfl⟩
  case prepared =>
    rw [← held]
    rfl
  case record =>
    rw [rtx] at record
    rw [← held]
    exact record
  case latch =>
    refine (frame.alt a other).1.trans ((Alt.has_raise _ _ _).trans ?_)
    simp only [eq_comm]
    rfl

/-- Settles O24. -/
theorem linkTimerExpiryEntersFailsafe : Obligations.LinkTimerExpiryEntersFailsafe := by
  intro order s due running hold runs now slots
  have fallen : (Vector.ofFn fun i => (s.chip.slots[i]).fallBack s.chip.tables.failsafe[i]) = slots :=
    congrArg Vector.ofFn (funext fun i => Slot.fallBack_eq _ _)
  generalize start : ({ s.chip with now := now } : Chip) = c
  have kept := c.failsafeSlots.startPark.alert_relight_kept fun t => t.cause .linkFailsafe true
  have record := Chip.channelUpdate_record_unlive (.inr rfl) (c := c.enteringFailsafe) (fun live => nomatch live) order
  have frame := Chip.channelUpdate_frame (.inr rfl) c.enteringFailsafe order
  have rtx := (c.enteringFailsafe.refresh_rtx order _ rfl).1
  have status := fun b same => Chip.refresh_statusBuilt (b := b) (c := c.enteringFailsafe) same order
  subst start
  refine ⟨{ s with chip := _ }, _, exec_entryIntoFailsafe running hold runs order, rfl, ?prepared, rfl, rfl, kept.1, kept.2.1,
    kept.2.2.1, kept.2.2.2.1, kept.2.2.2.2, rfl, ?record, fun a other => ?latch, ?cause,
    Chip.channelUpdate_accessoryBuilt (.inr rfl) s.chip _ order rfl, rtx, status s.chip rfl⟩
  case prepared =>
    rw [← fallen]
    rfl
  case record =>
    rw [← fallen]
    exact record
  case latch =>
    refine (frame.alt a other).1.trans ((Alt.has_cause _ _ _ true).trans ?_)
    simp only [Bool.true_and, eq_comm]
    rfl
  case cause => exact (frame.alt .linkFailsafe (by decide)).2.trans (Alt.caused_cause _ _ _ true)

/-- Settles O25. -/
theorem refreshRepresentsTheSlots : Obligations.RefreshRepresentsTheSlots := by
  intro order s due running link runs
  generalize start : ({ s.chip with
    now := s.chip.dueAt due
    ulr := { s.chip.ulr with refreshDue := some (due + 20), ordinal := s.chip.ulr.ordinal + 1 } } : Chip) = c
  have unlive : c.ulr.link ≠ .live := by
    rw [← start]
    exact link
  have record := Chip.channelUpdate_record_unlive (.inr rfl) unlive order
  have frame := Chip.channelUpdate_frame (.inr rfl) c order
  have rtx := (c.refresh_rtx order _ rfl).1
  have status := fun b same => Chip.refresh_statusBuilt (b := b) (c := c) same order
  subst start
  refine ⟨{ s with chip := _ }, exec_refresh running runs order, rfl, rfl, record, fun a other => (frame.alt a other).1,
    Chip.channelUpdate_accessoryBuilt (.inr rfl) s.chip _ order rfl, rtx, status s.chip rfl⟩

end Sys2Proof.Machine
end

section
/-! What a channel update does to the steering (R37 to R51), and the turns the blocks take (R11). -/

namespace Sys2Proof.Machine

/-! ### The turns -/

/-- The arming step writes the arming state and its timer. -/
theorem Chip.armingStep_writes (c : Chip) (m : Drm) :
    ∃ state timer, c.armingStep m = { m with arming := state, armTimer := timer } := by
  unfold Chip.armingStep
  split <;> split <;> exact ⟨_, _, rfl⟩

/-- DRM forms six fields of its record and leaves the others to the handling of the axles. -/
theorem Chip.driveFormed_eq (c : Chip) : c.driveFormed = { c.drm with
    command := c.driveFormed.command, mode := c.driveFormed.mode, arming := c.driveFormed.arming
    armTimer := c.driveFormed.armTimer, request := c.driveFormed.request, axleRequest := c.driveFormed.axleRequest } := by
  obtain ⟨state, timer, formed⟩ := c.armingStep_writes { c.drm with
    command := c.driveCommand, mode := c.cdc.driveSel, request := driveRequest c.driveCommand c.profile.speedLimit
    axleRequest := capRequest c.driveCap (driveRequest c.driveCommand c.profile.speedLimit) }
  rw [Chip.driveFormed]
  dsimp only
  rw [formed]

/-- DRM's turn in ACTIVE handles the axles with the record so formed. -/
theorem Chip.takeUpdate_drm_active {c : Chip} (active : c.mdc.mode = .active) (st : Chip → Chip) :
    c.takeUpdate st .drm = c.handleAxles { c.drm with
      command := (c.takeUpdate st .drm).drm.command, mode := (c.takeUpdate st .drm).drm.mode
      arming := (c.takeUpdate st .drm).drm.arming, armTimer := (c.takeUpdate st .drm).drm.armTimer
      request := (c.takeUpdate st .drm).drm.request, axleRequest := (c.takeUpdate st .drm).drm.axleRequest } := by
  have turn : c.takeUpdate st .drm = c.handleAxles c.driveFormed := by
    rw [Chip.takeUpdate, Chip.driveUpdate, if_pos active]
  rw [turn]
  simp only [Chip.handleAxles_command, Chip.handleAxles_mode, Chip.handleAxles_arming, Chip.handleAxles_armTimer,
    Chip.handleAxles_request, Chip.handleAxles_axleRequest]
  rw [← Chip.driveFormed_eq]

/-- WNC's turn sets the record it leaves. -/
theorem Chip.takeUpdate_wnc_turn (c : Chip) (st : Chip → Chip) :
    c.takeUpdate st .wnc = if c.mdc.mode = .active then c.setWinch (c.takeUpdate st .wnc).wnc else c := by
  rw [Chip.takeUpdate, Chip.winchUpdate]
  split
  · rw [Chip.setWinch_again]
  · rfl

/-- MDC's conditions for the return to ACTIVE (R197). -/
theorem Chip.leavesParked_true_iff (c : Chip) : c.leavesParked = true
    ↔ c.mdc.mode = .parked ∧ c.ulr.link = .live ∧ c.cdc.throttle = 0 ∧ c.parkRequest = false := by
  simp [Chip.leavesParked, and_assoc]

/-- The return to ACTIVE, as one record. -/
theorem Chip.returnActive_eq (c : Chip) :
    c.returnActive = { (Chip.handleAxles { c with mdc := { c.mdc with mode := .active } } c.drm).winchLockTest with
      lsq := (Chip.handleAxles { c with mdc := { c.mdc with mode := .active } } c.drm).winchLockTest.picture
      btm := { c.btm with nextMeas :=
        if c.btm.readings = none then c.btm.nextMeas
        else if c.now < c.btm.lastMeas + 10 then some (c.btm.lastMeas + 10) else some (c.now + 10) } } := by
  obtain ⟨a, rfl, returned⟩ := c.returnActive_spec
  rw [returned, Chip.returnActive_btm, Btm.nextAfter_active]

/-! ### The steering record -/

/-- The active and pending modes, by the window (R39, R40). -/
theorem steerModes_spec (first : Bool) (active selected : SteerMode) (s : Int) (window : Nat) :
    (first = true → steerModes first active selected s window = (selected, none))
    ∧ (first = false → selected = active → steerModes first active selected s window = (active, none))
    ∧ (first = false → selected ≠ active → s.natAbs ≤ window →
        steerModes first active selected s window = (selected, none))
    ∧ (first = false → selected ≠ active → window < s.natAbs →
        steerModes first active selected s window = (active, some selected)) := by
  refine ⟨?_, ?_, ?_, ?_⟩
  · rintro rfl
    rfl
  · rintro rfl rfl
    simp [steerModes]
  · rintro rfl other inside
    simp [steerModes, other, inside]
  · rintro rfl other outside
    simp [steerModes, other, Nat.not_le.2 outside]

/-- The front target is the command but in REAR (R44). -/
theorem frontTarget_eq (mode : SteerMode) (s : Int) : frontTarget mode s = if mode = .rear then 0 else s := by
  cases mode <;> rfl

/-- The rear target is the product, negated but in CRAB, and 0 in FRONT (R44). -/
theorem rearTarget_eq (mode : SteerMode) (s : Int) (ratio : Nat) : rearTarget mode s ratio
    = if mode = .front then 0
      else if mode = .crab then (s * (ratio : Int)).tdiv 1000 else -(s * (ratio : Int)).tdiv 1000 := by
  cases mode <;> rfl

/-- Setting the output leaves the command, the modes and the commanded widths. -/
theorem Stm.setOutput_keeps (m : Stm) (t : Tables) (now : Nat) (pulse : Bool) :
    (m.setOutput t now pulse).command = m.command ∧ (m.setOutput t now pulse).first = m.first
      ∧ (m.setOutput t now pulse).active = m.active ∧ (m.setOutput t now pulse).pending = m.pending
      ∧ (m.setOutput t now pulse).front = m.front ∧ (m.setOutput t now pulse).rear = m.rear
      ∧ (m.setOutput t now pulse).pulsing = pulse := by
  cases pulse
  · exact ⟨rfl, rfl, rfl, rfl, rfl, rfl, rfl⟩
  · unfold Stm.setOutput
    rw [if_pos rfl]
    split
    · next pulsing => exact ⟨rfl, rfl, rfl, rfl, rfl, rfl, pulsing⟩
    · exact ⟨rfl, rfl, rfl, rfl, rfl, rfl, rfl⟩

/-- Schedule and pulses: an output that becomes PULSING starts both pulses, one that pulses already keeps them, and a silent one
has no schedule (R51, R52). -/
theorem Stm.setOutput_pulses (m : Stm) (t : Tables) (now : Nat) (pulse : Bool) :
    (m.pulsing = false → pulse = true → (m.setOutput t now pulse).schedule = some (now + 20)
        ∧ (m.setOutput t now pulse).pulseFront = m.front.map (clampNat t.servoFront.left t.servoFront.right)
        ∧ (m.setOutput t now pulse).pulseRear = m.rear.map (clampNat t.servoRear.left t.servoRear.right))
      ∧ (m.pulsing = true → pulse = true → (m.setOutput t now pulse).schedule = m.schedule
        ∧ (m.setOutput t now pulse).pulseFront = m.pulseFront ∧ (m.setOutput t now pulse).pulseRear = m.pulseRear)
      ∧ (pulse = false → (m.setOutput t now pulse).schedule = none
        ∧ (m.setOutput t now pulse).pulseFront = m.pulseFront ∧ (m.setOutput t now pulse).pulseRear = m.pulseRear) := by
  refine ⟨?_, ?_, ?_⟩
  · rintro silent rfl
    have starts : m.setOutput t now true = { m with pulsing := true }.startPulse t (now + 20) := by
      rw [Stm.setOutput, if_pos rfl, if_neg (by rw [silent]; decide)]
    rw [starts]
    exact ⟨rfl, rfl, rfl⟩
  · rintro pulsing rfl
    have goesOn : m.setOutput t now true = m := by rw [Stm.setOutput, if_pos rfl, if_pos pulsing]
    rw [goesOn]
    exact ⟨rfl, rfl, rfl⟩
  · rintro rfl
    exact ⟨rfl, rfl, rfl⟩

/-- The output pulses in LIVE and HOLD, and in FAILSAFE where SERVO_QUIET_FS is clear (R50). -/
theorem Chip.pulsingNow_iff (c : Chip) : c.pulsingNow = true
    ↔ c.ulr.link = .live ∨ c.ulr.link = .hold ∨ c.ulr.link = .failsafe ∧ c.servoQuiet = false := by
  unfold Chip.pulsingNow
  cases c.ulr.link <;> simp

/-- The steering record reads the tables, the decode, the switch space and the record before. -/
theorem Chip.steerMix_congr {c d : Chip} (tables : c.tables = d.tables) (cdc : c.cdc = d.cdc) (sup : c.sup = d.sup)
    (stm : c.stm = d.stm) : c.steerMix = d.steerMix := by
  cases c
  cases d
  simp only at tables cdc sup stm
  subst tables cdc sup stm
  rfl

/-- The output state reads the link and the switch space. -/
theorem Chip.pulsingNow_congr {c d : Chip} (ulr : c.ulr = d.ulr) (sup : c.sup = d.sup) : c.pulsingNow = d.pulsingNow := by
  unfold Chip.pulsingNow Chip.servoQuiet Chip.switchBit
  rw [ulr, sup]

/-- Turns without STM's leave its record. -/
theorem Chip.takeUpdates_stm_other {st : Chip → Chip} (trigger : StatusTrigger st) {l : List Taker} (other : Taker.stm ∉ l)
    (c : Chip) : (l.foldl (Chip.takeUpdate st) c).stm = c.stm := by
  induction l generalizing c with
  | nil => rfl
  | cons t l ih =>
    have first : t ≠ .stm := fun same => other (same ▸ List.mem_cons_self)
    have rest : Taker.stm ∉ l := fun later => other (List.mem_cons_of_mem _ later)
    rw [List.foldl_cons, ih rest, Chip.takeUpdate_stm c trigger t first]

/-- At the update that returns the part to ACTIVE, STM keeps its record where it comes before MDC and takes the update where it
comes after (R37, R197). -/
theorem Chip.channelUpdate_returns_stm {c : Chip} (parked : c.mdc.mode = .parked) (leaves : c.LeavesAt) {st : Chip → Chip}
    (trigger : StatusTrigger st) {order before after : List Taker} (split : takers order = before ++ .mdc :: after) :
    (.stm ∈ before → (c.channelUpdate st order).stm = c.stm)
      ∧ (.stm ∈ after → (c.channelUpdate st order).stm
        = (Chip.channelUpdate { c with mdc := { c.mdc with mode := .active } } st order).stm) := by
  obtain ⟨e, -, frame, turns, apart, once, -⟩ := c.channelUpdate_leaves parked trigger leaves split
  have stm : e.returnActive.stm = c.stm := (Chip.returnActive_stm e).trans frame.stm
  refine ⟨fun first => ?_, fun later => ?_⟩
  · rw [turns, Chip.takeUpdates_stm_other trigger (apart _ first), stm]
  · rw [turns, Chip.takeUpdates_stm _ (by rw [Chip.returnActive_mode]) trigger later once, Chip.channelUpdate_stm _ rfl trigger]
    have mixed : e.returnActive.steerMix
        = Chip.steerMix (Chip.decodeNow { c with mdc := { c.mdc with mode := .active } }) :=
      Chip.steerMix_congr ((Chip.returnActive_tables e).trans frame.frame.tables)
        ((Chip.returnActive_cdc e).trans frame.frame.cdc) ((Chip.returnActive_sup e).trans frame.frame.sup) stm
    have pulsing : e.returnActive.pulsingNow = c.pulsingNow :=
      Chip.pulsingNow_congr ((Chip.returnActive_ulr e).trans frame.frame.ulr) ((Chip.returnActive_sup e).trans frame.frame.sup)
    rw [mixed, pulsing, Chip.returnActive_tables, Chip.returnActive_now, frame.frame.tables, frame.frame.now]
    rfl

/-- The steering record that an update of either cause leaves in ACTIVE (R37 to R51). -/
theorem Chip.channelUpdate_steers {c : Chip} (active : c.mdc.mode = .active) {st : Chip → Chip} (trigger : StatusTrigger st)
    (order : List Taker) :
    let d := c.decodeNow
    let p := d.profile
    let cmd := (c.tables.curve[p.steeringCurve]).eval d.cdc.steer
    let sel := if c.rearSteerLock then SteerMode.front else d.cdc.steerSel
    let t := (c.channelUpdate st order).stm
    t.command = cmd ∧ t.first = false
      ∧ (t.active, t.pending) = steerModes c.stm.first c.stm.active sel cmd c.tables.link.window
      ∧ t.front = some (c.tables.servoFront.slewed p.slew c.stm.front (c.tables.servoFront.width (frontTarget t.active cmd)))
      ∧ t.rear = some (c.tables.servoRear.slewed p.slew c.stm.rear
          (c.tables.servoRear.width (rearTarget t.active cmd p.rearRatio)))
      ∧ t.pulsing = c.pulsingNow
      ∧ (c.stm.pulsing = false → t.pulsing = true → t.schedule = some (c.now + 20)
          ∧ t.pulseFront = t.front.map (clampNat c.tables.servoFront.left c.tables.servoFront.right)
          ∧ t.pulseRear = t.rear.map (clampNat c.tables.servoRear.left c.tables.servoRear.right))
      ∧ (c.stm.pulsing = true → t.pulsing = true → t.schedule = c.stm.schedule ∧ t.pulseFront = c.stm.pulseFront
          ∧ t.pulseRear = c.stm.pulseRear)
      ∧ (t.pulsing = false → t.schedule = none ∧ t.pulseFront = c.stm.pulseFront ∧ t.pulseRear = c.stm.pulseRear) := by
  intro d p cmd sel t
  have output : t = d.steerMix.setOutput c.tables c.now c.pulsingNow := Chip.channelUpdate_stm c active trigger order
  obtain ⟨command, first, mode, pending, front, rear, pulsing⟩ :=
    Stm.setOutput_keeps d.steerMix c.tables c.now c.pulsingNow
  have pulses := Stm.setOutput_pulses d.steerMix c.tables c.now c.pulsingNow
  rw [← output] at command first mode pending front rear pulsing pulses
  rw [← front, ← rear, ← pulsing] at pulses
  refine ⟨command, first, ?_, front.trans ?_, rear.trans ?_, pulsing, pulses⟩
  · rw [mode, pending]
    rfl
  · rw [mode]
    rfl
  · rw [mode]
    rfl

/-- Settles O26. -/
theorem updateSteers : Obligations.UpdateSteers := by
  refine ⟨fun st c order trigger => ?turns, fun st c order trigger active => ?steers, fun st c order trigger parked => ?returns⟩
  case turns =>
    intro turn activeChip tested formed leaves
    have leaves_iff : c.leavesParked = true ↔ leaves := c.leavesParked_true_iff
    refine ⟨rfl, rfl, ?drm, Chip.takeUpdate_wnc_turn c st, rfl, fun go => ?go, fun stay => ?stay, rfl, ?status⟩
    case drm =>
      by_cases active : c.mdc.mode = .active
      · rw [if_pos active]
        exact Chip.takeUpdate_drm_active active st
      · rw [if_neg active]
        exact congrArg c.handleAxles (if_neg active)
    case go => exact (if_pos (leaves_iff.2 go)).trans c.returnActive_eq
    case stay => exact if_neg fun go => stay (leaves_iff.1 go)
    case status =>
      rcases trigger with rfl | rfl
      · exact ⟨rfl, rfl⟩
      · exact ⟨rfl, rfl⟩
  case steers =>
    intro d p cmd sel t product
    obtain ⟨command, first, modes, front, rear, pulsing, pulses⟩ := Chip.channelUpdate_steers active trigger order
    obtain ⟨atFirst, same, inside, outside⟩ := steerModes_spec c.stm.first c.stm.active sel cmd c.tables.link.window
    refine ⟨command, first, fun starts => Prod.mk.inj (modes.trans (atFirst starts)),
      fun later stays => Prod.mk.inj (modes.trans (same later stays)),
      fun later moves near => Prod.mk.inj (modes.trans (inside later moves near)),
      fun later moves far => Prod.mk.inj (modes.trans (outside later moves far)), ?_, ?_, ?_, pulses⟩
    · rw [← frontTarget_eq]
      exact front
    · rw [← rearTarget_eq]
      exact rear
    · rw [pulsing]
      exact c.pulsingNow_iff
  case returns =>
    intro t activeChip leaves
    exact ⟨fun stays => (c.channelUpdate_parked parked trigger order stays).stm,
      fun go before after split => Chip.channelUpdate_returns_stm parked go trigger split⟩

end Sys2Proof.Machine
end

section
/-! What a channel update does to the drive (R58 to R67, R79, R197). -/

namespace Sys2Proof.Machine

/-! ### Turns taken once -/

/-- Where one member of a list without repetition acts once, what its turn establishes stands after the others' turns. -/
theorem foldl_around {α : Type} {P Q : Chip → Prop} {f : Chip → α → Chip} {x : α} {l : List α} (mem : x ∈ l) (nodup : l.Nodup)
    (before : ∀ c y, y ∈ l → y ≠ x → Q c → Q (f c y)) (turn : ∀ c, Q c → P (f c x))
    (after : ∀ c y, y ∈ l → y ≠ x → P c → P (f c y)) {c : Chip} (start : Q c) : P (l.foldl f c) := by
  obtain ⟨l₁, l₂, rfl⟩ := List.append_of_mem mem
  have apart := (List.nodup_append.1 nodup).2.2
  have unique := (List.nodup_cons.1 (List.nodup_append.1 nodup).2.1).1
  rw [List.foldl_append, List.foldl_cons]
  refine List.foldlRecOn l₂ f (motive := P) (turn _ (List.foldlRecOn l₁ f (motive := Q) start fun c h y first => ?_))
    fun c h y later => ?_
  · exact before c y (List.mem_append_left _ first) (apart y first x List.mem_cons_self) h
  · exact after c y (List.mem_append_right _ (List.mem_cons_of_mem _ later)) (fun same => unique (same ▸ later)) h

/-! ### Axles at rest -/

/-- A drive that is not ARMED: both axles rest, in the state that link and mode give them (R79). -/
theorem Chip.handleAxles_unarmed (c : Chip) {m : Drm} (unarmed : m.arming ≠ .armed) :
    (c.handleAxles m).drm = { m with demand := 0, front := c.restAxle, rear := c.restAxle } := by
  have next (a : Axle) : c.axleNext m a = c.axleNext m.disarm a := by
    simp [Chip.axleNext, unarmed]
  have rest := c.handleAxles_disarmed m.disarm rfl
  rw [Chip.handleAxles_drm] at rest ⊢
  rw [next, next]
  exact congrArg (fun t : Drm => { t with arming := m.arming, armTimer := m.armTimer }) rest

/-- On a LIVE link an axle at rest coasts. -/
theorem Chip.restAxle_live {c : Chip} (live : c.ulr.link = .live) :
    c.restAxle = { state := .off, timer := none, left := none, effective := 0, output := 0 } := by
  simp [Chip.restAxle, live]

/-- What an axle at rest is read from. -/
theorem Chip.restAxle_congr {c d : Chip} (mdc : c.mdc = d.mdc) (ulr : c.ulr = d.ulr) (tables : c.tables = d.tables) :
    c.restAxle = d.restAxle := by
  unfold Chip.restAxle
  rw [mdc, ulr, tables]

/-- A new winch record, for a drive that is not ARMED: the axle request is formed anew where the winch begins or ends to be
driven (R66). -/
theorem Chip.setWinch_drm_unarmed {c : Chip} (active : c.mdc.mode = .active) (unarmed : c.drm.arming ≠ .armed) (w : Winch) :
    (c.setWinch w).drm = if w.state.driven = c.wnc.state.driven then c.drm
      else { c.drm with axleRequest := capRequest (c.setWinch w).driveCap c.drm.request
                        demand := 0, front := c.restAxle, rear := c.restAxle } := by
  split
  · next same => exact Chip.setWinch_drm_same same
  · next changed =>
    have cap : (c.setWinch w).driveCap = Chip.driveCap { c with wnc := w.settle c.tables.winchCfg } :=
      Chip.driveCap_congr (Chip.setWinch_wnc c w) (Chip.setWinch_tables c w) (Chip.setWinch_btm c w)
    rw [(Chip.setWinch_recap changed active).1, cap]
    exact Chip.handleAxles_unarmed _ unarmed

/-- The lock test of a winch that is not driven leaves it so. -/
theorem Winch.lockTest_still {w : Winch} (still : w.state.driven = false) (cause : Bool) :
    (w.lockTest cause).state.driven = false := by
  unfold Winch.lockTest
  split
  · rw [Winch.toLocked_state]
    rfl
  · split
    · rfl
    · exact still

/-- The return to ACTIVE, for a drive that is not ARMED beside a winch that is not driven: the axles come to rest anew. -/
theorem Chip.returnActive_unarmed {c : Chip} (unarmed : c.drm.arming ≠ .armed) (still : c.wnc.state.driven = false)
    (live : c.ulr.link = .live) : c.returnActive.wnc.state.driven = false
      ∧ c.returnActive.drm = { c.drm with
          demand := 0
          front := { state := .off, timer := none, left := none, effective := 0, output := 0 }
          rear := { state := .off, timer := none, left := none, effective := 0, output := 0 } } := by
  obtain ⟨a, tested, returned⟩ := c.returnActive_spec
  generalize handled : Chip.handleAxles { c with mdc := { c.mdc with mode := .active } } c.drm = h at tested
  have wnc : h.wnc = c.wnc := by rw [← handled, Chip.handleAxles_wnc]
  have locked : (h.wnc.lockTest h.winchLockCause).state.driven = false := Winch.lockTest_still (by rw [wnc]; exact still) _
  rw [returned, tested]
  refine ⟨?_, ?_⟩
  · rw [Chip.winchLockTest, Chip.setWinch_wnc]
    exact locked
  · rw [Chip.winchLockTest]
    refine (Chip.setWinch_drm_same (by rw [locked, wnc, still])).trans ?_
    rw [← handled, Chip.handleAxles_unarmed _ unarmed, Chip.restAxle_live (by exact live)]

/-! ### Updates in PARKED -/

/-- DRM's record where only the axles and their demand have been written since. -/
def Drm.RestsFrom (t m : Drm) : Prop := t = { m with demand := t.demand, front := t.front, rear := t.rear }

/-- A turn in PARKED but MDC's: DRM's rests the axles, any other leaves its record. -/
theorem Chip.takeUpdate_drm_parked {c : Chip} (parked : c.mdc.mode = .parked) (unarmed : c.drm.arming ≠ .armed)
    {st : Chip → Chip} (trigger : StatusTrigger st) {t : Taker} (stays : t = .mdc → c.parkExitTest = c) :
    (c.takeUpdate st t).drm
      = if t = .drm then { c.drm with demand := 0, front := c.restAxle, rear := c.restAxle } else c.drm := by
  have inactive : ¬ c.mdc.mode = .active := by rw [parked]; decide
  cases t with
  | stm => rfl
  | drm =>
    rw [if_pos rfl, Chip.takeUpdate, Chip.driveUpdate, if_neg inactive]
    exact Chip.handleAxles_unarmed c unarmed
  | wnc =>
    rw [Chip.takeUpdate, Chip.winchUpdate, if_neg inactive]
    rfl
  | mdc =>
    rw [Chip.takeUpdate, stays rfl]
    rfl
  | atx => rfl
  | rtx => rcases trigger with rfl | rfl <;> rfl

/-- An update that leaves the part PARKED rests the axles of a drive that is not ARMED (R79). -/
theorem Chip.channelUpdate_parked_drm {c : Chip} (parked : c.mdc.mode = .parked) (unarmed : c.drm.arming ≠ .armed)
    (stays : ¬ c.LeavesAt) {st : Chip → Chip} (trigger : StatusTrigger st) (order : List Taker) :
    (c.channelUpdate st order).drm = { c.drm with demand := 0, front := c.restAxle, rear := c.restAxle } := by
  have test {e : Chip} (frame : ParkedFrame c.decodeNow e) : e.parkExitTest = e :=
    if_neg fun leaves => stays ((Chip.leavesParked_iff frame parked).1 leaves)
  have inside {e : Chip} (frame : ParkedFrame c.decodeNow e) : e.mdc.mode = .parked := (congrArg Mdc.mode frame.mdc).trans parked
  have take {e : Chip} (frame : ParkedFrame c.decodeNow e) (t : Taker) : ParkedFrame c.decodeNow (e.takeUpdate st t) :=
    frame.take parked trigger fun _ => test frame
  refine (foldl_around (x := Taker.drm) (mem_takers .drm order) (nodup_takers order)
    (Q := fun e => ParkedFrame c.decodeNow e ∧ e.drm = c.drm)
    (P := fun e => ParkedFrame c.decodeNow e ∧ e.drm = { c.drm with demand := 0, front := c.restAxle, rear := c.restAxle })
    ?before ?turn ?after ⟨ParkedFrame.refl _, rfl⟩).2
  case before =>
    rintro e t - other ⟨frame, drm⟩
    refine ⟨take frame t, ?_⟩
    rw [Chip.takeUpdate_drm_parked (inside frame) (by rw [drm]; exact unarmed) trigger fun _ => test frame, if_neg other, drm]
  case turn =>
    rintro e ⟨frame, drm⟩
    refine ⟨take frame .drm, ?_⟩
    have rest : e.restAxle = c.restAxle := Chip.restAxle_congr frame.mdc frame.frame.ulr frame.frame.tables
    rw [Chip.takeUpdate_drm_parked (inside frame) (by rw [drm]; exact unarmed) trigger fun _ => test frame, if_pos rfl, drm, rest]
  case after =>
    rintro e t - other ⟨frame, drm⟩
    refine ⟨take frame t, ?_⟩
    rw [Chip.takeUpdate_drm_parked (inside frame) (by rw [drm]; exact unarmed) trigger fun _ => test frame, if_neg other, drm]

/-- Turns in PARKED before MDC's leave DRM's record but for the axles. -/
theorem Chip.takeUpdates_rest {c : Chip} (parked : c.mdc.mode = .parked) (unarmed : c.drm.arming ≠ .armed) {st : Chip → Chip}
    (trigger : StatusTrigger st) {l : List Taker} (noExit : Taker.mdc ∉ l) :
    (l.foldl (Chip.takeUpdate st) c).drm.RestsFrom c.drm := by
  refine (List.foldlRecOn l (Chip.takeUpdate st) (motive := fun e => ParkedFrame c e ∧ e.drm.RestsFrom c.drm)
    ⟨ParkedFrame.refl c, rfl⟩ ?_).2
  rintro e ⟨frame, rests⟩ t mem
  have exits : t ≠ .mdc := fun same => noExit (same ▸ mem)
  refine ⟨frame.take parked trigger fun same => absurd same exits, ?_⟩
  have record := Chip.takeUpdate_drm_parked (c := e) (by rw [frame.mdc]; exact parked) (by rw [rests]; exact unarmed) trigger
    fun same => absurd same exits
  split at record
  · rw [record, rests]
    rfl
  · rw [record]
    exact rests

/-! ### Updates in ACTIVE -/

/-- Turns in ACTIVE without DRM's and WNC's leave both records. -/
theorem Chip.takeUpdates_quiet {d : Chip} (active : d.mdc.mode = .active) {st : Chip → Chip} (trigger : StatusTrigger st)
    {l : List Taker} (drm : Taker.drm ∉ l) (wnc : Taker.wnc ∉ l) :
    (l.foldl (Chip.takeUpdate st) d).drm = d.drm ∧ (l.foldl (Chip.takeUpdate st) d).wnc = d.wnc := by
  refine (List.foldlRecOn l (Chip.takeUpdate st) (motive := fun e => ActiveFrame d e ∧ e.drm = d.drm ∧ e.wnc = d.wnc)
    ⟨ActiveFrame.refl d, rfl, rfl⟩ ?_).2
  rintro e ⟨frame, sameDrm, sameWnc⟩ t mem
  have inside : e.mdc.mode = .active := by rw [frame.mdc]; exact active
  have other : t ≠ .drm ∧ t ≠ .wnc := ⟨fun same => drm (same ▸ mem), fun same => wnc (same ▸ mem)⟩
  exact ⟨frame.take active trigger t, (Chip.takeUpdate_drm e inside trigger t other.2 other.1).trans sameDrm,
    (Chip.takeUpdate_wnc e inside trigger t other.2).trans sameWnc⟩

/-- What the axles become is read from what an update in ACTIVE leaves. -/
theorem ActiveFrame.handleAxles_drm {d e : Chip} (frame : ActiveFrame d e) (m : Drm) :
    (e.handleAxles m).drm = (d.handleAxles m).drm := by
  have profile : e.profile = d.profile := by simp only [Chip.profile, frame.tables, frame.cdc]
  have next (a : Axle) : e.axleNext m a = d.axleNext m a := by
    unfold Chip.axleNext
    rw [profile, frame.mdc, frame.ulr, frame.now]
  rw [Chip.handleAxles_drm, Chip.handleAxles_drm, next, next, profile, frame.tables]

/-- DRM's record as its turn of an update handles it: six fields formed, and the axles handled with them (R67). -/
def Chip.Handled (d e : Chip) : Prop := e.drm = (d.handleAxles { d.drm with
  command := e.drm.command, mode := e.drm.mode, arming := e.drm.arming, armTimer := e.drm.armTimer
  request := e.drm.request, axleRequest := e.drm.axleRequest }).drm

/-- Turns in ACTIVE, DRM's among them and WNC's not, handle the axles. -/
theorem ActiveFrame.takeUpdates_handled {d e : Chip} (frame : ActiveFrame d e) (active : d.mdc.mode = .active)
    {st : Chip → Chip} (trigger : StatusTrigger st) (drm : e.drm = d.drm) {l : List Taker} (mem : Taker.drm ∈ l)
    (nodup : l.Nodup) (wnc : Taker.wnc ∉ l) : d.Handled (l.foldl (Chip.takeUpdate st) e) := by
  have inside {g : Chip} (frame : ActiveFrame d g) : g.mdc.mode = .active := by rw [frame.mdc]; exact active
  refine (foldl_around mem nodup (Q := fun g => ActiveFrame d g ∧ g.drm = d.drm) (P := fun g => ActiveFrame d g ∧ d.Handled g)
    ?before ?turn ?after ⟨frame, drm⟩).2
  case before =>
    rintro g t mem other ⟨frame, drm⟩
    exact ⟨frame.take active trigger t,
      (Chip.takeUpdate_drm g (inside frame) trigger t (fun same => wnc (same ▸ mem)) other).trans drm⟩
  case turn =>
    rintro g ⟨frame, drm⟩
    refine ⟨frame.take active trigger .drm, ?_⟩
    have turn := congrArg Chip.drm (Chip.takeUpdate_drm_active (inside frame) st)
    rw [frame.handleAxles_drm, drm] at turn
    exact turn
  case after =>
    rintro g t mem other ⟨frame, handled⟩
    refine ⟨frame.take active trigger t, ?_⟩
    unfold Chip.Handled
    rw [Chip.takeUpdate_drm g (inside frame) trigger t (fun same => wnc (same ▸ mem)) other]
    exact handled

/-- Turns in ACTIVE without WNC's leave its record. -/
theorem ActiveFrame.takeUpdates_wnc_other {d e : Chip} (frame : ActiveFrame d e) (active : d.mdc.mode = .active)
    {st : Chip → Chip} (trigger : StatusTrigger st) {l : List Taker} (wnc : Taker.wnc ∉ l) :
    ActiveFrame d (l.foldl (Chip.takeUpdate st) e) ∧ (l.foldl (Chip.takeUpdate st) e).wnc = e.wnc := by
  refine List.foldlRecOn l (Chip.takeUpdate st) (motive := fun g => ActiveFrame d g ∧ g.wnc = e.wnc) ⟨frame, rfl⟩ ?_
  rintro g ⟨frame, same⟩ t mem
  have inside : g.mdc.mode = .active := by rw [frame.mdc]; exact active
  exact ⟨frame.take active trigger t, (Chip.takeUpdate_wnc g inside trigger t fun same => wnc (same ▸ mem)).trans same⟩

/-- Where the winch does not begin or end to be driven, an update in ACTIVE handles the axles once, with the record DRM forms. -/
theorem Chip.channelUpdate_handled {c : Chip} (active : c.mdc.mode = .active) {st : Chip → Chip} (trigger : StatusTrigger st)
    (order : List Taker) (driven : (c.channelUpdate st order).wnc.state.driven = c.wnc.state.driven) :
    c.decodeNow.Handled (c.channelUpdate st order) := by
  obtain ⟨l₁, l₂, split⟩ := List.append_of_mem (mem_takers .wnc order)
  have nodup := nodup_takers order
  have drm := mem_takers .drm order
  unfold Chip.channelUpdate at driven ⊢
  rw [split] at nodup drm driven ⊢
  rw [List.foldl_append, List.foldl_cons] at driven ⊢
  obtain ⟨nodup₁, nodup₂, apart⟩ := List.nodup_append.1 nodup
  obtain ⟨wnc₂, nodup₂⟩ := List.nodup_cons.1 nodup₂
  have wnc₁ : Taker.wnc ∉ l₁ := fun mem => apart _ mem _ List.mem_cons_self rfl
  obtain ⟨frame₁, same₁⟩ := (ActiveFrame.refl c.decodeNow).takeUpdates_wnc_other active trigger wnc₁
  have first := fun mem => (ActiveFrame.refl c.decodeNow).takeUpdates_handled active trigger rfl (l := l₁) mem nodup₁ wnc₁
  have quiet₁ := fun absent => (Chip.takeUpdates_quiet (d := c.decodeNow) active trigger (l := l₁) absent wnc₁).1
  generalize l₁.foldl (Chip.takeUpdate st) c.decodeNow = g at *
  have inside : g.mdc.mode = .active := by rw [frame₁.mdc]; exact active
  have frame₂ := frame₁.take active trigger .wnc
  obtain ⟨-, same₂⟩ := frame₂.takeUpdates_wnc_other active trigger wnc₂
  rw [same₂] at driven
  have turn : (g.takeUpdate st .wnc).drm = g.drm := by
    have set := Chip.takeUpdate_wnc_turn g st
    rw [if_pos inside] at set
    rw [set]
    exact Chip.setWinch_drm_same (by rw [driven, same₁]; rfl)
  by_cases early : Taker.drm ∈ l₁
  · have late : Taker.drm ∉ l₂ := fun mem => apart _ early _ (List.mem_cons_of_mem _ mem) rfl
    obtain ⟨quiet, -⟩ := Chip.takeUpdates_quiet (by rw [frame₂.mdc]; exact active) trigger late wnc₂
    unfold Chip.Handled
    rw [quiet, turn]
    exact first early
  · have late : Taker.drm ∈ l₂ := by simpa [early] using drm
    exact frame₂.takeUpdates_handled active trigger (turn.trans (quiet₁ early)) late nodup₂ wnc₂

/-! ### The arming step and the cap -/

/-- The conditions under which a DISARMED drive arms (R61). -/
theorem Chip.armingConditions_iff (c : Chip) (command : Int) : c.armingConditions command = true
    ↔ c.ulr.link = .live ∧ c.throttleFresh = true ∧ command = 0 ∧ c.driveInhibit = false ∧ c.mdc.bench = false := by
  simp [Chip.armingConditions, and_assoc]

/-- The arming step, by the arming state (R61 to R63). -/
theorem Chip.armingStep_spec (c : Chip) (m : Drm) :
    (m.arming = .disarmed →
      (c.armingConditions m.command = true → (c.armingStep m).arming = .arming
        ∧ (c.armingStep m).armTimer = some (c.now + c.tables.driveCfg.armingTime))
      ∧ (¬ c.armingConditions m.command = true → c.armingStep m = m))
    ∧ (m.arming = .arming →
      (m.command = 0 ∧ c.throttleFresh = true → c.armingStep m = m)
      ∧ (¬(m.command = 0 ∧ c.throttleFresh = true) → c.armingStep m = m.disarm))
    ∧ (m.arming = .armed →
      (c.ulr.link = .failsafe → c.armingStep m = m.disarm) ∧ (c.ulr.link ≠ .failsafe → c.armingStep m = m)) := by
  unfold Chip.armingStep
  refine ⟨fun state => ?_, fun state => ?_, fun state => ?_⟩
  · rw [state]
    exact ⟨fun go => by simp [go], fun stay => by simp [stay]⟩
  · rw [state]
    refine ⟨fun ⟨zero, fresh⟩ => by simp [zero, fresh], fun off => if_pos ?_⟩
    by_cases zero : m.command = 0
    · exact .inr (by simpa [zero] using off)
    · exact .inl zero
  · rw [state]
    exact ⟨fun failsafe => if_pos failsafe, fun up => if_neg up⟩

/-- The protection cap of a level is at most full scale. -/
theorem Protect.cap_le {p : Protect} (ok : p.Ok) (level : Level) : p.cap level ≤ 1000 := by
  obtain ⟨-, -, -, -, -, -, -, -, -, low, crit, -⟩ := ok
  cases level
  · exact le_rfl
  · exact low
  · exact crit
  · exact Nat.zero_le _

/-- The cap: the smaller of the protection cap and, while the winch is driven, the winch cap (R65). -/
theorem Chip.driveCap_eq {c : Chip} (ok : c.tables.Ok) : c.driveCap
    = min (c.tables.protect.cap c.btm.level) (if c.wnc.state.driven then c.tables.driveCfg.winchCap else 1000) := by
  have le : c.tables.protect.cap c.btm.level ≤ 1000 := Protect.cap_le ok.protect _
  unfold Chip.driveCap
  split
  · rfl
  · exact (Nat.min_eq_left le).symm

/-- The winch is driven in the jogs and the runs. -/
theorem WinchState.driven_iff (w : WinchState) : w.driven = true ↔ w = .jogIn ∨ w = .jogOut ∨ w = .runIn ∨ w = .runOut := by
  cases w <;> decide

/-- The THROTTLE slot is FRESH where the role has a channel and its slot is fresh (R61). -/
theorem Chip.throttleFresh_iff (c : Chip) : c.throttleFresh = true
    ↔ ∃ ch raw, c.tables.roleMap.throttle = some ch ∧ c.slots[ch] = .fresh raw := by
  unfold Chip.throttleFresh
  rw [decide_eq_true_iff]
  cases c.tables.roleMap.throttle with
  | none => simp [Chip.roleSlot, Slot.tag]
  | some ch =>
    have role : c.roleSlot (some ch) = c.slots[ch] := rfl
    rw [role]
    cases slot : c.slots[ch] <;> simp_all [Slot.tag]

/-! ### The return to ACTIVE -/

/-- The cap stands in the turns of the blocks other than WNC. -/
theorem Chip.takeUpdate_driveCap {c : Chip} (active : c.mdc.mode = .active) {st : Chip → Chip} (trigger : StatusTrigger st)
    {t : Taker} (other : t ≠ .wnc) : (c.takeUpdate st t).driveCap = c.driveCap :=
  have frame := (ActiveFrame.refl c).take active trigger t
  Chip.driveCap_congr (Chip.takeUpdate_wnc c active trigger t other) frame.tables frame.btm

/-- Turns after the return to ACTIVE, for a drive that is not ARMED and a winch that was not driven, where DRM has had its turn:
DRM keeps its record, but for a cap that a jog brings. -/
theorem Chip.takeUpdates_drm_capped {g : Chip} (active : g.mdc.mode = .active) (unarmed : g.drm.arming ≠ .armed)
    (still : g.wnc.state.driven = false) (rest : g.drm.demand = 0 ∧ g.drm.front = g.restAxle ∧ g.drm.rear = g.restAxle)
    {st : Chip → Chip} (trigger : StatusTrigger st) {l : List Taker} (nodup : l.Nodup) (drm : Taker.drm ∉ l) :
    (l.foldl (Chip.takeUpdate st) g).drm = { g.drm with
      axleRequest := if (l.foldl (Chip.takeUpdate st) g).wnc.state.driven = true
        then capRequest (l.foldl (Chip.takeUpdate st) g).driveCap g.drm.request else g.drm.axleRequest } := by
  have inside {e : Chip} (frame : ActiveFrame g e) : e.mdc.mode = .active := by rw [frame.mdc]; exact active
  by_cases wnc : Taker.wnc ∈ l
  · refine (foldl_around wnc nodup (Q := fun e => ActiveFrame g e ∧ e.drm = g.drm ∧ e.wnc = g.wnc)
      (P := fun e => ActiveFrame g e ∧ e.drm = { g.drm with
        axleRequest := if e.wnc.state.driven = true then capRequest e.driveCap g.drm.request else g.drm.axleRequest })
      ?before ?turn ?after ⟨ActiveFrame.refl g, rfl, rfl⟩).2
    case before =>
      rintro e t mem other ⟨frame, sameDrm, sameWnc⟩
      exact ⟨frame.take active trigger t,
        (Chip.takeUpdate_drm e (inside frame) trigger t other fun same => drm (same ▸ mem)).trans sameDrm,
        (Chip.takeUpdate_wnc e (inside frame) trigger t other).trans sameWnc⟩
    case turn =>
      rintro e ⟨frame, sameDrm, sameWnc⟩
      refine ⟨frame.take active trigger .wnc, ?_⟩
      have set := Chip.takeUpdate_wnc_turn e st
      rw [if_pos (inside frame)] at set
      generalize (e.takeUpdate st .wnc).wnc = w at set ⊢
      have record := Chip.setWinch_drm_unarmed (inside frame) (by rw [sameDrm]; exact unarmed) w
      rw [sameDrm, sameWnc, still, Chip.restAxle_congr frame.mdc frame.ulr frame.tables] at record
      rw [set, record]
      cases moves : w.state.driven
      · rfl
      · obtain ⟨demand, front, rear⟩ := rest
        rw [← front, ← demand]
        simp [rear, front]
    case after =>
      rintro e t mem other ⟨frame, record⟩
      refine ⟨frame.take active trigger t, ?_⟩
      rw [Chip.takeUpdate_driveCap (inside frame) trigger other, Chip.takeUpdate_wnc e (inside frame) trigger t other,
        Chip.takeUpdate_drm e (inside frame) trigger t other fun same => drm (same ▸ mem)]
      exact record
  · obtain ⟨sameDrm, sameWnc⟩ := Chip.takeUpdates_quiet active trigger drm wnc
    rw [sameDrm, sameWnc, still]
    rfl

/-- At the update that returns the part to ACTIVE, a DISARMED drive that takes it before MDC keeps its record, its axles at
rest, but for a cap that a jog beginning after the return brings (R66, R197). -/
theorem Chip.channelUpdate_returns_drmBefore {c : Chip} (parked : c.mdc.mode = .parked) (disarmed : c.drm.arming = .disarmed)
    (still : c.wnc.state.driven = false) {st : Chip → Chip} (trigger : StatusTrigger st) {order before after : List Taker}
    (leaves : c.LeavesAt) (split : takers order = before ++ .mdc :: after) (first : Taker.drm ∈ before) :
    (c.channelUpdate st order).drm = { c.drm with
      axleRequest := if (c.channelUpdate st order).wnc.state.driven = true
        then capRequest (c.channelUpdate st order).driveCap c.drm.request else c.drm.axleRequest
      demand := 0
      front := { state := .off, timer := none, left := none, effective := 0, output := 0 }
      rear := { state := .off, timer := none, left := none, effective := 0, output := 0 } } := by
  obtain ⟨e, made, frame, turns, apart, once, noExit⟩ := c.channelUpdate_leaves parked trigger leaves split
  obtain ⟨live, -⟩ := leaves
  have unarmed : c.drm.arming ≠ .armed := by rw [disarmed]; decide
  have rests : e.drm.RestsFrom c.drm := by
    rw [made]
    exact Chip.takeUpdates_rest (c := c.decodeNow) parked unarmed trigger noExit
  obtain ⟨stillNow, record⟩ := Chip.returnActive_unarmed (c := e) (by rw [rests]; exact unarmed)
    (by rw [frame.wnc]; exact still) (by rw [frame.frame.ulr]; exact live)
  have rest : e.returnActive.restAxle = { state := .off, timer := none, left := none, effective := 0, output := 0 } :=
    Chip.restAxle_live (by rw [Chip.returnActive_ulr, frame.frame.ulr]; exact live)
  rw [rests] at record
  have capped := Chip.takeUpdates_drm_capped (g := e.returnActive) (by rw [Chip.returnActive_mode])
    (by rw [record]; exact unarmed) stillNow (by rw [record, rest]; exact ⟨rfl, rfl, rfl⟩) trigger once (apart _ first)
  rw [← turns, record] at capped
  exact capped

/-- The record that an update in ACTIVE forms for a DISARMED drive, its axles at rest on a LIVE link, under the cap that stands
(R58 to R65). -/
def Chip.disarmedFormed (c : Chip) (cap : Nat) : Drm :=
  let request := driveRequest c.driveCommand c.profile.speedLimit
  let arms := c.armingConditions c.driveCommand = true
  { c.drm with
    command := c.driveCommand, mode := c.cdc.driveSel, request := request, axleRequest := capRequest cap request
    arming := if arms then .arming else .disarmed
    armTimer := if arms then some (c.now + c.tables.driveCfg.armingTime) else c.drm.armTimer
    demand := 0
    front := { state := .off, timer := none, left := none, effective := 0, output := 0 }
    rear := { state := .off, timer := none, left := none, effective := 0, output := 0 } }

/-- A DISARMED drive is not ARMED by an update. -/
theorem Chip.disarmedFormed_unarmed (c : Chip) (cap : Nat) : (c.disarmedFormed cap).arming ≠ .armed := by
  unfold Chip.disarmedFormed
  dsimp only
  split <;> decide

/-- DRM's turn in ACTIVE, for a DISARMED drive on a LIVE link. -/
theorem Chip.takeUpdate_drm_disarmed {c : Chip} (active : c.mdc.mode = .active) (disarmed : c.drm.arming = .disarmed)
    (live : c.ulr.link = .live) (st : Chip → Chip) : (c.takeUpdate st .drm).drm = c.disarmedFormed c.driveCap := by
  have formed : c.driveFormed = { c.disarmedFormed c.driveCap with
      demand := c.drm.demand, front := c.drm.front, rear := c.drm.rear } := by
    unfold Chip.driveFormed Chip.armingStep Chip.disarmedFormed
    simp only [disarmed]
    split <;> rfl
  have unarmed : c.driveFormed.arming ≠ .armed := by
    rw [formed]
    exact c.disarmedFormed_unarmed c.driveCap
  rw [Chip.takeUpdate, Chip.driveUpdate, if_pos active, Chip.handleAxles_unarmed c unarmed, formed, Chip.restAxle_live live]
  rfl

/-- What the record so formed is read from. -/
theorem Chip.disarmedFormed_congr {c d : Chip} (now : c.now = d.now) (tables : c.tables = d.tables) (cdc : c.cdc = d.cdc)
    (ulr : c.ulr = d.ulr) (slots : c.slots = d.slots) (sup : c.sup = d.sup) (bench : c.mdc.bench = d.mdc.bench)
    (armTimer : c.drm.armTimer = d.drm.armTimer) (grant : c.drm.grant = d.drm.grant) (cap : Nat) :
    c.disarmedFormed cap = d.disarmedFormed cap := by
  have fresh : c.throttleFresh = d.throttleFresh := by
    unfold Chip.throttleFresh Chip.roleSlot
    rw [tables, slots]
  simp only [Chip.disarmedFormed, Chip.driveCommand, Chip.profile, Chip.armingConditions, Chip.driveInhibit, Chip.switchBit, fresh,
    now, tables, cdc, ulr, sup, bench, armTimer, grant]
  rfl

/-- A new winch record keeps the record so formed, under the cap that stands then (R66). -/
theorem Chip.setWinch_disarmedFormed {c d : Chip} (active : c.mdc.mode = .active) (live : c.ulr.link = .live)
    (record : c.drm = d.disarmedFormed c.driveCap) (w : Winch) :
    (c.setWinch w).drm = d.disarmedFormed (c.setWinch w).driveCap := by
  have request : c.drm.request = driveRequest d.driveCommand d.profile.speedLimit := by rw [record]; rfl
  have capped := (Chip.setWinch_cap c w active _ request (by rw [record]; rfl)).2
  have recapped : d.disarmedFormed (c.setWinch w).driveCap
      = { d.disarmedFormed c.driveCap with axleRequest := (c.setWinch w).drm.axleRequest } := by
    rw [capped]
    rfl
  have unarmed : c.drm.arming ≠ .armed := by
    rw [record]
    exact d.disarmedFormed_unarmed c.driveCap
  have set := Chip.setWinch_drm_unarmed active unarmed w
  rw [recapped, ← record]
  split at set
  · rw [set]
  · rw [set, Chip.restAxle_live live, record]
    rfl

/-- At the update that returns the part to ACTIVE, a DISARMED drive that takes it after MDC takes it as one in ACTIVE
(R197). -/
theorem Chip.channelUpdate_returns_drmAfter {c : Chip} (parked : c.mdc.mode = .parked) (disarmed : c.drm.arming = .disarmed)
    (still : c.wnc.state.driven = false) {st : Chip → Chip} (trigger : StatusTrigger st) {order before after : List Taker}
    (leaves : c.LeavesAt) (split : takers order = before ++ .mdc :: after) (later : Taker.drm ∈ after) :
    (c.channelUpdate st order).drm = c.decodeNow.disarmedFormed (c.channelUpdate st order).driveCap := by
  obtain ⟨e, made, frame, turns, -, once, noExit⟩ := c.channelUpdate_leaves parked trigger leaves split
  obtain ⟨live, -⟩ := leaves
  have unarmed : c.drm.arming ≠ .armed := by rw [disarmed]; decide
  have rests : e.drm.RestsFrom c.drm := by
    rw [made]
    exact Chip.takeUpdates_rest (c := c.decodeNow) parked unarmed trigger noExit
  have returned := (Chip.returnActive_unarmed (c := e) (by rw [rests]; exact unarmed) (by rw [frame.wnc]; exact still)
    (by rw [frame.frame.ulr]; exact live)).2
  rw [rests] at returned
  have active : e.returnActive.mdc.mode = .active := by rw [Chip.returnActive_mode]
  rw [turns]
  refine Chip.takeUpdates_once e.returnActive active trigger later once
    (fun g => g.drm = c.decodeNow.disarmedFormed g.driveCap)
    (fun g => g.drm.arming = .disarmed ∧ g.drm.armTimer = c.drm.armTimer ∧ g.drm.grant = c.drm.grant)
    (by rw [returned]; exact ⟨disarmed, rfl, rfl⟩) ?before ?turn ?after
  case before =>
    rintro g t other inside ⟨arming, armTimer, grant⟩
    have mode : g.mdc.mode = .active := by rw [inside.mdc]; exact active
    by_cases winch : t = .wnc
    · subst winch
      have set := Chip.takeUpdate_wnc_turn g st
      rw [if_pos mode] at set
      obtain ⟨-, -, sameArming, sameTimer, -, sameGrant⟩ := g.setWinch_drm (g.takeUpdate st .wnc).wnc
      rw [set]
      exact ⟨sameArming.trans arming, sameTimer.trans armTimer, sameGrant.trans grant⟩
    · rw [Chip.takeUpdate_drm g mode trigger t winch other]
      exact ⟨arming, armTimer, grant⟩
  case turn =>
    rintro g inside ⟨arming, armTimer, grant⟩
    have mode : g.mdc.mode = .active := by rw [inside.mdc]; exact active
    have ulr : g.ulr = c.ulr := inside.ulr.trans ((Chip.returnActive_ulr e).trans frame.frame.ulr)
    have turn := Chip.takeUpdate_drm_disarmed mode arming (by rw [ulr]; exact live) st
    rw [turn, Chip.takeUpdate_driveCap mode trigger (by decide)]
    exact Chip.disarmedFormed_congr (inside.now.trans ((Chip.returnActive_now e).trans frame.frame.now))
      (inside.tables.trans ((Chip.returnActive_tables e).trans frame.frame.tables))
      (inside.cdc.trans ((Chip.returnActive_cdc e).trans frame.frame.cdc)) ulr
      (inside.slots.trans ((Chip.returnActive_slots e).trans frame.frame.slots))
      (inside.sup.trans ((Chip.returnActive_sup e).trans frame.frame.sup))
      (by rw [inside.mdc, Chip.returnActive_mode, frame.mdc]) armTimer grant g.driveCap
  case after =>
    rintro g t other inside record
    have mode : g.mdc.mode = .active := by rw [inside.mdc]; exact active
    by_cases winch : t = .wnc
    · subst winch
      have set := Chip.takeUpdate_wnc_turn g st
      rw [if_pos mode] at set
      rw [set]
      have ulr : g.ulr = c.ulr := inside.ulr.trans ((Chip.returnActive_ulr e).trans frame.frame.ulr)
      exact Chip.setWinch_disarmedFormed mode (by rw [ulr]; exact live) record _
    · rw [Chip.takeUpdate_drm g mode trigger t winch other, Chip.takeUpdate_driveCap mode trigger winch]
      exact record

/-- Settles O27. -/
theorem updateFormsTheDriveRequest : Obligations.UpdateFormsTheDriveRequest := by
  refine ⟨fun c a cap => ⟨rfl, rfl, c.throttleFresh_iff, ⟨rfl, rfl, rfl, rfl⟩, ?_, capRequest_bounds cap a⟩, takers_spec,
    fun st c order trigger active => ?active, fun c ok => ?recap, fun st c order trigger parked unarmed stays => ?parked,
    fun st c order trigger parked disarmed still leaves => ?returns⟩
  · unfold Chip.driveCap
    simp only [WinchState.driven_iff]
  case active =>
    intro d p cmd e t cap
    obtain ⟨command, mode, request, axleRequest, arming, armTimer⟩ := Chip.channelUpdate_drm c active trigger order
    have frame := Chip.channelUpdate_active c active trigger order
    obtain ⟨disarmed, arms, armed⟩ := c.armingStep_spec { c.drm with command := cmd }
    have conditions := c.armingConditions_iff cmd
    refine ⟨command, mode, request, fun ok => ?cap, fun state => ?disarmed, fun state => ?arms, fun state => ?armed,
      Chip.channelUpdate_handled active trigger order⟩
    case cap =>
      have tables : e.tables = c.tables := frame.tables
      have btm : e.btm = c.btm := frame.btm
      have bounds := capRequest_bounds e.driveCap t.request
      have capped : t.axleRequest = capRequest e.driveCap t.request := by rw [show t.request = _ from request]; exact axleRequest
      rw [← capped, Chip.driveCap_eq (by rw [tables]; exact ok), tables, btm] at bounds
      exact bounds
    case disarmed =>
      refine ⟨fun go => ?_, fun stay => ?_⟩
      · obtain ⟨state, timer⟩ := (disarmed state).1 (conditions.2 go)
        exact ⟨arming.trans state, armTimer.trans timer⟩
      · have same := (disarmed state).2 fun go => stay (conditions.1 go)
        exact (arming.trans (congrArg Drm.arming same)).trans state
    case arms =>
      refine ⟨fun go => ?_, fun stop => ?_⟩
      · have same := (arms state).1 go
        exact ⟨(arming.trans (congrArg Drm.arming same)).trans state, armTimer.trans (congrArg Drm.armTimer same :)⟩
      · have off := (arms state).2 stop
        exact ⟨arming.trans (congrArg Drm.arming off), armTimer.trans (congrArg Drm.armTimer off)⟩
    case armed =>
      refine ⟨fun failsafe => ?_, fun up => ?_⟩
      · have off := (armed state).1 failsafe
        exact ⟨arming.trans (congrArg Drm.arming off), armTimer.trans (congrArg Drm.armTimer off)⟩
      · have same := (armed state).2 up
        exact (arming.trans (congrArg Drm.arming same)).trans state
  case recap =>
    intro t cap
    have request : t.axleRequest = capRequest c.driveCap c.drm.request := Chip.handleAxles_axleRequest c _
    have bounds := capRequest_bounds c.driveCap c.drm.request
    rw [← request, Chip.driveCap_eq ok] at bounds
    refine ⟨?_, bounds⟩
    rw [request]
    rfl
  case parked =>
    intro t
    have record := Chip.channelUpdate_parked_drm parked unarmed stays trigger order
    have rest : c.restAxle = if c.mdc.bench = false ∧ (c.ulr.link = .await ∨ c.ulr.link = .failsafe) then
        { state := .failsafeBrake, timer := none, left := none, effective := 0, output := c.tables.driveCfg.failsafeBrake }
      else { state := .off, timer := none, left := none, effective := 0, output := 0 } := by
      simp [Chip.restAxle, parked]
    refine ⟨by rw [show t = _ from record], fun a => ?_⟩
    rw [← rest, show t = _ from record]
    cases a <;> rfl
  case returns =>
    intro d cmd request arms off e before after split
    have conditions : c.decodeNow.armingConditions cmd = true ↔ arms :=
      (c.armingConditions_iff cmd).trans ⟨fun all => all.2, fun all => ⟨leaves.1, all⟩⟩
    refine ⟨Chip.channelUpdate_returns_drmBefore parked disarmed still trigger leaves split, fun later => ?_⟩
    have record : e.drm = _ := Chip.channelUpdate_returns_drmAfter parked disarmed still trigger leaves split later
    rw [record]
    unfold Chip.disarmedFormed
    have command : c.decodeNow.driveCommand = cmd := rfl
    simp only [command, if_congr conditions rfl rfl]
    rfl

end Sys2Proof.Machine
end

section
/-! What a channel update does to the winch (R82 to R101, R104, R197). -/

namespace Sys2Proof.Machine

/-! ### What the winch control leaves -/

/-- The values that no move of the winch control writes: line position, grant, boost allowance and flag, and hold-off. -/
def Winch.standing (w : Winch) : Nat × Bool × Nat × Nat × Bool × Nat × Bool × Bool :=
  (w.position, w.referenced, w.grant, w.allowance, w.boostAtStart, w.recharge, w.boost, w.holdOff)

/-- Standing in IDLE leaves them. -/
theorem Winch.standIdle_standing (w : Winch) : w.standIdle.standing = w.standing := by
  unfold Winch.standIdle
  split <;> rfl

/-- A jog, either way, leaves them. -/
theorem Winch.jog_standing (w : Winch) (cfg : WinchCfg) (u : Int) :
    (w.jogInward cfg u).standing = w.standing ∧ (w.jogOutward cfg u).standing = w.standing := by
  unfold Winch.jogInward Winch.jogOutward
  constructor
  · split
    · exact w.standIdle_standing
    · rfl
  · split
    · exact w.standIdle_standing
    · rfl

/-- The control released leaves them. -/
theorem Winch.release_standing (w : Winch) : w.release.standing = w.standing := by
  unfold Winch.release
  split <;> rfl

/-- The control deflected leaves them. -/
theorem Winch.deflect_standing (w : Winch) (cfg : WinchCfg) (u : Int) : (w.deflect cfg u).standing = w.standing := by
  have jog (v : Winch) : (if deflectedIn cfg u then v.jogInward cfg u else v.jogOutward cfg u).standing = v.standing := by
    split
    · exact (v.jog_standing cfg u).1
    · exact (v.jog_standing cfg u).2
  unfold Winch.deflect
  dsimp only
  split
  · exact jog w
  · split
    · rfl
    · exact (w.finish .done).jog_standing cfg u |>.2
  · split
    · exact (w.finish .done).jog_standing cfg u |>.1
    · rfl
  · exact jog (w.finish .aborted)
  · exact jog (w.finish .aborted)
  · exact jog w.toIdle
  · rfl
  · rfl

/-- What the winch control does leaves them, but for the hold-off that the released control clears (R86). -/
theorem Winch.follow_standing (w : Winch) (cfg : WinchCfg) (u : Int) :
    (w.follow cfg u).standing = (w.clearHoldOff cfg u).standing := by
  unfold Winch.follow
  dsimp only
  split
  · rfl
  · split
    · exact Winch.release_standing _
    · exact Winch.deflect_standing _ cfg u

/-- A lock test leaves them, but for the hold-off that an entry into LOCKED sets. -/
theorem Winch.lockTest_standing (w : Winch) (cause : Bool) : (w.lockTest cause).standing
    = { w with holdOff := w.holdOff || cause && decide (w.state ≠ WinchState.locked) }.standing := by
  unfold Winch.lockTest Winch.toLocked
  cases cause <;> by_cases locked : w.state = .locked <;> simp [locked] <;> rfl

/-! ### What the winch control does -/

/-- A winch whose operation the deflected control has ended: jogs done, runs aborted, STALLED and LOCKED left (R87). -/
def Winch.freed (w : Winch) : Winch :=
  match w.state with
  | .jogIn | .jogOut => w.finish .done
  | .runIn | .runOut => w.finish .aborted
  | .stalled | .locked => w.toIdle
  | .idle | .free => w

/-- The control moves the winch: it is deflected, and no hold-off stands (R86, R87). -/
def Winch.moved (w : Winch) (cfg : WinchCfg) (u : Int) : Prop := w.holdOff = false ∧ cfg.jogThreshold < u.natAbs

section Control
variable {w : Winch} {cfg : WinchCfg} {u : Int}

/-- The control is released where it does not pass the threshold. -/
theorem winchReleased_iff : winchReleased cfg u = true ↔ u.natAbs ≤ cfg.jogThreshold := by
  simp [winchReleased]

/-- Where the control moves the winch there is no hold-off to clear. -/
theorem Winch.moved.clearHoldOff (moved : w.moved cfg u) : w.clearHoldOff cfg u = w := by
  obtain ⟨free, -⟩ := moved
  cases w
  simp only at free
  subst free
  rfl

/-- Where the control moves the winch, that is all an update does. -/
theorem Winch.moved.follow (moved : w.moved cfg u) : w.follow cfg u = w.deflect cfg u := by
  have held : ¬ winchReleased cfg u = true := fun released => absurd (winchReleased_iff.1 released) (by have := moved.2; omega)
  unfold Winch.follow
  rw [moved.clearHoldOff]
  simp [moved.1, held]

/-- Where the control does not move the winch, an update ends a jog if it is released, and otherwise clears the hold-off at
most. -/
theorem Winch.follow_unmoved (unmoved : ¬ w.moved cfg u) : w.follow cfg u
    = if u.natAbs ≤ cfg.jogThreshold then (w.clearHoldOff cfg u).release else w.clearHoldOff cfg u := by
  unfold Winch.follow
  dsimp only
  by_cases released : u.natAbs ≤ cfg.jogThreshold
  · have clear : (w.clearHoldOff cfg u).holdOff = false := by
      simp [Winch.clearHoldOff, winchReleased_iff.2 released]
    rw [clear, winchReleased_iff.2 released, if_pos released]
    rfl
  · have stands : w.holdOff = true := by
      by_contra free
      exact unmoved ⟨by simpa using free, by omega⟩
    have held : (w.clearHoldOff cfg u).holdOff = true := by
      simp [Winch.clearHoldOff, stands, winchReleased, released]
    rw [held, if_neg released]
    rfl

/-- A jog to one side, or IDLE where the line is at that end (R87, R94). -/
def Winch.jogTo (w : Winch) (cfg : WinchCfg) (atEnd : Bool) (jog : WinchState) (u : Int) : Winch :=
  if atEnd then w.standIdle else w.startJog cfg jog u

/-- The control turned inward, where the winch neither jogs inward already nor is FREE: the operation ends, and a jog begins. -/
theorem Winch.moved.inward (moved : w.moved cfg u) (inward : (cfg.jogThreshold : Int) < u) (free : w.state ≠ .free)
    (other : w.state ≠ .jogIn) : (w.lockTest false).follow cfg u = w.freed.jogTo cfg w.freed.atInEnd .jogIn u := by
  have side : deflectedIn cfg u = true := decide_eq_true inward
  by_cases locked : w.state = .locked
  · have unlocked : w.lockTest false = w.toIdle := by simp [Winch.lockTest, locked]
    have moved' : w.toIdle.moved cfg u := moved
    rw [unlocked, moved'.follow]
    simp only [Winch.deflect, Winch.toIdle_state, side, if_true, Winch.freed, locked]
    rfl
  · have same : w.lockTest false = w := by simp [Winch.lockTest, locked]
    rw [same, moved.follow]
    unfold Winch.deflect Winch.freed
    simp only [side, if_true]
    cases state : w.state <;> simp_all <;> rfl

/-- The control turned outward, where the winch neither jogs outward already nor is FREE. -/
theorem Winch.moved.outward (moved : w.moved cfg u) (outward : u < -(cfg.jogThreshold : Int)) (free : w.state ≠ .free)
    (other : w.state ≠ .jogOut) :
    (w.lockTest false).follow cfg u = w.freed.jogTo cfg (w.freed.atOutEnd cfg) .jogOut u := by
  have side : deflectedIn cfg u = false := decide_eq_false (by omega)
  by_cases locked : w.state = .locked
  · have unlocked : w.lockTest false = w.toIdle := by simp [Winch.lockTest, locked]
    have moved' : w.toIdle.moved cfg u := moved
    rw [unlocked, moved'.follow]
    simp only [Winch.deflect, Winch.toIdle_state, side, Bool.false_eq_true, if_false, Winch.freed, locked]
    rfl
  · have same : w.lockTest false = w := by simp [Winch.lockTest, locked]
    rw [same, moved.follow]
    unfold Winch.deflect Winch.freed
    simp only [side, Bool.false_eq_true, if_false]
    cases state : w.state <;> simp_all <;> rfl

/-- Ending the operation leaves the line, the stall timer and the operation count. -/
theorem Winch.freed_line (w : Winch) : w.freed.position = w.position ∧ w.freed.referenced = w.referenced := by
  unfold Winch.freed
  cases w.state <;> exact ⟨rfl, rfl⟩

/-- Ending the operation leaves the line at the end where it is. -/
theorem Winch.freed_atInEnd (w : Winch) : w.freed.atInEnd = true ↔ w.referenced = true ∧ w.position = 0 := by
  obtain ⟨position, referenced⟩ := w.freed_line
  simp [Winch.atInEnd, position, referenced]

/-- Ending the operation leaves the line at the end where it is. -/
theorem Winch.freed_atOutEnd (w : Winch) (cfg : WinchCfg) :
    w.freed.atOutEnd cfg = true ↔ w.referenced = true ∧ w.position = cfg.pmax := by
  obtain ⟨position, referenced⟩ := w.freed_line
  simp [Winch.atOutEnd, position, referenced]

/-- STALLED and LOCKED are left with the creep count cleared; any other operation ends with it (R97). -/
theorem Winch.freed_creep (w : Winch) :
    (w.state = .stalled ∨ w.state = .locked → w.freed.creep = 0 ∧ w.freed.creepReported = false)
      ∧ (w.state ≠ .stalled → w.state ≠ .locked →
        w.freed.creep = w.creep ∧ w.freed.creepReported = w.creepReported) := by
  unfold Winch.freed
  refine ⟨?_, fun stalled locked => ?_⟩
  · rintro (state | state) <;> rw [state] <;> exact ⟨rfl, rfl⟩
  · cases state : w.state <;> simp_all <;> rfl

/-- A winch in IDLE has no operation to end. -/
theorem Winch.freed_idle {w : Winch} (idle : w.state = .idle) : w.freed = w := by
  simp [Winch.freed, idle]

/-- At an end of the line the operation ends in IDLE. -/
theorem Winch.freed_standIdle {w : Winch} (moving : w.state ≠ .idle) (free : w.state ≠ .free) : w.freed.standIdle
    = { w with state := .idle, run := none, requested := 0, creep := 0, creepReported := false, lastOp := w.freed.lastOp } := by
  unfold Winch.standIdle Winch.freed
  cases state : w.state <;> simp_all <;> rfl

/-- What a jog to one side, or IDLE at that end, makes of the record (R87, R91, R97, R98). -/
theorem Winch.freed_jogTo {w : Winch} (free : w.state ≠ .free) (cfg : WinchCfg) (atEnd : Bool) (jog : WinchState) (u : Int) :
    let t := (w.freed.jogTo cfg atEnd jog u).settle cfg
    t.lastOp = w.freed.lastOp
      ∧ (atEnd = true → w.state = .idle → t = { w with
          requested := w.requested, holdOff := t.holdOff, demand := t.demand, effective := t.effective, boost := t.boost })
      ∧ (atEnd = true → w.state ≠ .idle → t.state = .idle ∧ t.run = none ∧ t.requested = 0 ∧ t.creep = 0
          ∧ t.creepReported = false ∧ t.stallTimer = w.stallTimer ∧ t.opCount = w.opCount)
      ∧ (atEnd = false → t.state = jog ∧ t.run = none ∧ t.requested = jogDuty cfg u ∧ t.stallTimer = cfg.stallWindow
          ∧ t.opCount = 0
          ∧ (w.state = .stalled ∨ w.state = .locked → t.creep = 0 ∧ t.creepReported = false)
          ∧ (w.state ≠ .stalled → w.state ≠ .locked → t.creep = w.creep ∧ t.creepReported = w.creepReported)) := by
  intro t
  cases atEnd with
  | false =>
    exact ⟨rfl, fun no => absurd no (by decide), fun no => absurd no (by decide),
      fun _ => ⟨rfl, rfl, rfl, rfl, rfl, w.freed_creep.1, w.freed_creep.2⟩⟩
  | true =>
    have made : t = w.freed.standIdle.settle cfg := rfl
    by_cases idle : w.state = .idle
    · have stands : w.freed.standIdle = w := by
        rw [Winch.freed_idle idle]
        exact if_pos idle
      rw [stands] at made
      refine ⟨?_, fun _ _ => ?_, fun _ moving => absurd idle moving, fun no => absurd no (by decide)⟩
      · rw [made, Winch.freed_idle idle]
        rfl
      · rw [made]
        rfl
    · rw [Winch.freed_standIdle idle free] at made
      refine ⟨?_, fun _ stays => absurd stays idle, fun _ _ => ?_, fun no => absurd no (by decide)⟩
      · rw [made]
        rfl
      · rw [made]
        exact ⟨rfl, rfl, rfl, rfl, rfl, rfl, rfl⟩

/-- FREE and LOCKED are left by no move of the control: it clears the hold-off at most (R86, R87). -/
theorem Winch.follow_rest (rest : w.state = .free ∨ w.state = .locked) : w.follow cfg u = w.clearHoldOff cfg u := by
  have still : (w.clearHoldOff cfg u).state = w.state := rfl
  unfold Winch.follow Winch.release Winch.deflect
  rcases rest with state | state <;> simp [still, state]

/-- The control released ends a jog (R87). -/
theorem Winch.release_jog (jogs : w.state = .jogIn ∨ w.state = .jogOut) :
    (w.clearHoldOff cfg u).release = ((w.clearHoldOff cfg u).finish .done).toIdle := by
  have still : (w.clearHoldOff cfg u).state = w.state := rfl
  unfold Winch.release
  rcases jogs with state | state <;> rw [still, state]

/-- The control released ends nothing but a jog. -/
theorem Winch.release_other (other : ¬ (w.state = .jogIn ∨ w.state = .jogOut)) :
    (w.clearHoldOff cfg u).release = w.clearHoldOff cfg u := by
  have still : (w.clearHoldOff cfg u).state = w.state := rfl
  unfold Winch.release
  rw [still]
  cases state : w.state <;> simp_all

/-- A jog goes on while the control stays on its side, with its requested duty formed anew (R87). -/
theorem Winch.moved.goesOn (moved : w.moved cfg u) (side : (cfg.jogThreshold : Int) < u ∧ w.state = .jogIn
    ∨ u < -(cfg.jogThreshold : Int) ∧ w.state = .jogOut) : w.follow cfg u = { w with requested := jogDuty cfg u } := by
  rw [moved.follow]
  rcases side with ⟨inward, state⟩ | ⟨outward, state⟩
  · have turned : deflectedIn cfg u = true := decide_eq_true inward
    simp [Winch.deflect, state, turned]
  · have turned : deflectedIn cfg u = false := decide_eq_false (by omega)
    simp [Winch.deflect, state, turned]

/-- What an update leaves of the record, and what becomes of the hold-off (R86). -/
theorem Winch.update_standing (w : Winch) (cfg : WinchCfg) (u : Int) (cause : Bool) :
    let v := (w.lockTest cause).follow cfg u
    (v.position = w.position ∧ v.referenced = w.referenced ∧ v.grant = w.grant ∧ v.allowance = w.allowance
      ∧ v.boostAtStart = w.boostAtStart ∧ v.recharge = w.recharge)
    ∧ v.boost = w.boost
    ∧ (v.holdOff = true ↔ cfg.jogThreshold < u.natAbs ∧ (w.holdOff = true ∨ cause = true ∧ w.state ≠ .locked)) := by
  have locked := w.lockTest_standing cause
  have followed := (w.lockTest cause).follow_standing cfg u
  simp only [Winch.standing, Winch.clearHoldOff, Prod.mk.injEq] at locked followed
  obtain ⟨position, referenced, grant, allowance, boostAtStart, recharge, boost, holdOff⟩ := locked
  obtain ⟨position', referenced', grant', allowance', boostAtStart', recharge', boost', holdOff'⟩ := followed
  refine ⟨⟨position'.trans position, referenced'.trans referenced, grant'.trans grant, allowance'.trans allowance,
    boostAtStart'.trans boostAtStart, recharge'.trans recharge⟩, boost'.trans boost, ?_⟩
  rw [holdOff', holdOff]
  simp [winchReleased, and_comm]

/-- Demand, effective duty and boost as they are set anew (R100, R101, R104). -/
theorem Winch.settle_spec (v : Winch) (cfg : WinchCfg) :
    let t := v.settle cfg
    let jogsOrRuns := t.state = .jogIn ∨ t.state = .jogOut ∨ t.state = .runIn ∨ t.state = .runOut
    (jogsOrRuns → t.demand = t.requested * cfg.ifs ∧ t.effective = scaleTo v.grant t.demand t.requested)
      ∧ (¬ jogsOrRuns → t.demand = 0 ∧ t.effective = 0)
      ∧ (t.boost = true ↔ v.boost = true ∧ (t.state = .jogIn ∨ t.state = .runIn)) := by
  intro t jogsOrRuns
  have driven : v.state.driven = true ↔ jogsOrRuns := WinchState.driven_iff v.state
  have pulls : v.state.pullsIn = true ↔ t.state = .jogIn ∨ t.state = .runIn := by
    have state : t.state = v.state := rfl
    rw [state]
    cases v.state <;> decide
  refine ⟨fun moves => ?_, fun stands => ?_, ?_⟩
  · have go := driven.2 moves
    exact ⟨if_pos go, (if_pos go).trans (by simp only [t, Winch.settle, go, if_true])⟩
  · have still : ¬ v.state.driven = true := fun go => stands (driven.1 go)
    exact ⟨if_neg still, if_neg still⟩
  · rw [← pulls]
    exact Bool.and_eq_true_iff

/-- The last-operation record of an operation that ends (R91). -/
theorem Winch.finish_lastOp (w : Winch) (outcome : OpOutcome) :
    let ended (kind : OpKind) : Option LastOp :=
      some { kind := kind, requested := w.run.map Run.count, counts := w.countsDone, outcome := outcome }
    (w.finish outcome).lastOp = match w.state with
      | .jogIn => ended .jogIn
      | .jogOut => ended .jogOut
      | .runIn => ended .runIn
      | .runOut => ended .runOut
      | .idle | .free | .stalled | .locked => w.lastOp := by
  unfold Winch.finish
  cases w.state <;> rfl

/-- The last-operation record of an operation that the deflected control ends, or of none (R91). -/
theorem Winch.freed_lastOp (w : Winch) :
    let ended (outcome : OpOutcome) (kind : OpKind) : Option LastOp :=
      some { kind := kind, requested := w.run.map Run.count, counts := w.countsDone, outcome := outcome }
    w.freed.lastOp = match w.state with
      | .jogIn => ended .done .jogIn
      | .jogOut => ended .done .jogOut
      | .runIn => ended .aborted .runIn
      | .runOut => ended .aborted .runOut
      | .idle | .free | .stalled | .locked => w.lastOp := by
  unfold Winch.freed Winch.finish
  cases state : w.state <;> simp <;> rfl

end Control

/-! ### The lock test in the course of an update -/

/-- The lock causes of R84. -/
theorem Chip.winchLockCause_iff (c : Chip) : c.winchLockCause = true ↔ c.btm.level = .critical ∨ c.btm.level = .cutoff
    ∨ c.ulr.link = .failsafe ∨ c.ulr.link = .await ∨ c.winchInhibit = true ∨ c.mdc.bench = true ∨ c.mdc.mode = .parked := by
  simp [Chip.winchLockCause, or_assoc]

/-- What the lock causes are read from. -/
theorem Chip.winchLockCause_congr {c d : Chip} (level : c.btm.level = d.btm.level) (ulr : c.ulr = d.ulr) (sup : c.sup = d.sup)
    (mdc : c.mdc = d.mdc) : c.winchLockCause = d.winchLockCause := by
  unfold Chip.winchLockCause Chip.winchInhibit Chip.switchBit
  rw [level, ulr, sup, mdc]

/-- MDC's return to ACTIVE tests the lock causes (R85). -/
theorem Chip.returnActive_wnc (c : Chip) : c.returnActive.wnc
    = (Chip.winchLockTest { c with mdc := { c.mdc with mode := .active } }).wnc := by
  obtain ⟨a, rfl, returned⟩ := c.returnActive_spec
  have cause : (Chip.handleAxles { c with mdc := { c.mdc with mode := .active } } c.drm).winchLockCause
      = Chip.winchLockCause { c with mdc := { c.mdc with mode := .active } } :=
    Chip.winchLockCause_congr (by rw [Chip.handleAxles_btm]) (by rw [Chip.handleAxles_ulr]) (by rw [Chip.handleAxles_sup])
      (by rw [Chip.handleAxles_mdc])
  rw [returned]
  simp only [Chip.winchLockTest, Chip.setWinch_wnc, cause, Chip.handleAxles_wnc, Chip.handleAxles_tables]

/-- At the update that returns the part to ACTIVE, MDC's turn tests the lock causes, and WNC takes the update where it comes
after (R82, R85, R197). -/
theorem Chip.channelUpdate_returns_wnc {c : Chip} (parked : c.mdc.mode = .parked) (leaves : c.LeavesAt) {st : Chip → Chip}
    (trigger : StatusTrigger st) {order before after : List Taker} (split : takers order = before ++ .mdc :: after) :
    let activeChip : Chip := { c with mdc := { c.mdc with mode := .active } }
    let tested := activeChip.winchLockTest.wnc
    (.wnc ∈ before → (c.channelUpdate st order).wnc = tested)
      ∧ (.wnc ∈ after → (c.channelUpdate st order).wnc
        = (Chip.channelUpdate { activeChip with wnc := tested } st order).wnc) := by
  intro activeChip tested
  obtain ⟨e, -, frame, turns, apart, once, -⟩ := c.channelUpdate_leaves parked trigger leaves split
  have mdc : ({ e.mdc with mode := .active } : Mdc) = activeChip.mdc := by rw [frame.mdc]; rfl
  have wnc : e.returnActive.wnc = tested := by
    have cause : Chip.winchLockCause { e with mdc := { e.mdc with mode := .active } } = activeChip.winchLockCause :=
      Chip.winchLockCause_congr (by rw [frame.btm]; rfl) frame.frame.ulr frame.frame.sup mdc
    rw [Chip.returnActive_wnc, Chip.winchLockTest, Chip.setWinch_wnc, cause, frame.wnc, frame.frame.tables]
    exact (Chip.setWinch_wnc activeChip _).symm
  have active : e.returnActive.mdc.mode = .active := by rw [Chip.returnActive_mode]
  refine ⟨fun first => ?_, fun later => ?_⟩
  · have other : Taker.wnc ∉ after := apart _ first
    rw [turns, ((ActiveFrame.refl _).takeUpdates_wnc_other active trigger other).2, wnc]
  · have cause : e.returnActive.winchLockCause = Chip.winchLockCause { activeChip with wnc := tested } :=
      Chip.winchLockCause_congr (by rw [Chip.returnActive_btm, frame.btm]; rfl)
        ((Chip.returnActive_ulr e).trans frame.frame.ulr) ((Chip.returnActive_sup e).trans frame.frame.sup)
        ((Chip.returnActive_mode e).trans mdc)
    rw [turns, Chip.takeUpdates_wnc _ active trigger later once, wnc, cause, Chip.returnActive_tables, Chip.returnActive_cdc,
      frame.frame.tables, frame.frame.cdc]
    exact (Chip.channelUpdate_wnc { activeChip with wnc := tested } rfl trigger order).symm

/-- Settles O28. -/
theorem updateWorksTheWinch : Obligations.UpdateWorksTheWinch := by
  refine ⟨Winch.lockTest_spec, fun c => ⟨c.winchLockCause_iff, rfl⟩, fun st c order trigger active => ?active,
    fun st c order trigger parked => ?parked⟩
  case active =>
    intro cfg u w t duty ended record inward outward moves atInEnd atOutEnd kept becomesIdle begins
    have made : t = ((w.lockTest c.winchLockCause).follow cfg u).settle cfg := Chip.channelUpdate_wnc c active trigger order
    obtain ⟨standing, boost, holdOff⟩ := w.update_standing cfg u c.winchLockCause
    have settled := ((w.lockTest c.winchLockCause).follow cfg u).settle_spec cfg
    rw [← made, boost, standing.2.2.1] at settled
    clear_value t
    refine ⟨by rw [made]; exact standing, settled, by rw [made]; exact holdOff, fun locks => ?locks, fun unlocks => ?unlocks⟩
    case locks =>
      rw [locks] at made
      refine ⟨fun locked => ?stays, fun unlocked => ?enters⟩
      case stays =>
        have same : w.lockTest true = w := if_pos locked
        rw [same, Winch.follow_rest (.inr locked)] at made
        subst made
        rfl
      case enters =>
        have entered : w.lockTest true = { w.finish .locked with state := .locked, requested := 0, holdOff := true } :=
          if_neg unlocked
        rw [entered, Winch.follow_rest (.inr rfl)] at made
        rw [made]
        refine ⟨rfl, rfl, rfl, ?_, rfl, rfl, rfl, rfl⟩
        exact w.finish_lastOp .locked
    case unlocks =>
      rw [unlocks] at made
      have same (unlocked : w.state ≠ .locked) : w.lockTest false = w := if_neg unlocked
      have free (go : w.state = .free) : w.state ≠ .locked := by rw [go]; decide
      refine ⟨fun locked rests => ?leaves, fun jogs released => ?ends, fun unlocked rests holds => ?rests, fun go isFree => ?free,
        fun go side => ?goesOn, fun go side notFree other => ?inward, fun go side notFree other => ?outward⟩
      case leaves =>
        have idle : w.lockTest false = w.toIdle := if_pos locked
        have stands : w.toIdle.follow cfg u = w.toIdle.clearHoldOff cfg u := by
          rw [Winch.follow_unmoved (by exact rests)]
          exact ite_self _
        rw [idle, stands] at made
        subst made
        exact ⟨⟨rfl, rfl, rfl, rfl, rfl, rfl, rfl⟩, rfl⟩
      case ends =>
        have unlocked : w.state ≠ .locked := by rcases jogs with jogs | jogs <;> rw [jogs] <;> decide
        have done : w.follow cfg u = ((w.clearHoldOff cfg u).finish .done).toIdle := by
          rw [Winch.follow_unmoved (fun moved => Nat.not_lt.2 released moved.2), if_pos released, Winch.release_jog jogs]
        have op : w.freed.lastOp = (w.finish .done).lastOp := by
          rcases jogs with jogs | jogs <;> simp [Winch.freed, jogs]
        rw [same unlocked, done] at made
        subst made
        exact ⟨⟨rfl, rfl, rfl, rfl, rfl, rfl, rfl⟩, op.symm.trans w.freed_lastOp⟩
      case rests =>
        have stands : w.follow cfg u = w.clearHoldOff cfg u := by
          rw [Winch.follow_unmoved (by exact rests)]
          split
          · next released => exact Winch.release_other fun jogs => Nat.not_lt.2 released (holds jogs)
          · rfl
        rw [same unlocked, stands] at made
        subst made
        rfl
      case free =>
        rw [same (free isFree), Winch.follow_rest (.inl isFree)] at made
        subst made
        rfl
      case goesOn =>
        have unlocked : w.state ≠ .locked := by rcases side with ⟨-, jogs⟩ | ⟨-, jogs⟩ <;> rw [jogs] <;> decide
        rw [same unlocked, Winch.moved.goesOn go side] at made
        subst made
        rfl
      case inward =>
        rw [Winch.moved.inward go side notFree other] at made
        obtain ⟨op, stays, stops, starts⟩ := Winch.freed_jogTo notFree cfg w.freed.atInEnd .jogIn u
        rw [← made] at op stays stops starts
        exact ⟨op.trans w.freed_lastOp, fun atEnd => stays (w.freed_atInEnd.2 atEnd), fun atEnd => stops (w.freed_atInEnd.2 atEnd),
          fun away => starts (Bool.eq_false_iff.2 fun atEnd => away (w.freed_atInEnd.1 atEnd))⟩
      case outward =>
        rw [Winch.moved.outward go side notFree other] at made
        obtain ⟨op, stays, stops, starts⟩ := Winch.freed_jogTo notFree cfg (w.freed.atOutEnd cfg) .jogOut u
        rw [← made] at op stays stops starts
        exact ⟨op.trans w.freed_lastOp, fun atEnd => stays ((w.freed_atOutEnd cfg).2 atEnd),
          fun atEnd => stops ((w.freed_atOutEnd cfg).2 atEnd),
          fun away => starts (Bool.eq_false_iff.2 fun atEnd => away ((w.freed_atOutEnd cfg).1 atEnd))⟩
  case parked =>
    intro t activeChip tested leaves
    exact ⟨fun stays => (c.channelUpdate_parked parked trigger order stays).wnc,
      fun go before after split => Chip.channelUpdate_returns_wnc parked go trigger split⟩

end Sys2Proof.Machine
end

section
/-! The winch commands (R88 to R91, R93, R96). -/

namespace Sys2Proof.Machine

/-! ### Answers of a ready SUP -/

/-- A command whose first failing check refuses it. -/
theorem next_refused {s : State} (ready : s.chip.Ready) {code : Nat} (hc : code < 16) (q : Byte) {ps : List Byte}
    (fits : ps.length ≤ 61) {checks : List (Bool × Status)} {go : Answer} {st : Status}
    (carried : s.chip.carryOut (setupPayload s.chip.tables.link.unitAddress.val code q ps) = s.chip.checked checks go)
    (fails : firstFailure checks = some st) (refusal : 5 ≤ st.code) :
    Host.Outcome.next (s.onChip fun c => c.setupCommand code q ps)
      = (.next { s with chip := s.chip.refusedAs ⟨code, hc⟩ st } : Host.Outcome State Fault Refusal) :=
  next_congr (Chip.checked_refused ready hc q fits carried fails refusal)

/-- A winch command that gives WNC a new record. -/
theorem next_took {s : State} (ready : s.chip.Ready) {code : Nat} (hc : code < 16) (q : Byte) {ps : List Byte}
    (fits : ps.length ≤ 61) {v : Winch} {st : Status}
    (carried : s.chip.carryOut (setupPayload s.chip.tables.link.unitAddress.val code q ps) = s.chip.winchAnswer v st)
    (taken : st.code < 4) :
    Host.Outcome.next (s.onChip fun c => c.setupCommand code q ps)
      = (.next { s with chip := { s.chip.setWinch v with rtx := s.chip.withReply code st (lastOpBytes v.lastOp) } }
        : Host.Outcome State Fault Refusal) := by
  refine next_congr ((Chip.command_answer ready hc q fits carried (Chip.setWinch_rtx _ _) taken).trans ?_)
  have record : (s.chip.setWinch v).wnc.lastOp = v.lastOp := by rw [Chip.setWinch_wnc]; rfl
  rw [Chip.winchAnswer, record]

/-- A winch command that changes nothing. -/
theorem next_ignored {s : State} (ready : s.chip.Ready) {code : Nat} (hc : code < 16) (q : Byte) {ps : List Byte}
    (fits : ps.length ≤ 61)
    (carried : s.chip.carryOut (setupPayload s.chip.tables.link.unitAddress.val code q ps) = s.chip.winchIgnored) :
    Host.Outcome.next (s.onChip fun c => c.setupCommand code q ps)
      = (.next { s with chip := s.chip.answered code .ignored (lastOpBytes s.chip.wnc.lastOp) }
        : Host.Outcome State Fault Refusal) :=
  next_congr (Chip.command_answer ready hc q fits carried rfl (show 2 < 4 by decide))

/-! ### WINCH_STOP, WINCH_ZERO and WINCH_FREE -/

/-- WINCH_STOP on its parameters. -/
theorem Chip.carryOut_winchStop (c : Chip) (q : Byte) (ps : List Byte) :
    c.carryOut (setupPayload c.tables.link.unitAddress.val 9 q ps) = c.checked [(decide (ps.length = 0), .refusedLength)]
      (if c.wnc.state = .idle ∨ c.wnc.state = .locked then c.winchIgnored else c.winchAnswer c.wnc.stop .ok) := by
  rw [Chip.carryOut_setup c 9 (by decide), ← lengthIs_setup c.tables.link.unitAddress.val 9 q ps 0]
  rfl

/-- WINCH_ZERO on its parameters. -/
theorem Chip.carryOut_winchZero (c : Chip) (q : Byte) (ps : List Byte) :
    c.carryOut (setupPayload c.tables.link.unitAddress.val 10 q ps)
      = c.checked [(decide (ps.length = 0), .refusedLength), (!c.wnc.state.driven, .refusedState)]
        (c.winchAnswer { c.wnc with position := 0, referenced := true } .ok) := by
  rw [Chip.carryOut_setup c 10 (by decide), ← lengthIs_setup c.tables.link.unitAddress.val 10 q ps 0]
  rfl

/-- WINCH_FREE on its parameters. -/
theorem Chip.carryOut_winchFree (c : Chip) (q : Byte) (ps : List Byte) :
    c.carryOut (setupPayload c.tables.link.unitAddress.val 11 q ps) = c.checked [(decide (ps.length = 0), .refusedLength)]
      (match q.toNat with
      | 0 => c.freeOff
      | 1 => c.freeOn
      | _ => { chip := c, status := .refusedUnknown, data := [] }) := by
  rw [Chip.carryOut_setup c 11 (by decide), ← lengthIs_setup c.tables.link.unitAddress.val 11 q ps 0,
    ← byteAt_setupPayload_one c.tables.link.unitAddress.val 11 q ps]
  rfl

/-- A wrong number of parameters fails the first check. -/
theorem firstFailure_length {ps : List Byte} (wrong : ps ≠ []) (rest : List (Bool × Status)) :
    firstFailure ((decide (ps.length = 0), .refusedLength) :: rest) = some .refusedLength := by
  have other : decide (ps.length = 0) = false := decide_eq_false fun none => wrong (List.length_eq_zero_iff.1 none)
  rw [other]
  rfl

/-- The operation in progress ends, by its kind (R91). -/
theorem Winch.finish_of_kind {w : Winch} {kind : OpKind} (moves : w.state.kind = some kind) (outcome : OpOutcome) :
    w.finish outcome = { w with
      run := none
      lastOp := some { kind := kind, requested := w.run.map Run.count, counts := w.countsDone, outcome := outcome } } := by
  unfold Winch.finish
  rw [moves]

/-- A run stops ABORTED (R90). -/
theorem Winch.stop_run {w : Winch} (run : w.state = .runIn ∨ w.state = .runOut) {kind : OpKind}
    (moves : w.state.kind = some kind) : w.stop = { w with
      state := .idle, run := none, requested := 0, creep := 0, creepReported := false, lastOp := some
        { kind := kind, requested := w.run.map Run.count, counts := w.countsDone, outcome := .aborted } } := by
  have stop : w.stop = (w.finish .aborted).toIdle := by
    unfold Winch.stop
    rcases run with state | state <;> rw [state]
  rw [stop, Winch.finish_of_kind moves]
  rfl

/-- A jog stops ABORTED, with the hold-off set (R90). -/
theorem Winch.stop_jog {w : Winch} (jog : w.state = .jogIn ∨ w.state = .jogOut) {kind : OpKind}
    (moves : w.state.kind = some kind) : w.stop = { w with
      state := .idle, run := none, requested := 0, creep := 0, creepReported := false, holdOff := true, lastOp := some
        { kind := kind, requested := w.run.map Run.count, counts := w.countsDone, outcome := .aborted } } := by
  have stop : w.stop = { (w.finish .aborted).toIdle with holdOff := true } := by
    unfold Winch.stop
    rcases jog with state | state <;> rw [state]
  rw [stop, Winch.finish_of_kind moves]
  rfl

/-- FREE and STALLED stop in IDLE (R90). -/
theorem Winch.stop_rest {w : Winch} (rest : w.state = .free ∨ w.state = .stalled) : w.stop = w.toIdle := by
  unfold Winch.stop
  rcases rest with state | state <;> rw [state]

/-- Settles O37. -/
theorem winchStopZeroFree : Obligations.WinchStopZeroFree := by
  intro q s ready c w idle op took ignored
  have fits : ([] : List Byte).length ≤ 61 := by decide
  refine ⟨fun ps few some => ⟨?_, ?_, ?_⟩, ?stop, ?zero, ?on, ?off, fun notOff notOn => ?unknown⟩
  · exact next_refused ready (by decide) q few (c.carryOut_winchStop q ps) (firstFailure_length some _) (by decide)
  · exact next_refused ready (by decide) q few (c.carryOut_winchZero q ps) (firstFailure_length some _) (by decide)
  · exact next_refused ready (by decide) q few (c.carryOut_winchFree q ps) (firstFailure_length some _) (by decide)
  case stop =>
    have carried : c.carryOut (setupPayload c.tables.link.unitAddress.val 9 q []) = _ := c.carryOut_winchStop q []
    have ignores (rests : w.state = .idle ∨ w.state = .locked) : exec (.winchStop q []) s = ignored 9 :=
      next_ignored ready (by decide) q fits (carried.trans (if_pos rests))
    have takes (acts : ¬ (w.state = .idle ∨ w.state = .locked)) : exec (.winchStop q []) s = took 9 w.stop :=
      next_took ready (by decide) q fits (carried.trans (if_neg acts)) (by decide)
    have stopped {v : Winch} (acts : ¬ (w.state = .idle ∨ w.state = .locked)) (stop : w.stop = v) :
        exec (.winchStop q []) s = took 9 v := by
      rw [← stop]
      exact takes acts
    cases state : w.state with
    | idle => exact ignores (.inl state)
    | locked => exact ignores (.inr state)
    | runIn => exact stopped (by rw [state]; decide) (Winch.stop_run (.inl state) (by rw [state]; rfl))
    | runOut => exact stopped (by rw [state]; decide) (Winch.stop_run (.inr state) (by rw [state]; rfl))
    | jogIn => exact stopped (by rw [state]; decide) (Winch.stop_jog (.inl state) (by rw [state]; rfl))
    | jogOut => exact stopped (by rw [state]; decide) (Winch.stop_jog (.inr state) (by rw [state]; rfl))
    | free => exact stopped (by rw [state]; decide) (Winch.stop_rest (.inl state))
    | stalled => exact stopped (by rw [state]; decide) (Winch.stop_rest (.inr state))
  case zero =>
    have carried : c.carryOut (setupPayload c.tables.link.unitAddress.val 10 q []) = _ := c.carryOut_winchZero q []
    have takes (still : w.state.driven = false) :
        exec (.winchZero q []) s = took 10 { w with position := 0, referenced := true } :=
      next_took ready (by decide) q fits (carried.trans (Chip.checked_go (by simp [firstFailure, still, w, c]))) (by decide)
    have refuses (driven : w.state.driven = true) : exec (.winchZero q []) s = .next { s with chip := c.refusedAs 10 .refusedState } :=
      next_refused ready (by decide) q fits carried (by simp [firstFailure, driven, w]) (by decide)
    cases state : w.state with
    | idle | free | stalled | locked => exact (takes (by rw [state]; rfl)).trans (by rw [state])
    | jogIn | jogOut | runIn | runOut => exact refuses (by rw [state]; rfl)
  case on =>
    have carried : c.carryOut (setupPayload c.tables.link.unitAddress.val 11 1#8 []) = c.freeOn := c.carryOut_winchFree 1#8 []
    have takes (rests : w.state = .idle ∨ w.state = .stalled) : exec (.winchFree 1#8 []) s = took 11 { w with state := .free } := by
      refine next_took ready (by decide) 1#8 fits (carried.trans ((Chip.checked_go ?_).trans (if_neg ?_))) (by decide)
      · rcases rests with state | state <;> simp [firstFailure, WinchState.takesFree, state, w]
      · rcases rests with state | state <;> rw [state] <;> decide
    cases state : w.state with
    | idle => exact takes (.inl state)
    | stalled => exact takes (.inr state)
    | free =>
      refine next_ignored ready (by decide) 1#8 fits (carried.trans ((Chip.checked_go ?_).trans (if_pos state)))
      simp [firstFailure, WinchState.takesFree, state, w]
    | jogIn | jogOut | runIn | runOut | locked =>
      exact next_refused ready (by decide) 1#8 fits carried (by simp [firstFailure, WinchState.takesFree, state, w]) (by decide)
  case off =>
    have carried : c.carryOut (setupPayload c.tables.link.unitAddress.val 11 0#8 []) = c.freeOff := c.carryOut_winchFree 0#8 []
    split
    · next free => exact next_took ready (by decide) 0#8 fits (carried.trans (if_pos free)) (by decide)
    · next other => exact next_ignored ready (by decide) 0#8 fits (carried.trans (if_neg other))
  case unknown =>
    have carried := c.carryOut_winchFree q []
    have code : q.toNat ≠ 0 ∧ q.toNat ≠ 1 :=
      ⟨fun zero => notOff (BitVec.eq_of_toNat_eq zero), fun one => notOn (BitVec.eq_of_toNat_eq one)⟩
    refine next_congr (Chip.command_refused ready (by decide) q fits (carried.trans ?_) (by decide))
    split
    · next zero => exact absurd zero code.1
    · next one => exact absurd one code.2
    · rfl

/-! ### WINCH_RUN -/

/-- A word of the parameters, from the payload. -/
theorem wordAt_setupPayload (unit code : Nat) (q : Byte) (ps : List Byte) (n : Nat) :
    wordAt (setupPayload unit code q ps) (n + 2) = wordAt ps n := by
  unfold wordAt
  rw [byteAt_setupPayload_param, show n + 2 + 1 = n + 1 + 2 from rfl, byteAt_setupPayload_param]

/-- The two words of a WINCH_RUN. -/
theorem wordAt_wordBytes (count duty : BitVec 16) :
    wordAt (wordBytes count ++ wordBytes duty) 0 = count.toNat ∧ wordAt (wordBytes count ++ wordBytes duty) 2 = duty.toNat := by
  have join (w : BitVec 16) : (w.extractLsb' 0 8).toNat + 256 * (w.extractLsb' 8 8).toNat = w.toNat := by
    have := w.isLt
    simp only [BitVec.extractLsb'_toNat, Nat.shiftRight_eq_div_pow]
    omega
  exact ⟨join count, join duty⟩

/-- WINCH_RUN on its parameters. -/
theorem Chip.carryOut_winchRun (c : Chip) (q : Byte) (ps : List Byte) :
    c.carryOut (setupPayload c.tables.link.unitAddress.val 8 q ps) = c.checked [(decide (ps.length = 4), .refusedLength)]
      (match windDirection q.toNat with
      | some dir => c.runWinch dir (wordAt ps 0) (wordAt ps 2)
      | none => { chip := c, status := .refusedUnknown, data := [] }) := by
  rw [Chip.carryOut_setup c 8 (by decide), ← lengthIs_setup c.tables.link.unitAddress.val 8 q ps 4,
    ← byteAt_setupPayload_one c.tables.link.unitAddress.val 8 q ps, ← wordAt_setupPayload c.tables.link.unitAddress.val 8 q ps 0,
    ← wordAt_setupPayload c.tables.link.unitAddress.val 8 q ps 2]
  rfl

/-- The record that a WINCH_RUN ends: a jog DONE, a run ABORTED (R88). -/
theorem Winch.cutShort_lastOp (w : Winch) : w.cutShort.lastOp = match w.state with
    | .jogIn => some { kind := .jogIn, requested := w.run.map Run.count, counts := w.countsDone, outcome := .done }
    | .jogOut => some { kind := .jogOut, requested := w.run.map Run.count, counts := w.countsDone, outcome := .done }
    | .runIn => some { kind := .runIn, requested := w.run.map Run.count, counts := w.countsDone, outcome := .aborted }
    | .runOut => some { kind := .runOut, requested := w.run.map Run.count, counts := w.countsDone, outcome := .aborted }
    | _ => w.lastOp := by
  unfold Winch.cutShort Winch.finish
  cases w.state <;> rfl

/-- A run that is taken writes state, run request, duty, counters and the record of what it ended (R88, R89). -/
theorem Winch.cutShort_startRun (w : Winch) (cfg : WinchCfg) (dir : WinchDir) (count duty : Nat) :
    w.cutShort.startRun cfg dir count duty = { w with
      state := dir.runState, run := some { dir := dir, count := count, duty := duty, remaining := count }
      requested := duty, opCount := 0, stallTimer := cfg.stallWindow, lastOp := w.cutShort.lastOp } := by
  unfold Winch.cutShort
  cases w.state <;> rfl

/-- The states that take a run (R88). -/
theorem WinchState.takesRun_iff (st : WinchState) (cfg : WinchCfg) (u : Int) : st.takesRun (winchReleased cfg u) = true
    ↔ st = .idle ∨ st = .runIn ∨ st = .runOut ∨ (st = .jogIn ∨ st = .jogOut) ∧ u.natAbs ≤ cfg.jogThreshold := by
  cases st <;> simp [WinchState.takesRun, winchReleased]

/-- A code that names no direction. -/
theorem windDirection_none {q : Byte} (notIn : q ≠ 1#8) (notOut : q ≠ 2#8) : windDirection q.toNat = none := by
  unfold windDirection
  split
  · next one => exact absurd (BitVec.eq_of_toNat_eq one) notIn
  · next two => exact absurd (BitVec.eq_of_toNat_eq two) notOut
  · rfl

/-- A code that names a direction: the run it starts, and the end it leads to (R88, R94). -/
theorem Winch.runDirection (w : Winch) (cfg : WinchCfg) {q : Byte} (known : q = 1#8 ∨ q = 2#8) :
    ∃ dir, windDirection q.toNat = some dir ∧ dir = (if q = 1#8 then .inward else .outward)
      ∧ dir.runState = (if q = 1#8 then .runIn else .runOut)
      ∧ (w.atEndOf cfg dir = true
        ↔ w.referenced = true ∧ (if q = 1#8 then w.position = 0 else w.position = cfg.pmax)) := by
  rcases known with rfl | rfl
  · exact ⟨.inward, rfl, rfl, rfl, by simp [Winch.atEndOf, Winch.atInEnd]⟩
  · exact ⟨.outward, rfl, rfl, rfl, by simp [Winch.atEndOf, Winch.atOutEnd]⟩

/-- Settles O36. -/
theorem winchRunIsTakenOrRefused : Obligations.WinchRunIsTakenOrRefused := by
  intro q s count duty ready w cfg n d released takes atEnd ended
  obtain ⟨countWord, dutyWord⟩ := wordAt_wordBytes count duty
  have fits : (wordBytes count ++ wordBytes duty).length ≤ 61 := show 4 ≤ 61 by decide
  have carried : s.chip.carryOut (setupPayload s.chip.tables.link.unitAddress.val 8 q (wordBytes count ++ wordBytes duty))
      = _ := s.chip.carryOut_winchRun q _
  rw [countWord, dutyWord] at carried
  have takes_iff : w.state.takesRun (winchReleased cfg s.chip.cdc.winch) = true ↔ takes :=
    WinchState.takesRun_iff w.state cfg s.chip.cdc.winch
  refine ⟨fun ps few wrong => ?length, fun notIn notOut => ?unknown, fun known refused => ?state, fun known go free => ?taken⟩
  case length =>
    refine next_refused ready (by decide) q few (s.chip.carryOut_winchRun q ps) ?_ (by decide)
    rw [firstFailure, decide_eq_false wrong]
    rfl
  case unknown =>
    have direction : windDirection q.toNat = none := windDirection_none notIn notOut
    rw [direction] at carried
    exact next_congr (Chip.command_refused ready (by decide) q fits carried (by decide))
  case state =>
    obtain ⟨dir, direction, -, -, ahead⟩ := w.runDirection cfg known
    rw [direction] at carried
    refine next_refused ready (by decide) q fits (carried.trans (Chip.checked_go rfl)) ?_ (by decide)
    by_cases go : takes
    · have stands : w.atEndOf cfg dir = true := ahead.2 (refused.resolve_left fun off => off go)
      simp only [firstFailure]
      rw [if_pos (takes_iff.2 go), stands]
      rfl
    · simp only [firstFailure]
      rw [if_neg fun yes => go (takes_iff.1 yes)]
  case taken =>
    obtain ⟨dir, direction, code, run, ahead⟩ := w.runDirection cfg known
    rw [direction] at carried
    have clear : w.atEndOf cfg dir = false := Bool.eq_false_iff.2 fun stands => free (ahead.1 stands)
    have checks : firstFailure [(w.state.takesRun (winchReleased cfg s.chip.cdc.winch), .refusedState),
        (!w.atEndOf cfg dir, .refusedState)] = none := by
      simp only [firstFailure]
      rw [if_pos (takes_iff.2 go), clear]
      rfl
    have status : (if count.toNat = 0 ∨ clampNat 100 1000 duty.toNat ≠ duty.toNat then Status.clamped else .ok)
        = if count = 0#16 ∨ d ≠ duty.toNat then .clamped else .ok :=
      if_congr (or_congr_left (BitVec.toNat_eq (y := 0#16)).symm) rfl rfl
    have taken := next_took ready (by decide) q fits (carried.trans (Chip.checked_go checks)) (by split <;> decide)
    have op : w.cutShort.lastOp = ended := w.cutShort_lastOp
    rw [Winch.cutShort_startRun, status, op, run, code] at taken
    exact taken

end Sys2Proof.Machine
end

section
/-! The alerts: the top alert (R168), and what an acknowledge clears (R165 to R167). -/

namespace Sys2Proof.Machine

/-! ### The best of a list -/

/-- A search through a list in the order of a rank, which keeps the find so far unless the next is strictly better, finds a
member with the least key, and of those the one with the least rank. -/
theorem foldl_best {α : Type} {key rank : α → Int} {step : Option α → α → Option α}
    (starts : ∀ x, step none x = some x) (goesOn : ∀ best x, step (some best) x = some (if key x < key best then x else best))
    {l : List α} (sorted : l.Pairwise fun x y => rank x < rank y) :
    (l.foldl step none = none ↔ l = [])
      ∧ ∀ a, l.foldl step none = some a → a ∈ l ∧ ∀ x ∈ l, key a < key x ∨ key a = key x ∧ rank a ≤ rank x := by
  have search : ∀ (l : List α) (best : α), (best :: l).Pairwise (fun x y => rank x < rank y) →
      ∃ a ∈ best :: l, l.foldl step (some best) = some a
        ∧ ∀ x ∈ best :: l, key a < key x ∨ key a = key x ∧ rank a ≤ rank x := by
    intro l
    induction l with
    | nil =>
      intro best _
      exact ⟨best, List.mem_singleton.2 rfl, rfl, fun x mem => .inr (by rw [List.mem_singleton.1 mem]; exact ⟨rfl, le_rfl⟩)⟩
    | cons y l ih =>
      intro best sorted
      obtain ⟨first, rest⟩ := List.pairwise_cons.1 sorted
      have before := first y List.mem_cons_self
      rw [List.foldl_cons, goesOn]
      by_cases better : key y < key best
      · obtain ⟨a, mem, found, least⟩ := ih y rest
        rw [if_pos better]
        refine ⟨a, List.mem_cons_of_mem _ mem, found, List.forall_mem_cons.2 ⟨?_, least⟩⟩
        have := least y List.mem_cons_self
        omega
      · obtain ⟨a, mem, found, least⟩ := ih best (List.pairwise_cons.2
          ⟨fun x mem => first x (List.mem_cons_of_mem _ mem), (List.pairwise_cons.1 rest).2⟩)
        obtain ⟨atBest, atRest⟩ := List.forall_mem_cons.1 least
        rw [if_neg better]
        refine ⟨a, List.mem_cons.2 ((List.mem_cons.1 mem).imp id (List.mem_cons_of_mem _)), found,
          List.forall_mem_cons.2 ⟨atBest, List.forall_mem_cons.2 ⟨?_, atRest⟩⟩⟩
        omega
  cases l with
  | nil => exact ⟨by simp, fun a found => nomatch found⟩
  | cons y l =>
    obtain ⟨a, mem, found, least⟩ := search l y sorted
    rw [List.foldl_cons, starts, found]
    refine ⟨by simp, fun b same => ?_⟩
    cases same
    exact ⟨mem, least⟩

/-! ### The top alert (R168) -/

/-- Every alert is among them. -/
theorem Alert.mem_all (a : Alert) : a ∈ Alert.all := by
  cases a <;> decide

/-- The top alert is the first in the order of level and code of the eligible latches. -/
theorem Alt.top_spec (t : Alt) (m : Nat) :
    (∀ a, t.top m = some a → (t.has a = true ∧ (a.level ≤ m ∨ a.level = 1))
      ∧ ∀ b, t.has b = true ∧ (b.level ≤ m ∨ b.level = 1) → a.level < b.level ∨ a.level = b.level ∧ a.code ≤ b.code)
    ∧ (t.top m = none ↔ ∀ a, ¬(t.has a = true ∧ (a.level ≤ m ∨ a.level = 1))) := by
  have eligible (a : Alert) : a ∈ Alert.all.filter (fun a => t.has a && a.eligible m)
      ↔ t.has a = true ∧ (a.level ≤ m ∨ a.level = 1) := by
    rw [List.mem_filter]
    simp [Alert.mem_all, Alert.eligible]
  have sorted : (Alert.all.filter fun a => t.has a && a.eligible m).Pairwise
      fun x y => ((x.code : Nat) : Int) < ((y.code : Nat) : Int) :=
    List.Pairwise.filter _ (by decide)
  obtain ⟨none_iff, best⟩ := foldl_best (key := fun a : Alert => ((a.level : Nat) : Int)) (step := Alert.better)
    (fun _ => rfl) (fun best x => by simp only [Alert.better, Nat.cast_lt]; split <;> rfl) sorted
  refine ⟨fun a found => ?_, none_iff.trans ?_⟩
  · obtain ⟨mem, least⟩ := best a found
    refine ⟨(eligible a).1 mem, fun b other => ?_⟩
    have := least b ((eligible b).2 other)
    omega
  · rw [List.eq_nil_iff_forall_not_mem]
    exact forall_congr' fun a => not_congr (eligible a)

/-- Settles O60. -/
theorem topAlertIsTheMostSevere : Obligations.TopAlertIsTheMostSevere := by
  refine ⟨fun t a b command reason => ⟨⟨rfl, rfl⟩, ⟨?_, rfl, rfl⟩, ⟨?_, ?_, rfl⟩, ⟨rfl, ?_, rfl⟩, rfl⟩,
    fun c f => ⟨rfl, c.alert_lsq f |>.1, (c.alert_lsq f).2.1, (c.alert_lsq f).2.2, fun _ _ => rfl⟩, fun t m => t.top_spec m⟩
  · rw [Alt.has_raise]
    simp only [eq_comm]
  · rw [Alt.has_cause, Bool.true_and]
    simp only [eq_comm]
  · rw [Alt.caused_cause]
    by_cases same : b = a
    · simp [same]
    · simp [same, Ne.symm same]
  · rw [Alt.caused_cause]
    by_cases same : b = a
    · simp [same]
    · simp [same, Ne.symm same]

/-! ### Acknowledging (R165 to R167) -/

/-- An acknowledge clears the latch it names, unless its cause stands, and no other; cause flags stand. -/
theorem Alt.ack_keeps (t : Alt) (a : Alert) : (t.ack a).1.causes = t.causes
    ∧ ∀ b, (t.ack a).1.has b = (t.has b && (!decide (a = b) || t.retains b)) := by
  unfold Alt.ack
  by_cases latched : t.has a = true
  · by_cases retained : t.retains a = true
    · simp only [latched, retained, Bool.not_true, Bool.false_eq_true, if_false, if_true, true_and]
      intro b
      by_cases same : a = b
      · subst same
        simp [retained]
      · simp [same]
    · simp only [latched, retained, Bool.not_true, Bool.false_eq_true, if_false]
      refine ⟨rfl, fun b => ?_⟩
      rw [Alt.has_clear]
      by_cases same : a = b
      · subst same
        simp [retained]
      · simp [same]
  · simp only [latched, Bool.not_false, if_true, true_and]
    intro b
    by_cases same : a = b
    · subst same
      simp [latched]
    · simp [same]

/-- Acknowledging all the alerts of a list. -/
theorem Alt.foldl_ack (l : List Alert) (t : Alt) : (l.foldl (fun u a => (u.ack a).1) t).causes = t.causes
    ∧ ∀ b, (l.foldl (fun u a => (u.ack a).1) t).has b = (t.has b && (!decide (b ∈ l) || t.retains b)) := by
  induction l generalizing t with
  | nil => exact ⟨rfl, fun b => by simp⟩
  | cons a l ih =>
    obtain ⟨causes, has⟩ := t.ack_keeps a
    obtain ⟨restCauses, restHas⟩ := ih (t.ack a).1
    have retains (b : Alert) : (t.ack a).1.retains b = t.retains b := by
      unfold Alt.retains Alt.caused
      rw [causes]
    refine ⟨restCauses.trans causes, fun b => (restHas b).trans ?_⟩
    rw [has, retains]
    by_cases first : a = b
    · subst first
      cases t.has a <;> cases t.retains a <;> simp
    · simp [first, Ne.symm first]

/-- ALL clears every latch whose cause does not stand (R167). -/
theorem Alt.ackAll_spec {t : Alt} (ok : t.Ok) : t.ackAll.1.causes = t.causes ∧ t.ackAll.1.fault = none
    ∧ ∀ b, t.ackAll.1.has b = true ↔ t.has b = true ∧ t.caused b = true := by
  obtain ⟨causes, has⟩ := Alt.foldl_ack Alert.all t
  have latched (b : Alert) : t.ackAll.1.has b = true ↔ t.has b = true ∧ t.caused b = true := by
    have retained : t.retains b = t.caused b := by
      unfold Alt.retains
      cases caused : t.caused b
      · simp
      · simp [(ok.1 b caused).1]
    show (Alert.all.foldl (fun u a => (u.ack a).1) t).has b = true ↔ _
    rw [has b, retained]
    simp [Alert.mem_all]
  refine ⟨causes, ?_, latched⟩
  have noFault : ¬ t.ackAll.1.has .setupFault = true := fun stands =>
    absurd (ok.1 .setupFault ((latched .setupFault).1 stands).2).1 (by decide)
  have record := (Alt.ok_ackAll ok).2
  exact Option.not_isSome_iff_eq_none.1 fun some => noFault (record.1 some)

/-- No latch is set where the latched set is empty. -/
theorem Alt.latched_eq_zero_iff (t : Alt) : t.latched = 0#12 ↔ ∀ b, t.has b = false := by
  refine ⟨fun zero b => by simp [Alt.has, zero], fun clear => BitVec.eq_of_getLsbD_eq fun i small => ?_⟩
  have named : ∀ i : Fin 12, ∃ b ∈ Alert.all, b.code - 1 = i.val := by decide
  obtain ⟨b, -, code⟩ := named ⟨i, small⟩
  have latch := clear b
  unfold Alt.has at latch
  rw [code] at latch
  simpa using latch

/-- A code names its alert. -/
theorem Alert.ofCode_code (a : Alert) : Alert.ofCode a.code = some a := by
  cases a <;> rfl

/-- Codes outside 1..12 name no alert. -/
theorem Alert.ofCode_none {n : Nat} (outside : n = 0 ∨ 12 < n) : Alert.ofCode n = none := by
  refine List.find?_eq_none.2 fun a _ => ?_
  have := a.code_lt
  have : a.code ≠ 0 := by cases a <;> decide
  simp only [beq_iff_eq]
  omega

/-- ACK_ALERT on its parameters. -/
theorem Chip.carryOut_ackAlert (c : Chip) (q : Byte) (ps : List Byte) :
    c.carryOut (setupPayload c.tables.link.unitAddress.val 12 q ps) = c.checked [(decide (ps.length = 0), .refusedLength)]
      (if q.toNat = 255 then c.ackAnswer c.alt.ackAll
        else match Alert.ofCode q.toNat with
          | some a => c.ackAnswer (c.alt.ack a)
          | none => { chip := c, status := .refusedUnknown, data := [] }) := by
  rw [Chip.carryOut_setup c 12 (by decide), ← lengthIs_setup c.tables.link.unitAddress.val 12 q ps 0,
    ← byteAt_setupPayload_one c.tables.link.unitAddress.val 12 q ps]
  rfl

/-- ALT set to what it is changes nothing. -/
theorem Chip.alert_same (c : Chip) : (c.alert fun _ => c.alt) = c := by
  have same : ({ c with alt := c.alt } : Chip).topAlert = c.topAlert := rfl
  unfold Chip.alert Chip.relightIf
  rw [decide_eq_false fun changed => changed same]
  rfl

/-- A ready ACK_ALERT that is answered with what an acknowledge makes of the latches. -/
theorem exec_ackAlert {s : State} (ready : s.chip.Ready) (q : Byte) {r : Alt × Status}
    (carried : s.chip.carryOut (setupPayload s.chip.tables.link.unitAddress.val 12 q []) = s.chip.ackAnswer r)
    (taken : r.2.code < 4) : exec (.ackAlert q []) s = .next { s with
      chip := { s.chip.alert (fun _ => r.1) with rtx := s.chip.withReply 12 r.2 r.1.latchedBytes } } :=
  next_congr (Chip.command_answer ready (by decide) q (by decide) carried rfl taken)

/-- Settles O59. -/
theorem acknowledgeClearsLatches : Obligations.AcknowledgeClearsLatches := by
  intro q s ready ok c
  have fits : ([] : List Byte).length ≤ 61 := by decide
  have carried : c.carryOut (setupPayload c.tables.link.unitAddress.val 12 q []) = _ := c.carryOut_ackAlert q []
  refine ⟨fun ps few some => ?length, fun outside => ?unknown, fun a code => ?one, fun all => ?all⟩
  case length =>
    exact next_refused ready (by decide) q few (c.carryOut_ackAlert q ps) (firstFailure_length some _) (by decide)
  case unknown =>
    have notAll : ¬ q.toNat = 255 := by
      rcases outside with rfl | ⟨-, other⟩
      · decide
      · exact fun all => other (BitVec.eq_of_toNat_eq all)
    have none : Alert.ofCode q.toNat = .none := Alert.ofCode_none (outside.imp (fun zero => by rw [zero]; rfl) And.left)
    refine next_congr (Chip.command_refused ready (by decide) q fits (carried.trans ?_) (by decide))
    exact (if_neg notAll).trans (by rw [none])
  case one =>
    have notAll : ¬ q.toNat = 255 := by
      have := a.code_lt
      omega
    have carried : c.carryOut (setupPayload c.tables.link.unitAddress.val 12 q []) = c.ackAnswer (c.alt.ack a) :=
      carried.trans ((if_neg notAll).trans (by rw [code, Alert.ofCode_code]))
    refine ⟨fun clear => ?_, fun stands causes => ?_, fun stands free => ?_⟩
    · have ignored : c.alt.ack a = (c.alt, .ignored) := by simp [Alt.ack, clear]
      rw [ignored] at carried
      rw [exec_ackAlert ready q carried (show Status.code .ignored < 4 by decide), Chip.alert_same]
      rfl
    · have retained : c.alt.ack a = (c.alt, .retained) := by simp [Alt.ack, stands, Alt.retains, causes, (ok.1 a causes).1]
      rw [retained] at carried
      rw [exec_ackAlert ready q carried (show Status.code .retained < 4 by decide), Chip.alert_same]
      rfl
    · have cleared : c.alt.ack a = (c.alt.clear a, .ok) := by simp [Alt.ack, stands, Alt.retains, free]
      rw [cleared] at carried
      obtain ⟨-, same, formed⟩ := c.alert_lsq fun _ => c.alt.clear a
      refine ⟨_, exec_ackAlert ready q carried (show Status.code .ok < 4 by decide), rfl, rfl, fun b => ?_, rfl, rfl, same, formed⟩
      refine (Eq.congr_left (Alt.has_clear c.alt a b)).trans ?_
      rw [Bool.and_eq_true, Bool.not_eq_true', decide_eq_false_iff_not]
      exact and_congr_right' ne_comm
  case all =>
    have carried : c.carryOut (setupPayload c.tables.link.unitAddress.val 12 q []) = c.ackAnswer c.alt.ackAll :=
      carried.trans (if_pos (by rw [all]; rfl))
    obtain ⟨-, same, formed⟩ := c.alert_lsq fun _ => c.alt.ackAll.1
    obtain ⟨causes, fault, latched⟩ := Alt.ackAll_spec ok
    have status : c.alt.ackAll.2 = if c.alt.ackAll.1.latched ≠ 0#12 then .retained
      else if c.alt.latched ≠ 0#12 then .ok else .ignored := rfl
    have taken : c.alt.ackAll.2.code < 4 := by
      rw [status]
      split
      · decide
      · split <;> decide
    refine ⟨_, c.alt.ackAll.2, exec_ackAlert ready q carried taken, rfl, rfl, latched, causes, fault, same, formed,
      ?retained, ?cleared, ?ignored⟩
    case retained =>
      rintro ⟨b, caused⟩
      have stands : c.alt.ackAll.1.has b = true := (latched b).2 ⟨(ok.1 b caused).2, caused⟩
      rw [status, if_pos fun zero => by rw [(Alt.latched_eq_zero_iff _).1 zero b] at stands; exact nomatch stands]
    case cleared =>
      rintro free ⟨b, stands⟩
      have none : c.alt.ackAll.1.latched = 0#12 := (Alt.latched_eq_zero_iff _).2 fun b =>
        Bool.eq_false_iff.2 fun stands => by have := ((latched b).1 stands).2; rw [free b] at this; exact nomatch this
      rw [status, if_neg fun other => other none,
        if_pos fun zero => by rw [(Alt.latched_eq_zero_iff _).1 zero b] at stands; exact nomatch stands]
    case ignored =>
      intro clear
      have none : c.alt.ackAll.1.latched = 0#12 := (Alt.latched_eq_zero_iff _).2 fun b =>
        Bool.eq_false_iff.2 fun stands => by have := ((latched b).1 stands).1; rw [clear b] at this; exact nomatch this
      rw [status, if_neg fun other => other none, if_neg fun other => other ((Alt.latched_eq_zero_iff _).2 clear)]

end Sys2Proof.Machine
end

section
/-! The switch space (R119, R136, R187, R188): what a write does, and the commands and rows that write it. -/

namespace Sys2Proof.Machine

/-! ### Bits -/

/-- The bits 4 to 11. -/
theorem overrideMask_getLsbD {n : Nat} (h : n < 32) : (0xFF0#32).getLsbD n = decide (4 ≤ n ∧ n < 12) := by
  have : ∀ n : Fin 32, (0xFF0#32).getLsbD n.val = decide (4 ≤ n.val ∧ n.val < 12) := by decide
  exact this ⟨n, h⟩

/-- The mask of a run is a block of ones in its place. -/
theorem runMask_eq (base count : Nat) : runMask base count = ((1#32 <<< count) - 1#32) <<< base := by
  have ones : BitVec.ofNat 32 (2 ^ count - 1) = 1#32 <<< count - 1#32 := by
    rw [eq_sub_iff_add_eq, ← oneBit_eq_shift, oneBit, ← BitVec.ofNat_add, Nat.sub_add_cancel Nat.one_le_two_pow]
  rw [runMask, BitVec.ofNat_mul, ones, BitVec.shiftLeft_eq_mul_twoPow _ base, BitVec.twoPow, ← oneBit_eq_shift base]
  rfl

/-- The value that OVERRIDE carries: its byte in the bits 4 to 11. -/
theorem overrideValue_eq (bits : Byte) : BitVec.ofNat 32 (bits.toNat * 16) = bits.setWidth 32 <<< 4 := by
  apply BitVec.eq_of_toNat_eq
  have := bits.isLt
  simp only [BitVec.toNat_ofNat, BitVec.toNat_shiftLeft, BitVec.toNat_setWidth, Nat.shiftLeft_eq]
  omega

/-- Where a write changes a bit. -/
theorem mergeSwitches_changed {old mask value : BitVec 32} {n : Nat} :
    (old ^^^ mergeSwitches old mask value).getLsbD n = true ↔ (mergeSwitches old mask value).getLsbD n ≠ old.getLsbD n := by
  rw [BitVec.getLsbD_xor]
  cases old.getLsbD n <;> cases (mergeSwitches old mask value).getLsbD n <;> decide

/-- A write changes an override bit where the byte of the changes is not 0. -/
theorem overridesChanged_iff (old mask value : BitVec 32) : (old ^^^ mergeSwitches old mask value).extractLsb' 4 8 ≠ 0#8
    ↔ ∃ n, 4 ≤ n ∧ n < 12 ∧ (mergeSwitches old mask value).getLsbD n ≠ old.getLsbD n := by
  constructor
  · intro changed
    by_contra none
    refine changed (BitVec.eq_of_getLsbD_eq fun i small => ?_)
    have same : ¬ (old ^^^ mergeSwitches old mask value).getLsbD (4 + i) = true := fun bit =>
      none ⟨4 + i, by omega, by omega, mergeSwitches_changed.1 bit⟩
    simp only [BitVec.getLsbD_extractLsb', BitVec.getLsbD_zero, small, decide_true, Bool.true_and]
    exact Bool.eq_false_iff.2 same
  · rintro ⟨n, low, high, changed⟩ none
    have bit := congrArg (fun v : BitVec 8 => v.getLsbD (n - 4)) none
    have small : n - 4 < 8 := by omega
    have place : 4 + (n - 4) = n := by omega
    simp only [BitVec.getLsbD_extractLsb', BitVec.getLsbD_zero, small, decide_true, Bool.true_and, place] at bit
    rw [mergeSwitches_changed.2 changed] at bit
    exact nomatch bit

/-! ### A write of the override bits -/

/-- A write of override bits alone reaches LSQ alone. -/
theorem Chip.putSwitches_overrides (c : Chip) (mask value : BitVec 32)
    (only : ∀ n, n < 15 → ¬(4 ≤ n ∧ n < 12) → mask.getLsbD n = false) : c.putSwitches mask value
      = if mergeSwitches c.sup.switches mask value = c.sup.switches then c else (c.written mask value).relight := by
  have off {n : Nat} (small : n < 15) (other : ¬(4 ≤ n ∧ n < 12)) (v : Bool) : writesBit mask value n v = false := by
    simp [writesBit, only n small other]
  have inhibit := mergeSwitches_unchanged (old := c.sup.switches) (value := value) (by decide) (only 1 (by decide) (by decide))
  have boost := mergeSwitches_unchanged (old := c.sup.switches) (value := value) (by decide) (only 13 (by decide) (by decide))
  have turns : c.putSwitches mask value = (c.written mask value).relightIf
      (decide ((c.sup.switches ^^^ mergeSwitches c.sup.switches mask value).extractLsb' 4 8 ≠ 0#8)) := by
    rw [Chip.putSwitches_turns, inhibit, boost, off (by decide) (by decide), off (by decide) (by decide),
      off (by decide) (by decide), off (by decide) (by decide)]
    rfl
  rw [turns]
  split
  · next same =>
    have stands : c.written mask value = c := by rw [Chip.written, same]
    rw [stands, decide_eq_false fun changed => ?_]
    · rfl
    · obtain ⟨n, -, -, moved⟩ := (overridesChanged_iff _ _ _).1 changed
      exact moved (by rw [same])
  · next other =>
    rw [decide_eq_true]
    · rfl
    · refine (overridesChanged_iff _ _ _).2 ?_
      by_contra none
      refine other (BitVec.eq_of_getLsbD_eq fun n small => ?_)
      by_contra moved
      have written := mergeSwitches_getLsbD c.sup.switches mask value small
      by_cases inside : 4 ≤ n ∧ n < 12
      · exact none ⟨n, inside.1, inside.2, moved⟩
      · rw [if_neg] at written
        · exact moved written
        · rintro ⟨names, acts⟩
          rw [only n (by omega) inside] at names
          exact nomatch names

/-- The merge of OVERRIDE: its byte takes the place of the bits 4 to 11. -/
theorem mergeSwitches_override (old : BitVec 32) (bits : Byte) :
    mergeSwitches old 0xFF0#32 (bits.setWidth 32 <<< 4) = (old &&& ~~~0xFF0#32) ||| (bits.setWidth 32 <<< 4) := by
  refine BitVec.eq_of_getLsbD_eq fun n small => ?_
  rw [mergeSwitches_getLsbD _ _ _ small, BitVec.getLsbD_or, BitVec.getLsbD_and, BitVec.getLsbD_not, overrideMask_getLsbD small]
  by_cases inside : 4 ≤ n ∧ n < 12
  · have acts : decide (4 ≤ n ∧ n < 12) = true ∧ (n < 12 ∨ n = 13 ∨ n = 14) := ⟨decide_eq_true inside, .inl inside.2⟩
    rw [if_pos acts, decide_eq_true inside]
    simp [small]
  · have quiet : ¬(decide (4 ≤ n ∧ n < 12) = true ∧ (n < 12 ∨ n = 13 ∨ n = 14)) := fun acts => inside (of_decide_eq_true acts.1)
    have empty : (bits.setWidth 32 <<< 4).getLsbD n = false := by
      rw [BitVec.getLsbD_shiftLeft, BitVec.getLsbD_setWidth]
      by_cases low : n < 4
      · simp [low]
      · rw [BitVec.getLsbD_of_ge bits (n - 4) (by omega)]
        simp
    rw [if_neg quiet, decide_eq_false inside, empty]
    simp [small]

/-- The row OVERRIDE writes the bits 4 to 11. -/
theorem exec_override {s : State} (running : s.chip.Running) (bits : Byte) :
    exec (.override bits) s = .next { s with chip := s.chip.putSwitches 0xFF0#32 (bits.setWidth 32 <<< 4) } := by
  rw [← overrideValue_eq]
  exact next_congr (Chip.whenRunning_eq running _)

/-- A mask of override bits names no other bit. -/
theorem overrideMask_only {n : Nat} (small : n < 15) (other : ¬(4 ≤ n ∧ n < 12)) : (0xFF0#32).getLsbD n = false := by
  rw [overrideMask_getLsbD (by omega)]
  exact decide_eq_false other

/-- A write of the byte that a write of one override bit leaves merges as that write does. -/
theorem mergeSwitches_override_byte (old : BitVec 32) {mask : BitVec 32} (value : BitVec 32)
    (only : ∀ n, n < 32 → ¬(4 ≤ n ∧ n < 12) → mask.getLsbD n = false) :
    mergeSwitches old 0xFF0#32 (((mergeSwitches old mask value).extractLsb' 4 8).setWidth 32 <<< 4) = mergeSwitches old mask value := by
  refine BitVec.eq_of_getLsbD_eq fun n small => ?_
  rw [mergeSwitches_getLsbD _ _ _ small, overrideMask_getLsbD small]
  by_cases inside : 4 ≤ n ∧ n < 12
  · have place : 4 + (n - 4) = n := by omega
    have byte : n - 4 < 8 := by omega
    have late : ¬ n < 4 := by omega
    rw [if_pos ⟨decide_eq_true inside, .inl inside.2⟩, BitVec.getLsbD_shiftLeft, BitVec.getLsbD_setWidth,
      BitVec.getLsbD_extractLsb', place, decide_eq_true small, decide_eq_true byte, decide_eq_false late,
      decide_eq_true (show n - 4 < 32 by omega)]
    simp
  · rw [if_neg fun acts => inside (of_decide_eq_true acts.1), mergeSwitches_getLsbD _ _ _ small, only n small inside]
    rfl

/-- So the two writes are one. -/
theorem Chip.putSwitches_override_byte (c : Chip) {mask : BitVec 32} (value : BitVec 32)
    (only : ∀ n, n < 32 → ¬(4 ≤ n ∧ n < 12) → mask.getLsbD n = false) :
    c.putSwitches 0xFF0#32 (((c.putSwitches mask value).sup.switches.extractLsb' 4 8).setWidth 32 <<< 4)
      = c.putSwitches mask value := by
  rw [Chip.putSwitches_sup, Chip.putSwitches_overrides _ _ _ fun n => overrideMask_only,
    Chip.putSwitches_overrides _ mask value fun n small other => only n (by omega) other]
  unfold Chip.written
  rw [mergeSwitches_override_byte _ _ only]

/-- A write of the strobe reaches BTM and ALT alone. -/
theorem Chip.putSwitches_charge (c : Chip) : c.putSwitches 0x1000#32 0x1000#32 = c.resetCharge := by
  have same : mergeSwitches c.sup.switches 0x1000#32 0x1000#32 = c.sup.switches := by
    refine BitVec.eq_of_getLsbD_eq fun n small => ?_
    have strobe : ∀ n : Fin 32, ¬((0x1000#32).getLsbD n.val ∧ (n.val < 12 ∨ n.val = 13 ∨ n.val = 14)) := by decide
    rw [mergeSwitches_getLsbD _ _ _ small, if_neg (strobe ⟨n, small⟩)]
  have stands : c.written 0x1000#32 0x1000#32 = c := by rw [Chip.written, same]
  rw [Chip.putSwitches_turns, stands, same, BitVec.xor_self]
  rfl

/-- The row RESET_CHARGE fires the strobe. -/
theorem exec_resetCharge {s : State} (running : s.chip.Running) :
    exec .resetCharge s = .next { s with chip := s.chip.putSwitches 0x1000#32 0x1000#32 } :=
  next_congr (Chip.whenRunning_eq running _)

/-- Settles O58. -/
theorem overrideAndResetCharge : Obligations.OverrideAndResetCharge := by
  intro bits s running c switches written
  refine ⟨?_, ?_⟩
  · rw [exec_override running, Chip.putSwitches_overrides _ _ _ fun n => overrideMask_only]
    simp only [Chip.written, mergeSwitches_override]
    rfl
  · rw [exec_resetCharge running, Chip.putSwitches_charge, Chip.resetCharge_eq]

/-! ### What the switch space shows -/

/-- The 32 bits as a read gives them. -/
theorem Chip.switchSpace_eq (c : Chip) : c.switchSpace = c.sup.switches ||| (if c.mdc.bench = true then 1#32 <<< 15 else 0#32)
    ||| (if c.drm.arming = .armed then 1#32 <<< 16 else 0#32) ||| (if c.sup.store ≠ none then 1#32 <<< 17 else 0#32) := by
  unfold Chip.switchSpace
  cases c.sup.store <;> rfl

/-- Four bytes of the 32 bits, least significant first. -/
theorem bytesOf32_eq (v : BitVec 32) :
    bytesOf32 v = [v.setWidth 8, (v >>> 8).setWidth 8, (v >>> 16).setWidth 8, (v >>> 24).setWidth 8] := by
  have byte (k : Nat) : v.extractLsb' k 8 = (v >>> k).setWidth 8 := by
    refine BitVec.eq_of_toNat_eq ?_
    simp
  rw [bytesOf32, byte, byte, byte, byte]
  rfl

/-! ### The commands (R188) -/

/-- What a switch write answers: its status by what it changed, and the bits after it. -/
theorem Chip.switchStatus_eq (c : Chip) (mask value : BitVec 32) : c.switchStatus mask value
    = if (c.putSwitches mask value).sup.switches ≠ c.sup.switches ∨ mask.getLsbD 12 ∧ value.getLsbD 12 then .ok else .ignored := by
  rw [Chip.switchStatus, Chip.putSwitches_sup]
  exact if_congr (or_congr_right (writesBit_iff mask value 12 true)) rfl rfl

/-- A switch write that runs under its checks. -/
theorem next_switched {s : State} (ready : s.chip.Ready) {code : Nat} (hc : code < 16) (q : Byte) {ps : List Byte}
    (fits : ps.length ≤ 61) {checks : List (Bool × Status)} {mask value : BitVec 32}
    (carried : s.chip.carryOut (setupPayload s.chip.tables.link.unitAddress.val code q ps)
      = s.chip.checked checks (s.chip.switchAnswer mask value))
    (refusals : ∀ x ∈ checks, x.2 = .busy ∨ 5 ≤ x.2.code) :
    Host.Outcome.next (s.onChip fun c => c.setupCommand code q ps) = (.next { s with
      chip := s.chip.underChecks ⟨code, hc⟩ checks { s.chip.putSwitches mask value with
        rtx := s.chip.withReply code
          (if (s.chip.putSwitches mask value).sup.switches ≠ s.chip.sup.switches ∨ mask.getLsbD 12 ∧ value.getLsbD 12 then .ok
            else .ignored)
          (bytesOf32 (s.chip.putSwitches mask value).switchSpace) } } : Host.Outcome State Fault Refusal) := by
  have taken : (s.chip.switchStatus mask value).code < 4 := by
    rw [Chip.switchStatus]
    split <;> decide
  refine next_congr ((Chip.command_checked ready hc q fits carried refusals (Chip.putSwitches_rtx _ _ _) taken).trans ?_)
  rw [← Chip.switchStatus_eq]
  rfl

/-- SET_SWITCH on its parameters. -/
theorem Chip.carryOut_setSwitch (c : Chip) (q : Byte) (ps : List Byte) :
    c.carryOut (setupPayload c.tables.link.unitAddress.val 5 q ps)
      = c.checked [(decide (ps.length = 0), .refusedLength), (decide (q.toNat ≤ 31), .refusedAddress)]
        (c.switchAnswer (oneBit q.toNat) (bitValue q.toNat true)) := by
  rw [Chip.carryOut_setup c 5 (by decide), ← lengthIs_setup c.tables.link.unitAddress.val 5 q ps 0,
    ← byteAt_setupPayload_one c.tables.link.unitAddress.val 5 q ps]
  rfl

/-- CLEAR_SWITCH on its parameters. -/
theorem Chip.carryOut_clearSwitch (c : Chip) (q : Byte) (ps : List Byte) :
    c.carryOut (setupPayload c.tables.link.unitAddress.val 6 q ps)
      = c.checked [(decide (ps.length = 0), .refusedLength), (decide (q.toNat ≤ 31), .refusedAddress)]
        (c.switchAnswer (oneBit q.toNat) (bitValue q.toNat false)) := by
  rw [Chip.carryOut_setup c 6 (by decide), ← lengthIs_setup c.tables.link.unitAddress.val 6 q ps 0,
    ← byteAt_setupPayload_one c.tables.link.unitAddress.val 6 q ps]
  rfl

/-- The values of a WRITE_SWITCHES, in their places. -/
theorem runValue_setup (unit : Nat) (q x : Byte) (vs : List Byte) (base count : Nat) :
    runValue (setupPayload unit 4 q (x :: vs)) base count
      = (List.range count).foldl (fun v i => if vs.getD i 0#8 = 0#8 then v else v ||| 1#32 <<< (base + i)) 0#32 := by
  have place (i : Nat) : byteAt (setupPayload unit 4 q (x :: vs)) (3 + i) = (vs.getD i 0#8).toNat := by
    rw [show 3 + i = i + 1 + 2 by omega, byteAt_setupPayload_param]
    rfl
  unfold runValue
  refine congrArg (fun f => (List.range count).foldl f 0#32) (funext fun v => funext fun i => ?_)
  rw [place]
  by_cases zero : vs.getD i 0#8 = 0#8
  · rw [zero]
    simp [bitValue]
  · have other : (vs.getD i 0#8).toNat ≠ 0 := fun same => zero (BitVec.eq_of_toNat_eq same)
    rw [if_neg zero, bitValue, if_pos (by simpa using other), oneBit_eq_shift]

/-- WRITE_SWITCHES on its parameters. -/
theorem Chip.carryOut_writeSwitches (c : Chip) (q : Byte) (ps : List Byte) :
    c.carryOut (setupPayload c.tables.link.unitAddress.val 4 q ps) = c.checked
      [(decide (3 ≤ ps.length + 2) && countFits (byteAt ps 0) && decide (ps.length + 2 = 3 + byteAt ps 0), .refusedLength),
        (runFits q.toNat (byteAt ps 0), .refusedAddress)]
      (c.switchAnswer (runMask q.toNat (byteAt ps 0))
        (runValue (setupPayload c.tables.link.unitAddress.val 4 q ps) q.toNat (byteAt ps 0))) := by
  rw [Chip.carryOut_setup c 4 (by decide), ← byteAt_setupPayload_one c.tables.link.unitAddress.val 4 q ps,
    ← length_setupPayload c.tables.link.unitAddress.val 4 q ps, ← byteAt_setupPayload_param c.tables.link.unitAddress.val 4 q ps 0]
  rfl

/-- WRITE_SWITCHES with a count byte. -/
theorem Chip.carryOut_writeSwitches_cons (c : Chip) (q x : Byte) (vs : List Byte) :
    c.carryOut (setupPayload c.tables.link.unitAddress.val 4 q (x :: vs)) = c.checked
      [(decide (1 ≤ x.toNat ∧ x.toNat ≤ 16 ∧ vs.length = x.toNat), .refusedLength),
        (decide (q.toNat ≤ 31 ∧ q.toNat + x.toNat ≤ 32), .refusedAddress)]
      (c.switchAnswer (((1#32 <<< x.toNat) - 1#32) <<< q.toNat)
        ((List.range x.toNat).foldl (fun v i => if vs.getD i 0#8 = 0#8 then v else v ||| 1#32 <<< (q.toNat + i)) 0#32)) := by
  have count : byteAt (x :: vs) 0 = x.toNat := rfl
  have length : (decide (3 ≤ (x :: vs).length + 2) && countFits x.toNat && decide ((x :: vs).length + 2 = 3 + x.toNat))
      = decide (1 ≤ x.toNat ∧ x.toNat ≤ 16 ∧ vs.length = x.toNat) := by
    rw [Bool.eq_iff_iff]
    simp only [countFits, Bool.and_eq_true, decide_eq_true_iff, List.length_cons]
    omega
  have range : runFits q.toNat x.toNat = decide (q.toNat ≤ 31 ∧ q.toNat + x.toNat ≤ 32) := by
    simp [runFits]
  rw [Chip.carryOut_writeSwitches, count, length, range, runMask_eq, runValue_setup]

/-- A command whose only check left is that its bit exists. -/
theorem Chip.underChecks_address (c go : Chip) (code : Fin 16) (n : Nat) :
    c.underChecks code [(decide (([] : List Byte).length = 0), .refusedLength), (decide (n ≤ 31), .refusedAddress)] go
      = if n ≤ 31 then go else c.refusedAs code .refusedAddress := by
  split
  · next inside => rw [Chip.underChecks, decide_eq_true inside]; rfl
  · next outside => rw [Chip.underChecks, decide_eq_false outside]; rfl

/-! ### The consumers of a write -/

/-- DRM at a write. -/
theorem Chip.driveSwitch_eq (c : Chip) (mask value : BitVec 32) : c.driveSwitch (writesBit mask value 0 true)
    = if (mask.getLsbD 0 = true ∧ value.getLsbD 0 = true) ∧ c.drm.arming ≠ .disarmed then
        c.handleAxles { c.drm with arming := .disarmed, armTimer := none }
      else c := by
  refine if_congr ?_ rfl rfl
  rw [Bool.and_eq_true, decide_eq_true_iff, writesBit_iff]

/-- WNC at a write. -/
theorem Chip.winchSwitch_eq (c : Chip) {inhibit boost : Bool} {P Q : Prop} [Decidable P] [Decidable Q]
    (inhibited : inhibit = true ↔ P) (boosted : boost = true ↔ Q) : c.winchSwitch inhibit boost
      = if P ∨ Q then c.setWinch { if P then c.wnc.lockTest c.winchLockCause else c.wnc with
          boost := c.wnc.boost && !c.boostDisable }
        else c := by
  have switched : c.wnc.switched inhibit c.winchLockCause c.boostDisable
      = { if P then c.wnc.lockTest c.winchLockCause else c.wnc with boost := c.wnc.boost && !c.boostDisable } := by
    rw [Winch.switched, if_congr inhibited rfl rfl]
  rw [Chip.winchSwitch, switched]
  exact if_congr (by rw [Bool.or_eq_true, inhibited, boosted]) rfl rfl

/-- BTM at a write. -/
theorem Chip.chargeSwitch_eq (c : Chip) (mask value : BitVec 32) : c.chargeSwitch (writesBit mask value 12 true)
    = if mask.getLsbD 12 = true ∧ value.getLsbD 12 = true then
        { c with
          btm := { c.btm with charge := 0, acc := 0, capForce := false }
          alt := { c.alt with causes := c.alt.causes &&& ~~~Alert.capacity.mask } }
      else c :=
  if_congr (writesBit_iff mask value 12 true) c.resetCharge_eq rfl

/-- MDC at a write. -/
theorem Chip.parkSwitch_eq (c : Chip) (mask value : BitVec 32) :
    c.parkSwitch (writesBit mask value 3 true) (writesBit mask value 3 false)
      = if (mask.getLsbD 3 = true ∧ value.getLsbD 3 = true) ∧ c.mdc.mode = .active then c.enterParked
        else if mask.getLsbD 3 = true ∧ value.getLsbD 3 = false then c.parkExitTest
        else c := by
  refine if_congr ?_ rfl (if_congr (writesBit_iff mask value 3 false) rfl rfl)
  rw [Bool.and_eq_true, decide_eq_true_iff, writesBit_iff]

/-- WNC's causes of LOCKED are none of DRM's. -/
theorem Chip.driveSwitch_lockCause (c : Chip) (set : Bool) : (c.driveSwitch set).winchLockCause = c.winchLockCause := by
  unfold Chip.winchLockCause Chip.winchInhibit Chip.switchBit
  simp

/-- Settles O55. -/
theorem switchCommandsWriteTheirBits : Obligations.SwitchCommandsWriteTheirBits := by
  refine ⟨fun c v => ⟨rfl, c.switchSpace_eq, bytesOf32_eq v⟩, fun q x vs s ready few => ?commands, fun c mask value => ?bits,
    fun c mask value => ?event, fun v bits n s running => ?rows⟩
  case commands =>
    intro c after bit checks run values
    have refusals (count : Bool) (range : Bool) : ∀ x ∈ [(count, Status.refusedLength), (range, .refusedAddress)],
        x.2 = .busy ∨ 5 ≤ x.2.code :=
      List.forall_mem_cons.2 ⟨.inr (show 5 ≤ Status.code .refusedLength by decide),
        List.forall_mem_singleton.2 (.inr (show 5 ≤ Status.code .refusedAddress by decide))⟩
    have fits : ([] : List Byte).length ≤ 61 := by decide
    refine ⟨fun ps few some => ⟨?_, ?_⟩, ?set, ?clear, ?empty, ?write⟩
    · exact next_refused ready (by decide) q few (c.carryOut_setSwitch q ps) (firstFailure_length some _) (by decide)
    · exact next_refused ready (by decide) q few (c.carryOut_clearSwitch q ps) (firstFailure_length some _) (by decide)
    case set =>
      have run := next_switched ready (by decide) q fits (c.carryOut_setSwitch q []) (refusals _ _)
      rw [show bitValue q.toNat true = oneBit q.toNat from rfl, oneBit_eq_shift] at run
      refine run.trans (congrArg (fun d => Host.Outcome.next { s with chip := d }) ?_)
      exact Chip.underChecks_address _ _ _ _
    case clear =>
      have run := next_switched ready (by decide) q fits (c.carryOut_clearSwitch q []) (refusals _ _)
      rw [show bitValue q.toNat false = 0#32 from rfl, oneBit_eq_shift] at run
      refine run.trans (congrArg (fun d => Host.Outcome.next { s with chip := d }) ?_)
      exact Chip.underChecks_address _ _ _ _
    case empty =>
      exact next_refused ready (by decide) q fits (c.carryOut_writeSwitches q []) rfl (by decide)
    case write =>
      have carried := c.carryOut_writeSwitches_cons q x vs
      exact next_switched ready (by decide) q (ps := x :: vs) (Nat.succ_le_succ few) carried (refusals _ _)
  case bits =>
    intro t
    have sup : t.sup = { c.sup with switches := mergeSwitches c.sup.switches mask value } := c.putSwitches_sup mask value
    have frame := c.putSwitches_frame mask value
    refine ⟨fun n small => ?_, ?_, fun quiet => ?_⟩
    · rw [sup]
      exact mergeSwitches_getLsbD _ _ _ small
    · have switches : t.sup.switches = mergeSwitches c.sup.switches mask value := congrArg Sup.switches sup
      rw [switches]
      exact frame
    · have switches : t.sup.switches = mergeSwitches c.sup.switches mask value := congrArg Sup.switches sup
      rw [switches]
      refine c.putSwitches_quiet mask value fun n small other => ?_
      have acts : ∀ n : Fin 14, n.val ≠ 2 → (0x00003FFB#32).getLsbD n.val = true := by decide
      have bit := congrArg (fun v : BitVec 32 => v.getLsbD n) quiet
      simpa [acts ⟨n, small⟩ other] using bit
  case event =>
    intro t sets changes written drive winch charge park
    have merged : t.sup = (c.written mask value).sup := c.putSwitches_sup mask value
    have changed (n : Nat) : (c.sup.switches ^^^ mergeSwitches c.sup.switches mask value).getLsbD n = true ↔ changes n := by
      rw [mergeSwitches_changed, show mergeSwitches c.sup.switches mask value = t.sup.switches from (congrArg Sup.switches merged).symm]
    have start : written = c.written mask value := by
      rw [show written = { c with sup := t.sup } from rfl, merged]
      rfl
    have driven : drive = written.driveSwitch (writesBit mask value 0 true) := (written.driveSwitch_eq mask value).symm
    have wound : winch = drive.winchSwitch ((c.sup.switches ^^^ mergeSwitches c.sup.switches mask value).getLsbD 1)
        ((c.sup.switches ^^^ mergeSwitches c.sup.switches mask value).getLsbD 13) := by
      have record : drive.wnc = c.wnc := by rw [driven, Chip.driveSwitch_wnc]
      have bit : drive.boostDisable = written.boostDisable := by
        rw [driven, Chip.boostDisable, Chip.switchBit, Chip.driveSwitch_sup]
        rfl
      have cause : drive.winchLockCause = written.winchLockCause := by rw [driven, Chip.driveSwitch_lockCause]
      rw [Chip.winchSwitch_eq _ (changed 1) (changed 13), record, bit, cause]
    have charged : charge = winch.chargeSwitch (writesBit mask value 12 true) := (winch.chargeSwitch_eq mask value).symm
    have parked : park = charge.parkSwitch (writesBit mask value 3 true) (writesBit mask value 3 false) := by
      have mode : charge.mdc = c.mdc := by
        rw [charged, Chip.chargeSwitch_mdc, wound, Chip.winchSwitch_mdc, driven, Chip.driveSwitch_mdc]
      rw [Chip.parkSwitch_eq, mode]
    have whole : t = park.relightIf
        (decide ((c.sup.switches ^^^ mergeSwitches c.sup.switches mask value).extractLsb' 4 8 ≠ 0#8)) := by
      rw [parked, charged, wound, driven, start]
      exact c.putSwitches_turns mask value
    have overrides : (c.sup.switches ^^^ mergeSwitches c.sup.switches mask value).extractLsb' 4 8 ≠ 0#8
        ↔ ∃ n, 4 ≤ n ∧ n < 12 ∧ changes n := by
      rw [overridesChanged_iff, show mergeSwitches c.sup.switches mask value = t.sup.switches from (congrArg Sup.switches merged).symm]
    exact ⟨fun any => by rw [whole, decide_eq_true (overrides.2 any)]; rfl,
      fun none => by rw [whole, decide_eq_false (mt overrides.1 none)]; rfl⟩
  case rows =>
    intro c write
    refine ⟨?_, ?_, ?_, ?_, exec_resetCharge running, exec_override running bits, fun low high => ?_⟩
    · exact next_congr (Chip.whenRunning_eq running _)
    · exact next_congr (Chip.whenRunning_eq running _)
    · exact next_congr (Chip.whenRunning_eq running _)
    · exact next_congr (Chip.whenRunning_eq running _)
    rw [exec_override running, Chip.putSwitches_override_byte]
    intro k small other
    rw [← oneBit_eq_shift]
    exact oneBit_other small fun same => other (by omega)

end Sys2Proof.Machine
end

section
/-! The rows DRIVE_INHIBIT, WINCH_INHIBIT and BOOST_DISABLE (R61, R63, R84, R85, R104). -/

namespace Sys2Proof.Machine

/-! ### The switch bits of a one-bit write -/

/-- A write of one bit that can be written sets or clears it. -/
theorem mergeSwitches_oneBit (old : BitVec 32) {n : Nat} (holds : n < 12 ∨ n = 13 ∨ n = 14) (v : Bool) :
    mergeSwitches old (oneBit n) (bitValue n v) = if v = true then old ||| oneBit n else old &&& ~~~oneBit n := by
  refine BitVec.eq_of_getLsbD_eq fun k small => ?_
  have merged := mergeSwitches_getLsbD old (oneBit n) (bitValue n v) small
  rw [oneBit_getLsbD small, bitValue_getLsbD small] at merged
  rw [merged]
  by_cases same : k = n
  · subst same
    cases v <;> simp [holds, oneBit_getLsbD small]
  · have none : (oneBit n)[k] = false := oneBit_other small same
    cases v <;> simp [same, small, none]

/-- Writing a bit as it stands changes nothing. -/
theorem mergeSwitches_stands (old : BitVec 32) {n : Nat} (small : n < 32) (v : Bool) (stands : old.getLsbD n = v) :
    mergeSwitches old (oneBit n) (bitValue n v) = old := by
  refine BitVec.eq_of_getLsbD_eq fun k inside => ?_
  rw [mergeSwitches_getLsbD _ _ _ inside, oneBit_getLsbD inside, bitValue_getLsbD inside]
  by_cases same : k = n
  · subst same
    simp [stands]
  · simp [same]

/-- The bit as it stands after the write of it. -/
theorem Chip.written_switchBit (c : Chip) {n : Nat} (holds : n < 12 ∨ n = 13 ∨ n = 14) (v : Bool) :
    (c.written (oneBit n) (bitValue n v)).switchBit n = v := by
  have small : n < 32 := by omega
  have merged := mergeSwitches_getLsbD c.sup.switches (oneBit n) (bitValue n v) small
  rw [oneBit_getLsbD small, bitValue_getLsbD small] at merged
  refine merged.trans ?_
  simp [holds]

/-- Another bit after it. -/
theorem Chip.written_otherBit (c : Chip) {n k : Nat} (small : k < 32) (other : k ≠ n) (v : Bool) :
    (c.written (oneBit n) (bitValue n v)).switchBit k = c.switchBit k := by
  have merged := mergeSwitches_getLsbD c.sup.switches (oneBit n) (bitValue n v) small
  rw [oneBit_getLsbD small] at merged
  refine merged.trans ?_
  simp [other, Chip.switchBit]

/-! ### The drive -/

/-- The row DRIVE_INHIBIT. -/
theorem exec_driveInhibit {s : State} (running : s.chip.Running) (v : Bool) : exec (.driveInhibit v) s
    = .next { s with chip := (s.chip.written (oneBit 0) (bitValue 0 v)).driveSwitch v } := by
  rw [← Chip.putSwitches_drive]
  exact next_congr (Chip.whenRunning_eq running _)

/-- The axles of a drive that disarms beside a link that is up coast. -/
theorem Chip.restAxle_linkUp {c : Chip} (up : c.linkUp) :
    c.restAxle = { state := .off, timer := none, left := none, effective := 0, output := 0 } := by
  refine if_neg fun brakes => ?_
  rcases up with live | hold
  · rw [live] at brakes
    exact brakes.2.elim nofun nofun
  · rw [hold] at brakes
    exact brakes.2.elim nofun nofun

/-- Handling the axles changes DRM and LSQ alone. -/
theorem Chip.handleAxles_eq (c : Chip) (d : Drm) :
    c.handleAxles d = { c with drm := (c.handleAxles d).drm, lsq := (c.handleAxles d).lsq } := rfl

/-! ### The winch -/

/-- The row WINCH_INHIBIT where it changes the bit. -/
theorem exec_winchInhibit {s : State} (running : s.chip.Running) {v : Bool} (changes : s.chip.winchInhibit ≠ v) :
    exec (.winchInhibit v) s
      = .next { s with chip := (s.chip.written (oneBit 1) (bitValue 1 v)).winchSwitch true false } := by
  rw [← decide_eq_true changes, ← Chip.putSwitches_winch]
  exact next_congr (Chip.whenRunning_eq running _)

/-- The row BOOST_DISABLE where it changes the bit. -/
theorem exec_boostDisable {s : State} (running : s.chip.Running) {v : Bool} (changes : s.chip.boostDisable ≠ v) :
    exec (.boostDisable v) s
      = .next { s with chip := (s.chip.written (oneBit 13) (bitValue 13 v)).winchSwitch false true } := by
  rw [← decide_eq_true changes, ← Chip.putSwitches_boost]
  exact next_congr (Chip.whenRunning_eq running _)

/-- A write that leaves its bit as it was changes nothing. -/
theorem Chip.written_stands (c : Chip) {n : Nat} (small : n < 32) {v : Bool} (stands : c.switchBit n = v) :
    c.written (oneBit n) (bitValue n v) = c := by
  rw [Chip.written, mergeSwitches_stands _ small v stands]

/-- So the row WINCH_INHIBIT changes nothing. -/
theorem exec_winchInhibit_stands {s : State} (running : s.chip.Running) {v : Bool} (stands : s.chip.winchInhibit = v) :
    exec (.winchInhibit v) s = .next s := by
  have same : s.chip.putSwitches (oneBit 1) (bitValue 1 v) = s.chip := by
    rw [Chip.putSwitches_winch, Chip.written_stands _ (by decide) stands, decide_eq_false (not_not.2 stands)]
    rfl
  exact next_congr ((Chip.whenRunning_eq running _).trans same)

/-- So the row BOOST_DISABLE changes nothing. -/
theorem exec_boostDisable_stands {s : State} (running : s.chip.Running) {v : Bool} (stands : s.chip.boostDisable = v) :
    exec (.boostDisable v) s = .next s := by
  have same : s.chip.putSwitches (oneBit 13) (bitValue 13 v) = s.chip := by
    rw [Chip.putSwitches_boost, Chip.written_stands _ (by decide) stands, decide_eq_false (not_not.2 stands)]
    rfl
  exact next_congr ((Chip.whenRunning_eq running _).trans same)

/-- What a write of one of the winch's bits can change. -/
theorem Chip.written_setWinch (c : Chip) {n : Nat} (holds : n < 12 ∨ n = 13 ∨ n = 14) (v : Bool) (w : Winch) :
    let t := (c.written (oneBit n) (bitValue n v)).setWinch w
    t = { c with
      sup := { c.sup with switches := if v = true then c.sup.switches ||| oneBit n else c.sup.switches &&& ~~~oneBit n }
      wnc := t.wnc, drm := t.drm, alt := t.alt, lsq := t.lsq } := by
  rw [← mergeSwitches_oneBit c.sup.switches holds v]
  exact Chip.setWinch_eq (c.written (oneBit n) (bitValue n v)) w

/-- The causes of LOCKED but WINCH_INHIBIT. -/
def Chip.otherLockCause (c : Chip) : Prop := c.btm.level = .critical ∨ c.btm.level = .cutoff ∨ c.ulr.link = .failsafe
  ∨ c.ulr.link = .await ∨ c.mdc.bench = true ∨ c.mdc.mode = .parked

/-- The causes of LOCKED after a write of WINCH_INHIBIT. -/
theorem Chip.written_lockCause (c : Chip) (v : Bool) :
    (c.written (oneBit 1) (bitValue 1 v)).winchLockCause = true ↔ v = true ∨ c.otherLockCause := by
  rw [Chip.winchLockCause_iff, show Chip.winchInhibit _ = v from c.written_switchBit (.inl (by decide)) v]
  simp only [Chip.written, Chip.otherLockCause]
  tauto

/-- The record of a winch that a write of its inhibit locks (R84, R91). -/
theorem Winch.settle_toLocked (w : Winch) (boost : Bool) (cfg : WinchCfg) :
    let t := Winch.settle { w.toLocked with boost := boost } cfg
    t.state = .locked ∧ t.boost = false ∧ t.effective = 0 ∧ t.demand = 0 ∧ t.position = w.position
      ∧ (w.state ≠ .locked → t.run = none ∧ t.requested = 0 ∧ t.holdOff = true)
      ∧ (w.state.driven = true → ∃ op, t.lastOp = some op ∧ op.outcome = .locked ∧ op.counts = w.countsDone) := by
  intro t
  have locked : t.state = .locked := w.toLocked_state
  obtain ⟨-, still, boosts⟩ := Winch.settle_spec { w.toLocked with boost := boost } cfg
  have quiet := still (by rw [show _ = WinchState.locked from locked]; decide)
  refine ⟨locked, ?_, quiet.2, quiet.1, ?_, fun free => ?_, fun driven => ?_⟩
  · refine Bool.eq_false_iff.2 fun up => ?_
    rcases (boosts.1 up).2 with state | state
    · exact nomatch locked.symm.trans state
    · exact nomatch locked.symm.trans state
  · change w.toLocked.position = w.position
    unfold Winch.toLocked
    split <;> rfl
  · change w.toLocked.run = none ∧ w.toLocked.requested = 0 ∧ w.toLocked.holdOff = true
    rw [Winch.toLocked, if_neg free]
    exact ⟨rfl, rfl, rfl⟩
  · have free : w.state ≠ .locked := fun locked => by rw [locked] at driven; exact nomatch driven
    have ended : t.lastOp = (w.finish .locked).lastOp := by
      change w.toLocked.lastOp = _
      rw [Winch.toLocked, if_neg free]
    rw [ended, Winch.finish_lastOp]
    rcases (WinchState.driven_iff w.state).1 driven with state | state | state | state <;> rw [state] <;>
      exact ⟨_, rfl, rfl, rfl⟩

/-- WNC's record after a change of WINCH_INHIBIT. -/
theorem Chip.winchSwitch_inhibit (c : Chip) (v : Bool) :
    ((c.written (oneBit 1) (bitValue 1 v)).winchSwitch true false).wnc
      = Winch.settle { c.wnc.lockTest (c.written (oneBit 1) (bitValue 1 v)).winchLockCause with
          boost := c.wnc.boost && !c.boostDisable } c.tables.winchCfg := by
  have boost : (c.written (oneBit 1) (bitValue 1 v)).boostDisable = c.boostDisable :=
    c.written_otherBit (by decide) (by decide) v
  rw [← boost]
  exact Chip.setWinch_wnc _ _

/-- WNC's record after a change of BOOST_DISABLE. -/
theorem Chip.winchSwitch_boost (c : Chip) (v : Bool) :
    ((c.written (oneBit 13) (bitValue 13 v)).winchSwitch false true).wnc
      = Winch.settle { c.wnc with boost := c.wnc.boost && !v } c.tables.winchCfg := by
  have boost : (c.written (oneBit 13) (bitValue 13 v)).boostDisable = v :=
    c.written_switchBit (.inr (.inl rfl)) v
  refine (Chip.setWinch_wnc _ _).trans ?_
  rw [Winch.switched, boost]
  rfl

/-- DRM after it. -/
theorem Chip.winchSwitch_boost_drm (c : Chip) (v : Bool) :
    ((c.written (oneBit 13) (bitValue 13 v)).winchSwitch false true).drm = c.drm :=
  Chip.setWinch_drm_same (c := c.written (oneBit 13) (bitValue 13 v)) rfl

/-- Settles O56. -/
theorem inhibitSwitchesAct : Obligations.InhibitSwitchesAct := by
  refine ⟨fun s running => ?drive, fun s running => ?winch⟩
  case drive =>
    intro c off
    have clear := mergeSwitches_oneBit c.sup.switches (n := 0) (.inl (by decide)) false
    have set := mergeSwitches_oneBit c.sup.switches (n := 0) (.inl (by decide)) true
    refine ⟨?_, fun disarmed => ?_, fun drives up => ?_⟩
    · rw [exec_driveInhibit running]
      exact congrArg (fun b => Host.Outcome.next { s with chip := { c with sup := { c.sup with switches := b } } }) clear
    · have stays : (c.written (oneBit 0) (bitValue 0 true)).driveSwitch true = c.written (oneBit 0) (bitValue 0 true) :=
        if_neg (ne_true_of_eq_false (decide_eq_false (not_not.2 disarmed)))
      rw [exec_driveInhibit running, stays]
      exact congrArg (fun b => Host.Outcome.next { s with chip := { c with sup := { c.sup with switches := b } } }) set
    · have acts : (c.written (oneBit 0) (bitValue 0 true)).driveSwitch true = (c.written (oneBit 0) (bitValue 0 true)).disarmDrive :=
        if_pos (decide_eq_true drives)
      have wrote : c.written (oneBit 0) (bitValue 0 true)
          = { c with sup := { c.sup with switches := c.sup.switches ||| 1#32 } } :=
        congrArg (fun b => { c with sup := { c.sup with switches := b } }) set
      have coasts : Chip.restAxle { c with sup := { c.sup with switches := c.sup.switches ||| 1#32 } } = off :=
        Chip.restAxle_linkUp up
      rw [exec_driveInhibit running, acts, wrote]
      refine ⟨_, rfl, rfl, ?_, rfl⟩
      refine (Chip.handleAxles_eq _ _).trans ?_
      rw [← Chip.disarmDrive, Chip.disarmDrive_drm, coasts]
  case winch =>
    intro c w others shape
    refine ⟨fun v => exec_winchInhibit_stands running, fun v => exec_boostDisable_stands running, fun free => ?_,
      fun inhibited => ?_, fun enabled => ?_, fun disabled => ?_⟩
    · have changes : c.winchInhibit ≠ true := by rw [free]; decide
      refine ⟨_, exec_winchInhibit running changes, rfl, c.written_setWinch (.inl (by decide)) true _, ?_⟩
      have cause := (c.written_lockCause true).2 (.inl rfl)
      dsimp only
      rw [c.winchSwitch_inhibit true, cause]
      exact w.settle_toLocked _ _
    · have changes : c.winchInhibit ≠ false := by rw [inhibited]; decide
      refine ⟨_, exec_winchInhibit running changes, rfl, c.written_setWinch (.inl (by decide)) false _, fun locked lone => ?_,
        fun locked other => ?_⟩
      · have free : (c.written (oneBit 1) (bitValue 1 false)).winchLockCause = false :=
          Bool.eq_false_iff.2 fun cause => ((c.written_lockCause false).1 cause).elim nofun lone
        have idle : c.wnc.lockTest false = c.wnc.toIdle := if_pos locked
        dsimp only
        rw [c.winchSwitch_inhibit false, free, idle]
        exact ⟨rfl, rfl, rfl, rfl⟩
      · have cause := (c.written_lockCause false).2 (.inr other)
        dsimp only
        rw [c.winchSwitch_inhibit false, cause]
        exact w.toLocked_state
    · have changes : c.boostDisable ≠ true := by rw [enabled]; decide
      refine ⟨_, exec_boostDisable running changes, rfl, c.written_setWinch (.inr (.inl rfl)) true _, ?_⟩
      dsimp only
      rw [c.winchSwitch_boost true, Bool.not_true, Bool.and_false]
      exact ⟨rfl, rfl, rfl, rfl, c.winchSwitch_boost_drm true⟩
    · have changes : c.boostDisable ≠ false := by rw [disabled]; decide
      refine ⟨_, exec_boostDisable running changes, rfl, c.written_setWinch (.inr (.inl rfl)) false _, ?_,
        c.winchSwitch_boost_drm false⟩
      dsimp only
      rw [c.winchSwitch_boost false]
      rfl

end Sys2Proof.Machine
end

section
/-! The mixer: axle states, demand, duties and what draws them to the grants (R62, R67 to R77, R101, R112, R126). -/

namespace Sys2Proof.Machine

/-! ### Demand and duties -/

/-- The driving states. -/
theorem AxleState.driving_iff (x : AxleState) : x.driving = true ↔ x = .forward ∨ x = .reverse := by
  cases x <;> decide

/-- An axle's record with its duties set (R72, R75). -/
theorem Drm.settle_axle (d : Drm) (cfg : DriveCfg) (drag : Nat) (a : Axle) : (d.settle cfg drag).axle a = { d.axle a with
    effective := d.dutyOf (d.demandOf cfg) a
    output := outputDuty (d.axle a).state (d.dutyOf (d.demandOf cfg) a) drag cfg.failsafeBrake } := by
  cases a <;> rfl

/-- An axle's record scaled anew (R74, R76). -/
theorem Drm.rescale_axle (d : Drm) (cfg : DriveCfg) (a : Axle) : (d.rescale cfg).axle a = { d.axle a with
    effective := d.dutyOf (d.demandOf cfg) a
    output := if (d.axle a).state.driving then d.dutyOf (d.demandOf cfg) a else (d.axle a).output } := by
  cases a <;> rfl

/-- The duty of a driving axle. -/
theorem Drm.dutyOf_driving {d : Drm} {a : Axle} (drives : (d.axle a).state = .forward ∨ (d.axle a).state = .reverse)
    (demand : Nat) : d.dutyOf demand a = scaleTo d.grant demand d.axleRequest.natAbs :=
  if_pos ((AxleState.driving_iff _).2 drives)

/-- The duty of another axle. -/
theorem Drm.dutyOf_rest {d : Drm} {a : Axle} (rests : ¬((d.axle a).state = .forward ∨ (d.axle a).state = .reverse))
    (demand : Nat) : d.dutyOf demand a = 0 :=
  if_neg (mt (AxleState.driving_iff _).1 rests)

/-- Which axles the demand counts (R73). -/
theorem Drm.demandOf_spec (d : Drm) (cfg : DriveCfg) :
    let drives (a : Axle) : Prop := (d.axle a).state = .forward ∨ (d.axle a).state = .reverse
    let m := d.axleRequest.natAbs
    (drives .front → drives .rear → d.demandOf cfg = m * cfg.ifsFront + m * cfg.ifsRear)
      ∧ (drives .front → ¬drives .rear → d.demandOf cfg = m * cfg.ifsFront)
      ∧ (¬drives .front → drives .rear → d.demandOf cfg = m * cfg.ifsRear)
      ∧ (¬drives .front → ¬drives .rear → d.demandOf cfg = 0) := by
  intro drives m
  have counts {a : Axle} (does : drives a) : d.axleDemand cfg a = m * cfg.ifs a := if_pos ((AxleState.driving_iff _).2 does)
  have skips {a : Axle} (stands : ¬drives a) : d.axleDemand cfg a = 0 := if_neg (mt (AxleState.driving_iff _).1 stands)
  refine ⟨fun front rear => ?_, fun front rear => ?_, fun front rear => ?_, fun front rear => ?_⟩
  · rw [Drm.demandOf, counts front, counts rear]; rfl
  · rw [Drm.demandOf, counts front, skips rear]; rfl
  · rw [Drm.demandOf, skips front, counts rear, Nat.zero_add]; rfl
  · rw [Drm.demandOf, skips front, skips rear]

/-! ### Draws and grants -/

/-- Scaling leaves 0. -/
theorem scaleTo_zero (grant demand : Nat) : scaleTo grant demand 0 = 0 := Nat.le_zero.1 (scaleTo_le grant demand 0)

/-- An axle's duty is a magnitude scaled: the request's where it drives, and 0 elsewhere. -/
theorem Drm.dutyOf_eq (d : Drm) (demand : Nat) (a : Axle) : d.dutyOf demand a
    = scaleTo d.grant demand (if (d.axle a).state.driving then d.axleRequest.natAbs else 0) := by
  unfold Drm.dutyOf
  split
  · rfl
  · exact (scaleTo_zero _ _).symm

/-- The two axles draw no more than the grant. -/
theorem Drm.duties_le (d : Drm) (cfg : DriveCfg) :
    d.dutyOf (d.demandOf cfg) .front * cfg.ifsFront + d.dutyOf (d.demandOf cfg) .rear * cfg.ifsRear ≤ d.grant := by
  rw [Drm.dutyOf_eq, Drm.dutyOf_eq]
  refine scaleTo_pair_le _ _ _ _ _ _ ?_
  rw [Drm.demandOf, Drm.axleDemand, Drm.axleDemand, ite_mul, ite_mul, Nat.zero_mul, Nat.zero_mul]
  rfl

/-- An axle's duty is at most the magnitude of its request. -/
theorem Drm.dutyOf_le (d : Drm) (demand : Nat) (a : Axle) : d.dutyOf demand a ≤ d.axleRequest.natAbs := by
  unfold Drm.dutyOf
  split
  · exact scaleTo_le _ _ _
  · exact Nat.zero_le _

/-- Scaled values, weighed and summed, are at most the sum of the values, scaled (R126). -/
theorem sum_scaled_le (levels : List (Nat × Nat)) (k : Nat) :
    (levels.map fun x => x.1 * k / 1000 * x.2).sum * 1000 ≤ (levels.map fun x => x.1 * x.2).sum * k := by
  induction levels with
  | nil => exact Nat.le_of_eq (by simp)
  | cons x xs ih =>
    have head : x.1 * k / 1000 * x.2 * 1000 ≤ x.1 * x.2 * k := by
      calc x.1 * k / 1000 * x.2 * 1000 = x.1 * k / 1000 * 1000 * x.2 := by ring
        _ ≤ x.1 * k * x.2 := Nat.mul_le_mul_right _ (Nat.div_mul_le_self _ _)
        _ = x.1 * x.2 * k := by ring
    simp only [List.map_cons, List.sum_cons, Nat.add_mul]
    exact Nat.add_le_add head ih

/-- Scaled to the grant, the light levels draw no more (R126). -/
theorem lightCurrent_scaled_le (ifs raw : Vector Nat 8) (grant : Nat) :
    lightCurrent ifs (Vector.ofFn fun o => scaleTo grant (lightCurrent ifs raw) raw[o]) ≤ grant := by
  by_cases fits : lightCurrent ifs raw ≤ grant
  · have same : (Vector.ofFn fun o : Fin 8 => scaleTo grant (lightCurrent ifs raw) raw[o]) = raw := by
      ext o small
      simp [scaleTo, fits]
    rw [same]
    exact fits
  · have exceeds : grant < lightCurrent ifs raw := Nat.lt_of_not_le fits
    generalize demanded : lightCurrent ifs raw = demand at exceeds fits
    have scaled (x : Nat) : scaleTo grant demand x = x * (grant * 1000 / demand) / 1000 := if_neg fits
    have part : grant * 1000 / demand ≤ 999 := by
      rw [← Nat.lt_succ_iff, Nat.div_lt_iff_lt_mul (by omega)]
      omega
    have whole : demand * (grant * 1000 / demand) ≤ grant * 1000 := Nat.mul_div_le _ _
    generalize grant * 1000 / demand = k at scaled part whole
    have sum := sum_scaled_le ((List.finRange 8).map fun o => (raw[o], ifs[o])) k
    rw [List.map_map, List.map_map] at sum
    have total : (((List.finRange 8).map fun o => raw[o] * ifs[o]).sum) ≤ 255 * demand + 254 := by
      rw [lightCurrent] at demanded
      omega
    have drawn : (((List.finRange 8).map fun o => raw[o] * k / 1000 * ifs[o]).sum) * 1000 ≤ (255 * demand + 254) * k :=
      sum.trans (Nat.mul_le_mul_right _ total)
    have levels : lightCurrent ifs (Vector.ofFn fun o => scaleTo grant demand raw[o])
        = (((List.finRange 8).map fun o => raw[o] * k / 1000 * ifs[o]).sum) / 255 := by
      simp only [lightCurrent, scaled, Fin.getElem_fin, Vector.getElem_ofFn]
    rw [levels]
    have spread : (255 * demand + 254) * k = 255 * (demand * k) + 254 * k := by ring
    omega

/-! ### The mixer's new record takes its place -/

/-- An axle state changes. -/
theorem axleChanged_iff (old new : Drm) :
    (decide (old.front.state ≠ new.front.state) || decide (old.rear.state ≠ new.rear.state)) = true
    ↔ ∃ a, (new.axle a).state ≠ (old.axle a).state := by
  rw [Bool.or_eq_true, decide_eq_true_iff, decide_eq_true_iff]
  constructor
  · rintro (front | rear)
    · exact ⟨.front, Ne.symm front⟩
    · exact ⟨.rear, Ne.symm rear⟩
  · rintro ⟨_ | _, differs⟩
    · exact .inl (Ne.symm differs)
    · exact .inr (Ne.symm differs)

/-- An axle stops driving. -/
theorem axleStops_iff (old new : Drm) : (stopsDriving old.front.state new.front.state || stopsDriving old.rear.state new.rear.state) = true
    ↔ ∃ a, (new.axle a).state = .idle ∧ ((old.axle a).state = .forward ∨ (old.axle a).state = .reverse) := by
  simp only [stopsDriving, Bool.or_eq_true, Bool.and_eq_true, decide_eq_true_iff, AxleState.driving_iff]
  constructor
  · rintro (front | rear)
    · exact ⟨.front, front⟩
    · exact ⟨.rear, rear⟩
  · rintro ⟨_ | _, halts⟩
    · exact .inl halts
    · exact .inr halts

/-- Where a state changes and no axle stops driving, the picture is all that follows. -/
theorem Chip.setDrive_relight {c : Chip} {d : Drm} (changed : ∃ a, (d.axle a).state ≠ (c.drm.axle a).state)
    (goes : ¬∃ a, (d.axle a).state = .idle ∧ ((c.drm.axle a).state = .forward ∨ (c.drm.axle a).state = .reverse)) :
    c.setDrive d = Chip.relight { c with drm := d } := by
  unfold Chip.setDrive
  dsimp only
  rw [(axleChanged_iff c.drm d).2 changed, Bool.eq_false_iff.2 (mt (axleStops_iff c.drm d).1 goes)]
  rfl

/-- LSQ where the mixer's record takes its place: the picture where an axle state changed, and else as it was (R109). -/
theorem Chip.setDrive_lsq (c : Chip) (d : Drm) :
    ((∃ a, (d.axle a).state ≠ (c.drm.axle a).state) → (c.setDrive d).lsq = (c.setDrive d).picture)
      ∧ ((¬∃ a, (d.axle a).state ≠ (c.drm.axle a).state) → (c.setDrive d).lsq = c.lsq) := by
  refine ⟨fun changed => ?_, fun same => ?_⟩
  · unfold Chip.setDrive
    dsimp only
    rw [(axleChanged_iff c.drm d).2 changed]
    rfl
  · have goes : ¬∃ a, (d.axle a).state = .idle ∧ ((c.drm.axle a).state = .forward ∨ (c.drm.axle a).state = .reverse) := by
      rintro ⟨a, idle, drove⟩
      have kept : (d.axle a).state = (c.drm.axle a).state := by_contra fun differs => same ⟨a, differs⟩
      rw [← kept, idle] at drove
      exact drove.elim nofun nofun
    unfold Chip.setDrive
    dsimp only
    rw [Bool.eq_false_iff.2 (mt (axleChanged_iff c.drm d).1 same), Bool.eq_false_iff.2 (mt (axleStops_iff c.drm d).1 goes)]
    rfl

/-- What of LSQ it keeps. -/
theorem Chip.setDrive_kept (c : Chip) (d : Drm) : (c.setDrive d).lsq.timebase = c.lsq.timebase
    ∧ (c.setDrive d).lsq.nextEvent = c.lsq.nextEvent ∧ (c.setDrive d).lsq.grant = c.lsq.grant
    ∧ (c.setDrive d).lsq.granted = c.lsq.granted := (Chip.relightIf_kept _ _).2

/-- Where the brake-hold timer is started, and where it is left (R112). -/
theorem Chip.setDrive_brakeHold_spec (c : Chip) (d : Drm) :
    let stops := ∃ a, (d.axle a).state = .idle ∧ ((c.drm.axle a).state = .forward ∨ (c.drm.axle a).state = .reverse)
    (stops → 0 < c.tables.driveCfg.brakeHold → (c.setDrive d).lsq.brakeHold = some (c.now + c.tables.driveCfg.brakeHold))
      ∧ (c.tables.driveCfg.brakeHold = 0 → (c.setDrive d).lsq.brakeHold = c.lsq.brakeHold)
      ∧ (¬stops → (c.setDrive d).lsq.brakeHold = c.lsq.brakeHold) := by
  intro stops
  rw [Chip.setDrive_brakeHold]
  refine ⟨fun halts set => ?_, fun unset => ?_, fun goes => ?_⟩
  · rw [(axleStops_iff c.drm d).2 halts, decide_eq_true set]
    rfl
  · rw [unset, Bool.and_comm]
    rfl
  · rw [Bool.eq_false_iff.2 (mt (axleStops_iff c.drm d).1 goes)]
    rfl

/-- It changes DRM and LSQ alone. -/
theorem Chip.setDrive_eq (c : Chip) (d : Drm) : c.setDrive d = { c with drm := d, lsq := (c.setDrive d).lsq } := rfl

/-! ### The rows of R67 -/

section Rows
variable (c : Chip) (d : Drm) (a : Axle)

/-- Rows 1 and 2: DORMANT, or the bench. -/
theorem Chip.axleNext_off (off : c.mdc.mode = .dormant ∨ c.mdc.bench = true) :
    c.axleNext d a = { d.axle a with state := .off, timer := none, left := none } := if_pos off

/-- A link is up where it is neither AWAIT nor FAILSAFE. -/
theorem Chip.linkUp_iff : c.linkUp ↔ ¬(c.ulr.link = .await ∨ c.ulr.link = .failsafe) := by
  unfold Chip.linkUp
  cases c.ulr.link <;> decide

variable {c d a} in
/-- Row 5: an unlocked axle of an ARMED drive moves by its request. -/
theorem Chip.axleNext_follow (awake : c.mdc.mode ≠ .dormant) (road : c.mdc.bench = false) (up : c.linkUp)
    (armed : d.arming = .armed) (unlocked : d.mode.locks a = false) :
    c.axleNext d a = (d.axle a).follow c.now c.profile.reverseDelay d.axleRequest := by
  unfold Chip.axleNext
  simp only [awake, road, c.linkUp_iff.1 up, armed, unlocked, if_false, ne_eq, not_true_eq_false, Bool.false_eq_true, false_or]

variable {c d a} in
/-- Rows 3 and 4, and the locked axle. -/
theorem Chip.axleNext_stands (awake : c.mdc.mode ≠ .dormant) (road : c.mdc.bench = false) :
    (¬c.linkUp → c.axleNext d a = { d.axle a with state := .failsafeBrake, timer := none, left := none })
      ∧ (c.linkUp → d.arming ≠ .armed → c.axleNext d a = { d.axle a with state := .off, timer := none, left := none })
      ∧ (c.linkUp → d.arming = .armed → d.mode.locks a = true →
        c.axleNext d a = { d.axle a with state := .digLocked, timer := none, left := none }) := by
  unfold Chip.axleNext
  refine ⟨fun down => ?_, fun up unarmed => ?_, fun up armed locked => ?_⟩
  · have link := not_not.1 (mt c.linkUp_iff.2 down)
    simp only [awake, road, link, if_true, if_false, Bool.false_eq_true, or_self]
    rfl
  · simp only [awake, road, c.linkUp_iff.1 up, unarmed, if_true, if_false, Bool.false_eq_true, or_self, ne_eq,
      not_false_eq_true]
    rfl
  · simp only [awake, road, c.linkUp_iff.1 up, armed, locked, if_true, if_false, Bool.false_eq_true, or_self, ne_eq,
      not_true_eq_false]
    rfl

end Rows

/-- How an axle moves by its request (R68, R69, R71). -/
theorem AxleRec.follow_spec (r : AxleRec) (now delay : Nat) (req : Int) :
    let n := r.follow now delay req
    let stands (st : AxleState) : AxleRec := { r with state := st, timer := none, left := none }
    let reversing (left : Direction) : AxleRec := { r with state := .reversing, timer := some (now + delay), left := some left }
    ((r.state = .idle ∨ r.state = .off ∨ r.state = .digLocked ∨ r.state = .failsafeBrake) →
        n = stands (if 0 < req then .forward else if req < 0 then .reverse else .idle))
      ∧ (r.state = .forward → 0 < req → n = stands .forward)
      ∧ (r.state = .reverse → req < 0 → n = stands .reverse)
      ∧ (r.state = .forward ∨ r.state = .reverse → req = 0 → n = stands .idle)
      ∧ (r.state = .forward → req < 0 → n = if delay = 0 then stands .reverse else reversing .forward)
      ∧ (r.state = .reverse → 0 < req → n = if delay = 0 then stands .forward else reversing .reverse)
      ∧ (r.state = .reversing → r.left = some .forward → n = if 0 < req then stands .forward else r)
      ∧ (r.state = .reversing → r.left = some .reverse → n = if req < 0 then stands .reverse else r) := by
  intro n stands reversing
  have ahead (positive : 0 < req) : AxleState.ofRequest req = .forward := if_pos positive
  have back (negative : req < 0) : AxleState.ofRequest req = .reverse := by
    rw [AxleState.ofRequest, if_neg (by omega), if_pos negative]
  simp only [n, AxleRec.follow]
  refine ⟨fun still => ?_, fun state positive => ?_, fun state negative => ?_, fun state zero => ?_, fun state negative => ?_,
    fun state positive => ?_, fun state left => ?_, fun state left => ?_⟩
  · rcases still with state | state | state | state <;> rw [state] <;> rfl
  · rw [state]
    exact (if_neg (by omega)).trans (congrArg stands (ahead positive))
  · rw [state]
    exact (if_neg (by omega)).trans (congrArg stands (back negative))
  · subst zero
    rcases state with state | state <;> rw [state] <;> rfl
  · rw [state]
    exact if_pos negative
  · rw [state]
    exact if_pos positive
  · rw [state, left]
    rfl
  · rw [state, left]
    rfl

/-! ### The arming timer -/

/-- The row ARMING_TIMER_EXPIRY. -/
theorem exec_armingTimerExpiry {s : State} {due : Nat} (running : s.chip.Running) (runs : s.chip.drm.armTimer = some due)
    (arming : s.chip.drm.arming = .arming) : exec .armingTimerExpiry s = .next { s with
      chip := Chip.handleAxles { s.chip with now := s.chip.dueAt due }
        { s.chip.drm with arming := .armed, armTimer := none } } :=
  (State.next_whenDue running runs Chip.arm).trans (congrArg (fun d => Host.Outcome.next { s with chip := d }) (if_pos arming))

/-- Settles O31. -/
theorem armingExpiryArms : Obligations.ArmingExpiryArms := by
  refine ⟨fun s due running runs arming => exec_armingTimerExpiry running runs arming,
    fun s due running runs arming active road up still off => ?_⟩
  intro axle drm
  rw [exec_armingTimerExpiry running runs arming]
  have awake : s.chip.mdc.mode ≠ .dormant := by rw [active]; decide
  let c : Chip := { s.chip with now := s.chip.dueAt due }
  let armed : Drm := { s.chip.drm with arming := .armed, armTimer := none }
  let moved : Drm := { armed with front := c.axleNext armed .front, rear := c.axleNext armed .rear }
  have next (a : Axle) : moved.axle a = { armed.axle a with state := (axle a).state, timer := none, left := none } := by
    have both : moved.axle a = c.axleNext armed a := by cases a <;> rfl
    have state : (axle a).state = if armed.mode.locks a then .digLocked else .idle := rfl
    have was : (armed.axle a).state = .off := (show armed.axle a = s.chip.drm.axle a by cases a <;> rfl) ▸ off a
    rw [both, state]
    by_cases locked : armed.mode.locks a = true
    · rw [(Chip.axleNext_stands (c := c) awake road).2.2 up rfl locked, if_pos locked]
    · rw [Chip.axleNext_follow (c := c) awake road up rfl (Bool.eq_false_iff.2 locked), if_neg locked,
        ((armed.axle a).follow_spec _ _ _).1 (.inr (.inl was)), show armed.axleRequest = 0 from still]
      rfl
  have rests (a : Axle) : ¬((moved.axle a).state = .forward ∨ (moved.axle a).state = .reverse) := by
    rw [next a]
    dsimp only [axle]
    split <;> rintro (state | state) <;> exact nomatch state
  have settled (a : Axle) : (moved.settle c.tables.driveCfg c.profile.dragBrake).axle a = axle a := by
    rw [Drm.settle_axle, Drm.dutyOf_rest (rests a), next a]
    dsimp only [axle]
    split <;> rfl
  have demand : moved.demandOf c.tables.driveCfg = 0 := (moved.demandOf_spec _).2.2.2 (rests .front) (rests .rear)
  have whole : moved.settle c.tables.driveCfg c.profile.dragBrake = drm := by
    have parts : moved.settle c.tables.driveCfg c.profile.dragBrake = { moved with
      front := (moved.settle c.tables.driveCfg c.profile.dragBrake).axle .front
      rear := (moved.settle c.tables.driveCfg c.profile.dragBrake).axle .rear
      demand := moved.demandOf c.tables.driveCfg } := rfl
    rw [parts, settled, settled, demand]
  have changed : ∃ a, (drm.axle a).state ≠ (c.drm.axle a).state := by
    refine ⟨.front, ?_⟩
    rw [show (c.drm.axle .front).state = .off from off .front]
    change (if armed.mode.locks .front = true then AxleState.digLocked else .idle) ≠ .off
    split <;> decide
  have goes : ¬∃ a, (drm.axle a).state = .idle ∧ ((c.drm.axle a).state = .forward ∨ (c.drm.axle a).state = .reverse) := by
    rintro ⟨a, -, drove⟩
    rw [show (c.drm.axle a).state = .off from off a] at drove
    exact drove.elim nofun nofun
  refine congrArg (fun d => Host.Outcome.next { s with chip := d }) ?_
  exact (congrArg c.setDrive whole).trans (Chip.setDrive_relight changed goes)

/-! ### The reverse delay -/

/-- The stage of an axle: at rest while the part is held or DORMANT (R72, R78). -/
theorem Chip.axleStage_eq (c : Chip) (a : Axle) : c.axleStage a
    = if c.held = none ∧ c.mdc.mode ≠ .dormant then ((c.drm.axle a).state.bridge, (c.drm.axle a).output) else (.coast, 0) := by
  by_cases runs : c.held = none ∧ c.mdc.mode ≠ .dormant
  · rw [if_pos runs, Chip.axleStage, Chip.atRest, runs.1, decide_eq_false runs.2]
    rfl
  · have rests : c.atRest = true := by
      rw [Chip.atRest, Bool.or_eq_true, decide_eq_true_iff, decide_eq_true_iff]
      tauto
    rw [if_neg runs, Chip.axleStage, rests]
    rfl

/-- The effective duty shows on a driving axle alone (R72). -/
theorem outputDuty_rest {st : AxleState} (rests : ¬(st = .forward ∨ st = .reverse)) (effective drag failsafe : Nat) :
    outputDuty st effective drag failsafe = outputDuty st 0 drag failsafe := by
  cases st with
  | forward => exact absurd (.inl rfl) rests
  | reverse => exact absurd (.inr rfl) rests
  | off | idle | reversing | digLocked | failsafeBrake => rfl

/-- The output duty of one that drives. -/
theorem outputDuty_drives {st : AxleState} (drives : st = .forward ∨ st = .reverse) (effective drag failsafe : Nat) :
    outputDuty st effective drag failsafe = effective := by
  rcases drives with state | state <;> rw [state] <;> rfl

/-- The other axle's record. -/
theorem Drm.setAxle_other (d : Drm) {a b : Axle} (other : a ≠ b) (r : AxleRec) : (d.setAxle a r).axle b = d.axle b := by
  cases a <;> cases b
  · exact absurd rfl other
  · rfl
  · rfl
  · exact absurd rfl other

/-- The row REVERSE_DELAY_EXPIRY of a REVERSING axle. -/
theorem exec_reverseDelayExpiry {s : State} {a : Axle} {due : Nat} (running : s.chip.Running)
    (runs : (s.chip.drm.axle a).timer = some due) (reversing : (s.chip.drm.axle a).state = .reversing) :
    exec (.reverseDelayExpiry a) s = .next { s with
      chip := Chip.setDrive { s.chip with now := s.chip.dueAt due }
        ((s.chip.drm.setAxle a ((s.chip.drm.axle a).reversed s.chip.drm.axleRequest s.chip.profile.dragBrake)).rescale
          s.chip.tables.driveCfg) } :=
  (State.next_whenDue running runs fun d => d.endReversal a).trans
    (congrArg (fun d => Host.Outcome.next { s with chip := d }) (if_pos reversing))

/-- Settles O32. -/
theorem reverseDelayExpiryTakesDirection : Obligations.ReverseDelayExpiryTakesDirection := by
  refine ⟨fun c d a => ?stage, fun c d a => ?rows, fun c d a => ?handles, fun a b s due running runs reverses other => ?expiry⟩
  case stage =>
    exact ⟨rfl, rfl, rfl, by cases a <;> decide, by cases a <;> decide, c.axleStage_eq a⟩
  case rows =>
    intro r n req delay stands reversing row5
    refine ⟨c.axleNext_off d a, Chip.axleNext_stands, fun ⟨awake, road, up, armed, unlocked⟩ => ?_⟩
    have follows : n = r.follow c.now delay req := Chip.axleNext_follow awake road up armed unlocked
    rw [follows]
    exact r.follow_spec c.now delay req
  case handles =>
    intro t n drives m effective changes
    let moved : Drm := { d with front := n .front, rear := n .rear }
    let settled : Drm := moved.settle c.tables.driveCfg c.profile.dragBrake
    have whole : t = c.setDrive settled := rfl
    have next (b : Axle) : moved.axle b = n b := by cases b <;> rfl
    have set (b : Axle) : settled.axle b = { n b with
        effective := moved.dutyOf (moved.demandOf c.tables.driveCfg) b
        output := outputDuty (n b).state (moved.dutyOf (moved.demandOf c.tables.driveCfg) b) c.profile.dragBrake
          c.tables.driveCfg.failsafeBrake } := by
      rw [← next b]
      exact moved.settle_axle _ _ b
    have state (b : Axle) : (settled.axle b).state = (n b).state := by rw [set b]
    have demand := moved.demandOf_spec c.tables.driveCfg
    simp only [next] at demand
    obtain ⟨timebase, event, grant, granted⟩ := c.setDrive_kept settled
    have lsq := c.setDrive_lsq settled
    have hold := c.setDrive_brakeHold_spec settled
    simp only [state] at lsq hold
    refine ⟨rfl, lsq.1, lsq.2, timebase, event, grant, granted, rfl, demand, fun goes => ?_, fun rests => ?_, hold⟩
    · refine (set a).trans ?_
      rw [Drm.dutyOf_driving (by rw [next a]; exact goes), outputDuty_drives goes]
      rfl
    · refine (set a).trans ?_
      rw [Drm.dutyOf_rest (by rw [next a]; exact rests), outputDuty_rest rests]
      refine congrArg (fun output => { n a with effective := 0, output := output }) ?_
      cases (n a).state <;> rfl
  case expiry =>
    intro req
    let c : Chip := { s.chip with now := s.chip.dueAt due }
    let cfg := s.chip.tables.driveCfg
    let ended : Drm := s.chip.drm.setAxle a ((s.chip.drm.axle a).reversed req s.chip.profile.dragBrake)
    let scaled : Drm := ended.rescale cfg
    have own : ended.axle a = (s.chip.drm.axle a).reversed req s.chip.profile.dragBrake := Drm.setAxle_axle _ _ _
    have beside : ended.axle b = s.chip.drm.axle b := Drm.setAxle_other _ other _
    have request : ended.axleRequest = req := Drm.setAxle_axleRequest _ _ _
    have grant : ended.grant = s.chip.drm.grant := Drm.setAxle_grant _ _ _
    have state (x : Axle) : (scaled.axle x).state = (ended.axle x).state := by rw [ended.rescale_axle]
    have changed : ∃ x, (scaled.axle x).state ≠ (c.drm.axle x).state := by
      refine ⟨a, ?_⟩
      rw [state, own, show (c.drm.axle a).state = .reversing from reverses]
      change AxleState.ofRequest req ≠ .reversing
      unfold AxleState.ofRequest
      split
      · decide
      · split <;> decide
    have goes : ¬∃ x, (scaled.axle x).state = .idle ∧ ((c.drm.axle x).state = .forward ∨ (c.drm.axle x).state = .reverse) := by
      rintro ⟨x, idle, drove⟩
      have two : x = a ∨ x = b := by revert other; cases a <;> cases b <;> cases x <;> decide
      rcases two with rfl | rfl
      · rw [show (c.drm.axle x).state = .reversing from reverses] at drove
        exact drove.elim nofun nofun
      · rw [state, beside] at idle
        rw [show (c.drm.axle x).state = .idle from idle] at drove
        exact drove.elim nofun nofun
    have relit := Chip.setDrive_relight changed goes
    have duty (x : Axle) (drives : (ended.axle x).state = .forward ∨ (ended.axle x).state = .reverse) :
        ended.dutyOf (ended.demandOf cfg) x = scaleTo s.chip.drm.grant (ended.demandOf cfg) req.natAbs := by
      rw [Drm.dutyOf_driving drives, request, grant]
    have demand := ended.demandOf_spec cfg
    rw [request] at demand
    simp only [← state] at demand
    have ran := (exec_reverseDelayExpiry running runs reverses).trans (congrArg (fun d => Host.Outcome.next { s with chip := d }) relit)
    refine ⟨_, ran, rfl, rfl, ?_⟩
    have direction : (scaled.axle a).state = AxleState.ofRequest req := by rw [state, own]; rfl
    have still (zero : req = 0) : ¬((ended.axle a).state = .forward ∨ (ended.axle a).state = .reverse) := by
      rw [own, zero]
      exact fun drives => drives.elim nofun nofun
    have moves (other : req ≠ 0) : (ended.axle a).state = .forward ∨ (ended.axle a).state = .reverse := by
      rw [own]
      rcases lt_or_gt_of_ne other with negative | positive
      · exact .inr (if_neg (by omega) |>.trans (if_pos negative))
      · exact .inl (if_pos positive)
    refine ⟨direction, ?_, ?_, ?_, ?_, (state b).trans (by rw [beside]), ?_, Drm.setAxle_command _ _ _, Drm.setAxle_mode _ _ _,
      Drm.setAxle_arming _ _ _, Drm.setAxle_armTimer _ _ _, Drm.setAxle_request _ _ _, request, grant, rfl, rfl, rfl, rfl,
      rfl, ⟨demand, fun drives => ?_, fun rests => ?_, ?_⟩, rfl⟩
    · change (scaled.axle a).timer = none
      rw [ended.rescale_axle, own]
      rfl
    · change (scaled.axle a).left = none
      rw [ended.rescale_axle, own]
      rfl
    · change (scaled.axle a).effective = _
      rw [ended.rescale_axle]
      by_cases zero : req = 0
      · rw [Drm.dutyOf_rest (still zero), if_pos zero]
      · rw [duty a (moves zero), if_neg zero]
        rfl
    · change (scaled.axle a).output = _
      rw [ended.rescale_axle]
      by_cases zero : req = 0
      · rw [if_pos zero]
        refine (if_neg (mt (AxleState.driving_iff _).1 (still zero))).trans ?_
        rw [own, zero]
        rfl
      · rw [if_neg zero]
        exact (if_pos ((AxleState.driving_iff _).2 (moves zero))).trans (duty a (moves zero))
    · change (scaled.axle b).timer = _
      rw [ended.rescale_axle, beside]
    · change (scaled.axle b).state = _ ∨ (scaled.axle b).state = _ at drives
      rw [state] at drives
      change (scaled.axle b).effective = _ ∧ (scaled.axle b).output = _
      rw [ended.rescale_axle]
      exact ⟨duty b drives, (if_pos ((AxleState.driving_iff _).2 drives)).trans (duty b drives)⟩
    · change ¬((scaled.axle b).state = _ ∨ (scaled.axle b).state = _) at rests
      rw [state] at rests
      change (scaled.axle b).effective = 0 ∧ (scaled.axle b).output = _
      rw [ended.rescale_axle]
      exact ⟨Drm.dutyOf_rest rests _, (if_neg (mt (AxleState.driving_iff _).1 rests)).trans (by rw [beside])⟩
    · change (scaled.axle b).left = _
      rw [ended.rescale_axle, beside]

/-- Settles O33. -/
theorem drawsStayWithinGrants : Obligations.DrawsStayWithinGrants := by
  refine ⟨fun grant demand x => ⟨fun fits => if_pos fits, fun exceeds => if_neg (Nat.not_le.2 exceeds)⟩, fun ifs levels => rfl,
    fun d cfg drag => ⟨d.duties_le cfg, d.dutyOf_le _ .front, d.dutyOf_le _ .rear⟩, fun d cfg a => ?rescale,
    fun w cfg => ?winch, fun c => ?lights⟩
  case rescale =>
    intro t m part
    have reads (b : Axle) (x : Nat) : part b x = if (d.axle b).state.driving = true then x else 0 :=
      if_congr (AxleState.driving_iff _).symm rfl rfl
    refine ⟨rfl, ?_, ?_, d.duties_le cfg, ?_⟩
    · rw [reads, reads]
      rfl
    · rw [reads]
      refine (d.rescale_axle cfg a).trans ?_
      simp only [← AxleState.driving_iff]
      rw [Drm.dutyOf]
      split <;> rfl
    · rw [show t.axle a = _ from d.rescale_axle cfg a]
      exact d.dutyOf_le _ a
  case winch =>
    unfold Winch.settle
    dsimp only
    split
    · have drawn := scaleTo_pair_le w.grant (w.requested * cfg.ifs) w.requested 0 cfg.ifs 0 (by simp)
      exact ⟨by simpa using drawn, scaleTo_le _ _ _⟩
    · exact ⟨by simp, Nat.zero_le _⟩
  case lights =>
    by_cases granted : c.lsq.granted = true
    · have level : c.picture.level = Vector.ofFn fun o => scaleTo c.lsq.grant c.picture.demand c.picture.raw[o] :=
        congrArg Vector.ofFn (funext fun o => Lsq.levelUnder_granted granted _ _)
      rw [level]
      exact lightCurrent_scaled_le _ _ _
    · rw [Chip.picture_dark (Bool.eq_false_iff.2 granted)]
      have dark : lightCurrent c.tables.lightOut (Vector.replicate 8 0) = 0 := by simp [lightCurrent]
      rw [dark]
      exact Nat.zero_le _

end Sys2Proof.Machine
end

section
/-! A winch record and its place: the grant event, a new WINCH_CFG, and what the part makes of a new record (R83, R91, R95,
R97 to R104, R106). -/

namespace Sys2Proof.Machine

/-! ### States -/

/-- The pulling states. -/
theorem WinchState.pullsIn_eq (st : WinchState) : st.pullsIn = (decide (st = .jogIn) || decide (st = .runIn)) := by
  cases st <;> rfl

/-- The same, as a proposition. -/
theorem WinchState.pullsIn_iff (st : WinchState) : st.pullsIn = true ↔ st = .jogIn ∨ st = .runIn := by
  rw [st.pullsIn_eq, Bool.or_eq_true, decide_eq_true_iff, decide_eq_true_iff]

/-- A record with demand and duty set anew. -/
theorem Winch.settle_eq (w : Winch) (cfg : WinchCfg) : w.settle cfg = { w with
    demand := if w.state.driven then w.requested * cfg.ifs else 0
    effective := if w.state.driven then scaleTo w.grant (if w.state.driven then w.requested * cfg.ifs else 0) w.requested else 0
    boost := w.boost && (decide (w.state = .jogIn) || decide (w.state = .runIn)) } := by
  rw [← WinchState.pullsIn_eq]
  rfl

/-- The winch stage while the part runs (R83). -/
theorem Chip.winchStage_eq {c : Chip} (runs : c.held = none) (awake : c.mdc.mode ≠ .dormant) :
    c.winchStage = (c.wnc.state.bridge, c.wnc.output) := by
  rw [Chip.winchStage, Chip.atRest, runs, decide_eq_false awake]
  rfl

/-! ### The grant event (R98 to R104) -/

section Grant
variable (w : Winch) (cfg : WinchCfg) (g : Nat) (level : Level) (disabled : Bool)

/-- What a stall test can do. -/
theorem Winch.stallTest_cases :
    (¬(w.state.driven = true ∧ cfg.stallFloor ≤ w.effective) → w.stallTest cfg = w)
      ∧ (w.state.driven = true ∧ cfg.stallFloor ≤ w.effective → ¬w.stallTimer ≤ 1 →
        w.stallTest cfg = { w with stallTimer := w.stallTimer - 1 })
      ∧ (w.state.driven = true ∧ cfg.stallFloor ≤ w.effective → w.stallTimer ≤ 1 →
        w.stallTest cfg = Winch.toStalled { w with stallTimer := 0 }) := by
  refine ⟨fun idle => if_neg idle, fun counts runs => ?_, fun counts last => ?_⟩
  · exact (if_pos counts).trans (if_neg (by omega))
  · exact (if_pos counts).trans (if_pos (by omega))

/-- What it leaves. -/
theorem Winch.stallTest_kept : (w.stallTest cfg).position = w.position ∧ (w.stallTest cfg).referenced = w.referenced
    ∧ (w.stallTest cfg).opCount = w.opCount ∧ (w.stallTest cfg).creep = w.creep
    ∧ (w.stallTest cfg).creepReported = w.creepReported ∧ (w.stallTest cfg).allowance = w.allowance
    ∧ (w.stallTest cfg).boostAtStart = w.boostAtStart ∧ (w.stallTest cfg).recharge = w.recharge
    ∧ (w.stallTest cfg).boost = w.boost := by
  unfold Winch.stallTest
  split
  · split <;> exact ⟨rfl, rfl, rfl, rfl, rfl, rfl, rfl, rfl, rfl⟩
  · exact ⟨rfl, rfl, rfl, rfl, rfl, rfl, rfl, rfl, rfl⟩

/-- The accounting writes allowance, recharge count and boost flag alone (R104). -/
theorem Winch.account_eq : w.account cfg = { w with
    allowance := if w.boostAtStart then w.allowance - 1 else if w.recharge + 1 = 4 then
      (if cfg.aMax ≤ w.allowance then w.allowance else w.allowance + 1) else w.allowance
    recharge := if w.boostAtStart then w.recharge else if w.recharge + 1 = 4 then 0 else w.recharge + 1
    boost := w.boost && !(w.boostAtStart && decide (w.allowance - 1 = 0)) } := by
  unfold Winch.account
  cases start : w.boostAtStart with
  | true =>
    simp only [if_true, Bool.true_and, ne_eq, decide_not]
  | false =>
    simp only [Bool.false_eq_true, if_false, Bool.false_and, Bool.not_false, Bool.and_true]
    split <;> rfl

/-- The activation writes boost flag, the flag of the period and the recharge count alone (R103). -/
theorem Winch.activate_eq : w.activate level disabled = { w with
    boost := w.boostConditions level disabled || w.boost
    boostAtStart := w.boostConditions level disabled || w.boost
    recharge := if w.boostConditions level disabled then 0 else w.recharge } := by
  unfold Winch.activate
  cases w.boostConditions level disabled <;> rfl

/-- The record scaled to the new grant, before the accounting. -/
def Winch.scaled : Winch := Winch.settle { w.stallTest cfg with grant := g } cfg

/-- What a grant event does beside the accounting. -/
theorem Winch.takeGrant_eq : w.takeGrant cfg g level disabled = { w.scaled cfg g with
    allowance := (w.takeGrant cfg g level disabled).allowance
    boost := (w.takeGrant cfg g level disabled).boost
    boostAtStart := (w.takeGrant cfg g level disabled).boostAtStart
    recharge := (w.takeGrant cfg g level disabled).recharge } := by
  rw [show w.takeGrant cfg g level disabled = ((w.scaled cfg g).account cfg).activate level disabled from rfl,
    Winch.activate_eq, Winch.account_eq]

/-- The boost conditions. -/
theorem Winch.boostConditions_iff : w.boostConditions level disabled = true ↔ (w.state = .jogIn ∨ w.state = .runIn)
    ∧ level = .normal ∧ disabled = false ∧ 0 < w.allowance ∧ w.grant < w.demand := by
  simp [Winch.boostConditions, ← WinchState.pullsIn_iff, and_assoc]

/-- The accounting of a grant event: allowance, recharge count, and what of the boost flag it leaves (R104). -/
theorem Winch.takeGrant_account : ((w.scaled cfg g).account cfg).allowance = (w.takeGrant cfg g level disabled).allowance
    ∧ ((w.scaled cfg g).account cfg).state = (w.takeGrant cfg g level disabled).state
    ∧ ((w.scaled cfg g).account cfg).demand = (w.takeGrant cfg g level disabled).demand
    ∧ ((w.scaled cfg g).account cfg).grant = g := by
  rw [show w.takeGrant cfg g level disabled = ((w.scaled cfg g).account cfg).activate level disabled from rfl,
    Winch.activate_eq, Winch.account_eq]
  exact ⟨rfl, rfl, rfl, rfl⟩

/-- The allowance after a grant event (R104). -/
theorem Winch.takeGrant_allowance : (w.takeGrant cfg g level disabled).allowance = if w.boostAtStart then w.allowance - 1
    else if w.recharge + 1 = 4 then (if cfg.aMax ≤ w.allowance then w.allowance else w.allowance + 1) else w.allowance := by
  obtain ⟨-, -, -, -, -, allowance, start, recharge, -⟩ := w.stallTest_kept cfg
  rw [← (w.takeGrant_account cfg g level disabled).1, Winch.account_eq, ← allowance, ← start, ← recharge]
  rfl

/-- The boost flag and the recharge count after a grant event (R103, R104). -/
theorem Winch.takeGrant_boosts :
    let t := w.takeGrant cfg g level disabled
    let pulls (st : WinchState) : Prop := st = .jogIn ∨ st = .runIn
    let starts := pulls t.state ∧ level = .normal ∧ disabled = false ∧ 0 < t.allowance ∧ g < t.demand
    (starts → t.boost = true ∧ t.recharge = 0)
      ∧ (¬starts → (t.boost = true ↔ w.boost = true ∧ pulls t.state ∧ ¬(w.boostAtStart = true ∧ t.allowance = 0))
          ∧ t.recharge = if w.boostAtStart = true then w.recharge else if w.recharge + 1 = 4 then 0 else w.recharge + 1)
      ∧ t.boostAtStart = t.boost := by
  intro t pulls starts
  obtain ⟨-, -, -, -, -, -, start, recharge, boost⟩ := w.stallTest_kept cfg
  obtain ⟨allowance, state, demand, grant⟩ := w.takeGrant_account cfg g level disabled
  have whole : t = ((w.scaled cfg g).account cfg).activate level disabled := rfl
  have conditions : ((w.scaled cfg g).account cfg).boostConditions level disabled = true ↔ starts := by
    rw [Winch.boostConditions_iff, state, allowance, demand, grant]
  have accounted : ((w.scaled cfg g).account cfg).boost = true
      ↔ w.boost = true ∧ pulls t.state ∧ ¬(w.boostAtStart = true ∧ t.allowance = 0) := by
    have flag : (w.scaled cfg g).boost = (w.boost && (w.scaled cfg g).state.pullsIn) := by rw [← boost]; rfl
    have same : (w.scaled cfg g).state = t.state := by rw [← state, Winch.account_eq]
    have zero : w.boostAtStart = true → ((w.scaled cfg g).allowance - 1 = 0 ↔ t.allowance = 0) := by
      intro began
      rw [← allowance, Winch.account_eq]
      rw [if_pos (show (w.scaled cfg g).boostAtStart = true from start.trans began)]
    rw [Winch.account_eq, flag, same, show (w.scaled cfg g).boostAtStart = w.boostAtStart from start]
    simp only [Bool.and_eq_true, Bool.not_eq_true', Bool.and_eq_false_iff, decide_eq_false_iff_not, WinchState.pullsIn_iff,
      and_assoc, not_and]
    refine and_congr_right fun _ => and_congr_right fun _ => ⟨fun ends began => ?_, fun ends => ?_⟩
    · exact mt (zero began).2 (ends.resolve_left (by rw [began]; decide))
    · cases began : w.boostAtStart with
      | false => exact .inl rfl
      | true => exact .inr (mt (zero began).1 (ends began))
  rw [whole, Winch.activate_eq]
  dsimp only
  refine ⟨fun begins => ?_, fun none => ?_, rfl⟩
  · rw [conditions.2 begins]
    exact ⟨rfl, rfl⟩
  · rw [Bool.eq_false_iff.2 (mt conditions.1 none), Bool.false_or, accounted, whole, Winch.activate_eq]
    refine ⟨Iff.rfl, ?_⟩
    rw [Winch.account_eq, ← start, ← recharge]
    rfl

end Grant

/-- The last-operation record of an operation that stalls (R91, R99). -/
theorem Winch.toStalled_lastOp (w : Winch) :
    let ended (kind : OpKind) : Option LastOp :=
      some { kind := kind, requested := w.run.map Run.count, counts := w.countsDone, outcome := .stalled }
    (w.state = .jogIn → w.toStalled.lastOp = ended .jogIn) ∧ (w.state = .jogOut → w.toStalled.lastOp = ended .jogOut)
      ∧ (w.state = .runIn → w.toStalled.lastOp = ended .runIn) ∧ (w.state = .runOut → w.toStalled.lastOp = ended .runOut) := by
  intro ended
  have last : w.toStalled.lastOp = (w.finish .stalled).lastOp := rfl
  rw [last, Winch.finish_lastOp]
  exact ⟨fun state => by rw [state], fun state => by rw [state], fun state => by rw [state], fun state => by rw [state]⟩

/-! ### A new WINCH_CFG -/

/-- What a write of WINCH_CFG makes of the record (R95, R104). -/
theorem Winch.reconfigure_spec (w : Winch) (cfg : WinchCfg) :
    let t := w.reconfigure cfg
    let ends := cfg.pmax < w.position ∧ w.referenced = true ∧ (w.state = .jogOut ∨ w.state = .runOut)
    t.position = min w.position cfg.pmax ∧ t.allowance = min w.allowance cfg.aMax ∧ t.referenced = w.referenced
      ∧ (t.boost = true ↔ w.boost = true ∧ t.allowance ≠ 0)
      ∧ (ends → t = { w with
          position := t.position, allowance := t.allowance, boost := t.boost, state := .idle, run := none, requested := 0
          creep := 0, creepReported := false
          lastOp := some { kind := if w.state = .jogOut then .jogOut else .runOut, requested := w.run.map Run.count,
                           counts := w.countsDone, outcome := .limit } })
      ∧ (¬ends → t = { w with position := t.position, allowance := t.allowance, boost := t.boost }) := by
  intro t ends
  have boost (allowance : Nat) : (w.boost && decide (allowance ≠ 0)) = true ↔ w.boost = true ∧ allowance ≠ 0 := by
    rw [Bool.and_eq_true, decide_eq_true_iff]
  by_cases ended : ends
  · let kept : Winch := { w with
      position := min w.position cfg.pmax
      allowance := min w.allowance cfg.aMax
      boost := w.boost && decide (min w.allowance cfg.aMax ≠ 0) }
    have whole : t = (kept.finish .limit).toIdle := if_pos ended
    have last : t.lastOp = some (LastOp.mk (if w.state = .jogOut then .jogOut else .runOut) (w.run.map Run.count) w.countsDone
        .limit) := by
      have finished : t.lastOp = (kept.finish .limit).lastOp := by rw [whole]; rfl
      rw [finished, Winch.finish_lastOp, show kept.state = w.state from rfl]
      rcases ended.2.2 with state | state <;> rw [state] <;> rfl
    refine ⟨by rw [whole]; rfl, by rw [whole]; rfl, by rw [whole]; rfl, by rw [whole]; exact boost _, fun _ => ?_,
      fun goes => absurd ended goes⟩
    rw [← last, whole]
    rfl
  · have whole : t = { w with
        position := min w.position cfg.pmax
        allowance := min w.allowance cfg.aMax
        boost := w.boost && decide (min w.allowance cfg.aMax ≠ 0) } := if_neg ended
    rw [whole]
    exact ⟨rfl, rfl, rfl, boost _, fun ends => absurd ends ended, fun _ => rfl⟩

/-- Settles O34. -/
theorem winchRecordTakesItsPlace : Obligations.WinchRecordTakesItsPlace := by
  refine ⟨fun c w cfg => ?record, fun w cfg g level disabled => ?grant, fun w cfg => w.reconfigure_spec cfg,
    fun c w => ?place⟩
  case record =>
    refine ⟨w.state.driven_iff, fun none => ?_, fun r some => ?_, w.settle_eq cfg, fun runs awake => ?_⟩
    · rw [Winch.countsDone, none]
    · rw [Winch.countsDone, some]
    · rw [Chip.winchStage_eq runs awake, Winch.output]
      cases c.wnc.state <;> rfl
  case grant =>
    intro t counts stalls pulls starts ended
    have whole := w.takeGrant_eq cfg g level disabled
    have allowance := w.takeGrant_allowance cfg g level disabled
    obtain ⟨position, referenced, opCount, creep, reported, -⟩ := w.stallTest_kept cfg
    obtain ⟨still, ticks, stops⟩ := w.stallTest_cases cfg
    obtain ⟨begins, goes, period⟩ := w.takeGrant_boosts cfg g level disabled
    have state : t.state = (w.stallTest cfg).state := (congrArg Winch.state whole :)
    have timer : t.stallTimer = (w.stallTest cfg).stallTimer := (congrArg Winch.stallTimer whole :)
    have run : t.run = (w.stallTest cfg).run := (congrArg Winch.run whole :)
    have last : t.lastOp = (w.stallTest cfg).lastOp := (congrArg Winch.lastOp whole :)
    have requested : t.requested = (w.stallTest cfg).requested := (congrArg Winch.requested whole :)
    have holdOff : t.holdOff = (w.stallTest cfg).holdOff := (congrArg Winch.holdOff whole :)
    have demand : t.demand = (w.scaled cfg g).demand := (congrArg Winch.demand whole :)
    have effective : t.effective = (w.scaled cfg g).effective := (congrArg Winch.effective whole :)
    refine ⟨congrArg Winch.grant whole, (congrArg Winch.position whole).trans position,
      (congrArg Winch.referenced whole).trans referenced, (congrArg Winch.opCount whole).trans opCount,
      (congrArg Winch.creep whole).trans creep, (congrArg Winch.creepReported whole).trans reported, fun idle => ?idle,
      fun counted => ?counted, fun standing => ?standing, fun stalled => ?stalled, fun began => ?began, fun rests fourth => ?fourth,
      fun rests other => ?other, begins, goes, period⟩
    case idle => rw [timer, still idle]
    case counted =>
      by_cases last : w.stallTimer ≤ 1
      · rw [timer, stops counted last]
        exact (Nat.sub_eq_zero_of_le last).symm
      · rw [timer, ticks counted last]
    case standing =>
      have kept : (w.stallTest cfg).state = w.state ∧ (w.stallTest cfg).run = w.run ∧ (w.stallTest cfg).lastOp = w.lastOp
          ∧ (w.stallTest cfg).requested = w.requested ∧ (w.stallTest cfg).holdOff = w.holdOff := by
        by_cases counted : counts
        · rw [ticks counted fun last => standing ⟨counted, last⟩]
          exact ⟨rfl, rfl, rfl, rfl, rfl⟩
        · rw [still counted]
          exact ⟨rfl, rfl, rfl, rfl, rfl⟩
      obtain ⟨sameState, sameRun, sameLast, sameRequested, sameHold⟩ := kept
      refine ⟨state.trans sameState, run.trans sameRun, last.trans sameLast, requested.trans sameRequested,
        holdOff.trans sameHold, fun driven => ?_, fun stands => ?_⟩
      · rw [effective, demand, Winch.scaled, Winch.settle_eq]
        simp only [sameState, sameRequested, driven, if_true]
        exact ⟨trivial, trivial⟩
      · rw [effective, demand, Winch.scaled, Winch.settle_eq]
        simp only [sameState, stands, Bool.false_eq_true, if_false]
        exact ⟨trivial, trivial⟩
    case stalled =>
      have record := stops stalled.1 stalled.2
      have isStalled : t.state = .stalled := by rw [state, record]; rfl
      have dark : t.boost = false := by
        have noPull : ¬pulls t.state := by
          rw [isStalled]
          exact fun pulls => pulls.elim nofun nofun
        refine Bool.eq_false_iff.2 fun lit => noPull ?_
        exact ((goes fun starts => noPull starts.1).1.1 lit).2.1
      obtain ⟨jogIn, jogOut, runIn, runOut⟩ := Winch.toStalled_lastOp { w with stallTimer := 0 }
      refine ⟨isStalled, by rw [run, record]; rfl, by rw [requested, record]; rfl, ?_, ?_, by rw [holdOff, record]; rfl, dark,
        ?_⟩
      · rw [effective, Winch.scaled, record]
        rfl
      · rw [demand, Winch.scaled, record]
        rfl
      · rw [last, record]
        exact ⟨jogIn, jogOut, runIn, runOut⟩
    case began => rw [allowance, if_pos began]
    case fourth => rw [allowance, rests, if_neg Bool.false_ne_true, if_pos fourth]
    case other => rw [allowance, rests, if_neg Bool.false_ne_true, if_neg other]
  case place =>
    intro cfg t demand
    have record : t.wnc = w.settle cfg := Chip.setWinch_wnc c w
    obtain ⟨timebase, event, grant, granted⟩ := c.setWinch_kept w
    refine ⟨?_, record.trans (w.settle_eq cfg), fun same => Chip.setWinch_drm_same same, fun rests => Chip.setWinch_drm_inactive rests w,
      fun turns active => ?_, fun quiet => Chip.setWinch_brakeHold quiet, timebase, event, grant, granted,
      fun changes => Chip.setWinch_picture changes, fun same latched => Chip.setWinch_dark same latched⟩
    · rw [← Chip.setWinch_alt]
      exact c.setWinch_eq w
    · rw [record]
      exact Chip.setWinch_recap turns active

end Sys2Proof.Machine
end

section
/-! A spool pulse (R89, R91, R92, R94, R97). -/

namespace Sys2Proof.Machine

section Pulse
variable (w : Winch) (cfg : WinchCfg)

/-- P after a pulse (R92). -/
theorem Winch.pulsePosition_eq : w.pulsePosition cfg
    = if w.state = .jogIn ∨ w.state = .runIn then w.position - 1 else min cfg.pmax (w.position + 1) :=
  if_congr (WinchState.pullsIn_iff _) rfl rfl

/-- A pulse that presses an end (R94). -/
theorem Winch.pressesEnd_iff : w.pressesEnd cfg = true
    ↔ if w.state = .jogIn ∨ w.state = .runIn then w.position = 0 else cfg.pmax ≤ w.position := by
  unfold Winch.pressesEnd
  by_cases pulls : w.state = .jogIn ∨ w.state = .runIn
  · rw [if_pos ((WinchState.pullsIn_iff _).2 pulls), if_pos pulls, decide_eq_true_iff]
  · rw [if_neg (mt (WinchState.pullsIn_iff _).1 pulls), if_neg pulls, decide_eq_true_iff]

/-- A pulse that raises LINE_END (R94). -/
theorem Winch.raisesLineEnd_iff : w.raisesLineEnd cfg = true ↔ w.referenced = true
    ∧ if w.state = .jogIn ∨ w.state = .runIn then w.position = 0 else cfg.pmax ≤ w.position := by
  rw [Winch.raisesLineEnd, Bool.and_eq_true, Winch.pressesEnd_iff]

/-- The states that hold the line. -/
theorem WinchState.holds_iff (st : WinchState) : st.holds = true ↔ st = .idle ∨ st = .stalled ∨ st = .locked := by
  cases st <;> decide

/-- A pulse that brings a driven line exactly to its end (R94). -/
theorem Winch.reachesEnd_driven (driven : w.state.driven = true) : w.reachesEnd cfg = true ↔ w.referenced = true
    ∧ ¬(if w.state = .jogIn ∨ w.state = .runIn then w.position = 0 else cfg.pmax ≤ w.position)
    ∧ (if w.state = .jogIn ∨ w.state = .runIn then w.pulsePosition cfg = 0 else w.pulsePosition cfg = cfg.pmax) := by
  rw [Winch.reachesEnd_iff, ← Winch.pressesEnd_iff, Bool.not_eq_true]
  have goal : w.pulsePosition cfg = (if w.state.pullsIn then 0 else cfg.pmax)
      ↔ if w.state = .jogIn ∨ w.state = .runIn then w.pulsePosition cfg = 0 else w.pulsePosition cfg = cfg.pmax := by
    by_cases pulls : w.state = .jogIn ∨ w.state = .runIn
    · rw [if_pos ((WinchState.pullsIn_iff _).2 pulls), if_pos pulls]
    · rw [if_neg (mt (WinchState.pullsIn_iff _).1 pulls), if_neg pulls]
  rw [goal]
  exact ⟨fun ⟨referenced, _, free, reached⟩ => ⟨referenced, free, reached⟩,
    fun ⟨referenced, free, reached⟩ => ⟨referenced, driven, free, reached⟩⟩

/-- A pulse where the winch holds its line (R97). -/
theorem Winch.pulse_holds (holds : w.state.holds = true) : w.pulse cfg = { w with
    position := w.pulsePosition cfg
    creep := if w.creep ≤ cfg.creepLimit then w.creep + 1 else w.creep
    creepReported := w.creepReported || decide (cfg.creepLimit ≤ w.creep) } := by
  have still : w.state.driven = false := by
    rcases (WinchState.holds_iff _).1 holds with state | state | state <;> rw [state] <;> rfl
  have reported : (w.creepReported || w.raisesCreep cfg) = (w.creepReported || decide (cfg.creepLimit ≤ w.creep)) := by
    rw [Bool.eq_iff_iff, Bool.or_eq_true, Bool.or_eq_true, Winch.raisesCreep_iff, decide_eq_true_iff]
    cases w.creepReported <;> simp [holds]
  unfold Winch.pulse
  rw [still, holds, reported]
  rfl

/-- A pulse in FREE. -/
theorem Winch.pulse_free (free : w.state = .free) : w.pulse cfg = { w with position := w.pulsePosition cfg } := by
  unfold Winch.pulse
  rw [free]
  rfl

/-- A pulse in a driven state: the operation ends DONE, ends LIMIT, or goes on (R89, R91, R92). -/
theorem Winch.pulse_driven (driven : w.state.driven = true) :
    (w.lastPulse = true → w.pulse cfg = ((w.countDriven cfg).finish .done).toIdle)
      ∧ (w.lastPulse = false → w.reachesEnd cfg = true → w.pulse cfg = ((w.countDriven cfg).finish .limit).toIdle)
      ∧ (w.lastPulse = false → w.reachesEnd cfg = false → w.pulse cfg = w.countDriven cfg) := by
  unfold Winch.pulse
  rw [driven]
  exact ⟨fun last => by rw [last]; rfl, fun goes ends => by rw [goes, ends]; rfl, fun goes goesOn => by rw [goes, goesOn]; rfl⟩

/-- An operation of a kind that ends in IDLE. -/
theorem Winch.finish_toIdle {kind : OpKind} (isKind : w.state.kind = some kind) (outcome : OpOutcome) :
    (w.finish outcome).toIdle = { w with
      state := .idle, run := none, requested := 0, creep := 0, creepReported := false
      lastOp := some { kind := kind, requested := w.run.map Run.count, counts := w.countsDone, outcome := outcome } } := by
  unfold Winch.finish
  rw [isKind]
  rfl

end Pulse

/-- What is a spool pulse (R92). -/
theorem Chip.validPulse_iff (c : Chip) (start lasts : Nat) :
    c.validPulse start lasts = true ↔ 50 ≤ lasts ∧ ∀ before, c.spoolStart = some before → before + 200 ≤ start := by
  unfold Chip.validPulse
  cases c.spoolStart with
  | none => simp
  | some before => simp

/-- The latches after an alert raised on a condition. -/
theorem Alt.has_raise_if (t : Alt) (b : Bool) (x a : Alert) :
    (if b then t.raise x else t).has a = true ↔ t.has a = true ∨ b = true ∧ a = x := by
  cases b
  · simp
  · rw [if_pos rfl, Alt.has_raise, Bool.or_eq_true, decide_eq_true_iff, eq_comm (a := x)]
    simp

/-- Settles O35. -/
theorem spoolPulseCounts : Obligations.SpoolPulseCounts := by
  intro start lasts s running c w cfg pullsIn holds p pastEnd stops slips raised counted ended
  have ran : exec (.spoolPulse start lasts) s = .next { s with chip := if c.validPulse start lasts then c.spoolPulse start else c } :=
    next_congr (Chip.whenRunning_eq running _)
  refine ⟨fun short => ?_, fun long apart => ?_⟩
  · have none : ¬ c.validPulse start lasts = true := by
      rw [Chip.validPulse_iff]
      rintro ⟨long, apart⟩
      rcases short with brief | ⟨before, same, close⟩
      · omega
      · have := apart before same
        omega
    rw [ran, if_neg none]
  have position : w.pulsePosition cfg = p := w.pulsePosition_eq cfg
  have lineEnd : w.raisesLineEnd cfg = true ↔ w.referenced = true ∧ pastEnd := w.raisesLineEnd_iff cfg
  have creep : w.raisesCreep cfg = true ↔ slips := by
    rw [Winch.raisesCreep_iff, WinchState.holds_iff]
  have alerts : raised = Chip.alert { c with spoolStart := some start } fun u =>
      let u := if w.raisesLineEnd cfg then u.raise .lineEnd else u
      if w.raisesCreep cfg then u.raise .winchCreep else u := by
    refine congrArg (Chip.alert _) (funext fun u => ?_)
    have first := if_congr lineEnd (rfl : u.raise .lineEnd = u.raise .lineEnd) (rfl : u = u)
    exact (if_congr creep (congrArg (Alt.raise · .winchCreep) first) first).symm
  refine ⟨w.pulse cfg, ?_, fun a other => ?has, fun held => ?holds, fun free => ?free, fun jogs none => ?jog,
    fun r runs some => ?run⟩
  · rw [ran, if_pos ((Chip.validPulse_iff _ _ _).2 ⟨long, apart⟩), alerts]
    rfl
  case has =>
    have latched : raised.alt.has a = true ↔ c.alt.has a = true ∨ a = .lineEnd ∧ w.referenced = true ∧ pastEnd
        ∨ a = .winchCreep ∧ slips := by
      rw [alerts, (Chip.alert_lsq _ _).1]
      dsimp only
      rw [Alt.has_raise_if, Alt.has_raise_if, lineEnd, creep, or_assoc, and_comm (a := a = .lineEnd), and_comm (a := a = .winchCreep)]
    rw [Chip.setWinch_alt, Alt.has_cause, decide_eq_false (Ne.symm other), Bool.and_false, Bool.or_false, latched]
  case holds => rw [w.pulse_holds cfg ((WinchState.holds_iff _).2 held), position]
  case free => rw [w.pulse_free cfg free, position]
  case jog =>
    have driven : w.state.driven = true := (WinchState.driven_iff _).2 (by tauto)
    have goesOn : w.lastPulse = false := by rw [Winch.lastPulse, none]
    have reached : w.reachesEnd cfg = true ↔ stops := by rw [w.reachesEnd_driven cfg driven, position]
    obtain ⟨-, limit, counts⟩ := w.pulse_driven cfg driven
    have count : w.countDriven cfg = counted := by rw [Winch.countDriven, position]
    refine ⟨fun ends => ?_, fun on => ?_⟩
    · have kind : counted.state.kind = Option.some (if w.state = .jogIn then .jogIn else .jogOut) := by
        rcases jogs with state | state <;> rw [show counted.state = w.state from rfl, state] <;> rfl
      have without : counted.run = Option.none := by rw [show counted.run = w.run.map _ from rfl, none]; rfl
      have done : counted.countsDone = min 65535 (w.opCount + 1) := by rw [Winch.countsDone, without]
      rw [limit goesOn (reached.2 ends), count, Winch.finish_toIdle _ kind, without, done]
      rfl
    · rw [counts goesOn (Bool.eq_false_iff.2 (mt reached.1 on)), count]
  case run =>
    intro kind
    have driven : w.state.driven = true := (WinchState.driven_iff _).2 (by tauto)
    have last : w.lastPulse = true ↔ r.remaining ≤ 1 := by
      rw [Winch.lastPulse, some, decide_eq_true_iff]
      omega
    have reached : w.reachesEnd cfg = true ↔ stops := by rw [w.reachesEnd_driven cfg driven, position]
    obtain ⟨done', limit, counts⟩ := w.pulse_driven cfg driven
    have count : w.countDriven cfg = counted := by rw [Winch.countDriven, position]
    have isKind : counted.state.kind = Option.some kind := by
      rcases runs with state | state <;> simp only [kind, counted, state] <;> rfl
    have remains : counted.run = Option.some { r with remaining := r.remaining - 1 } := by
      rw [show counted.run = w.run.map _ from rfl, some]
      rfl
    have done : counted.countsDone = r.count - (r.remaining - 1) := by rw [Winch.countsDone, remains]
    refine ⟨fun ends => ?_, fun on ends => ?_, fun on goes => ?_⟩
    · rw [done' (last.2 ends), count, Winch.finish_toIdle _ isKind, remains, done, Nat.sub_eq_zero_of_le ends, Nat.sub_zero]
      rfl
    · rw [limit (Bool.eq_false_iff.2 (mt last.1 (by omega))) (reached.2 ends), count, Winch.finish_toIdle _ isKind, remains, done]
      rfl
    · rw [counts (Bool.eq_false_iff.2 (mt last.1 (by omega))) (Bool.eq_false_iff.2 (mt reached.1 goes)), count]

end Sys2Proof.Machine
end

section
/-! The lights: sources, eligibility, arbitration and levels (R109 to R129). -/

namespace Sys2Proof.Machine

/-! ### Sources (R111 to R119) -/

/-- An axle is in one of two states. -/
theorem Drm.anyAxle_iff (d : Drm) (p q : AxleState) : d.anyAxle p q = true
    ↔ (d.front.state = p ∨ d.front.state = q) ∨ (d.rear.state = p ∨ d.rear.state = q) := by
  simp [Drm.anyAxle, or_assoc]

/-- The level of the top alert lights ALERT from 1 to 3 (R117). -/
theorem Chip.topLevel_lit_iff (c : Chip) : (1 ≤ c.topLevel ∧ c.topLevel ≤ 3) ↔ ∃ a, c.topAlert = some a ∧ a.level ≤ 3 := by
  have least (a : Alert) : 1 ≤ a.level := by cases a <;> decide
  unfold Chip.topLevel
  cases c.topAlert with
  | none => simp
  | some a => simp [least a]

/-- An override bit is set where the byte of them is not 0 (R119). -/
theorem overrideByte_iff (switches : BitVec 32) :
    switches.extractLsb' 4 8 ≠ 0#8 ↔ ∃ o : Fin 8, switches.getLsbD (4 + o.val) = true := by
  constructor
  · intro set
    by_contra none
    refine set (BitVec.eq_of_getLsbD_eq fun i small => ?_)
    have clear : switches.getLsbD (4 + i) = false := Bool.eq_false_iff.2 fun bit => none ⟨⟨i, small⟩, bit⟩
    rw [BitVec.getLsbD_extractLsb', clear, Bool.and_false]
    exact BitVec.getLsbD_zero.symm
  · rintro ⟨o, bit⟩ none
    have byte := congrArg (fun v : BitVec 8 => v.getLsbD o.val) none
    simp only [BitVec.getLsbD_extractLsb', BitVec.getLsbD_zero, o.isLt, decide_true, Bool.true_and, bit] at byte
    exact nomatch byte

/-- The activity of each source. -/
theorem Chip.sourceActive_spec (c : Chip) :
    let axles (p : AxleState → Prop) : Prop := p c.drm.front.state ∨ p c.drm.rear.state
    (c.sourceActive .mainRun = true ↔ c.cdc.mainLight = .running ∨ c.cdc.mainLight = .full)
    ∧ (c.sourceActive .mainFull = true ↔ c.cdc.mainLight = .full)
    ∧ (c.sourceActive .aux = true ↔ c.cdc.beacon = true)
    ∧ (c.sourceActive .brake = true ↔ axles (fun st => st = .reversing ∨ st = .failsafeBrake) ∨ c.lsq.brakeHold ≠ none)
    ∧ (c.sourceActive .reverse = true ↔ axles (fun st => st = .reverse))
    ∧ (c.sourceActive .turn = true ↔ c.tables.driveCfg.turnThreshold ≤ c.stm.command.natAbs
        ∧ axles (fun st => st = .forward ∨ st = .reverse))
    ∧ (c.sourceActive .winch = true ↔ c.wnc.state = .jogIn ∨ c.wnc.state = .jogOut ∨ c.wnc.state = .runIn
        ∨ c.wnc.state = .runOut ∨ c.wnc.state = .free)
    ∧ (c.sourceActive .alert = true ↔ ∃ a, c.topAlert = some a ∧ a.level ≤ 3)
    ∧ (c.sourceActive .failsafe = true ↔ c.ulr.link = .await ∨ c.ulr.link = .failsafe)
    ∧ (c.sourceActive .override = true ↔ ∃ o : Fin 8, c.sup.switches.getLsbD (4 + o.val) = true) := by
  intro axles
  refine ⟨?run, decide_eq_true_iff, Iff.rfl, ?brake, ?reverse, ?turn, ?winch, ?alert, ?failsafe,
    decide_eq_true_iff.trans (overrideByte_iff _)⟩
  case run => exact decide_eq_true_iff.trans (by cases c.cdc.mainLight <;> decide)
  case brake => rw [Chip.sourceActive, Bool.or_eq_true, Drm.anyAxle_iff, Option.isSome_iff_ne_none]
  case reverse => rw [Chip.sourceActive, Drm.anyAxle_iff, or_self, or_self]
  case turn => rw [Chip.sourceActive, Bool.and_eq_true, decide_eq_true_iff, Drm.anyAxle_iff]
  case winch =>
    rw [Chip.sourceActive]
    cases c.wnc.state <;> simp
  case alert => rw [Chip.sourceActive, Bool.and_eq_true, decide_eq_true_iff, decide_eq_true_iff, c.topLevel_lit_iff]
  case failsafe => rw [Chip.sourceActive, Bool.or_eq_true, decide_eq_true_iff, decide_eq_true_iff]

/-- The picture shows it. -/
theorem Chip.picture_active (c : Chip) (x : Source) : c.picture.active[x.index] = c.sourceActive x := by
  cases x <;> rfl

/-! ### Eligibility (R120) -/

/-- Which sources take part at a level and in a mode. -/
theorem Chip.sourceEligible_spec (c : Chip) (x : Source) :
    (c.mdc.mode = .active → c.btm.level = .normal ∨ c.btm.level = .low → c.sourceEligible x = true)
      ∧ (c.btm.level ≠ .cutoff → c.mdc.mode = .parked ∨ c.mdc.mode = .active ∧ c.btm.level = .critical →
        (c.sourceEligible x = true ↔ x = .alert ∨ x = .failsafe))
      ∧ (c.btm.level = .cutoff ∨ c.mdc.mode = .dormant → c.sourceEligible x = false) := by
  unfold Chip.sourceEligible
  cases c.mdc.mode <;> cases c.btm.level <;> simp

/-- In PARKED and at CRITICAL no other source than ALERT and FAILSAFE takes part. -/
theorem Chip.sourceEligible_held {c : Chip} {x : Source} (held : c.mdc.mode = .parked ∨ c.btm.level = .critical)
    (alert : x ≠ .alert) (failsafe : x ≠ .failsafe) : c.sourceEligible x = false := by
  have other : (decide (x = .alert) || decide (x = .failsafe)) = false := by simp [alert, failsafe]
  unfold Chip.sourceEligible
  rw [other]
  rcases held with mode | level
  · rw [mode]
    cases c.btm.level <;> rfl
  · rw [level]
    cases c.mdc.mode <;> rfl

/-! ### Actions (R115, R119) -/

/-- TURN's side of the moment. -/
theorem turnSide_iff (s : Int) (side : Side) : turnSide s = some side ↔ side = .right ∧ 0 < s ∨ side = .left ∧ s < 0 := by
  unfold turnSide
  split
  · cases side <;> simp_all; omega
  · split <;> cases side <;> simp_all

/-- A source's action for an output. -/
theorem Chip.actionFor_spec (c : Chip) (x : Source) (o : Fin 8) :
    let a := (c.tables.scene[x.index]).actions[o]
    let s := c.stm.command
    let takesPart := a.code ≠ .none
      ∧ (x = .turn → a.side = .right ∧ 0 < s ∨ a.side = .left ∧ s < 0)
      ∧ (x = .override → c.sup.switches.getLsbD (4 + o.val) = true)
    (takesPart → c.actionFor x o = some a) ∧ (¬takesPart → c.actionFor x o = none) := by
  intro a s takesPart
  have chosen (b : Bool) (part : b = true ↔ takesPart) :
      (takesPart → (if b then some a else none) = some a) ∧ (¬takesPart → (if b then some a else none) = none) :=
    ⟨fun takes => if_pos (part.2 takes), fun none => if_neg (mt part.1 none)⟩
  unfold Chip.actionFor
  refine chosen _ ?_
  rw [Bool.and_eq_true, and_comm, decide_eq_true_iff]
  refine and_congr_right fun _ => ?_
  cases x <;> simp [turnSide_iff, Chip.overrideBit, Chip.switchBit, a, s, Source.index]

/-! ### Raw levels (R117, R124) -/

/-- The raw level under a winner. -/
theorem Chip.rawOf_spec (c : Chip) {x : Source} {o : Fin 8} {a : Action} (acts : c.actionFor x o = some a) :
    let pattern (i : Fin 4) : Nat :=
      if c.lsq.timebase.toNat % (c.tables.pattern[i]).period < (c.tables.pattern[i]).onTime then a.level.toNat else 0
    (a.code = .steady → c.rawOf o (some x) = a.level.toNat)
    ∧ (a.code = .blink → x ≠ .alert → c.rawOf o (some x) = pattern a.pattern)
    ∧ (a.code = .blink → x = .alert → ∀ top, c.topAlert = some top →
      (top.level = 1 → c.rawOf o (some x) = pattern c.tables.alertMap[0])
      ∧ (top.level = 2 → c.rawOf o (some x) = pattern c.tables.alertMap[1])
      ∧ (top.level = 3 → c.rawOf o (some x) = pattern c.tables.alertMap[2])) := by
  intro pattern
  have blinks (code : a.code = .blink) : c.rawOf o (some x) = pattern (c.patternOf x a) := by
    unfold Chip.rawOf
    simp only [acts, code]
    exact if_congr decide_eq_true_iff rfl rfl
  refine ⟨fun code => ?_, fun code other => ?_, fun code alert top isTop => ?_⟩
  · unfold Chip.rawOf
    simp only [acts, code]
  · rw [blinks code, Chip.patternOf, if_neg other]
  · have level : c.topLevel = top.level := by rw [Chip.topLevel, isTop]; rfl
    rw [blinks code, Chip.patternOf, if_pos alert, level]
    exact ⟨fun first => by rw [first]; rfl, fun second => by rw [second]; rfl, fun third => by rw [third]; rfl⟩

/-! ### The winner (R122) -/

/-- Every source is among them. -/
theorem Source.mem_all (x : Source) : x ∈ Source.all := by
  cases x <;> decide

/-- The candidates of an output. -/
theorem Chip.mem_candidates (c : Chip) (o : Fin 8) (x : Source) : x ∈ c.candidates o
    ↔ c.sourceActive x = true ∧ c.sourceEligible x = true ∧ (c.actionFor x o).isSome = true := by
  rw [Chip.candidates, List.mem_filter]
  simp [Source.mem_all, and_assoc]

/-- The winner is the candidate of the highest priority, the first by index among equals. -/
theorem Chip.winnerOf_spec (c : Chip) (o : Fin 8) :
    let priority (x : Source) := (c.tables.scene[x.index]).priority
    (c.winnerOf o = none ↔ ∀ x, x ∉ c.candidates o)
      ∧ ∀ x, c.winnerOf o = some x → x ∈ c.candidates o
        ∧ ∀ y ∈ c.candidates o, priority y < priority x ∨ priority y = priority x ∧ x.index ≤ y.index := by
  intro priority
  have sorted : (c.candidates o).Pairwise fun x y => ((x.index.val : Nat) : Int) < ((y.index.val : Nat) : Int) :=
    List.Pairwise.filter _ (by decide)
  have goesOn (best x : Source) : c.tables.betterSource (some best) x
      = some (if (-(priority x : Int)) < -(priority best : Int) then x else best) := by
    simp only [Tables.betterSource, neg_lt_neg_iff, Nat.cast_lt]
    split <;> rfl
  obtain ⟨none_iff, best⟩ := foldl_best (fun _ => rfl) goesOn sorted
  refine ⟨none_iff.trans List.eq_nil_iff_forall_not_mem, fun x found => ?_⟩
  obtain ⟨mem, least⟩ := best x found
  refine ⟨mem, fun y other => ?_⟩
  have := least y other
  simp only [priority, Fin.le_def] at this ⊢
  omega

/-- The picture holds it for each output. -/
theorem Chip.picture_winner (c : Chip) (o : Fin 8) : c.picture.winner[o] = c.winnerOf o := by
  simp [Chip.picture]

/-- So it does the raw level. -/
theorem Chip.picture_raw (c : Chip) (o : Fin 8) : c.picture.raw[o] = c.rawOf o c.picture.winner[o] := by
  simp [Chip.picture]

/-- Settles O39. -/
theorem winnersAreArbitrated : Obligations.WinnersAreArbitrated := by
  refine ⟨fun c => ⟨rfl, rfl, rfl, rfl, rfl, rfl, fun runs awake o => ?_, rfl⟩, fun c => ?sources, fun c x => ?eligible,
    fun c x o => c.actionFor_spec x o, fun c x o won a acts => ?raw, fun c o => ?levels, fun c o => ?winner⟩
  · have up : c.atRest = false := by
      rw [Chip.atRest, runs, decide_eq_false awake]
      rfl
    rw [Chip.lightPin, up]
    rfl
  case sources =>
    intro axles
    obtain ⟨run, full, aux, brake, reverse, turn, winch, alert, failsafe, override⟩ := c.sourceActive_spec
    exact ⟨run, full, aux, brake, reverse, turn, winch, alert, failsafe, override, c.picture_active⟩
  case eligible =>
    obtain ⟨all, few, -⟩ := c.sourceEligible_spec x
    exact ⟨all, few⟩
  case raw =>
    rw [c.picture_raw, won]
    exact c.rawOf_spec acts
  case levels =>
    refine ⟨rfl, fun granted => ?_, fun dark => ?_⟩
    · rw [c.picture_level, Lsq.levelUnder_granted granted]
    · rw [c.picture_level, Lsq.levelUnder_dark dark]
  case winner =>
    intro priority candidate
    obtain ⟨none_iff, best⟩ := c.winnerOf_spec o
    rw [c.picture_winner]
    refine ⟨fun x won => ?_, none_iff.trans (forall_congr' fun y => not_congr (c.mem_candidates o y)), fun none => ?_,
      fun x => (c.sourceEligible_spec x).2.2, fun x held alert failsafe => ?_⟩
    · obtain ⟨mem, least⟩ := best x won
      exact ⟨(c.mem_candidates o x).1 mem, fun y other => least y ((c.mem_candidates o y).2 other)⟩
    · have raw : c.picture.raw[o] = 0 := by
        rw [c.picture_raw, c.picture_winner, none]
        rfl
      exact ⟨raw, by rw [c.picture_level, raw, Lsq.levelUnder_zero]⟩
    · exact c.sourceEligible_held held alert failsafe

end Sys2Proof.Machine
end

section
/-! BTM: the level state machine, and what one measurement makes of the record (R131 to R145). -/

namespace Sys2Proof.Machine

/-! ### Entry and recovery (R138 to R140) -/

/-- A start lies at least a time before now. -/
def oldStart (start : Option Nat) (time now : Nat) : Prop := ∃ x, start = some x ∧ x + time ≤ now

/-- Its test. -/
theorem dueAfter_iff (start : Option Nat) (time now : Nat) : dueAfter start time now = true ↔ oldStart start time now := by
  unfold dueAfter oldStart
  cases start <;> simp

/-- An entry start that a measurement sets is due where it was old before. -/
theorem dueAfter_entryStart {applies below : Bool} {start : Option Nat} {time now : Nat} (waits : 0 < time) :
    dueAfter (entryStart applies below start now) time now = true
      ↔ applies = true ∧ below = true ∧ oldStart start time now := by
  have started : oldStart (some (start.getD now)) time now ↔ oldStart start time now := by
    unfold oldStart
    cases start with
    | none => simp; omega
    | some x => simp
  unfold entryStart
  cases applies <;> cases below <;> simp [dueAfter_iff, started] <;> simp [oldStart]

section Step
variable (b : Btm) (p : Protect) (now : Nat)

/-- CUTOFF is due. -/
def Btm.cutDue : Prop := b.level ≠ .cutoff ∧ b.vc < p.vCut ∧ oldStart b.startCut 500 now

/-- CRITICAL is due. -/
def Btm.critDue : Prop := (b.level = .normal ∨ b.level = .low) ∧ b.vc < p.vCrit ∧ oldStart b.startCrit 1000 now

/-- LOW is due. -/
def Btm.lowDue : Prop := b.level = .normal ∧ (b.capForce = true ∨ b.vc < p.vLow ∧ oldStart b.startLow 2000 now)

/-- The level due after the entry tests (R138). -/
theorem Btm.entered_spec : let entered := (b.testEntries p now).entered now
    (b.cutDue p now → entered = .cutoff)
      ∧ (b.critDue p now → ¬b.cutDue p now → entered = .critical)
      ∧ (b.lowDue p now → ¬b.cutDue p now → ¬b.critDue p now → entered = .low)
      ∧ (¬(b.cutDue p now ∨ b.critDue p now ∨ b.lowDue p now) → entered = b.level) := by
  intro entered
  have cut : dueAfter (b.testEntries p now).startCut 500 now = true ↔ b.cutDue p now := by
    refine (dueAfter_entryStart (by decide)).trans ?_
    rw [decide_eq_true_iff, decide_eq_true_iff, Btm.cutDue]
    cases b.level <;> simp [Level.severity]
  have crit : dueAfter (b.testEntries p now).startCrit 1000 now = true ↔ b.critDue p now := by
    refine (dueAfter_entryStart (by decide)).trans ?_
    rw [decide_eq_true_iff, decide_eq_true_iff, Btm.critDue]
    cases b.level <;> simp [Level.severity]
  have low : (dueAfter (b.testEntries p now).startLow 2000 now = true ∨ (b.capForce && decide (b.level = .normal)) = true)
      ↔ b.lowDue p now := by
    refine (or_congr_left (dueAfter_entryStart (by decide))).trans ?_
    rw [decide_eq_true_iff, decide_eq_true_iff, Btm.lowDue]
    cases b.level <;> simp [Level.severity, or_comm]
  have whole : entered = if dueAfter (b.testEntries p now).startCut 500 now then .cutoff
      else if dueAfter (b.testEntries p now).startCrit 1000 now then .critical
      else if dueAfter (b.testEntries p now).startLow 2000 now then .low
      else if b.capForce && decide (b.level = .normal) then .low
      else b.level := rfl
  rw [whole]
  refine ⟨fun isCut => if_pos (cut.2 isCut), fun isCrit notCut => ?_, fun isLow notCut notCrit => ?_, fun none => ?_⟩
  · rw [if_neg (mt cut.1 notCut), if_pos (crit.2 isCrit)]
  · rw [if_neg (mt cut.1 notCut), if_neg (mt crit.1 notCrit)]
    rcases low.2 isLow with due | force
    · rw [if_pos due]
    · rw [if_pos force]
      exact ite_self _
  · have notLow := mt low.1 fun isLow => none (.inr (.inr isLow))
    rw [if_neg (mt cut.1 fun isCut => none (.inl isCut)), if_neg (mt crit.1 fun isCrit => none (.inr (.inl isCrit))),
      if_neg fun due => notLow (.inl due), if_neg fun force => notLow (.inr force)]

/-- The recovery condition (R140). -/
theorem Btm.recovers_iff : b.recovers p = true ↔ b.level = .low ∧ p.vLow + p.hysteresis ≤ b.vc ∧ b.capForce = false
    ∨ b.level = .critical ∧ p.vCrit + p.hysteresis ≤ b.vc := by
  unfold Btm.recovers
  cases b.level <;> simp

/-- What the level state machine does (R138 to R140). -/
theorem Btm.levelStep_spec : let tested := b.testEntries p now
    let due := b.cutDue p now ∨ b.critDue p now ∨ b.lowDue p now
    (b.cutDue p now → b.levelStep p now = tested.changeLevel .cutoff)
      ∧ (b.critDue p now → ¬b.cutDue p now → b.levelStep p now = tested.changeLevel .critical)
      ∧ (b.lowDue p now → ¬b.cutDue p now → ¬b.critDue p now → b.levelStep p now = tested.changeLevel .low)
      ∧ (¬due → b.recovers p = true → oldStart b.recovery 5000 now → b.levelStep p now = tested.changeLevel b.level.recovered)
      ∧ (¬due → b.recovers p = true → ¬oldStart b.recovery 5000 now →
        b.levelStep p now = { tested with recovery := some (b.recovery.getD now) })
      ∧ (¬due → b.recovers p = false → b.levelStep p now = { tested with recovery := none }) := by
  intro tested due
  obtain ⟨cut, crit, low, none⟩ := b.entered_spec p now
  have enters {level : Level} (entered : tested.entered now = level) (other : level ≠ b.level) :
      b.levelStep p now = tested.changeLevel level := by
    rw [← entered]
    exact if_pos (by rw [entered]; exact other)
  have stays (quiet : ¬due) : b.levelStep p now = if b.recovers p then
      if dueAfter b.recovery 5000 now then tested.changeLevel b.level.recovered
      else { tested with recovery := some (b.recovery.getD now) }
      else { tested with recovery := .none } :=
    if_neg (not_not.2 (none quiet))
  refine ⟨fun isCut => enters (cut isCut) (Ne.symm isCut.1), fun isCrit notCut => enters (crit isCrit notCut) ?_,
    fun isLow notCut notCrit => enters (low isLow notCut notCrit) ?_, fun quiet recovers old => ?_,
    fun quiet recovers fresh => ?_, fun quiet rests => ?_⟩
  · rcases isCrit.1 with level | level <;> rw [level] <;> decide
  · rw [isLow.1]
    decide
  · rw [stays quiet, if_pos recovers, if_pos ((dueAfter_iff _ _ _).2 old)]
  · rw [stays quiet, if_pos recovers, if_neg (mt (dueAfter_iff _ _ _).1 fresh)]
  · rw [stays quiet, if_neg (Bool.eq_false_iff.1 rests)]

/-- One of six things happens. -/
theorem Btm.levelStep_cases : let tested := b.testEntries p now
    let due := b.cutDue p now ∨ b.critDue p now ∨ b.lowDue p now
    b.cutDue p now ∧ b.levelStep p now = tested.changeLevel .cutoff
      ∨ b.critDue p now ∧ ¬b.cutDue p now ∧ b.levelStep p now = tested.changeLevel .critical
      ∨ b.lowDue p now ∧ ¬b.cutDue p now ∧ ¬b.critDue p now ∧ b.levelStep p now = tested.changeLevel .low
      ∨ ¬due ∧ b.recovers p = true ∧ oldStart b.recovery 5000 now
        ∧ b.levelStep p now = tested.changeLevel b.level.recovered
      ∨ ¬due ∧ b.recovers p = true ∧ ¬oldStart b.recovery 5000 now
        ∧ b.levelStep p now = { tested with recovery := some (b.recovery.getD now) }
      ∨ ¬due ∧ b.recovers p = false ∧ b.levelStep p now = { tested with recovery := none } := by
  intro tested due
  obtain ⟨cut, crit, low, recovered, waits, rests⟩ := b.levelStep_spec p now
  by_cases isCut : b.cutDue p now
  · exact .inl ⟨isCut, cut isCut⟩
  by_cases isCrit : b.critDue p now
  · exact .inr (.inl ⟨isCrit, isCut, crit isCrit isCut⟩)
  by_cases isLow : b.lowDue p now
  · exact .inr (.inr (.inl ⟨isLow, isCut, isCrit, low isLow isCut isCrit⟩))
  have quiet : ¬due := fun any => any.elim isCut fun any => any.elim isCrit isLow
  refine .inr (.inr (.inr ?_))
  by_cases recovers : b.recovers p = true
  · by_cases old : oldStart b.recovery 5000 now
    · exact .inl ⟨quiet, recovers, old, recovered quiet recovers old⟩
    · exact .inr (.inl ⟨quiet, recovers, old, waits quiet recovers old⟩)
  · exact .inr (.inr ⟨quiet, Bool.eq_false_iff.2 recovers, rests quiet (Bool.eq_false_iff.2 recovers)⟩)

/-- The level that recovery leads to is another. -/
theorem Btm.recovered_ne (recovers : b.recovers p = true) : b.level.recovered ≠ b.level := by
  rcases (b.recovers_iff p).1 recovers with ⟨level, -⟩ | ⟨level, -⟩ <;> rw [level] <;> decide

/-- The level changes, with what a change clears, or it stands. -/
theorem Btm.levelStep_outcome : (∃ level, level ≠ b.level ∧ b.levelStep p now = (b.testEntries p now).changeLevel level)
    ∨ ∃ recovery, b.levelStep p now = { b.testEntries p now with recovery := recovery } := by
  rcases b.levelStep_cases p now with ⟨isCut, step⟩ | ⟨isCrit, -, step⟩ | ⟨isLow, -, -, step⟩ | ⟨-, recovers, -, step⟩
    | ⟨-, -, -, step⟩ | ⟨-, -, step⟩
  · exact .inl ⟨_, Ne.symm isCut.1, step⟩
  · refine .inl ⟨_, ?_, step⟩
    rcases isCrit.1 with level | level <;> rw [level] <;> decide
  · refine .inl ⟨_, ?_, step⟩
    rw [isLow.1]
    decide
  · exact .inl ⟨_, b.recovered_ne p recovers, step⟩
  · exact .inr ⟨_, step⟩
  · exact .inr ⟨_, step⟩

/-- Nothing but the level and the starts changes. -/
theorem Btm.levelStep_frame : b.levelStep p now = { b with
    level := (b.levelStep p now).level, recovery := (b.levelStep p now).recovery
    startLow := (b.levelStep p now).startLow, startCrit := (b.levelStep p now).startCrit
    startCut := (b.levelStep p now).startCut } := by
  rcases b.levelStep_outcome p now with ⟨level, -, step⟩ | ⟨recovery, step⟩ <;> rw [step] <;> rfl

/-- The entry starts after a measurement: those of the tests, or cleared by the change of level. -/
theorem Btm.levelStep_starts : let t := b.levelStep p now
    let tested (severity threshold : Nat) (start : Option Nat) : Option Nat :=
      if b.level.severity < severity ∧ b.vc < threshold then some (start.getD now) else none
    (t.level ≠ b.level → t.recovery = none)
    ∧ t.startLow = (if t.level ≠ b.level ∧ 1 ≤ t.level.severity then none else tested 1 p.vLow b.startLow)
    ∧ t.startCrit = (if t.level ≠ b.level ∧ 2 ≤ t.level.severity then none else tested 2 p.vCrit b.startCrit)
    ∧ t.startCut = (if t.level ≠ b.level ∧ 3 ≤ t.level.severity then none else tested 3 p.vCut b.startCut) := by
  intro t tested
  have set (severity threshold : Nat) (start : Option Nat) :
      entryStart (decide (b.level.severity < severity)) (decide (b.vc < threshold)) start now = tested severity threshold start := by
    refine if_congr ?_ rfl rfl
    rw [Bool.and_eq_true, decide_eq_true_iff, decide_eq_true_iff]
  rcases b.levelStep_outcome p now with ⟨level, other, step⟩ | ⟨recovery, step⟩
  · rw [show t = _ from step, ← set, ← set, ← set]
    refine ⟨fun _ => rfl, ?_, ?_, ?_⟩
    · exact if_congr (by simp [Btm.changeLevel, other]) rfl rfl
    · exact if_congr (by simp [Btm.changeLevel, other]) rfl rfl
    · exact if_congr (by simp [Btm.changeLevel, other]) rfl rfl
  · rw [show t = _ from step, ← set, ← set, ← set]
    refine ⟨fun other => absurd rfl other, ?_, ?_, ?_⟩
    · exact (if_neg fun moved => moved.1 rfl).symm
    · exact (if_neg fun moved => moved.1 rfl).symm
    · exact (if_neg fun moved => moved.1 rfl).symm

/-- A rise in severity has its entry, and a fall its recovery. -/
theorem Btm.levelStep_moves : let t := b.levelStep p now
    (b.level.severity < t.level.severity →
      (t.level = .cutoff → b.vc < p.vCut ∧ oldStart b.startCut 500 now)
        ∧ (t.level = .critical → b.vc < p.vCrit ∧ oldStart b.startCrit 1000 now)
        ∧ (t.level = .low → b.capForce = true ∨ b.vc < p.vLow ∧ oldStart b.startLow 2000 now))
    ∧ (t.level.severity < b.level.severity → oldStart b.recovery 5000 now
        ∧ (b.level = .low ∧ t.level = .normal ∧ p.vLow + p.hysteresis ≤ b.vc ∧ b.capForce = false
          ∨ b.level = .critical ∧ t.level = .low ∧ p.vCrit + p.hysteresis ≤ b.vc)) := by
  intro t
  rcases b.levelStep_cases p now with ⟨isCut, step⟩ | ⟨isCrit, -, step⟩ | ⟨isLow, -, -, step⟩ | ⟨-, recovers, old, step⟩
    | ⟨-, -, -, step⟩ | ⟨-, -, step⟩
  · have level : t.level = .cutoff := congrArg Btm.level step
    rw [level]
    refine ⟨fun _ => ⟨fun _ => isCut.2, nofun, nofun⟩, fun falls => absurd falls ?_⟩
    cases b.level <;> decide
  · have level : t.level = .critical := congrArg Btm.level step
    rw [level]
    refine ⟨fun _ => ⟨nofun, fun _ => isCrit.2, nofun⟩, fun falls => absurd falls ?_⟩
    rcases isCrit.1 with was | was <;> rw [was] <;> decide
  · have level : t.level = .low := congrArg Btm.level step
    rw [level]
    refine ⟨fun _ => ⟨nofun, nofun, fun _ => isLow.2⟩, fun falls => absurd falls ?_⟩
    rw [isLow.1]
    decide
  · have level : t.level = b.level.recovered := congrArg Btm.level step
    rcases (b.recovers_iff p).1 recovers with ⟨was, above⟩ | ⟨was, above⟩
    · rw [level, was]
      exact ⟨fun rises => absurd rises (by decide), fun _ => ⟨old, .inl ⟨rfl, rfl, above⟩⟩⟩
    · rw [level, was]
      exact ⟨fun rises => absurd rises (by decide), fun _ => ⟨old, .inr ⟨rfl, rfl, above⟩⟩⟩
  · have level : t.level = b.level := (congrArg Btm.level step :)
    rw [level]
    exact ⟨fun rises => absurd rises (Nat.lt_irrefl _), fun falls => absurd falls (Nat.lt_irrefl _)⟩
  · have level : t.level = b.level := (congrArg Btm.level step :)
    rw [level]
    exact ⟨fun rises => absurd rises (Nat.lt_irrefl _), fun falls => absurd falls (Nat.lt_irrefl _)⟩

end Step

/-- Settles O42. -/
theorem levelMovesByEntryAndRecovery : Obligations.LevelMovesByEntryAndRecovery := by
  intro b p now _ _ t old tested cutDue critDue lowDue recovers due
  obtain ⟨cut, crit, low, recovered, waits, rests⟩ := b.levelStep_spec p now
  obtain ⟨clears, startLow, startCrit, startCut⟩ := b.levelStep_starts p now
  obtain ⟨rises, falls⟩ := b.levelStep_moves p now
  have level {after : Btm} (step : t = after) : t.level = after.level := congrArg Btm.level step
  have quietly (none : ¬due) : ¬(b.cutDue p now ∨ b.critDue p now ∨ b.lowDue p now) := none
  refine ⟨fun cutoff => ?_, clears, rises, fun isCut => level (cut isCut), fun isCrit notCut => level (crit isCrit notCut),
    fun isLow notCut notCrit => level (low isLow notCut notCrit), falls, fun none above held => ?_, fun none above fresh => ?_,
    fun none under => ?_, startLow, startCrit, startCut, b.levelStep_frame p now⟩
  · have none : ¬due := by
      rintro (isCut | isCrit | isLow)
      · exact isCut.1 cutoff
      · rcases isCrit.1 with was | was
        · exact nomatch cutoff.symm.trans was
        · exact nomatch cutoff.symm.trans was
      · exact nomatch cutoff.symm.trans isLow.1
    have under : b.recovers p = false := by rw [Btm.recovers, cutoff]
    exact (level (rests none under)).trans cutoff
  · have above' := (b.recovers_iff p).2 above
    rw [level (recovered none above' held)]
    rcases above with ⟨was, -⟩ | ⟨was, -⟩ <;> rw [was] <;> rfl
  · have step := waits none ((b.recovers_iff p).2 above) fresh
    rw [show t = _ from step]
    exact ⟨rfl, rfl⟩
  · have step := rests none (Bool.eq_false_iff.2 (mt (b.recovers_iff p).1 under))
    rw [show t = _ from step]
    exact ⟨rfl, rfl⟩

/-! ### One measurement (R131 to R145) -/

/-- The filter moves an eighth of the way, at least 1 mV, and not past the reading (R133). -/
theorem filterStep_eq (vf v : Nat) : filterStep vf v
    = if vf + 8 ≤ v then vf + (v - vf) / 8 else if vf < v then vf + 1
      else if v + 8 ≤ vf then vf - (vf - v) / 8 else if v < vf then vf - 1 else vf := by
  unfold filterStep
  dsimp only
  rcases Nat.le_total vf v with rises | falls
  · obtain ⟨d, rfl⟩ := Nat.exists_eq_add_of_le rises
    have diff : ((vf + d : Nat) : Int) - (vf : Int) = (d : Int) := by omega
    rw [diff, Int.tdiv_eq_ediv_of_nonneg (by omega)]
    by_cases zero : d = 0
    · subst zero
      simp
    · rw [Int.sign_natCast_of_ne_zero zero]
      split_ifs <;> omega
  · obtain ⟨d, rfl⟩ := Nat.exists_eq_add_of_le falls
    have diff : (v : Int) - ((v + d : Nat) : Int) = -(d : Int) := by omega
    rw [diff, Int.neg_tdiv, Int.tdiv_eq_ediv_of_nonneg (by omega), Int.sign_neg]
    by_cases zero : d = 0
    · subst zero
      simp
    · rw [Int.sign_natCast_of_ne_zero zero]
      split_ifs <;> omega

/-- The lowest of the cells. -/
theorem lowestCell_spec (v : Nat) (vs : List Nat) :
    lowestCell (v :: vs) ∈ v :: vs ∧ ∀ x ∈ v :: vs, lowestCell (v :: vs) ≤ x := by
  induction vs generalizing v with
  | nil => simp [lowestCell]
  | cons y ys ih =>
    obtain ⟨mem, least⟩ := ih (min v y)
    rw [show lowestCell (v :: y :: ys) = lowestCell (min v y :: ys) from rfl]
    obtain ⟨first, rest⟩ := List.forall_mem_cons.1 least
    refine ⟨?_, List.forall_mem_cons.2 ⟨first.trans (Nat.min_le_left _ _),
      List.forall_mem_cons.2 ⟨first.trans (Nat.min_le_right _ _), rest⟩⟩⟩
    rcases List.mem_cons.1 mem with same | later
    · rw [same]
      rcases Nat.le_total v y with le | le
      · rw [Nat.min_eq_left le]; exact List.mem_cons_self
      · rw [Nat.min_eq_right le]; exact List.mem_cons_of_mem _ List.mem_cons_self
    · exact List.mem_cons_of_mem _ (List.mem_cons_of_mem _ later)

/-- Deciding the level leaves what is not level or start. -/
theorem Btm.decideLevel_frame (b : Btm) (p : Protect) (now : Nat) : b.decideLevel p now = { b with
    level := (b.decideLevel p now).level, recovery := (b.decideLevel p now).recovery
    startLow := (b.decideLevel p now).startLow, startCrit := (b.decideLevel p now).startCrit
    startCut := (b.decideLevel p now).startCut } := by
  unfold Btm.decideLevel
  split
  · rfl
  · exact b.levelStep_frame p now

/-- While the start-up window is open, the level is seeded (R141). -/
theorem Btm.decideLevel_open (b : Btm) (p : Protect) (now : Nat) (opened : b.window ≠ none) :
    b.decideLevel p now = { b with level := seedLevel p b.level b.vc b.capForce } :=
  if_pos (Option.isSome_iff_ne_none.2 opened)

/-- The overcurrent trips where its start is old (R143). -/
theorem Btm.trips_iff (b : Btm) (p : Protect) (now current : Nat) : b.trips p now current = true
    ↔ p.iTrip < current ∧ ∃ x, b.overcurrent = some x ∧ x + 100 ≤ now := by
  unfold Btm.trips
  cases b.overcurrent <;> simp

/-- The record before the level is decided: the sensed values and the guards (R131 to R137, R143, R144). -/
def Btm.guarded (b : Btm) (p : Protect) (now : Nat) (r : Readings) : Btm :=
  (b.sense p now (clampReadings r)).guard p now (clampReadings r).current

/-- A measurement decides the level on it and forms the budget. -/
theorem Btm.measure_eq (b : Btm) (p : Protect) (now : Nat) (r : Readings) : b.measure p now r
    = { (b.guarded p now r).decideLevel p now with
        budget := some (((b.guarded p now r).decideLevel p now).levelBudget p) } := rfl

/-- Settles O41. -/
theorem measurementArithmetic : Obligations.MeasurementArithmetic := by
  refine ⟨lowestCell_spec, rfl, fun b p now r _ => ?_⟩
  intro q t n counted added trip own sensed
  let guarded := b.guarded p now r
  have frame := guarded.decideLevel_frame p now
  have cells : t.cells = guarded.cells := (congrArg Btm.cells frame :)
  have vf : t.vf = guarded.vf := (congrArg Btm.vf frame :)
  have readings : t.readings = guarded.readings := (congrArg Btm.readings frame :)
  have vc : t.vc = guarded.vc := (congrArg Btm.vc frame :)
  have charge : t.charge = guarded.charge := (congrArg Btm.charge frame :)
  have acc : t.acc = guarded.acc := (congrArg Btm.acc frame :)
  have lastMeas : t.lastMeas = guarded.lastMeas := (congrArg Btm.lastMeas frame :)
  have capForce : t.capForce = guarded.capForce := (congrArg Btm.capForce frame :)
  have overcurrent : t.overcurrent = guarded.overcurrent := (congrArg Btm.overcurrent frame :)
  have foldback : t.foldback = guarded.foldback := (congrArg Btm.foldback frame :)
  have whole : sensed = guarded := by
    simp only [sensed, cells, vf, readings, vc, charge, acc, lastMeas, capForce, overcurrent, foldback]
    rfl
  have count : b.cells.getD (cellCountOf p.cellCount q.vpack) = n := by
    unfold cellCountOf
    rw [← ite_not]
  have taken : (cellsOf q).take (b.cells.getD (cellCountOf p.cellCount q.vpack)) = counted := congrArg (cellsOf q).take count
  have trips : b.trips p now q.current = true ↔ trip := b.trips_iff p now q.current
  refine ⟨?cells, readings, lastMeas, fun first => ?seed, fun later => ?filter, ?vc, ?charge, ?acc, ?force, fun trip => ?trip,
    fun none => ?foldback, fun low => ?low, fun high none => ?high, fun opened => ⟨?window, ?seeded⟩, fun closed => ?closed,
    rfl, ?budget⟩
  case cells => rw [cells, ← count]; rfl
  case seed =>
    rw [vf, ← taken]
    exact if_pos (List.isEmpty_iff.2 first)
  case filter =>
    rw [vf, ← taken]
    refine (if_neg (mt List.isEmpty_iff.1 later)).trans (congrArg (fun f => List.zipWith f b.vf _) ?_)
    funext vf v
    exact filterStep_eq vf v
  case vc => rw [vc, vf]; rfl
  case charge => rw [charge]; rfl
  case acc => rw [acc]; rfl
  case force =>
    rw [capForce, charge]
    refine (Bool.or_eq_true_iff (x := b.capForce)).trans (or_congr_right ?_)
    rw [Btm.capacityHolds, Bool.and_eq_true, decide_eq_true_iff, decide_eq_true_iff]
    rfl
  case trip =>
    rw [overcurrent, foldback]
    exact ⟨(if_pos trip.1).trans (if_pos (trips.2 trip)), if_pos (trips.2 trip)⟩
  case foldback => rw [foldback]; exact if_neg (mt trips.1 none)
  case low => rw [overcurrent]; exact if_neg (Nat.not_lt.2 low)
  case high => rw [overcurrent]; exact (if_pos high).trans (if_neg (mt trips.1 none))
  case window =>
    rw [whole]
    have made : t = { guarded.decideLevel p now with budget := t.budget } := rfl
    rw [made, guarded.decideLevel_open p now opened]
  case seeded =>
    have level : t.level = (guarded.decideLevel p now).level := rfl
    rw [level, guarded.decideLevel_open p now opened, vc, capForce]
    rfl
  case closed =>
    have steps : guarded.decideLevel p now = guarded.levelStep p now := if_neg fun window => Option.isSome_iff_ne_none.1 window closed
    rw [whole, ← steps]
    rfl
  case budget =>
    have same : p.levelBudget t.level = own := by
      simp only [own]
      cases t.level <;> rfl
    rw [Btm.levelBudget, same]
    cases t.foldback <;> rfl

end Sys2Proof.Machine
end

section
/-! BGA: the weighted division (R149 to R155). -/

namespace Sys2Proof.Machine

/-! ### Sets of classes -/

/-- Every member of one set is a member of the other. -/
def Members.sub (l s : Members) : Prop :=
  (l.drive = true → s.drive = true) ∧ (l.winch = true → s.winch = true) ∧ (l.lights = true → s.lights = true)

/-- How many classes are in a set. -/
def Members.count (s : Members) : Nat := s.drive.toNat + s.winch.toNat + s.lights.toNat

/-- Shares of a set are those of a part with those of the rest. -/
theorem Shares.within_split (x : Shares) {l s : Members} (sub : l.sub s) :
    x.within s = (x.within l).plus (x.within (s.without l)) := by
  have field (n : Nat) {p q : Bool} (sub : p = true → q = true) :
      (if q then n else 0) = (if p then n else 0) + (if q && !p then n else 0) := by
    cases p <;> cases q <;> simp_all
  obtain ⟨drive, winch, lights⟩ := sub
  exact congr (congr (congrArg Shares.mk (field x.drive drive)) (field x.winch winch)) (field x.lights lights)

/-- A sum over a set is one over a part and one over the rest. -/
theorem Shares.total_split (x : Shares) {l s : Members} (sub : l.sub s) :
    (x.within s).total = (x.within l).total + (x.within (s.without l)).total := by
  rw [x.within_split sub, Shares.total_plus]

/-- Putting grants together is associative. -/
theorem Shares.plus_assoc (x y z : Shares) : (x.plus y).plus z = x.plus (y.plus z) := by
  simp only [Shares.plus, Nat.add_assoc]

/-- A set and what is taken away from it count together. -/
theorem Members.count_split {l s : Members} (sub : l.sub s) : s.count = l.count + (s.without l).count := by
  have field {p q : Bool} (sub : p = true → q = true) : q.toNat = p.toNat + (q && !p).toNat := by
    cases p <;> cases q <;> simp_all
  have drive := field sub.1
  have winch := field sub.2.1
  have lights := field sub.2.2
  unfold Members.count Members.without
  dsimp only
  omega

/-- A set with a member counts one at least. -/
theorem Members.count_pos {s : Members} (some : s.isEmpty = false) : 0 < s.count := by
  obtain ⟨drive, winch, lights⟩ := s
  revert some
  cases drive <;> cases winch <;> cases lights <;> decide

/-- A set that counts one at least has a member. -/
theorem Members.some_of_count {s : Members} (some : 0 < s.count) : s.drive = true ∨ s.winch = true ∨ s.lights = true := by
  obtain ⟨drive, winch, lights⟩ := s
  revert some
  cases drive <;> cases winch <;> cases lights <;> decide

/-- A set without a member. -/
theorem Members.eq_empty {s : Members} (none : s.isEmpty = true) : s = ⟨false, false, false⟩ := by
  obtain ⟨drive, winch, lights⟩ := s
  revert none
  cases drive <;> cases winch <;> cases lights <;> decide

/-- Nothing is left of a set without itself. -/
theorem Members.without_self (s : Members) : s.without s = ⟨false, false, false⟩ := by
  simp only [Members.without, Bool.and_not_self]

/-- What is taken away from the rest is in the whole, and what is in a rest is not in the part. -/
theorem Members.sub_rest {l s f : Members} (part : l.sub s) (rest : f.sub (s.without l)) : f.sub s ∧ l.sub (s.without f) := by
  have field {p q r : Bool} (part : p = true → q = true) (rest : r = true → (q && !p) = true) :
      (r = true → q = true) ∧ (p = true → (q && !r) = true) := by
    cases p <;> cases q <;> cases r <;> simp_all
  obtain ⟨drive, winch, lights⟩ := part
  obtain ⟨drive', winch', lights'⟩ := rest
  exact ⟨⟨(field drive drive').1, (field winch winch').1, (field lights lights').1⟩,
    ⟨(field drive drive').2, (field winch winch').2, (field lights lights').2⟩⟩

/-- What leaves is in the set. -/
theorem leaversOf_sub (demands shares : Shares) (s : Members) : (leaversOf demands shares s).sub s :=
  ⟨fun leaves => (Bool.and_eq_true_iff.1 leaves).1, fun leaves => (Bool.and_eq_true_iff.1 leaves).1,
    fun leaves => (Bool.and_eq_true_iff.1 leaves).1⟩

/-- Taking away twice. -/
theorem Members.without_without (s l f : Members) : (s.without l).without f = (s.without f).without l := by
  simp only [Members.without, Bool.and_right_comm]

/-! ### The rounds -/

section Rounds
variable (d w : Shares)

/-- The demands that leave a round take no more than their share of it. -/
theorem leavers_fair (a : Nat) (s : Members) :
    (d.within (leaversOf d (sharesOf a w s) s)).total * (w.within s).total
      ≤ a * (w.within (leaversOf d (sharesOf a w s) s)).total := by
  have field (demand weight total : Nat) (p : Bool) :
      (if p && decide (demand ≤ a * weight / total) then demand else 0) * total
        ≤ a * (if p && decide (demand ≤ a * weight / total) then weight else 0) := by
    split
    · next leaves =>
      have le := of_decide_eq_true (Bool.and_eq_true_iff.1 leaves).2
      exact (Nat.mul_le_mul_right _ le).trans (Nat.div_mul_le_self _ _)
    · simp
  have sum {a b c x y z t a' : Nat} (first : a * t ≤ a' * x) (second : b * t ≤ a' * y) (third : c * t ≤ a' * z) :
      (a + b + c) * t ≤ a' * (x + y + z) := by
    simp only [Nat.mul_add, Nat.add_mul]
    omega
  exact sum (field d.drive w.drive (w.within s).total s.drive) (field d.winch w.winch (w.within s).total s.winch)
    (field d.lights w.lights (w.within s).total s.lights)

/-- A round that is fair to those who stay, and a fair rest, are fair together. -/
theorem fair_trans {a taken left whole part leaves stays : Nat} (round : taken * whole ≤ a * leaves)
    (split : whole = leaves + stays) (rest : (a - taken) * part ≤ left * stays) (some : 0 < stays) :
    a * part ≤ left * whole := by
  have share : a * stays ≤ (a - taken) * whole := by
    have all : a * whole = a * leaves + a * stays := by rw [split, Nat.mul_add]
    rw [Nat.sub_mul]
    omega
  refine Nat.le_of_mul_le_mul_right ?_ some
  calc a * part * stays = a * stays * part := by ring
    _ ≤ (a - taken) * whole * part := Nat.mul_le_mul_right _ share
    _ = (a - taken) * part * whole := by ring
    _ ≤ left * stays * whole := Nat.mul_le_mul_right _ rest
    _ = left * whole * stays := by ring

/-- Where a set has demands, its weights are not all 0. -/
theorem Shares.within_pos {d w : Shares} (drive : 0 < w.drive) (winch : 0 < w.winch) (lights : 0 < w.lights) {s : Members}
    {a : Nat} (some : a < (d.within s).total) : 0 < (w.within s).total := by
  obtain ⟨inDrive, inWinch, inLights⟩ := s
  unfold Shares.total Shares.within at *
  dsimp only at *
  cases inDrive
  · cases inWinch
    · cases inLights
      · exact absurd some (Nat.not_lt_zero _)
      · exact Nat.lt_of_lt_of_le lights (Nat.le_add_left _ _)
    · exact Nat.lt_of_lt_of_le winch ((Nat.le_add_left _ _).trans (Nat.le_add_right _ _))
  · exact Nat.lt_of_lt_of_le drive ((Nat.le_add_right _ _).trans (Nat.le_add_right _ _))

/-- What the rounds give, where the demands of the set exceed A: the members of some set short of their demands share, by
their weights, what the demands of the others leave, and the others have their demands. The share of A by weight of those
who are short is no more than that of what is left (R154, R155). -/
def Settled (n a : Nat) (s f : Members) : Prop :=
  let left := a - (d.within (s.without f)).total
  let shares := sharesOf left w f
  f.sub s ∧ (d.within (s.without f)).total ≤ a
    ∧ rounds d w n a s = (d.within (s.without f)).plus (shares.within f)
    ∧ ((f.drive = true → shares.drive < d.drive) ∧ (f.winch = true → shares.winch < d.winch)
      ∧ (f.lights = true → shares.lights < d.lights))
    ∧ a * (w.within f).total ≤ left * (w.within s).total

/-- The rounds settle. -/
theorem rounds_settle (drive : 0 < w.drive) (winch : 0 < w.winch) (lights : 0 < w.lights) (n : Nat) :
    ∀ (a : Nat) (s : Members), s.count ≤ n → a < (d.within s).total → ∃ f, Settled d w n a s f := by
  induction n with
  | zero =>
    intro a s fits exceeds
    have empty : s.isEmpty = true := by
      by_contra some
      have := Members.count_pos (Bool.eq_false_iff.2 some)
      omega
    rw [Members.eq_empty empty] at exceeds
    exact absurd exceeds (Nat.not_lt_zero _)
  | succ n ih =>
    intro a s fits exceeds
    let shares := sharesOf a w s
    let l := leaversOf d shares s
    have sub : l.sub s := leaversOf_sub d shares s
    have split := d.total_split sub
    by_cases none : l.isEmpty = true
    · have ends : rounds d w (n + 1) a s = shares.within s := if_pos none
      have stays {p : Bool} {demand share : Nat} (left : (p && decide (demand ≤ share)) = false) (member : p = true) :
          share < demand := by
        rw [member, Bool.true_and, decide_eq_false_iff_not] at left
        omega
      have left : l = ⟨false, false, false⟩ := Members.eq_empty none
      have all : a - (d.within (s.without s)).total = a := by
        rw [Members.without_self]
        rfl
      refine ⟨s, ⟨id, id, id⟩, ?_, ?_, ?_, ?_⟩
      · rw [Members.without_self]
        exact Nat.zero_le a
      · rw [all, ends, Members.without_self]
        simp [Shares.plus, Shares.within, shares]
      · rw [all]
        exact ⟨stays (congrArg Members.drive left), stays (congrArg Members.winch left), stays (congrArg Members.lights left)⟩
      · rw [all]
    · have goes : rounds d w (n + 1) a s
          = (d.within l).plus (rounds d w n (a - (d.within l).total) (s.without l)) := if_neg none
      have taken : (d.within l).total ≤ a := leavers_le a d w s
      have fewer : (s.without l).count ≤ n := by
        have := Members.count_split sub
        have := Members.count_pos (Bool.eq_false_iff.2 none)
        omega
      have exceeds' : a - (d.within l).total < (d.within (s.without l)).total := by omega
      obtain ⟨f, inside, within, given, short, fair⟩ := ih (a - (d.within l).total) (s.without l) fewer exceeds'
      obtain ⟨subset, apart⟩ := Members.sub_rest sub inside
      have others := d.within_split apart
      rw [← Members.without_without] at others
      have total : (d.within (s.without f)).total
          = (d.within l).total + (d.within ((s.without l).without f)).total := by rw [others, Shares.total_plus]
      have left : a - (d.within (s.without f)).total
          = a - (d.within l).total - (d.within ((s.without l).without f)).total := by omega
      refine ⟨f, subset, by omega, ?_, ?_, ?_⟩
      · rw [left, goes, given, others, Shares.plus_assoc]
      · rw [left]
        exact short
      · rw [left]
        exact fair_trans (leavers_fair d w a s) (w.total_split sub) fair
          (Shares.within_pos drive winch lights exceeds')

end Rounds

/-! ### The division -/

/-- The classes not in a set. -/
def Members.compl (s : Members) : Members := { drive := !s.drive, winch := !s.winch, lights := !s.lights }

/-- The classes with a demand. -/
def Shares.asks (d : Shares) : Members :=
  { drive := decide (0 < d.drive), winch := decide (0 < d.winch), lights := decide (0 < d.lights) }

/-- A class that asks for nothing adds nothing. -/
theorem Shares.within_asks (d : Shares) (f : Members) : d.within (d.asks.without f) = d.within f.compl := by
  have field (n : Nat) (p : Bool) : (if decide (0 < n) && !p then n else 0) = if !p then n else 0 := by
    rcases Nat.eq_zero_or_pos n with zero | pos
    · subst zero; simp
    · simp [pos]
  have fields := congr (congr (congrArg Shares.mk (field d.drive f.drive)) (field d.winch f.winch)) (field d.lights f.lights)
  exact fields

/-- The demands of all who ask are all the demands. -/
theorem Shares.total_asks (d : Shares) : (d.within d.asks).total = d.total := by
  have field (n : Nat) : (if decide (0 < n) then n else 0) = n := by
    rcases Nat.eq_zero_or_pos n with zero | pos
    · subst zero; rfl
    · simp [pos]
  have sum := congrArg₂ Nat.add (congrArg₂ Nat.add (field d.drive) (field d.winch)) (field d.lights)
  exact sum

/-- What a division gives: the classes of some set are short of their demands and share, by their weights, what the demands of
the others leave (R154, R155). -/
theorem divideBudget_spec (a : Nat) (d w : Shares) (drive : 0 < w.drive) (winch : 0 < w.winch) (lights : 0 < w.lights) :
    ∃ f : Members,
      let left := a - (d.within f.compl).total
      let shares := sharesOf left w f
      let g := divideBudget a d w
      (g.drive = if f.drive then shares.drive else d.drive) ∧ (g.winch = if f.winch then shares.winch else d.winch)
        ∧ (g.lights = if f.lights then shares.lights else d.lights)
        ∧ (f.drive = true → shares.drive < d.drive) ∧ (f.winch = true → shares.winch < d.winch)
        ∧ (f.lights = true → shares.lights < d.lights)
        ∧ (d.within f.compl).total ≤ a ∧ a * (w.within f).total ≤ left * (w.within d.asks).total := by
  by_cases fits : d.total ≤ a
  · have whole : divideBudget a d w = d := if_pos fits
    refine ⟨⟨false, false, false⟩, ?_⟩
    rw [whole]
    exact ⟨rfl, rfl, rfl, nofun, nofun, nofun, fits, by simp [Shares.within, Shares.total]⟩
  · have parts : divideBudget a d w = rounds d w 3 a d.asks := if_neg fits
    have few : d.asks.count ≤ 3 := by
      have le (p : Bool) : p.toNat ≤ 1 := Bool.toNat_le p
      have := le d.asks.drive
      have := le d.asks.winch
      have := le d.asks.lights
      unfold Members.count
      omega
    have exceeds : a < (d.within d.asks).total := by
      rw [d.total_asks]
      omega
    obtain ⟨f, -, within, given, short, fair⟩ := rounds_settle d w drive winch lights 3 a d.asks few exceeds
    rw [d.within_asks] at within given short fair
    have field (n share : Nat) (p : Bool) : (if !p then n else 0) + (if p then share else 0) = if p then share else n := by
      cases p <;> simp
    refine ⟨f, ?_⟩
    rw [parts, given]
    exact ⟨field _ _ _, field _ _ _, field _ _ _, short.1, short.2.1, short.2.2, within, fair⟩

/-- Floored shares of those who share leave at most one less than there are of them (R154). -/
theorem sharesOf_leave (a : Nat) (w : Shares) {f : Members} (some : 0 < f.count) (pos : 0 < (w.within f).total) :
    a + 1 ≤ ((sharesOf a w f).within f).total + f.count := by
  have field (weight whole : Nat) (p : Bool) (pos : 0 < whole) : a * (if p then weight else 0) + p.toNat
      ≤ ((if p then a * weight / whole else 0) + p.toNat) * whole := by
    cases p
    · simp
    · have := Nat.lt_mul_div_succ (a * weight) pos
      simp only [if_true, Bool.toNat_true]
      rw [Nat.mul_comm _ whole]
      omega
  have drive := field w.drive (w.within f).total f.drive pos
  have winch := field w.winch (w.within f).total f.winch pos
  have lights := field w.lights (w.within f).total f.lights pos
  have sum : a * (w.within f).total + f.count ≤ (((sharesOf a w f).within f).total + f.count) * (w.within f).total := by
    have add {x y z p q r X Y Z W : Nat} (first : a * x + p ≤ (X + p) * W) (second : a * y + q ≤ (Y + q) * W)
        (third : a * z + r ≤ (Z + r) * W) : a * (x + y + z) + (p + q + r) ≤ (X + Y + Z + (p + q + r)) * W := by
      simp only [Nat.mul_add, Nat.add_mul] at *
      omega
    exact add drive winch lights
  by_contra less
  have le : ((sharesOf a w f).within f).total + f.count ≤ a := by omega
  have := Nat.mul_le_mul_right (w.within f).total le
  omega

/-- A fair rest gives no less by weight. -/
theorem fair_share {a left part whole weight : Nat} (fair : a * part ≤ left * whole) (some : 0 < part) :
    a * weight / whole ≤ left * weight / part := by
  rcases Nat.eq_zero_or_pos whole with zero | pos
  · rw [zero, Nat.div_zero]
    exact Nat.zero_le _
  · rw [Nat.le_div_iff_mul_le some]
    refine Nat.le_of_mul_le_mul_right ?_ pos
    calc a * weight / whole * part * whole = a * weight / whole * whole * part := by ring
      _ ≤ a * weight * part := Nat.mul_le_mul_right _ (Nat.div_mul_le_self _ _)
      _ = a * part * weight := by ring
      _ ≤ left * whole * weight := Nat.mul_le_mul_right _ fair
      _ = left * weight * whole := by ring

/-- A member's number is at most the total. -/
theorem Shares.le_total (x : Shares) (s : Members) : (s.drive = true → x.drive ≤ (x.within s).total)
    ∧ (s.winch = true → x.winch ≤ (x.within s).total) ∧ (s.lights = true → x.lights ≤ (x.within s).total) := by
  unfold Shares.total Shares.within
  refine ⟨fun member => ?_, fun member => ?_, fun member => ?_⟩
  · rw [if_pos member]; dsimp only; omega
  · rw [if_pos member]; dsimp only; omega
  · rw [if_pos member]; dsimp only; omega

/-- The classes that a division leaves short. -/
def shortOf (d g : Shares) : Members :=
  { drive := decide (g.drive < d.drive), winch := decide (g.winch < d.winch), lights := decide (g.lights < d.lights) }

/-- A division by the classes that it leaves short. -/
theorem divideBudget_short (a : Nat) (d w : Shares) (drive : 0 < w.drive) (winch : 0 < w.winch) (lights : 0 < w.lights) :
    let g := divideBudget a d w
    let f := shortOf d g
    let left := a - (d.within f.compl).total
    g = (d.within f.compl).plus ((sharesOf left w f).within f) ∧ (g.drive ≤ d.drive ∧ g.winch ≤ d.winch ∧ g.lights ≤ d.lights)
      ∧ (d.within f.compl).total ≤ a ∧ a * (w.within f).total ≤ left * (w.within d.asks).total := by
  intro g
  obtain ⟨f, gDrive, gWinch, gLights, shortDrive, shortWinch, shortLights, within, fair⟩ :=
    divideBudget_spec a d w drive winch lights
  have field {p : Bool} {g n share : Nat} (given : g = if p then share else n) (short : p = true → share < n) :
      decide (g < n) = p ∧ g ≤ n ∧ g = (if !p then n else 0) + (if p then share else 0) := by
    cases p
    · simp [given]
    · have := short rfl
      simp only [if_true] at given
      simp [given, this, this.le]
  obtain ⟨isDrive, leDrive, sumDrive⟩ := field gDrive shortDrive
  obtain ⟨isWinch, leWinch, sumWinch⟩ := field gWinch shortWinch
  obtain ⟨isLights, leLights, sumLights⟩ := field gLights shortLights
  have same : shortOf d g = f := congr (congr (congrArg Members.mk isDrive) isWinch) isLights
  rw [same]
  have fields := congr (congr (congrArg Shares.mk sumDrive) sumWinch) sumLights
  exact ⟨fields, ⟨leDrive, leWinch, leLights⟩, within, fair⟩

/-- Settles O43. -/
theorem divisionSharesTheBudget : Obligations.DivisionSharesTheBudget := by
  refine ⟨fun c b level => ?division, fun i s t ran other => ?step, fun a d w s => ?round, fun a d w drive winch lights => ?shares⟩
  case division => exact ⟨rfl, c.bok_division b level, rfl, rfl, fun before => rfl⟩
  case step =>
    have zero (kind : ResetKind) : (s.chip.resetTo kind).bga = { budget := 0, steer := 0, drive := 0, winch := 0, lights := 0 } := rfl
    have same {d : Chip} (kept : d.bga = s.chip.bga) :
        d.bga = s.chip.bga ∨ d.bga = { budget := 0, steer := 0, drive := 0, winch := 0, lights := 0 } := .inl kept
    have taken : step { pending := i :: s.pending, chip := s.chip } = .next t := ran
    exact step_cases
      (P := fun d => d.bga = s.chip.bga ∨ d.bga = { budget := 0, steer := 0, drive := 0, winch := 0, lights := 0 }) taken
      (same rfl) (tick := same rfl)
      (handOn := fun _ _ _ => same (by simp)) (clearHunt := fun _ => same rfl)
      (control := fun _ _ _ => same (by simp)) (setupFrame := fun _ _ => same (by simp))
      (setup := fun _ _ => same (by simp)) (hold := fun _ _ _ _ => same (by simp))
      (failsafe := fun _ _ _ _ => same (by simp)) (refresh := fun _ _ _ _ => same (by simp))
      (arm := fun _ _ => same (by simp)) (reversal := fun _ _ _ => same (by simp))
      (pulse := fun _ _ _ => same rfl) (pulseEnd := fun _ => same rfl) (spool := fun _ _ => same (by simp))
      (timebase := fun _ _ => same (by simp)) (brakeHold := fun _ _ => same (by simp))
      (measurement := fun _ r order first _ => absurd (Option.some.inj first) (other r order))
      (window := fun _ _ => same rfl) (foldback := fun _ _ => same rfl) (dormant := fun _ _ => same (by simp))
      (park := fun _ _ => same (by simp))
      (returnSent := fun _ => by
        unfold Chip.returnSent
        split
        · exact .inr (zero .warm)
        · split
          · exact same (by simp)
          · exact same rfl)
      (accessorySent := fun _ => same rfl) (storeDone := fun _ _ _ => same rfl) (switches := fun _ _ _ => same (by simp))
      (cold := .inr (zero .cold)) (warm := .inr (zero .warm)) (release := fun _ _ => same rfl)
  case round =>
    have leaves {p : Bool} {demand share : Nat} (goes : (p && decide (demand ≤ share)) = true) : demand ≤ share :=
      of_decide_eq_true (Bool.and_eq_true_iff.1 goes).2
    have field (p : Bool) (demand share : Nat) :
        (if p && decide (demand ≤ share) then demand else 0) ≤ if p then share else 0 := by
      split
      · next goes => rw [if_pos (Bool.and_eq_true_iff.1 goes).1]; exact leaves goes
      · exact Nat.zero_le _
    exact ⟨shares_total_le a w s, Nat.add_le_add (Nat.add_le_add (field _ _ _) (field _ _ _)) (field _ _ _),
      leaves, leaves, leaves⟩
  case shares =>
    intro g whole
    obtain ⟨given, ⟨leDrive, leWinch, leLights⟩, within, fair⟩ := divideBudget_short a d w drive winch lights
    have asks : (w.within d.asks).total = whole := by
      simp [Shares.within, Shares.total, Shares.asks, whole]
    rw [asks] at fair
    have shareOf {p : Bool} {n share g : Nat} (sum : g = (if !p then n else 0) + (if p then share else 0)) (short : p = true) :
        g = share := by
      rw [short] at sum
      simpa using sum
    have isDrive (short : g.drive < d.drive) : g.drive = _ := shareOf (congrArg Shares.drive given) (decide_eq_true short)
    have isWinch (short : g.winch < d.winch) : g.winch = _ := shareOf (congrArg Shares.winch given) (decide_eq_true short)
    have isLights (short : g.lights < d.lights) : g.lights = _ := shareOf (congrArg Shares.lights given) (decide_eq_true short)
    obtain ⟨someDrive, someWinch, someLights⟩ := w.le_total (shortOf d g)
    have someDrive' (short : g.drive < d.drive) := Nat.lt_of_lt_of_le drive (someDrive (decide_eq_true short))
    have someWinch' (short : g.winch < d.winch) := Nat.lt_of_lt_of_le winch (someWinch (decide_eq_true short))
    have someLights' (short : g.lights < d.lights) := Nat.lt_of_lt_of_le lights (someLights (decide_eq_true short))
    refine ⟨fun fits => if_pos fits, divideBudget_le a d w, leDrive, leWinch, leLights, fun short => ?_, fun short => ?_,
      fun short => ?_, fun zero => ?_, fun zero => ?_, fun zero => ?_, ?_⟩
    · rw [isDrive short]
      exact fair_share fair (someDrive' short)
    · rw [isWinch short]
      exact fair_share fair (someWinch' short)
    · rw [isLights short]
      exact fair_share fair (someLights' short)
    · exact Nat.le_zero.1 (leDrive.trans zero.le)
    · exact Nat.le_zero.1 (leWinch.trans zero.le)
    · exact Nat.le_zero.1 (leLights.trans zero.le)
    · intro short met left sum classes
      have counts (g n x : Nat) : (if decide (g < n) then x else 0) = short g n x := if_congr decide_eq_true_iff rfl rfl
      have meets (g n : Nat) : (if !decide (g < n) then n else 0) = met g n := by
        by_cases less : g < n
        · simp [met, less]
        · simp [met, less]
      have ones (g n : Nat) : (decide (g < n)).toNat = short g n 1 := by
        by_cases less : g < n
        · simp [short, less]
        · simp [short, less]
      have add {x y z p q r : Nat} (first : x = p) (second : y = q) (third : z = r) : x + y + z = p + q + r := by
        rw [first, second, third]
      have left_eq : a - (d.within (shortOf d g).compl).total = left :=
        congrArg (a - ·) (add (meets _ _) (meets _ _) (meets _ _))
      have sum_eq : (w.within (shortOf d g)).total = sum := add (counts _ _ _) (counts _ _ _) (counts _ _ _)
      have count_eq : (shortOf d g).count = classes := add (ones _ _) (ones _ _) (ones _ _)
      rw [← left_eq, ← sum_eq, ← count_eq]
      refine ⟨isDrive, isWinch, isLights, fun some => ?_⟩
      have pos : 0 < (w.within (shortOf d g)).total := by
        rcases Members.some_of_count some with member | member | member
        · exact Nat.lt_of_lt_of_le drive (someDrive member)
        · exact Nat.lt_of_lt_of_le winch (someWinch member)
        · exact Nat.lt_of_lt_of_le lights (someLights member)
      have leave := sharesOf_leave (a - (d.within (shortOf d g).compl).total) w some pos
      have total : g.total = (d.within (shortOf d g).compl).total
          + ((sharesOf (a - (d.within (shortOf d g).compl).total) w (shortOf d g)).within (shortOf d g)).total :=
        (congrArg Shares.total given).trans (Shares.total_plus _ _)
      change a + 1 ≤ g.total + _
      rw [total]
      change (d.within (shortOf d g).compl).total ≤ a at within
      omega

end Sys2Proof.Machine
end

section
/-! The evaluation completion as a whole: what each block has after it, whatever the order (R66, R84, R85, R104, R131, R139,
R142, R149, R157, R198). -/

namespace Sys2Proof.Machine

section Evaluation
variable {c : Chip} {b : Level} {tr : Bool} {order : List EvalTaker}

/-- One block takes its turn once: what stands before it, what its turn makes of it, and what stands after it. -/
theorem Chip.evaluate_around {P Q : Chip → Prop} (x : EvalTaker)
    (before : ∀ e y, y ≠ x → EvaluationFrame c e → Q e → Q (e.takeEvaluation b tr order y))
    (turn : ∀ e, EvaluationFrame c e → Q e → P (e.takeEvaluation b tr order x))
    (after : ∀ e y, y ≠ x → EvaluationFrame c e → P e → P (e.takeEvaluation b tr order y)) (start : Q c) :
    P (c.evaluate b tr order) := by
  have whole := foldl_around (f := Chip.takeEvaluation b tr order) (P := fun e => EvaluationFrame c e ∧ P e)
    (Q := fun e => EvaluationFrame c e ∧ Q e) (mem_evalTakers x order) (nodup_evalTakers order)
    (fun e y _ other h => ⟨h.1.take b tr order y, before e y other h.1 h.2⟩)
    (fun e h => ⟨h.1.take b tr order x, turn e h.1 h.2⟩)
    (fun e y _ other h => ⟨h.1.take b tr order y, after e y other h.1 h.2⟩) (c := c)
    ⟨⟨rfl, rfl, rfl, rfl, rfl, rfl, rfl, rfl, rfl, rfl, rfl, rfl, rfl, rfl⟩, start⟩
  exact whole.2

/-- MDC's cutoff timer after it (R198). -/
theorem Chip.evaluate_mdc : (c.evaluate b tr order).mdc = { c.mdc with
    cutoffTimer := if b ≠ .cutoff ∧ c.btm.level = .cutoff then some (c.now + 200) else c.mdc.cutoffTimer } := by
  refine Chip.evaluate_around .mdc (Q := fun e => e.mdc = c.mdc) (P := fun e => e.mdc = { c.mdc with
      cutoffTimer := if b ≠ .cutoff ∧ c.btm.level = .cutoff then some (c.now + 200) else c.mdc.cutoffTimer })
    (fun e y other _ same => ?_) (fun e frame same => ?_) (fun e y other _ same => ?_) rfl
  · rw [Chip.takeEvaluation_mdc_other e b tr order y other, same]
  · have enters : (decide (e.btm.level ≠ b) && decide (e.btm.level = .cutoff)) = true ↔ b ≠ .cutoff ∧ c.btm.level = .cutoff := by
      rw [Bool.and_eq_true, decide_eq_true_iff, decide_eq_true_iff, frame.btm]
      exact ⟨fun ⟨changed, cut⟩ => ⟨fun was => changed (cut.trans was.symm), cut⟩,
        fun ⟨other, cut⟩ => ⟨fun same => other (same.symm.trans cut), cut⟩⟩
    have turn : (e.takeEvaluation b tr order .mdc).mdc = { e.mdc with cutoffTimer :=
        if (decide (e.btm.level ≠ b) && decide (e.btm.level = .cutoff)) = true then some (e.now + 200) else e.mdc.cutoffTimer } := rfl
    rw [turn, same, frame.now, if_congr enters rfl rfl]
  · rw [Chip.takeEvaluation_mdc_other e b tr order y other, same]

/-- Some of its turns leave what the whole leaves. -/
theorem Chip.evaluation_frame (c : Chip) (b : Level) (tr : Bool) (order l : List EvalTaker) :
    EvaluationFrame c (l.foldl (Chip.takeEvaluation b tr order) c) :=
  foldl_induct (P := fun e => EvaluationFrame c e) (fun _ y h => h.take b tr order y) _ _
    ⟨rfl, rfl, rfl, rfl, rfl, rfl, rfl, rfl, rfl, rfl, rfl, rfl, rfl, rfl⟩

/-- BGA's division: on the part as it stands at BGA's turn (R149, R157). -/
theorem Chip.evaluate_bga (c : Chip) (b : Level) (tr : Bool) (order : List EvalTaker) :
    ∃ before after, evalTakers order = before ++ .bga :: after ∧ EvalTaker.bga ∉ before
      ∧ (c.evaluate b tr order).bga
        = (before.foldl (Chip.takeEvaluation b tr order) c).division (c.btm.budget.getD 0) c.btm.level := by
  obtain ⟨before, after, split⟩ := List.append_of_mem (mem_evalTakers .bga order)
  have nodup := nodup_evalTakers order
  rw [split] at nodup
  have later : EvalTaker.bga ∉ after := (List.nodup_cons.1 (List.nodup_append.1 nodup).2.1).1
  have earlier : EvalTaker.bga ∉ before := fun mem => (List.nodup_append.1 nodup).2.2 _ mem _ List.mem_cons_self rfl
  refine ⟨before, after, split, earlier, ?_⟩
  have frame := c.evaluation_frame b tr order before
  rw [Chip.evaluate, split, List.foldl_append, List.foldl_cons]
  refine List.foldlRecOn after _ (motive := fun e : Chip => e.bga = _) ?_ fun e same y mem => ?_
  · change Chip.bga (Chip.grantEvent _ _) = _
    rw [Chip.grantEvent_bga, frame.btm]
  · rw [Chip.takeEvaluation_bga_other e b tr order y (fun isBga => later (isBga ▸ mem)), same]

/-- A block other than BGA leaves the grants and BGA's record. -/
theorem Chip.takeEvaluation_keepsGrants {e : Chip} {y : EvalTaker} (other : y ≠ .bga) :
    (e.takeEvaluation b tr order y).heldGrants = e.heldGrants ∧ (e.takeEvaluation b tr order y).bga = e.bga :=
  ⟨Chip.takeEvaluation_grants e b tr order y other, Chip.takeEvaluation_bga_other e b tr order y other⟩

/-- Each consumer holds its grant (R157). -/
theorem Chip.evaluate_grants :
    (c.mdc.mode = .active → (c.evaluate b tr order).drm.grant = (c.evaluate b tr order).bga.drive)
      ∧ (c.evaluate b tr order).wnc.grant = (c.evaluate b tr order).bga.winch
      ∧ (c.evaluate b tr order).lsq.grant = (c.evaluate b tr order).bga.lights := by
  refine Chip.evaluate_around .bga (Q := fun _ => True)
    (P := fun e => (c.mdc.mode = .active → e.drm.grant = e.bga.drive) ∧ e.wnc.grant = e.bga.winch ∧ e.lsq.grant = e.bga.lights)
    (fun _ _ _ _ _ => trivial) (fun e frame _ => ?_) (fun e y other _ held => ?_) trivial
  · let divided : Chip := { e with bga := e.division (e.btm.budget.getD 0) e.btm.level }
    change (_ → (divided.grantEvent order).drm.grant = _) ∧ (divided.grantEvent order).wnc.grant = _
      ∧ (divided.grantEvent order).lsq.grant = _
    have same : (divided.grantEvent order).bga = divided.bga := Chip.grantEvent_bga _ _
    have taken : e.takeEvaluation b tr order .bga = divided.grantEvent order := rfl
    rw [taken, same]
    refine ⟨fun active => Chip.grantEvent_drive divided order ?_, Chip.grantEvent_winch divided order,
      Chip.grantEvent_lights divided order⟩
    rw [show divided.mdc = e.mdc from rfl, frame.mdc]
    exact active
  · obtain ⟨grants, bga⟩ := Chip.takeEvaluation_keepsGrants (b := b) (tr := tr) (order := order) (e := e) other
    obtain ⟨drive, rest⟩ := Prod.mk.inj grants
    obtain ⟨winch, lights⟩ := Prod.mk.inj rest
    rw [drive, winch, lights, bga]
    exact held

/-- Latches and causes but those of WINCH_STALL stand in the turn of a block other than ALT. -/
theorem Chip.takeEvaluation_alerts {e : Chip} {y : EvalTaker} (other : y ≠ .alt) {a : Alert} (kept : a ≠ .winchStall) :
    (e.takeEvaluation b tr order y).alt.caused a = e.alt.caused a
      ∧ (e.takeEvaluation b tr order y).alt.has a = e.alt.has a := by
  have setWinch (d : Chip) (w : Winch) : (d.setWinch w).alt.has a = d.alt.has a := by
    rw [Chip.setWinch_alt, Alt.has_cause, decide_eq_false (Ne.symm kept), Bool.and_false, Bool.or_false]
  refine ⟨Chip.takeEvaluation_caused e b tr order y other a kept, ?_⟩
  cases y with
  | alt => exact absurd rfl other
  | drm => exact congrArg (fun t : Alt => t.has a) (Chip.recapIf_alt _ _)
  | wnc =>
    dsimp only [Chip.takeEvaluation]
    split
    · exact setWinch _ _
    · rfl
  | lsq | mdc => rfl
  | bga =>
    refine foldl_induct (P := fun d => d.alt.has a = e.alt.has a) (fun d x same => ?_) _ _ rfl
    cases x with
    | alt | drm | lsq | mdc | bga => exact same
    | wnc => exact (setWinch _ _).trans same

/-- Latches and causes after it (R142, R143). -/
theorem Chip.evaluate_alerts {a : Alert} (kept : a ≠ .winchStall) :
    (c.evaluate b tr order).alt.caused a = (c.alt.battery c.btm.level c.btm.capForce tr).caused a
      ∧ (c.evaluate b tr order).alt.has a = (c.alt.battery c.btm.level c.btm.capForce tr).has a := by
  refine Chip.evaluate_around .alt (Q := fun e => e.alt.caused a = c.alt.caused a ∧ e.alt.has a = c.alt.has a)
    (P := fun e => e.alt.caused a = (c.alt.battery c.btm.level c.btm.capForce tr).caused a
      ∧ e.alt.has a = (c.alt.battery c.btm.level c.btm.capForce tr).has a)
    (fun e y other _ same => ?_) (fun e frame same => ?_) (fun e y other _ same => ?_) ⟨rfl, rfl⟩
  · obtain ⟨caused, has⟩ := Chip.takeEvaluation_alerts (b := b) (tr := tr) (order := order) (e := e) other kept
    exact ⟨caused.trans same.1, has.trans same.2⟩
  · have turn : (e.takeEvaluation b tr order .alt).alt = e.alt.battery c.btm.level c.btm.capForce tr := by
      rw [← frame.btm]
      exact Chip.alert_alt e fun t => t.battery e.btm.level e.btm.capForce tr
    rw [turn]
    refine ⟨?_, ?_⟩
    · rw [Bool.eq_iff_iff, Alt.caused_battery, Alt.caused_battery, same.1]
    · rw [Bool.eq_iff_iff, Alt.has_battery, Alt.has_battery, same.2]
  · obtain ⟨caused, has⟩ := Chip.takeEvaluation_alerts (b := b) (tr := tr) (order := order) (e := e) other kept
    exact ⟨caused.trans same.1, has.trans same.2⟩

/-- A block other than WNC and BGA leaves WNC's record. -/
theorem Chip.takeEvaluation_wnc_other {e : Chip} {y : EvalTaker} (wnc : y ≠ .wnc) (bga : y ≠ .bga) :
    (e.takeEvaluation b tr order y).wnc = e.wnc := by
  cases y with
  | alt => rfl
  | drm => exact Chip.recapIf_wnc _ _
  | lsq | mdc => rfl
  | wnc => exact absurd rfl wnc
  | bga => exact absurd rfl bga

/-- WNC's record after BGA's turn: that of the grant event (R98 to R104). -/
theorem Chip.takeEvaluation_wnc_bga (e : Chip) : (e.takeEvaluation b tr order .bga).wnc
    = (e.wnc.takeGrant e.tables.winchCfg (e.takeEvaluation b tr order .bga).bga.winch e.btm.level e.boostDisable).settle
        e.tables.winchCfg := by
  have bga : (e.takeEvaluation b tr order .bga).bga = e.division (e.btm.budget.getD 0) e.btm.level := Chip.grantEvent_bga _ _
  rw [bga]
  exact Chip.grantEvent_wnc { e with bga := e.division (e.btm.budget.getD 0) e.btm.level } order

/-- Without a change of level, mixer and winch stand until BGA's turn. -/
theorem Chip.evaluation_same (same : c.btm.level = b) {l : List EvalTaker} (without : EvalTaker.bga ∉ l) :
    (l.foldl (Chip.takeEvaluation b tr order) c).drm = c.drm ∧ (l.foldl (Chip.takeEvaluation b tr order) c).wnc = c.wnc := by
  refine (List.foldlRecOn l _ (motive := fun e : Chip => e.btm = c.btm ∧ e.drm = c.drm ∧ e.wnc = c.wnc) ⟨rfl, rfl, rfl⟩
    fun e h y mem => ?_).2
  obtain ⟨btm, drm, wnc⟩ := h
  have level : decide (e.btm.level ≠ b) = false := decide_eq_false (not_not.2 (by rw [btm]; exact same))
  refine ⟨(Chip.takeEvaluation_btm b tr order e y).trans btm, ?_⟩
  dsimp only [Chip.takeEvaluation]
  rw [level]
  cases y with
  | alt | drm | wnc | lsq | mdc => exact ⟨drm, wnc⟩
  | bga => exact absurd mem without

/-- Without a change of level, WNC's record is that of the grant event (R157). -/
theorem Chip.evaluate_wnc_same (same : c.btm.level = b) : (c.evaluate b tr order).wnc
    = (c.wnc.takeGrant c.tables.winchCfg (c.evaluate b tr order).bga.winch c.btm.level c.boostDisable).settle
        c.tables.winchCfg := by
  have stays (e : Chip) (frame : EvaluationFrame c e) : e.takeEvaluation b tr order .wnc = e := by
    have level : decide (e.btm.level ≠ b) = false := decide_eq_false (not_not.2 (by rw [frame.btm]; exact same))
    dsimp only [Chip.takeEvaluation]
    rw [level]
    rfl
  refine Chip.evaluate_around .bga (Q := fun e => e.wnc = c.wnc)
    (P := fun e => e.wnc = (c.wnc.takeGrant c.tables.winchCfg e.bga.winch c.btm.level c.boostDisable).settle c.tables.winchCfg)
    (fun e y other frame kept => ?_) (fun e frame kept => ?_) (fun e y other frame granted => ?_) rfl
  · by_cases wnc : y = .wnc
    · rw [wnc, stays e frame, kept]
    · rw [Chip.takeEvaluation_wnc_other wnc other, kept]
  · have disabled : e.boostDisable = c.boostDisable := by
      unfold Chip.boostDisable Chip.switchBit
      rw [frame.sup]
    rw [Chip.takeEvaluation_wnc_bga, kept, frame.tables, frame.btm, disabled]
  · rw [Chip.takeEvaluation_bga_other e b tr order y other]
    by_cases wnc : y = .wnc
    · rw [wnc, stays e frame, granted]
    · rw [Chip.takeEvaluation_wnc_other wnc other, granted]

/-- A change of level, at WNC's turn (R84, R85, R104). -/
theorem Chip.takeEvaluation_wnc_changed (changed : c.btm.level ≠ b) {e : Chip} (frame : EvaluationFrame c e) :
    (e.takeEvaluation b tr order .wnc).wnc = Winch.settle
      { e.wnc.lockTest e.winchLockCause with boost := e.wnc.boost && decide (c.btm.level = .normal) } c.tables.winchCfg := by
  have acts : e.takeEvaluation b tr order .wnc = e.winchLevelChange := if_pos (decide_eq_true (by rw [frame.btm]; exact changed))
  rw [acts, Chip.winchLevelChange, Chip.setWinch_wnc, frame.btm, frame.tables]

/-- What a change of level leaves of WNC's record, for a property that WNC's turn brings about and a grant event keeps. -/
theorem Chip.evaluate_wnc_changed {P Q : Winch → Prop} (changed : c.btm.level ≠ b)
    (before : ∀ (w : Winch) g, Q w → Q ((w.takeGrant c.tables.winchCfg g c.btm.level c.boostDisable).settle c.tables.winchCfg))
    (turn : ∀ e, EvaluationFrame c e → Q e.wnc → P (Winch.settle
      { e.wnc.lockTest e.winchLockCause with boost := e.wnc.boost && decide (c.btm.level = .normal) } c.tables.winchCfg))
    (after : ∀ (w : Winch) g, P w → P ((w.takeGrant c.tables.winchCfg g c.btm.level c.boostDisable).settle c.tables.winchCfg))
    (start : Q c.wnc) : P (c.evaluate b tr order).wnc := by
  have granted {R : Winch → Prop} (keeps : ∀ (w : Winch) g, R w
      → R ((w.takeGrant c.tables.winchCfg g c.btm.level c.boostDisable).settle c.tables.winchCfg)) (e : Chip) (y : EvalTaker)
      (other : y ≠ .wnc) (frame : EvaluationFrame c e) (holds : R e.wnc) : R (e.takeEvaluation b tr order y).wnc := by
    by_cases bga : y = .bga
    · have disabled : e.boostDisable = c.boostDisable := by
        unfold Chip.boostDisable Chip.switchBit
        rw [frame.sup]
      rw [bga, Chip.takeEvaluation_wnc_bga, frame.tables, frame.btm, disabled]
      exact keeps _ _ holds
    · rw [Chip.takeEvaluation_wnc_other other bga]
      exact holds
  refine Chip.evaluate_around .wnc (Q := fun e => Q e.wnc) (P := fun e => P e.wnc) (granted before) (fun e frame holds => ?_)
    (granted after) start
  rw [Chip.takeEvaluation_wnc_changed changed frame]
  exact turn e frame holds

/-- At CRITICAL and CUTOFF the winch is LOCKED (R84). -/
theorem Chip.evaluate_locks (changed : c.btm.level ≠ b) (severe : c.btm.level = .critical ∨ c.btm.level = .cutoff) :
    (c.evaluate b tr order).wnc.state = .locked := by
  refine Chip.evaluate_wnc_changed (Q := fun _ => True) (P := fun w => w.state = .locked) changed (fun _ _ _ => trivial)
    (fun e frame _ => ?_) (fun w g locked => ?_) trivial
  · have cause : e.winchLockCause = true := by
      rw [Chip.winchLockCause_iff, frame.btm]
      tauto
    rw [cause]
    exact e.wnc.toLocked_state
  · have still : w.state.driven = false := by rw [locked]; rfl
    exact (Winch.takeGrant_still still _ g _ _).1.trans locked

/-- Away from NORMAL boost has ended (R104). -/
theorem Chip.evaluate_unboosts (changed : c.btm.level ≠ b) (away : c.btm.level ≠ .normal) :
    (c.evaluate b tr order).wnc.boost = false := by
  refine Chip.evaluate_wnc_changed (Q := fun _ => True) (P := fun w => w.boost = false) changed (fun _ _ _ => trivial)
    (fun e frame _ => ?_) (fun w g dark => ?_) trivial
  · rw [decide_eq_false away, Bool.and_false]
    rfl
  · have granted := Winch.takeGrant_boost dark c.tables.winchCfg g c.btm.level away c.boostDisable
    change (_ && _) = false
    rw [granted, Bool.false_and]

/-- A LOCKED winch without a cause left enters IDLE (R85). -/
theorem Chip.evaluate_releases (changed : c.btm.level ≠ b) (locked : c.wnc.state = .locked) (free : c.winchLockCause = false) :
    (c.evaluate b tr order).wnc.state = .idle ∧ (c.evaluate b tr order).wnc.run = none
      ∧ (c.evaluate b tr order).wnc.requested = 0 ∧ (c.evaluate b tr order).wnc.creep = 0
      ∧ (c.evaluate b tr order).wnc.creepReported = false ∧ (c.evaluate b tr order).wnc.holdOff = c.wnc.holdOff := by
  refine Chip.evaluate_wnc_changed (Q := fun w => w.state = .locked ∧ w.holdOff = c.wnc.holdOff)
    (P := fun w => w.state = .idle ∧ w.run = none ∧ w.requested = 0 ∧ w.creep = 0 ∧ w.creepReported = false
      ∧ w.holdOff = c.wnc.holdOff) changed (fun w g held => ?_) (fun e frame held => ?_) (fun w g idle => ?_) ⟨locked, rfl⟩
  · have still : w.state.driven = false := by rw [held.1]; rfl
    obtain ⟨state, -, -, -, -, holdOff⟩ := Winch.takeGrant_still still c.tables.winchCfg g c.btm.level c.boostDisable
    exact ⟨state.trans held.1, holdOff.trans held.2⟩
  · have unlocked : e.winchLockCause = false := by
      have mode : e.mdc.mode = c.mdc.mode := by rw [frame.mdc]
      have bench : e.mdc.bench = c.mdc.bench := by rw [frame.mdc]
      rw [← free]
      unfold Chip.winchLockCause Chip.winchInhibit Chip.switchBit
      rw [frame.btm, frame.ulr, frame.sup, mode, bench]
    have idle : e.wnc.lockTest false = e.wnc.toIdle := if_pos held.1
    rw [unlocked, idle]
    exact ⟨rfl, rfl, rfl, rfl, rfl, held.2⟩
  · have still : w.state.driven = false := by rw [idle.1]; rfl
    obtain ⟨state, run, requested, creep, reported, holdOff⟩ :=
      Winch.takeGrant_still still c.tables.winchCfg g c.btm.level c.boostDisable
    obtain ⟨idle, none, zero, still, quiet, off⟩ := idle
    exact ⟨state.trans idle, run.trans none, requested.trans zero, creep.trans still, reported.trans quiet, holdOff.trans off⟩

/-- The request as r, capped as the caps stand. -/
def Chip.CappedAt (e : Chip) (r : Int) : Prop :=
  e.mdc.mode = .active ∧ e.drm.request = r ∧ e.drm.axleRequest = capRequest e.driveCap r

/-- What leaves mode, mixer, winch, tables and supply leaves the caps. -/
theorem Chip.CappedAt.congr {d e : Chip} {r : Int} (capped : e.CappedAt r) (mdc : d.mdc.mode = e.mdc.mode)
    (request : d.drm.request = e.drm.request) (axleRequest : d.drm.axleRequest = e.drm.axleRequest) (wnc : d.wnc = e.wnc)
    (tables : d.tables = e.tables) (btm : d.btm = e.btm) : d.CappedAt r := by
  obtain ⟨active, requested, cap⟩ := capped
  exact ⟨mdc.trans active, request.trans requested, by rw [axleRequest, cap, Chip.driveCap_congr wnc tables btm]⟩

/-- A new winch record keeps the caps applied (R66). -/
theorem Chip.CappedAt.setWinch {e : Chip} {r : Int} (capped : e.CappedAt r) (w : Winch) : (e.setWinch w).CappedAt r := by
  obtain ⟨active, requested, cap⟩ := capped
  exact ⟨by rw [Chip.setWinch_mdc]; exact active, Chip.setWinch_cap e w active r requested cap⟩

/-- DRM's rescaling leaves the requests (R74). -/
theorem Chip.takeDriveGrant_requests (e : Chip) (g : Nat) : (e.takeDriveGrant g).drm.request = e.drm.request
    ∧ (e.takeDriveGrant g).drm.axleRequest = e.drm.axleRequest := by
  unfold Chip.takeDriveGrant
  dsimp only
  split <;> exact ⟨rfl, rfl⟩

/-- A consumer that takes its grant keeps the caps applied. -/
theorem Chip.CappedAt.takeGrantOf {e : Chip} {r : Int} (capped : e.CappedAt r) (x : EvalTaker) : (e.takeGrantOf x).CappedAt r := by
  cases x with
  | alt | mdc | bga => exact capped
  | drm =>
    obtain ⟨request, axleRequest⟩ := e.takeDriveGrant_requests e.bga.drive
    exact capped.congr rfl request axleRequest rfl rfl rfl
  | wnc => exact capped.setWinch _
  | lsq => exact capped.congr rfl rfl rfl rfl rfl rfl

/-- A consumer that takes its grant leaves the request. -/
theorem Chip.takeGrantOf_request (e : Chip) (x : EvalTaker) : (e.takeGrantOf x).drm.request = e.drm.request := by
  cases x with
  | alt | mdc | bga | lsq => rfl
  | drm => exact (e.takeDriveGrant_requests e.bga.drive).1
  | wnc => exact (Chip.setWinch_drm _ _).2.2.2.2.1

/-- A block other than DRM leaves the request. -/
theorem Chip.takeEvaluation_request {e : Chip} {y : EvalTaker} (other : y ≠ .drm) :
    (e.takeEvaluation b tr order y).drm.request = e.drm.request := by
  cases y with
  | alt | lsq | mdc => rfl
  | drm => exact absurd rfl other
  | wnc =>
    dsimp only [Chip.takeEvaluation]
    split
    · exact (Chip.setWinch_drm _ _).2.2.2.2.1
    · rfl
  | bga =>
    exact foldl_induct (P := fun d => d.drm.request = e.drm.request) (fun d x same => (d.takeGrantOf_request x).trans same) _ _ rfl

/-- A block other than DRM keeps the caps applied. -/
theorem Chip.CappedAt.takeEvaluation {e : Chip} {r : Int} {y : EvalTaker} (capped : e.CappedAt r) (other : y ≠ .drm) :
    (e.takeEvaluation b tr order y).CappedAt r := by
  cases y with
  | alt | lsq | mdc => exact capped.congr rfl rfl rfl rfl rfl rfl
  | drm => exact absurd rfl other
  | wnc =>
    dsimp only [Chip.takeEvaluation]
    split
    · exact capped.setWinch _
    · exact capped
  | bga =>
    have divided : Chip.CappedAt { e with bga := e.division (e.btm.budget.getD 0) e.btm.level } r :=
      capped.congr rfl rfl rfl rfl rfl rfl
    exact foldl_induct (P := fun d => d.CappedAt r) (fun _ x holds => holds.takeGrantOf x) _ _ divided

/-- In ACTIVE the caps stand applied anew (R66). -/
theorem Chip.evaluate_caps (changed : c.btm.level ≠ b) (active : c.mdc.mode = .active) :
    (c.evaluate b tr order).CappedAt c.drm.request := by
  refine Chip.evaluate_around .drm (Q := fun e => e.drm.request = c.drm.request) (P := fun e => e.CappedAt c.drm.request)
    (fun e y other _ same => (Chip.takeEvaluation_request other).trans same) (fun e frame same => ?_)
    (fun e y other _ capped => capped.takeEvaluation other) rfl
  have mode : e.mdc.mode = .active := by rw [frame.mdc]; exact active
  have level : e.btm.level ≠ b := by rw [frame.btm]; exact changed
  have turn : e.takeEvaluation b tr order .drm = e.recap :=
    if_pos (Bool.and_eq_true_iff.2 ⟨decide_eq_true level, decide_eq_true mode⟩)
  rw [turn]
  refine ⟨mode, same, ?_⟩
  rw [← same]
  rfl

end Evaluation

end Sys2Proof.Machine
end

section
/-! A measurement: its evaluation completion and the division of the budget (R130 to R157). -/

namespace Sys2Proof.Machine

/-! ### The blocks' turns -/

/-- Severities of the battery causes. -/
theorem Level.severity_iff (level : Level) : (1 ≤ level.severity ↔ level ≠ .normal)
    ∧ (2 ≤ level.severity ↔ level = .critical ∨ level = .cutoff) := by
  cases level <;> decide

/-- The battery causes leave the fault record. -/
theorem Alt.battery_fault (t : Alt) (level : Level) (force trip : Bool) : (t.battery level force trip).fault = t.fault := by
  have cause (u : Alt) (a : Alert) (holds : Bool) : (u.cause a holds).fault = u.fault := by cases holds <;> rfl
  unfold Alt.battery
  dsimp only
  rw [cause, cause, cause, cause]
  split <;> rfl

/-- The effective weight of the lights: raised by an eligible latch of level 3 or more severe (R153). -/
theorem Chip.alertRaise_iff (c : Chip) : c.alertRaise = true
    ↔ ∃ a, c.alt.has a = true ∧ a.level ≤ 3 ∧ (a.level ≤ c.tables.link.maskLevel ∨ a.level = 1) := by
  unfold Chip.alertRaise
  rw [List.any_eq_true]
  constructor
  · rintro ⟨a, -, raises⟩
    simp only [Bool.and_eq_true, decide_eq_true_iff, Alert.eligible, Bool.or_eq_true] at raises
    exact ⟨a, raises.1.1, raises.2, raises.1.2⟩
  · rintro ⟨a, has, level, eligible⟩
    refine ⟨a, Alert.mem_all a, ?_⟩
    simp only [Bool.and_eq_true, decide_eq_true_iff, Alert.eligible, Bool.or_eq_true]
    exact ⟨⟨has, eligible⟩, level⟩

/-! ### The measurement -/

/-- The part that BTM hands to the evaluation: the record after the measurement, the next one scheduled (R130, R131). -/
def Chip.measured (c : Chip) (now : Nat) (r : Readings) : Chip :=
  { c with
    now := now
    btm := { c.btm.measure c.tables.protect now r with nextMeas := some (now + if c.mdc.mode = .active then 10 else 100) } }

/-- The overcurrent trips at this measurement. -/
def Chip.tripsAt (c : Chip) (now : Nat) (r : Readings) : Bool :=
  c.btm.trips c.tables.protect now (clampReadings r).current

/-- The row MEASUREMENT_COMPLETION. -/
theorem exec_measurementCompletion {s : State} {due : Nat} (running : s.chip.Running) (runs : s.chip.btm.nextMeas = some due)
    (r : Readings) (order : List EvalTaker) : exec (.measurementCompletion r order) s = .next { s with
      chip := (s.chip.measured (s.chip.dueAt due) r).evaluate s.chip.btm.level (s.chip.tripsAt (s.chip.dueAt due) r) order } := by
  have interval : s.chip.mdc.mode.measurementInterval = if s.chip.mdc.mode = .active then 10 else 100 := by
    cases s.chip.mdc.mode <;> rfl
  unfold Chip.measured
  rw [← interval]
  exact State.next_whenDue running runs fun d => d.measurement r order

/-- An order that BGA begins leaves none before it. -/
theorem evalTakers_bga_first {rest before after : List EvalTaker}
    (split : evalTakers (.bga :: rest) = before ++ .bga :: after) (earlier : EvalTaker.bga ∉ before) : before = [] := by
  cases before with
  | nil => rfl
  | cons x xs =>
    have head : ∃ tail, evalTakers (.bga :: rest) = .bga :: tail := by
      unfold evalTakers fullOrder
      rw [List.eraseDups_cons]
      exact ⟨_, rfl⟩
    obtain ⟨tail, begins⟩ := head
    have first : x = .bga := (List.cons.inj (split.symm.trans begins)).1
    exact absurd (first ▸ List.mem_cons_self) earlier

/-- Settles O40. -/
theorem measurementDividesTheBudget : Obligations.MeasurementDividesTheBudget := by
  refine ⟨fun r order s due running runs => ?measured, evalTakers_spec, fun c before trip order => ?turns, fun c => ?grants,
    fun c level => ?weights⟩
  case measured =>
    intro c now p level trip
    let d := c.measured now r
    let e := d.evaluate c.btm.level (c.tripsAt now r) order
    have frame : EvaluationFrame d e := Chip.evaluate_frame _ _ _ _
    have tripped : c.tripsAt now r = true ↔ trip := c.btm.trips_iff p now _
    have lvl : d.btm.level = level := rfl
    have mdc : e.mdc = _ := Chip.evaluate_mdc
    obtain ⟨before, after, split, earlier, division⟩ := d.evaluate_bga c.btm.level (c.tripsAt now r) order
    obtain ⟨drive, winch, lights⟩ := Chip.evaluate_grants (c := d) (b := c.btm.level) (tr := c.tripsAt now r) (order := order)
    have front := d.evaluation_frame c.btm.level (c.tripsAt now r) order before
    have alerts {a : Alert} (other : a ≠ .winchStall) :=
      Chip.evaluate_alerts (c := d) (b := c.btm.level) (tr := c.tripsAt now r) (order := order) other
    let at' := before.foldl (Chip.takeEvaluation c.btm.level (c.tripsAt now r) order) d
    refine ⟨{ s with chip := e }, exec_measurementCompletion running runs r order, rfl, ?frame, ?budget, ?steer, ?order, ?shares,
      ?ok, drive, winch, lights, d.evaluate_granted _ _ _, ?low, ?critical, ?cutoff, ?capacity, fun a other => ?latches,
      fun changed => ⟨fun active => ?caps, Chip.evaluate_locks (c := d) changed, fun locked mild up free road active => ?released,
        Chip.evaluate_unboosts (c := d) changed⟩, fun same => Chip.evaluate_wnc_same (c := d) same⟩
    case frame =>
      exact Chip.fieldwise _ _ frame.now frame.spool frame.held frame.tables frame.ulr frame.slots frame.cdc frame.stm rfl rfl rfl
        frame.btm rfl rfl frame.sup frame.rtx frame.atx frame.tbs mdc
    case budget =>
      change e.bga.budget = e.btm.levelBudget p
      rw [show e.bga = _ from division, frame.btm]
      rfl
    case steer =>
      change e.bga.steer = if c.stm.pulsing = true then min c.tables.budget.reservation e.bga.budget else 0
      rw [show e.bga = _ from division]
      change Chip.steerGrant _ _ = _
      unfold Chip.steerGrant
      rw [front.stm, front.tables]
      rfl
    case order =>
      intro tripped' trips turn
      have sameTrip : c.tripsAt now r = tripped' := Bool.eq_iff_iff.2 (tripped.trans trips.symm)
      have start : ({ c with now := now, btm := e.btm } : Chip) = d := by
        rw [frame.btm]
        rfl
      subst sameTrip
      have budget : e.bga.budget = d.btm.budget.getD 0 := congrArg Bga.budget division
      refine ⟨congrArg (fun x => (evalTakers order).foldl turn x) start.symm, before, after, split, ?_⟩
      exact division.trans
        (congrArg₂ (fun x n => Chip.division (before.foldl turn x) n level) start.symm budget.symm)
    case shares =>
      refine ⟨at'.demands, at'.weights level, ?_, ?_, fun same => ?_, fun rest first => ?_⟩
      · change Shares.mk e.bga.drive e.bga.winch e.bga.lights = divideBudget (e.bga.budget - e.bga.steer) _ _
        rw [show e.bga = _ from division]
        rfl
      · change at'.tables.budget.driveWeight = _
        rw [front.tables]
        rfl
      · obtain ⟨drm, wnc⟩ := Chip.evaluation_same (c := d) (b := c.btm.level) (tr := c.tripsAt now r) (order := order) same earlier
        have weight : (at'.weights level).winch = if at'.wnc.boost && decide (level = .normal) then 7
            else at'.tables.budget.winchWeight := rfl
        refine ⟨congrArg Drm.demand drm, congrArg Winch.demand wnc, ?_⟩
        rw [weight, show at'.wnc = d.wnc from wnc, front.tables]
        rfl
      · subst first
        have alone : at' = d := by
          change before.foldl _ d = d
          rw [evalTakers_bga_first split earlier]
          rfl
        rw [alone]
        exact ⟨rfl, rfl⟩
    case ok =>
      change e.bga.Ok
      rw [show e.bga = _ from division]
      exact Chip.bok_division _ _ _
    case low =>
      change e.alt.caused .battLow = true ↔ _
      rw [show e.alt.caused .battLow = _ from (alerts (by decide)).1, Alt.caused_battery]
      simp [lvl]
    case critical =>
      change e.alt.caused .battCritical = true ↔ _
      rw [show e.alt.caused .battCritical = _ from (alerts (by decide)).1, Alt.caused_battery]
      simp [lvl]
    case cutoff =>
      change e.alt.caused .battCutoff = true ↔ _
      rw [show e.alt.caused .battCutoff = _ from (alerts (by decide)).1, Alt.caused_battery]
      simp [lvl]
    case capacity =>
      change e.alt.caused .capacity = e.btm.capForce
      rw [show e.alt.caused .capacity = _ from (alerts (by decide)).1, Bool.eq_iff_iff, Alt.caused_battery, frame.btm]
      simp
    case latches =>
      change e.alt.has a = true ↔ _
      rw [show e.alt.has a = _ from (alerts other).2, Alt.has_battery, (Level.severity_iff _).1, (Level.severity_iff _).2,
        tripped]
      change _ ↔ _ ∨ _ ∨ _ ∨ _ ∨ _ ∨ a = .capacity ∧ e.btm.capForce = true
      rw [frame.btm]
      rfl
    case caps =>
      obtain ⟨-, request, capped⟩ := Chip.evaluate_caps (c := d) (b := c.btm.level) (tr := c.tripsAt now r) (order := order)
        changed active
      exact ⟨capped, request⟩
    case released =>
      refine Chip.evaluate_releases changed locked (Bool.eq_false_iff.2 fun cause => ?_)
      have link := c.linkUp_iff.1 up
      rcases (d.winchLockCause_iff).1 cause with crit | cut | failsafe | await | inhibit | bench | parked
      · exact absurd (crit.symm.trans lvl) (by rcases mild with is | is <;> rw [is] <;> decide)
      · exact absurd (cut.symm.trans lvl) (by rcases mild with is | is <;> rw [is] <;> decide)
      · exact link (.inr failsafe)
      · exact link (.inl await)
      · exact Bool.false_ne_true (free.symm.trans inhibit)
      · exact Bool.false_ne_true (road.symm.trans bench)
      · exact absurd (active.symm.trans parked) (by decide)
  case turns =>
    intro turn level ended record locked released
    have changed : decide (c.btm.level ≠ before) = true ↔ level ≠ before := decide_eq_true_iff
    refine ⟨?alt, ?drm, ?wnc, ?lsq, ?mdc, rfl⟩
    case alt =>
      obtain ⟨eq, same, differs⟩ := c.alert_lsq fun a => a.battery c.btm.level c.btm.capForce trip
      have alt : (turn .alt).alt = c.alt.battery c.btm.level c.btm.capForce trip :=
        Chip.alert_alt c fun a => a.battery c.btm.level c.btm.capForce trip
      refine ⟨?_, same, differs, by rw [alt, Alt.battery_fault], fun a => ?_⟩
      · rw [alt]
        exact eq
      · intro holds reported
        rw [alt, Alt.caused_battery, Alt.has_battery, (Level.severity_iff _).1, (Level.severity_iff _).2]
        refine ⟨Iff.rfl, or_congr_right ?_⟩
        exact ⟨fun any => any.elim .inr .inl, fun any => any.elim .inr .inl⟩
    case drm =>
      refine if_congr ?_ rfl rfl
      rw [Bool.and_eq_true, changed, decide_eq_true_iff]
    case wnc =>
      have test : (if c.winchLockCause = true then locked else released) = c.wnc.lockTest c.winchLockCause :=
        (c.wnc.lockTest_spec c.winchLockCause).symm
      rw [test]
      exact if_congr changed rfl rfl
    case lsq =>
      change c.relightIf _ = _
      by_cases moved : level ≠ before
      · rw [if_pos moved, changed.2 moved]
        rfl
      · rw [if_neg moved, Bool.eq_false_iff.2 (mt changed.1 moved)]
        rfl
    case mdc =>
      have enters : (decide (c.btm.level ≠ before) && decide (c.btm.level = .cutoff)) = true
          ↔ level ≠ before ∧ level = .cutoff := by
        rw [Bool.and_eq_true, changed, decide_eq_true_iff]
      change c.startCutoff _ = _
      by_cases cut : level ≠ before ∧ level = .cutoff
      · rw [if_pos cut, enters.2 cut]
        rfl
      · rw [if_neg cut, Bool.eq_false_iff.2 (mt enters.1 cut)]
        rfl
  case grants =>
    refine ⟨?_, rfl, rfl, fun x drm wnc lsq => ?_⟩
    · change c.takeDriveGrant _ = _
      unfold Chip.takeDriveGrant
      split <;> rfl
    · cases x with
      | alt | mdc | bga => rfl
      | drm => exact absurd rfl drm
      | wnc => exact absurd rfl wnc
      | lsq => exact absurd rfl lsq
  case weights =>
    intro w raised
    have boosts : (c.wnc.boost && decide (level = .normal)) = true ↔ c.wnc.boost = true ∧ level = .normal := by
      rw [Bool.and_eq_true, decide_eq_true_iff]
    exact ⟨rfl, if_congr boosts rfl rfl, fun any => if_pos (c.alertRaise_iff.2 any), fun none => if_neg (mt c.alertRaise_iff.1 none)⟩

end Sys2Proof.Machine
end

section
/-! The modes of the part: entry into DORMANT and PARKED, and the return to ACTIVE (R195 to R198). -/

namespace Sys2Proof.Machine

/-! ### DORMANT -/

/-- The axles of a DORMANT part are OFF. -/
theorem Chip.restAxle_dormant {c : Chip} (dormant : c.mdc.mode = .dormant) :
    c.restAxle = { state := .off, timer := none, left := none, effective := 0, output := 0 } :=
  if_neg fun brakes => brakes.1.1 dormant

/-- The records that an entry into DORMANT changes. -/
theorem Chip.enterDormant_eq (c : Chip) : c.enterDormant = { c with
    ulr := { c.ulr with linkTimer := none, refreshDue := none }
    stm := { c.stm with pulsing := false, schedule := none }
    drm := { c.drm with
      arming := .disarmed, armTimer := none, demand := 0
      front := { state := .off, timer := none, left := none, effective := 0, output := 0 }
      rear := { state := .off, timer := none, left := none, effective := 0, output := 0 } }
    wnc := { c.wnc with boost := false, demand := 0, referenced := false }
    lsq := c.enterDormant.lsq
    btm := { c.btm with foldback := none, nextMeas := none }
    rtx := { c.rtx with sending := none }
    atx := { c.atx with sending := none }
    mdc := { c.mdc with mode := .dormant, parkTimer := none, cutoffTimer := none } } := by
  have drm := Chip.disarmDrive_drm (c.setMode .dormant).steerSilence
  rw [Chip.restAxle_dormant rfl] at drm
  have shape : c.enterDormant = { c with
      ulr := { c.ulr with linkTimer := none, refreshDue := none }
      stm := { c.stm with pulsing := false, schedule := none }
      drm := (c.setMode .dormant).steerSilence.disarmDrive.drm
      wnc := { c.wnc with boost := false, demand := 0, referenced := false }
      lsq := c.enterDormant.lsq
      btm := { c.btm with foldback := none, nextMeas := none }
      rtx := { c.rtx with sending := none }
      atx := { c.atx with sending := none }
      mdc := { c.mdc with mode := .dormant, parkTimer := none, cutoffTimer := none } } := rfl
  rw [drm] at shape
  exact shape

/-- Disarming the drive leaves the timebase of the lights and the held light grant. -/
theorem Chip.disarmDrive_lsq (c : Chip) : c.disarmDrive.lsq.timebase = c.lsq.timebase
    ∧ c.disarmDrive.lsq.nextEvent = c.lsq.nextEvent ∧ c.disarmDrive.lsq.grant = c.lsq.grant
    ∧ c.disarmDrive.lsq.granted = c.lsq.granted := by
  unfold Chip.disarmDrive Chip.handleAxles Chip.setDrive
  exact (Chip.relightIf_kept _ _).2

/-- LSQ's record at an entry into DORMANT. -/
theorem Chip.enterDormant_lsq (c : Chip) : c.enterDormant.lsq = c.enterDormant.picture
    ∧ c.enterDormant.lsq.brakeHold = none ∧ c.enterDormant.lsq.nextEvent = none
    ∧ c.enterDormant.lsq.timebase = c.lsq.timebase ∧ c.enterDormant.lsq.grant = c.lsq.grant
    ∧ c.enterDormant.lsq.granted = c.lsq.granted := by
  obtain ⟨timebase, -, grant, granted⟩ := Chip.disarmDrive_lsq (c.setMode .dormant).steerSilence
  exact ⟨rfl, rfl, rfl, timebase, grant, granted⟩

/-- The stages and lines of a part that rests. -/
theorem Chip.stages_dormant {c : Chip} (dormant : c.mdc.mode = .dormant) :
    (∀ a, c.axleStage a = (.coast, 0)) ∧ c.winchStage = (.coast, 0) := by
  have rests : c.atRest = true := by
    rw [Chip.atRest, decide_eq_true dormant]
    exact Bool.or_true _
  exact ⟨fun a => by rw [Chip.axleStage, rests]; rfl, by rw [Chip.winchStage, rests]; rfl⟩

/-- Settles O44. -/
theorem cutoffExpiryEntersDormant : Obligations.CutoffExpiryEntersDormant := by
  intro s due running runs c
  let d : Chip := { c with now := c.dueAt due }
  have entered : exec .cutoffTimerExpiry s = .next { s with chip := d.enterDormant } :=
    State.next_whenDue running runs Chip.enterDormant
  have dormant : d.enterDormant.mdc.mode = .dormant := congrArg (fun t : Chip => t.mdc.mode) d.enterDormant_eq
  obtain ⟨picture, brakeHold, nextEvent, timebase, grant, granted⟩ := d.enterDormant_lsq
  obtain ⟨dark, demand⟩ := Chip.picture_dormant dormant
  rw [← picture] at dark demand
  obtain ⟨axles, winch⟩ := Chip.stages_dormant dormant
  exact ⟨_, entered, rfl, d.enterDormant_eq, brakeHold, nextEvent, timebase, dark, picture, demand, grant, granted,
    axles .front, axles .rear, winch, rfl, rfl⟩

/-! ### PARKED -/

/-- The record of an axle at rest at an entry into PARKED. -/
theorem Chip.restAxle_parked {c : Chip} (parked : c.mdc.mode = .parked) : c.restAxle
    = if c.mdc.bench = false ∧ (c.ulr.link = .await ∨ c.ulr.link = .failsafe) then
        { state := .failsafeBrake, timer := none, left := none, effective := 0, output := c.tables.driveCfg.failsafeBrake }
      else { state := .off, timer := none, left := none, effective := 0, output := 0 } := by
  simp [Chip.restAxle, parked]

/-- A winch that was LOCKED. -/
theorem Winch.settle_toLocked_locked {w : Winch} (locked : w.state = .locked) (cfg : WinchCfg) :
    w.toLocked.settle cfg = { w with effective := 0, demand := 0, boost := false } := by
  rw [Winch.toLocked, if_pos locked, Winch.settle, locked]
  simp [WinchState.driven, WinchState.pullsIn]

/-- One that was not: an operation ends LOCKED (R84, R91). -/
theorem Winch.settle_toLocked_unlocked {w : Winch} (unlocked : w.state ≠ .locked) (cfg : WinchCfg) :
    w.toLocked.settle cfg = { w with
      state := .locked, run := none, requested := 0, holdOff := true, effective := 0, demand := 0, boost := false
      lastOp := (w.finish .locked).lastOp } := by
  rw [Winch.toLocked, if_neg unlocked, Winch.settle]
  simp [Winch.finish, WinchState.driven, WinchState.pullsIn, WinchState.kind]

/-- The park timer's expiry stops it. -/
def Chip.parkTimerStopped (c : Chip) (due : Nat) : Chip :=
  { c with now := c.dueAt due, mdc := { c.mdc with parkTimer := none } }

/-- The row PARK_TIMER_EXPIRY. -/
theorem exec_parkTimer {s : State} (running : s.chip.Running) {due : Nat} (runs : s.chip.mdc.parkTimer = some due) :
    exec .parkTimerExpiry s = .next { s with chip :=
      if s.chip.mdc.mode = .active then (s.chip.parkTimerStopped due).enterParked else s.chip.parkTimerStopped due } :=
  State.next_whenDue running runs Chip.parkExpiry

/-- The row PARK_REQUEST. -/
theorem exec_parkRequest {s : State} (running : s.chip.Running) (v : Bool) : exec (.parkRequest v) s
    = .next { s with chip := (s.chip.written (oneBit 3) (bitValue 3 v)).parkSwitch v (!v) } := by
  rw [← Chip.putSwitches_park]
  exact next_congr (Chip.whenRunning_eq running _)

/-- The write of PARK_REQUEST sets or clears the bit. -/
theorem Chip.written_park (c : Chip) (v : Bool) : c.written (oneBit 3) (bitValue 3 v)
    = { c with sup := { c.sup with switches :=
        if v = true then c.sup.switches ||| oneBit 3 else c.sup.switches &&& ~~~oneBit 3 } } := by
  rw [Chip.written, mergeSwitches_oneBit _ (.inl (by decide))]

/-- The records that an entry into PARKED changes but those of WNC, LSQ and ALT. -/
theorem Chip.enterParked_eq (c : Chip) : c.enterParked = { c with
    stm := { c.stm with pulsing := false, schedule := none }
    drm := { c.drm with
      arming := .disarmed, armTimer := none, demand := 0
      front := (c.setMode .parked).restAxle, rear := (c.setMode .parked).restAxle }
    wnc := c.enterParked.wnc, lsq := c.enterParked.lsq, alt := c.enterParked.alt
    btm := { c.btm with nextMeas :=
      if c.btm.readings = none then c.btm.nextMeas else some (c.btm.lastMeas + 100) }
    mdc := { c.mdc with mode := .parked } } := by
  rw [← Btm.nextAfter_parked c.btm c.now]
  exact c.enterParked_frame

/-- The winch at an entry into PARKED. -/
theorem Chip.enterParked_wnc (c : Chip) :
    let ended (kind : OpKind) : Option LastOp :=
      some { kind := kind, requested := c.wnc.run.map Run.count, counts := c.wnc.countsDone, outcome := .locked }
    let record : Option LastOp :=
      match c.wnc.state with
      | .jogIn => ended .jogIn
      | .jogOut => ended .jogOut
      | .runIn => ended .runIn
      | .runOut => ended .runOut
      | .idle | .free | .stalled | .locked => c.wnc.lastOp
    (c.wnc.state = .locked → c.enterParked.wnc = { c.wnc with effective := 0, demand := 0, boost := false })
      ∧ (c.wnc.state ≠ .locked → c.enterParked.wnc = { c.wnc with
          state := .locked, run := none, requested := 0, holdOff := true, effective := 0, demand := 0, boost := false
          lastOp := record }) := by
  intro ended record
  have last : (c.wnc.finish .locked).lastOp = record := c.wnc.finish_lastOp .locked
  have locks := c.enterParked_records.1
  refine ⟨fun locked => ?_, fun unlocked => ?_⟩
  · exact locks.trans (Winch.settle_toLocked_locked locked _)
  · rw [← last]
    exact locks.trans (Winch.settle_toLocked_unlocked unlocked _)

/-- Settles O45. -/
theorem parkingStopsTheChassis : Obligations.ParkingStopsTheChassis := by
  intro s due running c axle ended record parked
  have parks (d : Chip) (now : Nat) (switches : BitVec 32) (park : Option Nat)
      (written : d = { c with now := now, sup := { c.sup with switches := switches },
                              mdc := { c.mdc with parkTimer := park } }) : parked now switches park d.enterParked := by
    have frame := d.enterParked_eq
    rw [Chip.restAxle_parked (c := d.setMode .parked) rfl] at frame
    obtain ⟨locked, unlocked⟩ := d.enterParked_wnc
    obtain ⟨-, picture, brakeHold, timebase, nextEvent, grant, granted, alt⟩ := d.enterParked_records
    subst written
    exact ⟨frame, locked, unlocked, picture, brakeHold, timebase, nextEvent, grant, granted, alt⟩
  refine ⟨fun runs => ⟨fun active => ?expiry, fun stands => ?stops⟩, fun active => ?request, fun stands => ?bit⟩
  case expiry =>
    have expired := exec_parkTimer running runs
    rw [if_pos active] at expired
    exact ⟨_, expired, rfl, parks (c.parkTimerStopped due) (c.dueAt due) c.sup.switches none rfl⟩
  case stops =>
    have expired := exec_parkTimer running runs
    rw [if_neg fun active => Mode.noConfusion (stands.symm.trans active)] at expired
    exact expired
  case request =>
    have written := exec_parkRequest running true
    have sets : (true && decide ((s.chip.written (oneBit 3) (bitValue 3 true)).mdc.mode = .active)) = true :=
      decide_eq_true active
    rw [Chip.parkSwitch, if_pos sets] at written
    exact ⟨_, written, rfl, parks (c.written (oneBit 3) (bitValue 3 true)) c.now (c.sup.switches ||| 8#32) c.mdc.parkTimer
      (c.written_park true)⟩
  case bit =>
    have written := exec_parkRequest running true
    have inactive : ¬(true && decide ((s.chip.written (oneBit 3) (bitValue 3 true)).mdc.mode = .active)) = true := by
      rw [Chip.written, stands]
      decide
    rw [Chip.parkSwitch, if_neg inactive, Chip.written_park] at written
    exact written

/-! ### The return to ACTIVE -/

/-- The tested record of the part that returns. -/
theorem Chip.returnActive_tested (c : Chip) :
    c.returnActive = { (Chip.handleAxles { c with mdc := { c.mdc with mode := .active } } c.drm).winchLockTest with
      lsq := (Chip.handleAxles { c with mdc := { c.mdc with mode := .active } } c.drm).winchLockTest.picture
      btm := c.returnActive.btm } := by
  obtain ⟨a, rfl, returned⟩ := c.returnActive_spec
  rw [Chip.returnActive_btm]
  rw [Chip.returnActive_btm] at returned
  exact returned

/-- What the return to ACTIVE leaves of LSQ. -/
theorem Chip.returnActive_lsq (c : Chip) : c.returnActive.lsq = c.returnActive.picture
    ∧ c.returnActive.lsq.timebase = c.lsq.timebase ∧ c.returnActive.lsq.nextEvent = c.lsq.nextEvent
    ∧ c.returnActive.lsq.grant = c.lsq.grant ∧ c.returnActive.lsq.granted = c.lsq.granted := by
  obtain ⟨a, tested, returned⟩ := c.returnActive_spec
  generalize handled : Chip.handleAxles { c with mdc := { c.mdc with mode := .active } } c.drm = h at tested
  have drive : h.lsq.timebase = c.lsq.timebase ∧ h.lsq.nextEvent = c.lsq.nextEvent ∧ h.lsq.grant = c.lsq.grant
      ∧ h.lsq.granted = c.lsq.granted := by
    subst handled
    unfold Chip.handleAxles Chip.setDrive
    exact (Chip.relightIf_kept _ _).2
  obtain ⟨timebase, nextEvent, grant, granted⟩ := drive
  have winch := Chip.setWinch_kept h (h.wnc.lockTest h.winchLockCause)
  change h.winchLockTest.lsq.timebase = _ ∧ h.winchLockTest.lsq.nextEvent = _ ∧ h.winchLockTest.lsq.grant = _
    ∧ h.winchLockTest.lsq.granted = _ at winch
  rw [← tested] at winch
  obtain ⟨timebase', nextEvent', grant', granted'⟩ := winch
  have picture (x : Chip) : x.relight.reschedule.lsq = x.relight.reschedule.picture := rfl
  refine ⟨picture _, ?_⟩
  rw [returned]
  exact ⟨timebase'.trans timebase, nextEvent'.trans nextEvent, grant'.trans grant, granted'.trans granted⟩

/-- MDC's return of a PARKED part tests the lock causes of a LOCKED winch (R85). -/
theorem Chip.returnActive_unlocks {c : Chip} (locked : c.wnc.state = .locked) (live : c.ulr.link = .live) :
    ((c.btm.level = .normal ∨ c.btm.level = .low) ∧ c.winchInhibit = false ∧ c.mdc.bench = false →
        c.returnActive.wnc.state = .idle ∧ c.returnActive.wnc.creep = 0)
      ∧ (¬((c.btm.level = .normal ∨ c.btm.level = .low) ∧ c.winchInhibit = false ∧ c.mdc.bench = false) →
        c.returnActive.wnc.state = .locked) := by
  have cause : Chip.winchLockCause { c with mdc := { c.mdc with mode := .active } } = true
      ↔ ¬((c.btm.level = .normal ∨ c.btm.level = .low) ∧ c.winchInhibit = false ∧ c.mdc.bench = false) := by
    have inhibit : Chip.winchInhibit { c with mdc := { c.mdc with mode := .active } } = c.winchInhibit := rfl
    rw [Chip.winchLockCause_iff, inhibit]
    dsimp only
    rw [live]
    cases c.btm.level <;> cases c.winchInhibit <;> cases c.mdc.bench <;> simp
  have test := Winch.lockTest_spec c.wnc (Chip.winchLockCause { c with mdc := { c.mdc with mode := .active } })
  dsimp only at test
  rw [Chip.returnActive_wnc, Chip.winchLockTest, Chip.setWinch_wnc]
  refine ⟨fun free => ?_, fun holds => ?_⟩
  · rw [if_neg fun holds => cause.1 holds free, if_pos locked] at test
    rw [test]
    exact ⟨rfl, rfl⟩
  · rw [if_pos (cause.2 holds), if_pos locked] at test
    rw [test]
    exact locked

/-- The return leaves the arming state. -/
theorem Chip.returnActive_arming (c : Chip) : c.returnActive.drm.arming = c.drm.arming := by
  obtain ⟨a, rfl, returned⟩ := c.returnActive_spec
  rw [returned, Chip.winchLockTest]
  exact (Chip.setWinch_drm _ _).2.2.1

/-- Whatever the lock test makes of the winch, the axles of a drive that is not ARMED come to rest. -/
theorem Chip.returnActive_off {c : Chip} (unarmed : c.drm.arming ≠ .armed) (live : c.ulr.link = .live) (a : Axle) :
    (c.returnActive.drm.axle a).state = .off := by
  obtain ⟨t, tested, returned⟩ := c.returnActive_spec
  generalize handled : Chip.handleAxles { c with mdc := { c.mdc with mode := .active } } c.drm = h at tested
  have active : h.mdc.mode = .active := by rw [← handled, Chip.handleAxles_mdc]
  have rest : h.restAxle = { state := .off, timer := none, left := none, effective := 0, output := 0 } := by
    refine Chip.restAxle_live ?_
    rw [← handled, Chip.handleAxles_ulr]
    exact live
  have drm : h.drm = { c.drm with
      demand := 0
      front := { state := .off, timer := none, left := none, effective := 0, output := 0 }
      rear := { state := .off, timer := none, left := none, effective := 0, output := 0 } } := by
    rw [← handled, Chip.handleAxles_unarmed _ unarmed, Chip.restAxle_live (by exact live)]
  have record := Chip.setWinch_drm_unarmed active (by rw [drm]; exact unarmed) (h.wnc.lockTest h.winchLockCause)
  rw [rest, drm] at record
  rw [returned, tested, Chip.winchLockTest]
  dsimp only
  rw [record]
  split <;> cases a <;> rfl

/-- MDC's record and the others that the return leaves. -/
theorem Chip.returnActive_frame (c : Chip) : c.returnActive = { c with
    drm := c.returnActive.drm, wnc := c.returnActive.wnc, lsq := c.returnActive.lsq, alt := c.returnActive.alt
    btm := { c.btm with nextMeas :=
      if c.btm.readings = none then c.btm.nextMeas
      else if c.now < c.btm.lastMeas + 10 then some (c.btm.lastMeas + 10) else some (c.now + 10) }
    mdc := { c.mdc with mode := .active } } := by
  have btm := c.returnActive_btm
  rw [Btm.nextAfter_active] at btm
  refine Chip.fieldwise _ _ ?_ ?_ ?_ ?_ ?_ ?_ ?_ ?_ rfl rfl rfl btm ?_ rfl ?_ ?_ ?_ ?_ c.returnActive_mode <;> simp

/-- Settles O46. -/
theorem clearingParkRequestReturns : Obligations.ClearingParkRequestReturns := by
  intro s running c leaves cleared
  let d : Chip := { c with sup := { c.sup with switches := cleared } }
  have same : c.written (oneBit 3) (bitValue 3 false) = d := c.written_park false
  have written : exec (.parkRequest false) s = .next { s with chip := d.parkExitTest } := by
    rw [← same]
    exact exec_parkRequest running false
  have tests : d.leavesParked = true ↔ leaves := by
    have bit : d.parkRequest = false := by
      rw [← same]
      exact c.written_switchBit (.inl (by decide)) false
    rw [Chip.leavesParked_true_iff]
    exact ⟨fun ⟨parked, live, centred, _⟩ => ⟨parked, live, centred⟩, fun ⟨parked, live, centred⟩ =>
      ⟨parked, live, centred, bit⟩⟩
  rw [Chip.parkExitTest] at written
  refine ⟨fun stays => ?stays, fun goes => ?returns⟩
  case stays =>
    rw [if_neg fun go => stays (tests.1 go)] at written
    exact written
  case returns =>
    rw [if_pos (tests.2 goes)] at written
    have inhibit : d.winchInhibit = c.winchInhibit := by
      rw [← same]
      exact c.written_otherBit (by decide) (by decide) false
    obtain ⟨picture, timebase, nextEvent, grant, granted⟩ := d.returnActive_lsq
    exact ⟨_, written, rfl, d.returnActive_frame, picture, timebase, nextEvent, grant, granted, d.returnActive_tested,
      d.returnActive_arming, fun disarmed => Chip.returnActive_off (c := d) (by rw [disarmed]; decide) goes.2.1,
      fun locked => inhibit ▸ Chip.returnActive_unlocks (c := d) locked goes.2.1⟩

end Sys2Proof.Machine
end

section
/-! The ends of transmissions (R171, R172, R174, R177 to R179, R186). -/

namespace Sys2Proof.Machine

/-! ### The lines choose their next frame -/

/-- A line that sends keeps to its frame. -/
theorem Rtx.choose_sending {x : Rtx} (sends : x.sending ≠ none) : x.choose = x := by
  obtain ⟨frame, sends⟩ := Option.ne_none_iff_exists'.1 sends
  rw [Rtx.choose, sends]

/-- So does the accessory line. -/
theorem Atx.choose_sending {y : Atx} (sends : y.sending ≠ none) : y.choose = y := by
  obtain ⟨frame, sends⟩ := Option.ne_none_iff_exists'.1 sends
  rw [Atx.choose, sends]

/-- An idle return line takes the oldest reply, or else the status frame. -/
theorem Rtx.choose_idle {x : Rtx} (idle : x.sending = none) : x.choose = match x.replies with
    | r :: rs => { x with replies := rs, sending := some (.reply r) }
    | [] => { x with slot := none, sending := x.slot.map ReturnFrame.status } := by
  obtain ⟨replies, slot, sending, count, free⟩ := x
  obtain rfl : sending = none := idle
  cases replies <;> rfl

/-- An idle accessory line takes the oldest pass-through frame, or else the accessory frame. -/
theorem Atx.choose_idle {y : Atx} (idle : y.sending = none) : y.choose = match y.queue with
    | p :: ps => { y with queue := ps, sending := some (.forward p) }
    | [] => { y with slot := none, sending := y.slot.map AccessoryFrame.accessory } := by
  obtain ⟨queue, slot, sending⟩ := y
  obtain rfl : sending = none := idle
  cases queue <;> rfl

/-- What the end of a transmission makes of the return line. -/
theorem Rtx.complete_eq (x : Rtx) : x.complete = match x.replies with
    | r :: rs => { x with replies := rs, sending := some (.reply r) }
    | [] => { x with slot := none, sending := x.slot.map ReturnFrame.status } := by
  rw [Rtx.complete, Rtx.choose_idle rfl]

/-- What it makes of the accessory line. -/
theorem Atx.complete_eq (y : Atx) : y.complete = match y.queue with
    | p :: ps => { y with queue := ps, sending := some (.forward p) }
    | [] => { queue := [], slot := none, sending := y.slot.map AccessoryFrame.accessory } := by
  rw [Atx.complete, Atx.choose_idle rfl]
  cases y.queue <;> rfl

/-! ### SUP beside the return line -/

/-- SUP takes nothing while it cannot. -/
theorem Chip.supRun_stuck {c : Chip} (stuck : c.canTake = false) : c.supRun = c := by
  rw [Chip.supRun]
  cases c.sup.queue.length with
  | zero => rfl
  | succ n => rw [Chip.takeSetups, stuck]; rfl

/-- Beside a full reply queue SUP takes nothing. -/
theorem Chip.takeSetups_full (n : Nat) {c : Chip} (full : 4 ≤ c.rtx.replies.length) : c.takeSetups n = c := by
  have stuck : c.canTake = false := by
    simp [Chip.canTake, Nat.not_lt.2 full]
  cases n with
  | zero => rfl
  | succ n => rw [Chip.takeSetups, stuck]; rfl

/-- With one place for a reply and the line busy, SUP takes one frame: its reply fills the queue. -/
theorem Chip.supRun_one {c : Chip} {p : List Byte} {ps : List (List Byte)} (waits : c.sup.queue = p :: ps)
    (goes : c.sup.restart = false) (sends : c.rtx.sending ≠ none) (room : c.rtx.replies.length = 3) :
    c.supRun = (Chip.carryOut { c with sup := { c.sup with queue := ps } } p).give p := by
  have can : c.canTake = true := by simp [Chip.canTake, waits, goes, room]
  have taken : c.takeSetup = (Chip.carryOut { c with sup := { c.sup with queue := ps } } p).give p := by
    rw [Chip.takeSetup, waits]
  have full : 4 ≤ c.takeSetup.rtx.replies.length := by
    rw [taken, Answer.give]
    dsimp only
    rw [Chip.faultIfRefused_rtx, Chip.carryOut_rtx, Rtx.putReply, Rtx.choose_sending (by exact sends)]
    simp [room]
  rw [Chip.supRun, waits, List.length_cons, Chip.takeSetups, if_pos can, Chip.takeSetups_full _ full, taken]

/-! ### The rows -/

/-- The end of a frame on the return line that is not followed by a restart. -/
theorem exec_returnSent {s : State} (running : s.chip.Running) (sends : s.chip.rtx.sending ≠ none)
    (stays : s.chip.restartDue = false) : exec .returnTransmitCompletion s
      = .next { s with chip := ({ s.chip with rtx := s.chip.rtx.complete } : Chip).supRun } := by
  refine next_congr ((Chip.whenRunning_eq running _).trans ?_)
  rw [Chip.returnSent, stays, if_neg Bool.false_ne_true, if_pos (Option.isSome_iff_ne_none.2 sends)]

/-- A restart follows the OK reply of SOFT_RESTART alone. -/
theorem Chip.restartDue_iff (c : Chip) : c.restartDue = true ↔ c.sup.restart = true
    ∧ ∃ r, c.rtx.sending = some (.reply r) ∧ r.head.toNat % 16 = 14 ∧ r.status = .ok := by
  unfold Chip.restartDue
  cases c.rtx.sending with
  | none => simp
  | some frame =>
    cases frame with
    | reply r => simp [and_assoc]
    | status p => simp

/-- Settles O47. -/
theorem transmissionsEnd : Obligations.TransmissionsEnd := by
  refine ⟨fun x y r payload => ⟨fun sends => ?busy, fun idle empty => ?free, fun sends => ?accBusy, fun idle empty => ?accFree⟩,
    fun s running => ?rows⟩
  case busy => exact ⟨Rtx.choose_sending sends, Rtx.choose_sending sends⟩
  case free => exact ⟨by simp [Rtx.putReply, Rtx.choose, idle, empty], by simp [Rtx.putStatus, Rtx.choose, idle, empty]⟩
  case accBusy => exact Atx.choose_sending sends
  case accFree => simp [Atx.putAccessory, Atx.choose, idle, empty]
  case rows =>
    intro x y
    refine ⟨fun idle => ?accIdle, fun sends => ?accSent, fun idle => ?idle, fun frame sends empty goes => ?sent,
      fun r sends restart code ok => ?restart, fun frame sends restart other => ?waits,
      fun frame p ps r rs sends waits goes replies room => ?takes⟩
    case accIdle =>
      refine next_congr ((Chip.whenRunning_eq running _).trans ?_)
      rw [show s.chip.atx.sending = none from idle]
      rfl
    case accSent =>
      have line : (if y.sending.isSome then y.complete else y) = _ :=
        (if_pos (Option.isSome_iff_ne_none.2 sends)).trans y.complete_eq
      exact next_congr ((Chip.whenRunning_eq running _).trans (congrArg (fun z => { s.chip with atx := z }) line))
    case idle =>
      have stays : s.chip.restartDue = false := by
        rw [Chip.restartDue, show s.chip.rtx.sending = none from idle]
      refine next_congr ((Chip.whenRunning_eq running _).trans ?_)
      rw [Chip.returnSent, stays, show s.chip.rtx.sending = none from idle]
      rfl
    case sent =>
      have stays : s.chip.restartDue = false :=
        Bool.eq_false_iff.2 fun due => Bool.false_ne_true (goes.symm.trans ((Chip.restartDue_iff _).1 due).1)
      have row := exec_returnSent running (by rw [show s.chip.rtx.sending = some frame from sends]; nofun) stays
      rw [Chip.supRun_stuck (by simp [Chip.canTake, empty]), Rtx.complete_eq] at row
      exact row
    case restart =>
      have due : s.chip.restartDue = true := (Chip.restartDue_iff _).2 ⟨restart, r, sends, code, ok⟩
      refine next_congr ((Chip.whenRunning_eq running _).trans ?_)
      rw [Chip.returnSent, if_pos due, Chip.warmCause, if_neg (by rw [running.1]; nofun)]
    case waits =>
      have stays : s.chip.restartDue = false := by
        refine Bool.eq_false_iff.2 fun due => other ?_
        obtain ⟨-, r, same, ends⟩ := (Chip.restartDue_iff _).1 due
        exact ⟨r, Option.some.inj (sends.symm.trans same), ends⟩
      have row := exec_returnSent running (by rw [show s.chip.rtx.sending = some frame from sends]; nofun) stays
      rw [Chip.supRun_stuck (by simp [Chip.canTake, restart]), Rtx.complete_eq] at row
      exact row
    case takes =>
      have stays : s.chip.restartDue = false :=
        Bool.eq_false_iff.2 fun due => Bool.false_ne_true (goes.symm.trans ((Chip.restartDue_iff _).1 due).1)
      have completed : s.chip.rtx.complete = { x with replies := rs, sending := some (.reply r) } := by
        rw [Rtx.complete_eq, show s.chip.rtx.replies = r :: rs from replies]
      refine (exec_returnSent running (by rw [show s.chip.rtx.sending = some frame from sends]; nofun) stays).trans ?_
      rw [completed, Chip.supRun_one (by exact waits) (by exact goes) (by exact nofun) (by exact room)]

end Sys2Proof.Machine
end

section
/-! Setup frames: their ways through the part, and the commands that only reply (R6, R176, R179 to R182, R186 to R188). -/

namespace Sys2Proof.Machine

/-! ### The way of an accepted frame -/

/-- The row SETUP_FRAME_ACCEPTED, on a payload of 2 to 63 bytes. -/
theorem exec_setupFrame {s : State} (running : s.chip.Running) (head : Byte) {rest : List Byte} (some : 1 ≤ rest.length)
    (few : rest.length ≤ 62) : exec (.setupFrameAccepted (head :: rest)) s = .next { s with chip :=
      ({ s.chip with ulr := { s.chip.ulr with hunt := .hunt, bytes := [] } } : Chip).routeSetup (head :: rest) } := by
  refine next_congr ((Chip.whenRunning_eq running _).trans (if_pos ?_))
  rw [List.length_cons]
  omega

/-- On an uplink in HUNT, a row that names a command is the frame that carries it. -/
theorem next_setupCommand {s : State} (hunts : s.chip.ulr.hunt = .hunt) (clear : s.chip.ulr.bytes = []) (code : Nat) (q : Byte)
    (ps : List Byte) : Host.Outcome.next (s.onChip fun c => c.setupCommand code q ps)
      = exec (.setupFrameAccepted (s.chip.head code :: q :: ps)) s := by
  have same : ({ s.chip with ulr := { s.chip.ulr with hunt := .hunt, bytes := [] } } : Chip) = s.chip := by
    rw [← hunts, ← clear]
  exact next_congr (congrArg (fun c : Chip => if s.chip.running then c.acceptSetup (s.chip.head code :: q :: ps) else s.chip)
    same).symm

/-- The unit address of a payload is the upper half of its first byte. -/
theorem unitOf_cons (head : Byte) (rest : List Byte) : unitOf (head :: rest) = head.toNat / 16 := rfl

/-- The command code is the lower half. -/
theorem codeOf_cons (head : Byte) (rest : List Byte) : (codeOf (head :: rest)).val = head.toNat % 16 := rfl

/-- A full forward queue drops the frame. -/
theorem Atx.putForward_full {y : Atx} (full : 2 ≤ y.queue.length) (p : List Byte) : y.putForward p = y :=
  if_neg (Nat.not_lt.2 full)

/-- A line that sends queues it. -/
theorem Atx.putForward_busy {y : Atx} (room : y.queue.length < 2) (sends : y.sending ≠ none) (p : List Byte) :
    y.putForward p = { y with queue := y.queue ++ [p] } := by
  rw [Atx.putForward, if_pos room, Atx.choose_sending (by exact sends)]

/-- A line that rests sends it. -/
theorem Atx.putForward_idle {y : Atx} (empty : y.queue = []) (idle : y.sending = none) (p : List Byte) :
    y.putForward p = { y with sending := some (.forward p) } := by
  simp [Atx.putForward, Atx.choose_idle, empty, idle]

/-- A ready SUP takes the frame that joins its queue at once (R179). -/
theorem Chip.joinSetup_ready {c : Chip} (ready : c.Ready) (p : List Byte) : c.joinSetup p = (c.carryOut p).give p := by
  obtain ⟨-, empty, room, goes⟩ := ready
  have emptied : ({ c with sup := { c.sup with queue := [] } } : Chip) = c := by
    rw [← empty]
  have can : Chip.canTake { c with sup := { c.sup with queue := [p] } } = true := by simp [Chip.canTake, room, goes]
  rw [Chip.joinSetup, empty, if_pos (by decide), List.nil_append, Chip.supRun]
  dsimp only [List.length_singleton]
  rw [Chip.takeSetups, if_pos can, Chip.takeSetups, Chip.takeSetup]
  dsimp only
  rw [emptied]

/-- One that cannot take it leaves it in the queue. -/
theorem Chip.joinSetup_waits {c : Chip} (room : c.sup.queue.length < 4) (waits : 4 ≤ c.rtx.replies.length ∨ c.sup.restart = true)
    (p : List Byte) : c.joinSetup p = { c with sup := { c.sup with queue := c.sup.queue ++ [p] } } := by
  have stuck : Chip.canTake { c with sup := { c.sup with queue := c.sup.queue ++ [p] } } = false := by
    rcases waits with full | restart
    · simp [Chip.canTake, Nat.not_lt.2 full]
    · simp [Chip.canTake, restart]
  rw [Chip.joinSetup, if_pos room, Chip.supRun_stuck stuck]

/-- Settles O48. -/
theorem setupFramesAreRouted : Obligations.SetupFramesAreRouted := by
  refine ⟨fun q ps s hunts clear => ?commands, fun head rest s running some few => ?routes⟩
  case commands =>
    have same (code : Nat) (q : Byte) := next_setupCommand hunts clear code q ps
    exact ⟨same 0 q, same 1 q, same 2 q, same 3 q, same 4 q, same 5 q, same 6 q, same 7 q, same 8 q, same 9 q, same 10 q,
      same 11 q, same 12 q, same 13 1#8, same 13 2#8, same 13 3#8, same 14 q, same 15 q, same 13 q⟩
  case routes =>
    intro c p own
    have row : exec (.setupFrameAccepted p) s = .next { s with chip := c.routeSetup p } := exec_setupFrame running head some few
    have other (foreign : ¬own) : c.routeSetup p = { c with atx := c.atx.putForward p } := if_neg foreign
    have here (mine : own) : c.routeSetup p = c.joinSetup p := if_pos mine
    refine ⟨fun foreign full => ?full, fun foreign room sends => ?busy, fun foreign empty idle => ?idle, fun mine full => ?fault,
      fun mine room waits => ?waits, fun mine ready => ?taken⟩
    case full => rw [row, other foreign, Atx.putForward_full full]
    case busy => rw [row, other foreign, Atx.putForward_busy room sends]
    case idle => rw [row, other foreign, Atx.putForward_idle empty idle]
    case fault =>
      have fault : c.routeSetup p = c.setupFault (codeOf p) .queueFull := (here mine).trans (if_neg (Nat.not_lt.2 full))
      rw [fault] at row
      obtain ⟨frame, same, formed⟩ := Chip.alert_lsq c fun t => t.setupFault (codeOf p) .queueFull
      refine ⟨_, row, rfl, frame, rfl, rfl, ⟨_, rfl, codeOf_cons head rest, rfl⟩, same, formed, fun code value => ?_⟩
      have code_eq : code = codeOf p := Fin.ext (value.trans (codeOf_cons head rest).symm)
      rw [code_eq]
    case waits => rw [row, here mine, Chip.joinSetup_waits room waits]
    case taken => rw [row, here mine, Chip.joinSetup_ready ready]

/-! ### Commands under their checks -/

/-- The statuses that leave the part as it is. -/
def Status.declines (st : Status) : Bool := decide (st = .busy) || decide (5 ≤ st.code)

/-- A command of a ready SUP under its checks (R181). -/
theorem next_checked {s : State} (ready : s.chip.Ready) {code : Nat} (hc : code < 16) (q : Byte) {ps : List Byte}
    (fits : ps.length ≤ 61) {checks : List (Bool × Status)} {go : Answer}
    (carried : s.chip.carryOut (setupPayload s.chip.tables.link.unitAddress.val code q ps) = s.chip.checked checks go)
    (declines : checks.all (fun x => x.2.declines) = true) (same : go.chip.rtx = s.chip.rtx) (taken : go.status.code < 4) :
    Host.Outcome.next (s.onChip fun c => c.setupCommand code q ps) = (.next { s with
      chip := s.chip.underChecks ⟨code, hc⟩ checks { go.chip with rtx := s.chip.withReply code go.status go.data } }
        : Host.Outcome State Fault Refusal) := by
  refine next_congr (Chip.command_checked ready hc q fits carried (fun x mem => ?_) same taken)
  have each := List.all_eq_true.1 declines x mem
  rw [Status.declines, Bool.or_eq_true, decide_eq_true_iff, decide_eq_true_iff] at each
  exact each

/-- A check that holds decides nothing. -/
theorem Chip.underChecks_holds (c go : Chip) (code : Fin 16) {holds : Bool} (pass : holds = true) (st : Status)
    (rest : List (Bool × Status)) : c.underChecks code ((holds, st) :: rest) go = c.underChecks code rest go :=
  Chip.underChecks_congr (by rw [firstFailure, if_pos pass]) rfl

/-- Without checks the command runs. -/
theorem Chip.underChecks_nil (c go : Chip) (code : Fin 16) : c.underChecks code [] go = go := rfl

/-- A wrong number of parameters refuses the command. -/
theorem next_length {s : State} (ready : s.chip.Ready) {code : Nat} (hc : code < 16) (q : Byte) {ps : List Byte} {n : Nat}
    (fits : ps.length ≤ 61) (wrong : ps.length ≠ n) {checks : List (Bool × Status)} {go : Answer}
    (carried : s.chip.carryOut (setupPayload s.chip.tables.link.unitAddress.val code q ps)
      = s.chip.checked ((decide (ps.length = n), .refusedLength) :: checks) go) :
    Host.Outcome.next (s.onChip fun c => c.setupCommand code q ps)
      = (.next { s with chip := s.chip.refusedAs ⟨code, hc⟩ .refusedLength } : Host.Outcome State Fault Refusal) :=
  next_refused ready hc q fits carried (by rw [firstFailure, decide_eq_false wrong]; rfl) (by decide)

/-! ### IDENTIFY, READ_TABLE and READ_SWITCHES -/

/-- IDENTIFY on its parameters. -/
theorem Chip.carryOut_identify (c : Chip) (q : Byte) (ps : List Byte) :
    c.carryOut (setupPayload c.tables.link.unitAddress.val 0 q ps) = c.checked [(decide (ps.length = 0), .refusedLength)]
      { chip := c, status := .ok, data := [0x2C#8, 0x04#8, 0x01#8] } := by
  rw [Chip.carryOut_setup c 0 (by decide), ← lengthIs_setup c.tables.link.unitAddress.val 0 q ps 0]
  rfl

/-- READ_TABLE on its parameters. -/
theorem Chip.carryOut_readTable (c : Chip) (q : Byte) (ps : List Byte) :
    c.carryOut (setupPayload c.tables.link.unitAddress.val 1 q ps) = c.checked
      [(decide (ps.length = 1), .refusedLength), (decide (1 ≤ q.toNat ∧ q.toNat ≤ 15), .refusedUnknown),
        (decide (byteAt ps 0 < recordCount q.toNat), .refusedAddress)]
      { chip := c, status := .ok
        data := q :: byteOf (byteAt ps 0) ++ c.tables.recordBytes q.toNat (byteAt ps 0) } := by
  have known : decide (1 ≤ q.toNat ∧ q.toNat ≤ 15) = tableKnown q.toNat := by simp [tableKnown]
  have data : q :: byteOf (byteAt ps 0) ++ c.tables.recordBytes q.toNat (byteAt ps 0)
      = byteOf q.toNat ++ byteOf (byteAt ps 0) ++ c.tables.recordBytes q.toNat (byteAt ps 0) := by
    rw [byteOf_toNat]
    rfl
  rw [Chip.carryOut_setup c 1 (by decide), known, data, ← lengthIs_setup c.tables.link.unitAddress.val 1 q ps 1,
    ← byteAt_setupPayload_one c.tables.link.unitAddress.val 1 q ps,
    ← byteAt_setupPayload_param c.tables.link.unitAddress.val 1 q ps 0]
  rfl

/-- READ_SWITCHES on its parameters. -/
theorem Chip.carryOut_readSwitches (c : Chip) (q : Byte) (ps : List Byte) :
    c.carryOut (setupPayload c.tables.link.unitAddress.val 3 q ps) = c.checked
      [(decide (ps.length = 1), .refusedLength), (decide (1 ≤ byteAt ps 0 ∧ byteAt ps 0 ≤ 16), .refusedLength),
        (decide (q.toNat ≤ 31 ∧ q.toNat + byteAt ps 0 ≤ 32), .refusedAddress)]
      { chip := c, status := .ok
        data := q :: byteOf (byteAt ps 0)
          ++ (List.range (byteAt ps 0)).map fun i => boolByte (c.switchSpace.getLsbD (q.toNat + i)) } := by
  have count : decide (1 ≤ byteAt ps 0 ∧ byteAt ps 0 ≤ 16) = countFits (byteAt ps 0) := by simp [countFits]
  have run : decide (q.toNat ≤ 31 ∧ q.toNat + byteAt ps 0 ≤ 32) = runFits q.toNat (byteAt ps 0) := by simp [runFits]
  have data (l : List Byte) : q :: byteOf (byteAt ps 0) ++ l = byteOf q.toNat ++ byteOf (byteAt ps 0) ++ l := by
    rw [byteOf_toNat]
    rfl
  rw [Chip.carryOut_setup c 3 (by decide), count, run, data, ← lengthIs_setup c.tables.link.unitAddress.val 3 q ps 1,
    ← byteAt_setupPayload_one c.tables.link.unitAddress.val 3 q ps,
    ← byteAt_setupPayload_param c.tables.link.unitAddress.val 3 q ps 0]
  rfl

/-- SOFT_RESTART on its parameters. -/
theorem Chip.carryOut_softRestart (c : Chip) (q : Byte) (ps : List Byte) :
    c.carryOut (setupPayload c.tables.link.unitAddress.val 14 q ps) = c.checked [(decide (ps.length = 0), .refusedLength)]
      { chip := { c with sup := { c.sup with restart := true } }, status := .ok, data := [] } := by
  rw [Chip.carryOut_setup c 14 (by decide), ← lengthIs_setup c.tables.link.unitAddress.val 14 q ps 0]
  rfl

/-- The store group, by its qualifier. -/
theorem Chip.carryOut_storeGroup (c : Chip) (q : Byte) (ps : List Byte) :
    c.carryOut (setupPayload c.tables.link.unitAddress.val 13 q ps) = match q.toNat with
      | 1 => c.doStore (setupPayload c.tables.link.unitAddress.val 13 q ps)
      | 2 => c.doRestore (setupPayload c.tables.link.unitAddress.val 13 q ps)
      | 3 => c.doDefaults (setupPayload c.tables.link.unitAddress.val 13 q ps)
      | _ => c.doUnassigned := by
  rw [Chip.carryOut_setup c 13 (by decide)]
  exact Chip.doStoreGroup.eq_1 c _

/-- The bits of the switch space, the status bits by their conditions. -/
theorem Chip.switchSpace_bits (c : Chip) : c.switchSpace = c.sup.switches
    ||| (if c.mdc.bench then 0x8000#32 else 0#32)
    ||| (if c.drm.arming = .armed then 0x10000#32 else 0#32)
    ||| (if c.sup.store ≠ none then 0x20000#32 else 0#32) := by
  unfold Chip.switchSpace
  cases c.sup.store <;> rfl

/-- Settles O49. -/
theorem readsRestartAndUnassigned : Obligations.ReadsRestartAndUnassigned := by
  refine ⟨fun q x s ready => ?reads, fun q ps s ready fits => ?others⟩
  case reads =>
    intro c id n bits tableChecks runChecks
    have empty : ([] : List Byte).length ≤ 61 := by decide
    have single : [x].length ≤ 61 := show 1 ≤ 61 by decide
    have ok : Status.code .ok < 4 := by decide
    let replies (d : Chip) : Host.Outcome State Fault Refusal := .next { s with chip := d }
    have data (l : List Byte) : q :: byteOf n ++ l = q :: x :: l := by rw [byteOf_toNat]; rfl
    refine ⟨fun ps fits some => ?identifyLength, ?identify, fun ps fits wrong => ⟨?tableLength, ?switchLength⟩, ?table, ?switches⟩
    case identifyLength =>
      exact next_length ready (by decide) q fits (mt List.length_eq_zero_iff.1 some) (c.carryOut_identify q ps)
    case identify =>
      exact next_congr (Chip.command_answer ready (by decide) q empty (c.carryOut_identify q []) rfl ok)
    case tableLength => exact next_length ready (by decide) q fits wrong (c.carryOut_readTable q ps)
    case switchLength => exact next_length ready (by decide) q fits wrong (c.carryOut_readSwitches q ps)
    case table =>
      refine (next_checked ready (by decide) q single (c.carryOut_readTable q [x]) rfl rfl ok).trans ?_
      exact congrArg replies (Chip.underChecks_congr rfl (congrArg (c.answered 1 .ok) (data _)))
    case switches =>
      refine (next_checked ready (by decide) q single (c.carryOut_readSwitches q [x]) rfl rfl ok).trans ?_
      rw [Chip.switchSpace_bits]
      exact congrArg replies (Chip.underChecks_congr rfl (congrArg (c.answered 3 .ok) (data _)))
  case others =>
    refine ⟨fun some => ?restartLength, ?restart, ?unassigned, fun notStore notRestore notDefaults => ?storeGroup⟩
    case restartLength =>
      exact next_length ready (by decide) q fits (mt List.length_eq_zero_iff.1 some) (s.chip.carryOut_softRestart q ps)
    case restart =>
      exact next_congr (Chip.command_answer ready (by decide) q (by decide) (s.chip.carryOut_softRestart q []) rfl
        (show Status.code .ok < 4 by decide))
    case unassigned =>
      exact next_congr (Chip.command_refused ready (by decide) q fits (Chip.carryOut_setup s.chip 15 (by decide) q ps) (by decide))
    case storeGroup =>
      refine next_congr (Chip.command_refused ready (by decide) q fits ((s.chip.carryOut_storeGroup q ps).trans ?_) (by decide))
      split
      · next one => exact absurd (BitVec.eq_of_toNat_eq one) notStore
      · next two => exact absurd (BitVec.eq_of_toNat_eq two) notRestore
      · next three => exact absurd (BitVec.eq_of_toNat_eq three) notDefaults
      · rfl

end Sys2Proof.Machine
end

section
/-! Tables replaced in one step: what takes part in it (R26, R29, R31, R95, R104, R168, R169, R183, R192). -/

namespace Sys2Proof.Machine

/-! ### A written record leaves the other tables -/

namespace Tables
variable (t : Tables) {id : Nat} (n : Nat) (bs : List Byte)

/-- LINK is table 14. -/
theorem writeRecord_link (other : id ≠ 14) : (t.writeRecord id n bs).link = t.link := by
  unfold writeRecord
  split
  case h_14 => exact absurd rfl other
  case h_6 | h_11 => split <;> rfl
  all_goals rfl

/-- ROLE_MAP is table 2. -/
theorem writeRecord_roleMap (other : id ≠ 2) : (t.writeRecord id n bs).roleMap = t.roleMap := by
  unfold writeRecord
  split
  case h_2 => exact absurd rfl other
  case h_6 | h_11 => split <;> rfl
  all_goals rfl

/-- SWITCH_DEF is table 3. -/
theorem writeRecord_switchDef (other : id ≠ 3) : (t.writeRecord id n bs).switchDef = t.switchDef := by
  unfold writeRecord
  split
  case h_3 => exact absurd rfl other
  case h_6 | h_11 => split <;> rfl
  all_goals rfl

/-- A SWITCH_DEF record is one of five. -/
theorem writeRecord_otherSwitch (i : Fin 5) (other : n ≠ i.val) :
    (t.writeRecord 3 n bs).switchDef[i] = t.switchDef[i] :=
  Vector.getElem_setIfInBounds_ne i.isLt other

end Tables

/-! ### The switches that forget their order -/

/-- A switch is named where its record or its role channel differs. -/
theorem movedSwitches_get (old new : Tables) (i : Fin 5) : (movedSwitches old new)[i] = true
    ↔ ¬(new.switchDef[i] = old.switchDef[i] ∧ new.roleMap.switchRole i = old.roleMap.switchRole i) := by
  simp only [movedSwitches, Fin.getElem_fin, Vector.getElem_ofFn, Bool.or_eq_true, decide_eq_true_iff]
  rw [← not_and_or, eq_comm, eq_comm (a := old.roleMap.switchRole i)]

/-- By the write of a record, the switch of a written SWITCH_DEF record is too. -/
theorem plainAfterWrite_get (old new : Tables) (id n : Nat) (i : Fin 5) : (plainAfterWrite old new id n)[i] = true
    ↔ (movedSwitches old new)[i] = true ∨ id = 3 ∧ i.val = n := by
  simp [plainAfterWrite]

/-- A switch that is named loses its ordered flag. -/
theorem Decode.forget_named (d : Decode) {plain : Vector Bool 5} {i : Fin 5} (named : plain[i] = true) :
    ((d.forget plain).switches[i]).ordered = false := by
  rw [Decode.forget_get, named]
  exact Bool.and_false _

/-- One that is not stays as it is. -/
theorem Decode.forget_unnamed (d : Decode) {plain : Vector Bool 5} {i : Fin 5} (unnamed : ¬plain[i] = true) :
    (d.forget plain).switches[i] = d.switches[i] := by
  rw [Decode.forget_get, Bool.eq_false_iff.2 unnamed, Bool.not_false, Bool.and_true]

/-! ### The replacement in its two steps -/

/-- The tables are in their place, and ALT has decided the top alert under the mask level that now stands. -/
def Chip.tablesTaken (c : Chip) (t : Tables) (plain : Vector Bool 5) : Chip :=
  Chip.relightIf { c with tables := t, cdc := c.cdc.forget plain }
    (decide (Chip.topAlert { c with tables := t, cdc := c.cdc.forget plain } ≠ c.topAlert))

/-- WNC acts where it is concerned. -/
theorem Chip.setTables_steps (c : Chip) (t : Tables) (plain : Vector Bool 5) :
    c.setTables t plain false = c.tablesTaken t plain
      ∧ c.setTables t plain true = (c.tablesTaken t plain).setWinch (c.wnc.reconfigure t.winchCfg) := by
  refine ⟨rfl, ?_⟩
  change (c.tablesTaken t plain).winchReconfigure = _
  rw [Chip.winchReconfigure, Chip.tablesTaken]
  simp

/-- The first step changes the tables, the switches and the lights. -/
theorem Chip.tablesTaken_eq (c : Chip) (t : Tables) (plain : Vector Bool 5) : c.tablesTaken t plain
    = { c with tables := t, cdc := c.cdc.forget plain, lsq := (c.tablesTaken t plain).lsq } := by
  unfold Chip.tablesTaken
  cases decide (Chip.topAlert { c with tables := t, cdc := c.cdc.forget plain } ≠ c.topAlert) <;> rfl

/-- The light picture is formed where the top alert changes (R169). -/
theorem Chip.tablesTaken_lsq (c : Chip) (t : Tables) (plain : Vector Bool 5) :
    ((c.tablesTaken t plain).topAlert = c.topAlert → (c.tablesTaken t plain).lsq = c.lsq)
      ∧ ((c.tablesTaken t plain).topAlert ≠ c.topAlert → (c.tablesTaken t plain).lsq = (c.tablesTaken t plain).picture) := by
  have top : (c.tablesTaken t plain).topAlert = Chip.topAlert { c with tables := t, cdc := c.cdc.forget plain } := by
    rw [Chip.tablesTaken_eq]
    rfl
  obtain ⟨same, formed⟩ := Chip.relightIf_lsq { c with tables := t, cdc := c.cdc.forget plain }
    (decide (Chip.topAlert { c with tables := t, cdc := c.cdc.forget plain } ≠ c.topAlert))
  rw [top]
  exact ⟨fun stands => same (decide_eq_false fun moved => moved stands), fun moved => formed (decide_eq_true moved)⟩

/-- Under the LINK record as it was the top alert stands. -/
theorem Chip.tablesTaken_dark (c : Chip) {t : Tables} (plain : Vector Bool 5) (link : t.link = c.tables.link) :
    c.tablesTaken t plain = { c with tables := t, cdc := c.cdc.forget plain } := by
  have top : Chip.topAlert { c with tables := t, cdc := c.cdc.forget plain } = c.topAlert := by
    unfold Chip.topAlert
    rw [link]
  rw [Chip.tablesTaken, decide_eq_false fun moved => moved top]
  rfl

/-- The winch under a new WINCH_CFG. -/
theorem Chip.winchReconfigured {c d : Chip} {cfg place : WinchCfg} (record : d.wnc = (c.wnc.reconfigure cfg).settle place) :
    c.WinchReconfigured d cfg := by
  obtain ⟨position, allowance, referenced, boost, ends, goes⟩ := c.wnc.reconfigure_spec cfg
  unfold Chip.WinchReconfigured
  dsimp only at ends goes ⊢
  rw [record]
  refine ⟨position, allowance, referenced, fun ended => ?_, fun stays => ?_, fun boosts => ?_⟩
  · have whole := ends ended
    exact ⟨(congrArg Winch.state whole :), (congrArg Winch.run whole :), (congrArg Winch.requested whole :),
      (congrArg Winch.lastOp whole :)⟩
  · have whole := goes stays
    exact ⟨(congrArg Winch.state whole :), (congrArg Winch.run whole :), (congrArg Winch.requested whole :),
      (congrArg Winch.lastOp whole :)⟩
  · exact (boost.1 (((c.wnc.reconfigure cfg).settle_spec place).2.2.1 boosts).1).2

/-- Whatever tables are taken, the switches keep their positions, and of the part only these records change. -/
theorem Chip.setTables_frame (c : Chip) (t : Tables) (plain : Vector Bool 5) (winch : Bool) :
    let d := c.setTables t plain winch
    d = { c with tables := t, cdc := d.cdc, wnc := d.wnc, drm := d.drm, alt := d.alt, lsq := d.lsq }
      ∧ d.cdc = { c.cdc with switches := d.cdc.switches }
      ∧ ∀ i : Fin 5, (d.cdc.switches[i]).pos = (c.cdc.switches[i]).pos := by
  intro d
  have cdc : d.cdc = c.cdc.forget plain := c.setTables_cdc t plain winch
  refine ⟨Chip.fieldwise _ _ ?_ ?_ ?_ ?_ ?_ ?_ rfl ?_ rfl rfl rfl ?_ ?_ rfl ?_ ?_ ?_ ?_ ?_, ?decode, fun i => ?position⟩
  case decode =>
    rw [cdc]
    rfl
  case position =>
    rw [cdc, Decode.forget_get]
  all_goals simp [d]

end Sys2Proof.Machine
end

section
/-! The table commands (R19, R27, R181, R183, R186 to R194). -/

namespace Sys2Proof.Machine

/-! ### WRITE_TABLE -/

/-- WRITE_TABLE without an index. -/
theorem Chip.carryOut_writeTable_nil (c : Chip) (q : Byte) :
    c.carryOut (setupPayload c.tables.link.unitAddress.val 2 q [])
      = { chip := c, status := if 1 ≤ q.toNat ∧ q.toNat ≤ 15 then .refusedLength else .refusedUnknown, data := [] } := by
  have checks (go : Answer) (rest : List (Bool × Status)) : c.checked
      ((writeLength (setupPayload c.tables.link.unitAddress.val 2 q []) q.toNat 0, .refusedLength)
        :: (tableKnown q.toNat, .refusedUnknown) :: rest) go
      = { chip := c, status := if 1 ≤ q.toNat ∧ q.toNat ≤ 15 then .refusedLength else .refusedUnknown, data := [] } := by
    split
    · next known =>
      have table : tableKnown q.toNat = true := by simp [tableKnown, known]
      rw [Chip.checked, writeLength, table]
      rfl
    · next unknown =>
      have table : tableKnown q.toNat = false := by simpa [tableKnown] using unknown
      rw [Chip.checked, writeLength, table]
      rfl
  rw [Chip.carryOut_setup c 2 (by decide), Chip.doWriteTable, byteAt_setupPayload_one]
  exact checks _ _

/-- WRITE_TABLE on its parameters. -/
theorem Chip.carryOut_writeTable_cons (c : Chip) (q x : Byte) (bs : List Byte) :
    c.carryOut (setupPayload c.tables.link.unitAddress.val 2 q (x :: bs)) = c.checked
      [(decide (1 ≤ q.toNat ∧ q.toNat ≤ 15 → bs.length = recordLength q.toNat x.toNat), .refusedLength),
        (decide (1 ≤ q.toNat ∧ q.toNat ≤ 15), .refusedUnknown), (decide (x.toNat < recordCount q.toNat), .refusedAddress),
        (decide (c.sup.store = none), .busy), (decide (q.toNat = 2 → c.drm.arming ≠ .armed), .refusedArmed),
        (structureHolds q.toNat x.toNat bs, .refusedOrder)]
      { chip := c.writeRecord q.toNat x.toNat bs
        status := if (c.tables.writeRecord q.toNat x.toNat bs).recordBytes q.toNat x.toNat ≠ readBytes q.toNat bs then .clamped
          else .ok
        data := q :: x :: (c.tables.writeRecord q.toNat x.toNat bs).recordBytes q.toNat x.toNat } := by
  have known : tableKnown q.toNat = decide (1 ≤ q.toNat ∧ q.toNat ≤ 15) := by simp [tableKnown]
  have length : writeLength (setupPayload c.tables.link.unitAddress.val 2 q (x :: bs)) q.toNat x.toNat
      = decide (1 ≤ q.toNat ∧ q.toNat ≤ 15 → bs.length = recordLength q.toNat x.toNat) := by
    rw [writeLength, known, length_setupPayload, List.length_cons, Bool.eq_iff_iff]
    simp only [Bool.or_eq_true, Bool.not_eq_true', decide_eq_false_iff_not, Bool.and_eq_true, decide_eq_true_iff]
    omega
  have idle : c.storeIdle = decide (c.sup.store = none) := by
    unfold Chip.storeIdle
    cases c.sup.store <;> rfl
  have armed : (decide (q.toNat ≠ 2) || c.notArmed) = decide (q.toNat = 2 → c.drm.arming ≠ .armed) := by
    rw [Chip.notArmed, Bool.eq_iff_iff]
    simp only [Bool.or_eq_true, decide_eq_true_iff]
    tauto
  have byte : byteAt (setupPayload c.tables.link.unitAddress.val 2 q (x :: bs)) 2 = x.toNat := rfl
  have status : (if wasClamped c.tables q.toNat x.toNat bs = true then Status.clamped else .ok)
      = if (c.tables.writeRecord q.toNat x.toNat bs).recordBytes q.toNat x.toNat ≠ readBytes q.toNat bs then .clamped else .ok :=
    if_congr decide_eq_true_iff rfl rfl
  rw [Chip.carryOut_setup c 2 (by decide), Chip.doWriteTable, byteAt_setupPayload_one, byte,
    drop_setupPayload _ _ _ _ 1, List.drop_succ_cons, List.drop_zero, length, known, idle, armed, status, byteOf_toNat,
    byteOf_toNat]
  rfl

/-- The part with a record written, for a table that is not WINCH_CFG. -/
theorem Chip.writeRecord_other (c : Chip) {id : Nat} (n : Nat) (bs : List Byte) (other : id ≠ 8) : c.writeRecord id n bs
    = c.tablesTaken (c.tables.writeRecord id n bs) (plainAfterWrite c.tables (c.tables.writeRecord id n bs) id n) := by
  rw [Chip.writeRecord, decide_eq_false other]
  exact (Chip.setTables_steps c _ _).1

/-- A record of neither ROLE_MAP nor SWITCH_DEF leaves the switches. -/
theorem Chip.writeRecord_switches (c : Chip) {id : Nat} (n : Nat) (bs : List Byte) (notRoles : id ≠ 2) (notSwitch : id ≠ 3) :
    c.cdc.forget (plainAfterWrite c.tables (c.tables.writeRecord id n bs) id n) = c.cdc := by
  refine Decode.forget_none _ _ fun i => Bool.eq_false_iff.2 fun named => ?_
  rcases (plainAfterWrite_get ..).1 named with moved | switch
  · refine (movedSwitches_get ..).1 moved ?_
    rw [Tables.writeRecord_switchDef _ _ _ notSwitch, Tables.writeRecord_roleMap _ _ _ notRoles]
    exact ⟨rfl, rfl⟩
  · exact notSwitch switch.1

/-- Which switches a written record makes decode plainly next. -/
theorem Chip.writeRecord_ordered (c : Chip) (id n : Nat) (bs : List Byte) (i : Fin 5) :
    let new := c.tables.writeRecord id n bs
    let d := c.writeRecord id n bs
    (id ≠ 2 → id ≠ 3 → d.cdc.switches[i] = c.cdc.switches[i])
      ∧ (id = 3 → n = i.val → (d.cdc.switches[i]).ordered = false)
      ∧ (id = 3 → n ≠ i.val → d.cdc.switches[i] = c.cdc.switches[i])
      ∧ (id = 2 → new.roleMap.switchRole i ≠ c.tables.roleMap.switchRole i → (d.cdc.switches[i]).ordered = false)
      ∧ (id = 2 → new.roleMap.switchRole i = c.tables.roleMap.switchRole i → d.cdc.switches[i] = c.cdc.switches[i]) := by
  intro new d
  have cdc : d.cdc = c.cdc.forget (plainAfterWrite c.tables new id n) := c.setTables_cdc _ _ _
  have named := plainAfterWrite_get c.tables new id n i
  have moved := movedSwitches_get c.tables new i
  rw [cdc]
  refine ⟨fun notRoles notSwitch => ?_, fun switch here => ?_, fun switch other => ?_, fun roles differs => ?_,
    fun roles same => ?_⟩
  · rw [c.writeRecord_switches n bs notRoles notSwitch]
  · exact Decode.forget_named _ (named.2 (.inr ⟨switch, here.symm⟩))
  · subst switch
    refine Decode.forget_unnamed _ fun is => (named.1 is).elim (fun changed => moved.1 changed ?_) fun here => other here.2.symm
    exact ⟨Tables.writeRecord_otherSwitch _ _ _ _ other, congrArg (fun m : RoleMap => m.switchRole i)
      (Tables.writeRecord_roleMap c.tables n bs (by decide))⟩
  · exact Decode.forget_named _ (named.2 (.inl (moved.2 fun stands => differs stands.2)))
  · subst roles
    refine Decode.forget_unnamed _ fun is => (named.1 is).elim (fun changed => moved.1 changed ⟨?_, same⟩)
      fun here => absurd here.1 (by decide)
    exact congrArg (·[i]) (Tables.writeRecord_switchDef c.tables n bs (by decide))

/-- Settles O50. -/
theorem writeTableWritesTheRecord : Obligations.WriteTableWritesTheRecord := by
  intro q x bs s ready fits c id n new checks
  have frame := c.setTables_frame new (plainAfterWrite c.tables new id n) (decide (id = 8))
  refine ⟨?bare, ?written, Chip.setTables_tables .., fun winch => ?winch, fun notWinch notLink d built => ?plain,
    fun notWinch d built => ?kept, fun link d built => ?link, ⟨rfl, fun _ _ _ => rfl⟩, fun _ => rfl, fun d built => ?switches⟩
  case bare =>
    have carried : c.carryOut (setupPayload c.tables.link.unitAddress.val 2 q []) = _ := c.carryOut_writeTable_nil q
    by_cases known : 1 ≤ id ∧ id ≤ 15
    · rw [if_pos known] at carried ⊢
      exact next_congr (Chip.command_refused ready (by decide) q (by decide) carried (by decide))
    · rw [if_neg known] at carried ⊢
      exact next_congr (Chip.command_refused ready (by decide) q (by decide) carried (by decide))
  case written =>
    refine next_checked ready (by decide) q ?_ (c.carryOut_writeTable_cons q x bs) rfl (Chip.setTables_rtx ..) ?_
    · rw [List.length_cons]
      omega
    · dsimp only
      split <;> decide
  case winch =>
    have steps := (Chip.setTables_steps c new (plainAfterWrite c.tables new id n)).2
    have link : new.link = c.tables.link := Tables.writeRecord_link _ _ _ (by rw [winch]; decide)
    have written : c.writeRecord id n bs = Chip.setWinch { c with tables := new } (c.wnc.reconfigure new.winchCfg) := by
      rw [Chip.writeRecord, decide_eq_true winch, steps, Chip.tablesTaken_dark _ _ link,
        c.writeRecord_switches n bs (by rw [winch]; decide) (by rw [winch]; decide)]
    refine ⟨Chip.winchReconfigured (place := new.winchCfg) ?_, written⟩
    rw [written, Chip.setWinch_wnc]
  case plain =>
    have whole := (built.trans (c.writeRecord_other n bs notWinch)).trans
      (Chip.tablesTaken_dark c _ (Tables.writeRecord_link _ _ _ notLink))
    rw [whole]
  case kept =>
    have whole := (built.trans (c.writeRecord_other n bs notWinch)).trans (Chip.tablesTaken_eq ..)
    rw [whole]
    exact ⟨rfl, rfl, rfl⟩
  case link =>
    have taken := built.trans (c.writeRecord_other n bs (by rw [link]; decide))
    have whole := taken.trans (Chip.tablesTaken_eq ..)
    rw [c.writeRecord_switches n bs (by rw [link]; decide) (by rw [link]; decide), ← taken] at whole
    refine ⟨whole, ?_⟩
    rw [taken]
    exact c.tablesTaken_lsq _ _
  case switches =>
    subst built
    obtain ⟨records, decode, position⟩ := frame
    exact ⟨records, decode, fun i => ⟨position i, c.writeRecord_ordered id n bs i⟩⟩

end Sys2Proof.Machine
end

section
/-! The failsafe capture, the table store and its defaults (R19, R187, R189 to R193). -/

namespace Sys2Proof.Machine

/-! ### CAPTURE_FAILSAFE -/

/-- No STORE is in flight. -/
theorem Chip.storeIdle_eq (c : Chip) : c.storeIdle = decide (c.sup.store = none) := by
  unfold Chip.storeIdle
  cases c.sup.store <;> rfl

/-- CAPTURE_FAILSAFE on its parameters. -/
theorem Chip.carryOut_capture (c : Chip) (q : Byte) (ps : List Byte) :
    c.carryOut (setupPayload c.tables.link.unitAddress.val 7 q ps) = c.checked
      [(decide (ps.length = 2), .refusedLength), (decide (c.sup.store = none), .busy)]
      { chip := { c with tables := { c.tables with failsafe := c.captured (wordAt ps 0 % 4096) } }
        status := if wordAt ps 0 % 4096 = 0 then .ignored else .ok
        data := [] } := by
  rw [Chip.carryOut_setup c 7 (by decide), ← Chip.storeIdle_eq, ← lengthIs_setup c.tables.link.unitAddress.val 7 q ps 2,
    ← wordAt_setupPayload c.tables.link.unitAddress.val 7 q ps 0]
  rfl

/-- The word of the two bytes of a mask. -/
theorem wordAt_wordBytes_alone (w : BitVec 16) : wordAt (wordBytes w) 0 = w.toNat := by
  have := w.isLt
  change (w.extractLsb' 0 8).toNat + 256 * (w.extractLsb' 8 8).toNat = w.toNat
  simp only [BitVec.extractLsb'_toNat, Nat.shiftRight_eq_div_pow]
  omega

/-- The twelve bits of the mask that are read. -/
theorem Chip.captured_eq (c : Chip) (mask : BitVec 16) : c.captured (mask.toNat % 4096)
    = Vector.ofFn fun i : Fin 12 => if mask.getLsbD i.val then (c.slots[i]).raw else c.tables.failsafe[i] := by
  have bit (i : Fin 12) : (mask.toNat % 4096).testBit i.val = mask.getLsbD i.val := by
    rw [show 4096 = 2 ^ 12 from rfl, Nat.testBit_mod_two_pow, decide_eq_true i.isLt, Bool.true_and]
    rfl
  unfold Chip.captured
  simp only [bit]

/-- Settles O52. -/
theorem captureCopiesTheSlots : Obligations.CaptureCopiesTheSlots := by
  intro q mask s ready c record
  have fits : (wordBytes mask).length ≤ 61 := show 2 ≤ 61 by decide
  have carried := c.carryOut_capture q (wordBytes mask)
  rw [wordAt_wordBytes_alone, c.captured_eq mask] at carried
  refine ⟨fun ps few wrong => ?length, fun busy => ?busy, fun idle => ?captured⟩
  case length => exact next_length ready (by decide) q few wrong (c.carryOut_capture q ps)
  case busy =>
    rw [decide_eq_false busy] at carried
    exact next_congr (Chip.command_busy ready (by decide) q fits carried)
  case captured =>
    rw [decide_eq_true idle] at carried
    refine next_congr (Chip.command_answer ready (by decide) q fits carried rfl ?_)
    change Status.code (if mask.toNat % 4096 = 0 then .ignored else .ok) < 4
    split <;> decide

/-! ### The image -/

/-- The check value is the complement of the sum of the bytes (R189). -/
theorem Tables.checkValue_toNat (t : Tables) :
    t.checkValue.toNat = 65535 - (t.copyBytes.map BitVec.toNat).sum % 65536 := by
  have sum : t.copyBytes.foldl (fun n b => n + b.toNat) 0 = (t.copyBytes.map BitVec.toNat).sum := by
    rw [List.sum_eq_foldl, List.foldl_map]
  rw [Tables.checkValue, sum, BitVec.toNat_not, BitVec.toNat_ofNat]

/-- When an image checks good (R189). -/
theorem Image.checksGood_iff (m : Image) :
    m.checksGood = true ↔ m.blank = false ∧ m.torn = false ∧ m.check = m.copy.checkValue := by
  simp [Image.checksGood, and_assoc]

/-! ### STORE -/

/-- STORE on its parameters. -/
theorem Chip.carryOut_store (c : Chip) (ps : List Byte) :
    c.carryOut (setupPayload c.tables.link.unitAddress.val 13 1#8 ps) = c.checked
      [(decide (ps.length = 0), .refusedLength), (decide (c.sup.store = none), .busy),
        (decide (c.btm.level ≠ .cutoff), .refusedState)]
      { chip := c.startStore, status := .ok, data := [] } := by
  rw [Chip.carryOut_storeGroup, ← Chip.storeIdle_eq, ← lengthIs_setup c.tables.link.unitAddress.val 13 1#8 ps 0]
  rfl

/-- The completion of a STORE whose snapshot is known. -/
theorem Chip.completeStore_eq {c : Chip} {t : Tables} (snapshot : c.tbs.snapshot = some t) : c.completeStore = { c with
    sup := { c.sup with store := none }
    tbs := { image := { blank := false, copy := t, check := t.checkValue, torn := false }, snapshot := none } } := by
  rw [Chip.completeStore, snapshot]

/-- Settles O53. -/
theorem storeWritesTheImage : Obligations.StoreWritesTheImage := by
  refine ⟨fun t => ⟨rfl, t.checkValue_toNat⟩, fun m => ⟨m.checksGood_iff, rfl⟩, fun ps s => ?_⟩
  have carried := s.chip.carryOut_store []
  refine ⟨fun ready fits some => ?length, fun ready busy => ?busy, fun ready idle cutoff => ?refused,
    fun ready idle healthy => ?starts, fun start tables running runs snapshot => ?completes⟩
  case length => exact next_length ready (by decide) 1#8 fits (mt List.length_eq_zero_iff.1 some) (s.chip.carryOut_store ps)
  case busy =>
    rw [decide_eq_false busy] at carried
    exact next_congr (Chip.command_busy ready (by decide) 1#8 (by decide) carried)
  case refused =>
    rw [decide_eq_true idle, decide_eq_false (not_not.2 cutoff)] at carried
    exact next_congr (Chip.command_refused ready (by decide) 1#8 (by decide) carried (by decide))
  case starts =>
    rw [decide_eq_true idle, decide_eq_true healthy] at carried
    refine ⟨_, next_congr (Chip.command_answer ready (by decide) 1#8 (by decide) carried rfl (show Status.code .ok < 4 by decide)),
      rfl, rfl, rfl, rfl⟩
  case completes =>
    have due : s.chip.sup.store.map (· + 40) = some (start + 40) := by
      rw [runs]
      rfl
    have row : exec .storeCompletion s = _ := State.next_whenDue running due Chip.completeStore
    rw [Chip.completeStore_eq (c := { s.chip with now := s.chip.dueAt (start + 40) }) snapshot] at row
    exact ⟨_, row, rfl, rfl, rfl, rfl, rfl, (Image.checksGood_iff _).2 ⟨rfl, rfl, rfl⟩⟩

/-! ### RESTORE and DEFAULTS -/

/-- RESTORE on its parameters. -/
theorem Chip.carryOut_restore (c : Chip) (ps : List Byte) :
    c.carryOut (setupPayload c.tables.link.unitAddress.val 13 2#8 ps) = c.checked
      [(decide (ps.length = 0), .refusedLength), (decide (c.sup.store = none), .busy),
        (decide (c.drm.arming ≠ .armed), .refusedArmed), (c.tbs.image.checksGood, .refusedState)]
      { chip := c.loadTables c.tbs.image.copy, status := .ok, data := [] } := by
  rw [Chip.carryOut_storeGroup, ← Chip.storeIdle_eq, ← lengthIs_setup c.tables.link.unitAddress.val 13 2#8 ps 0]
  rfl

/-- DEFAULTS on its parameters. -/
theorem Chip.carryOut_defaults (c : Chip) (ps : List Byte) :
    c.carryOut (setupPayload c.tables.link.unitAddress.val 13 3#8 ps) = c.checked
      [(decide (ps.length = 0), .refusedLength), (decide (c.sup.store = none), .busy),
        (decide (c.drm.arming ≠ .armed), .refusedArmed)]
      { chip := c.loadTables factoryTables, status := .ok, data := [] } := by
  rw [Chip.carryOut_storeGroup, ← Chip.storeIdle_eq, ← lengthIs_setup c.tables.link.unitAddress.val 13 3#8 ps 0]
  rfl

/-- Which switches keep their order when all the tables are replaced (R192). -/
theorem Chip.loadTables_ordered (c : Chip) (t : Tables) (i : Fin 5) :
    (((c.loadTables t).cdc.switches[i]).ordered = true ↔ (c.cdc.switches[i]).ordered = true
      ∧ t.switchDef[i] = c.tables.switchDef[i] ∧ t.roleMap.switchRole i = c.tables.roleMap.switchRole i) := by
  have moved := movedSwitches_get c.tables t i
  rw [Chip.loadTables, Chip.setTables_cdc, Decode.forget_get]
  dsimp only
  rw [Bool.and_eq_true, Bool.not_eq_true', ← Bool.not_eq_true, moved, not_not]

/-- RTX at the replacement of all the tables. -/
theorem Chip.loadTables_rtx (c : Chip) (t : Tables) : (c.loadTables t).rtx = c.rtx := Chip.setTables_rtx ..

/-- Settles O54. -/
theorem restoreAndDefaultsReplaceTables : Obligations.RestoreAndDefaultsReplaceTables := by
  refine ⟨?factory, fun s ready => ?commands⟩
  case factory =>
    intro f no on blink shown
    refine ⟨fun i => Vector.getElem_replicate _, rfl, rfl, fun i k => ?curve, fun i => ?profile, rfl, rfl, rfl, rfl,
      fun i => Vector.getElem_replicate _, rfl, ?scenes, rfl, rfl, rfl, rfl, rfl, rfl, fun i => Vector.getElem_replicate _⟩
    case curve =>
      have linear : f.curve[i] = linearCurve := Vector.getElem_replicate _
      rw [linear]
      revert k
      decide
    case profile =>
      revert i
      decide
    case scenes => decide +kernel
  case commands =>
    intro c checks
    have ok : Status.code .ok < 4 := by decide
    have empty : ([] : List Byte).length ≤ 61 := by decide
    let replies (d : Chip) : Host.Outcome State Fault Refusal := .next { s with chip := d }
    refine ⟨fun ps fits some => ⟨?restoreLength, ?defaultsLength⟩, ?restore, ?defaults, fun t d built => ?load⟩
    case restoreLength =>
      exact next_length ready (by decide) 2#8 fits (mt List.length_eq_zero_iff.1 some) (c.carryOut_restore ps)
    case defaultsLength =>
      exact next_length ready (by decide) 3#8 fits (mt List.length_eq_zero_iff.1 some) (c.carryOut_defaults ps)
    case restore =>
      refine (next_checked ready (by decide) 2#8 empty (c.carryOut_restore []) rfl (c.loadTables_rtx _) ok).trans ?_
      exact congrArg replies (Chip.underChecks_congr rfl rfl)
    case defaults =>
      refine (next_checked ready (by decide) 3#8 empty (c.carryOut_defaults []) rfl (c.loadTables_rtx _) ok).trans ?_
      exact congrArg replies (Chip.underChecks_congr rfl rfl)
    case load =>
      subst built
      obtain ⟨records, decode, position⟩ := c.setTables_frame t (movedSwitches c.tables t) true
      have steps : c.loadTables t = _ := (c.setTables_steps t (movedSwitches c.tables t)).2
      have taken := c.tablesTaken_eq t (movedSwitches c.tables t)
      obtain ⟨same, formed⟩ := c.tablesTaken_lsq t (movedSwitches c.tables t)
      have cdc : (c.loadTables t).cdc = c.cdc.forget (movedSwitches c.tables t) := c.setTables_cdc ..
      refine ⟨records, Chip.winchReconfigured (place := t.winchCfg) ?_, ⟨c.tablesTaken t (movedSwitches c.tables t), ?_, same,
        formed, steps⟩, decode, fun i => ⟨position i, c.loadTables_ordered t i⟩⟩
      · rw [steps, Chip.setWinch_wnc, taken]
      · rw [cdc]
        exact taken

end Sys2Proof.Machine
end

section
/-! The fields of the table records: what reading gives back of what was written (12, section 12.6). -/

namespace Sys2Proof.Machine

/-! ### Bytes and words -/

/-- A one-byte field. -/
theorem byte_join {n : Nat} (small : n ≤ 255) : (BitVec.ofNat 8 n).toNat = n := by
  rw [BitVec.toNat_ofNat]
  omega

/-- A two-byte field. -/
theorem word_join {n : Nat} (small : n ≤ 65535) :
    (BitVec.ofNat 8 n).toNat + 256 * (BitVec.ofNat 8 (n / 256)).toNat = n := by
  simp only [BitVec.toNat_ofNat]
  omega

/-- A one-byte field within its range comes back. -/
theorem clampNat_byte {lo hi n : Nat} (low : lo ≤ n) (high : n ≤ hi) (fits : hi ≤ 255 := by decide) :
    clampNat lo hi (BitVec.ofNat 8 n).toNat = n := by
  rw [byte_join (high.trans fits), clampNat_eq_self low high]

/-- A two-byte field within its range comes back. -/
theorem clampNat_word {lo hi n : Nat} (low : lo ≤ n) (high : n ≤ hi) (fits : hi ≤ 65535 := by decide) :
    clampNat lo hi ((BitVec.ofNat 8 n).toNat + 256 * (BitVec.ofNat 8 (n / 256)).toNat) = n := by
  rw [word_join (high.trans fits), clampNat_eq_self low high]

/-- A signed field comes back. -/
theorem int_join {x : Int} (low : -1000 ≤ x) (high : x ≤ 1000) : (BitVec.ofNat 16 ((BitVec.ofNat 8 (BitVec.ofInt 16 x).toNat).toNat
    + 256 * (BitVec.ofNat 8 ((BitVec.ofInt 16 x).toNat / 256)).toNat)).toInt = x := by
  have small : (BitVec.ofInt 16 x).toNat ≤ 65535 := Nat.le_of_lt_succ (BitVec.ofInt 16 x).isLt
  rw [word_join small, BitVec.ofNat_toNat, BitVec.setWidth_eq]
  exact BitVec.toInt_ofInt_eq_self (by decide) (by omega) (by omega)

/-- A signed field within its range comes back. -/
theorem clampInt_int {x : Int} (low : -1000 ≤ x) (high : x ≤ 1000) :
    clampInt (-1000) 1000 (BitVec.ofNat 16 ((BitVec.ofNat 8 (BitVec.ofInt 16 x).toNat).toNat
      + 256 * (BitVec.ofNat 8 ((BitVec.ofInt 16 x).toNat / 256)).toNat)).toInt = x := by
  rw [int_join low high, clampInt_eq_self low high]

/-- A field of the values 0 to 3 comes back. -/
theorem fin4_byte (p : Fin 4) : (⟨min 3 (BitVec.ofNat 8 p.val).toNat, by omega⟩ : Fin 4) = p := by
  refine Fin.ext ?_
  have := byte_join (n := p.val) (by omega)
  dsimp only
  omega

/-- A role in its byte, 255 for NONE. -/
theorem roleByte_eq (r : Role) : roleByte r = byteOf ((r.map Fin.val).getD 255) := by
  cases r <;> rfl

/-- A role comes back from its byte. -/
theorem roleAt_byte {bs : List Byte} {i : Nat} {r : Role} 
    (byte : byteAt bs i = (BitVec.ofNat 8 ((r.map Fin.val).getD 255)).toNat) : roleAt bs i = r := by
  cases r with
  | none =>
    have none : byteAt bs i = 255 := byte
    simp [roleAt, none]
  | some ch =>
    have channel : byteAt bs i = ch.val := byte.trans (byte_join (show ch.val ≤ 255 by omega))
    simp [roleAt, channel]

/-! ### Entries of one length -/

/-- A byte of a list of entries of one length. -/
theorem byteAt_flatMap {α : Type} {f : α → List Byte} {k : Nat} (lengths : ∀ a, (f a).length = k) (l : List α) {i j : Nat}
    (hi : i < l.length) (hj : j < k) : byteAt (l.flatMap f) (k * i + j) = byteAt (f l[i]) j := by
  induction l generalizing i with
  | nil => exact absurd hi (Nat.not_lt_zero i)
  | cons a l ih =>
    rw [List.flatMap_cons]
    unfold byteAt
    cases i with
    | zero =>
      have inside : k * 0 + j < (f a).length := by rw [lengths]; omega
      rw [List.getD_append _ _ _ _ inside]
      simp
    | succ i =>
      have past : (f a).length ≤ k * (i + 1) + j := by rw [lengths, Nat.mul_succ]; omega
      have rest := ih (i := i) (by simpa using hi)
      unfold byteAt at rest
      rw [List.getD_append_right _ _ _ _ past, lengths, Nat.mul_succ, show k * i + k + j - k = k * i + j by omega, rest]
      simp

/-- A word of a list of words. -/
theorem wordAt_flatMap {α : Type} {f : α → List Byte} (lengths : ∀ a, (f a).length = 2) (l : List α) {i : Nat}
    (hi : i < l.length) : wordAt (l.flatMap f) (2 * i) = wordAt (f l[i]) 0 := by
  have low := byteAt_flatMap lengths l hi (show 0 < 2 by decide)
  have high := byteAt_flatMap lengths l hi (show 1 < 2 by decide)
  unfold wordAt
  rw [high]
  exact congrArg (· + _) low

/-- The length of such a list. -/
theorem length_flatMap_const {α : Type} {f : α → List Byte} {k : Nat} (lengths : ∀ a, (f a).length = k) (l : List α) :
    (l.flatMap f).length = l.length * k := by
  induction l with
  | nil => simp
  | cons a l ih => rw [List.flatMap_cons, List.length_append, ih, lengths, List.length_cons, Nat.succ_mul, Nat.add_comm]

/-! ### The records come back -/

/-- CHANNEL_CAL. -/
theorem ChannelCal.read_bytes {r : ChannelCal} (ok : r.Ok) : ChannelCal.read r.bytes = r := by
  obtain ⟨centre, halfSpan, deadband⟩ := ok
  have reverse : flagAt r.bytes 6 = r.reverse := by
    cases reverse : r.reverse <;> simp [flagAt, ChannelCal.bytes, byteAt, wordOf, boolByte, reverse]
  exact (ChannelCal.mk.injEq ..).mpr ⟨clampNat_word centre.1 centre.2, clampNat_word halfSpan.1 halfSpan.2,
    clampNat_word (Nat.zero_le _) deadband, reverse⟩

/-- ROLE_MAP. -/
theorem RoleMap.read_bytes (r : RoleMap) : RoleMap.read r.bytes = r := by
  unfold RoleMap.bytes
  simp only [roleByte_eq]
  exact (RoleMap.mk.injEq ..).mpr ⟨roleAt_byte rfl, roleAt_byte rfl, roleAt_byte rfl, roleAt_byte rfl, roleAt_byte rfl,
    roleAt_byte rfl, roleAt_byte rfl, roleAt_byte rfl⟩

/-- SWITCH_DEF. -/
theorem SwitchDef.read_bytes {index : Nat} {r : SwitchDef} (ok : r.Ok index) : SwitchDef.read index r.bytes = r := by
  obtain ⟨t1, t2, hyst, ⟨map0, map1, map2⟩, -⟩ := ok
  have small : mapLimit index ≤ 255 := by
    unfold mapLimit
    split <;> decide
  have kind : (if byteAt r.bytes 0 < 3 then SwitchKind.two else .three) = r.kind := by
    cases kind : r.kind <;> simp [SwitchDef.bytes, byteAt, byteOf, kind]
  exact (SwitchDef.mk.injEq ..).mpr ⟨kind, clampInt_int t1.1 t1.2, clampInt_int t2.1 t2.2, clampNat_byte (Nat.zero_le _) hyst,
    clampNat_byte (Nat.zero_le _) map0 small, clampNat_byte (Nat.zero_le _) map1 small,
    clampNat_byte (Nat.zero_le _) map2 small⟩

/-- CURVE. -/
theorem Curve.read_bytes {r : Curve} (ok : Curve.Ok r) : Curve.read r.bytes = r := by
  refine Vector.ext fun i inside => ?_
  have word := wordAt_flatMap (f := intOf) (fun _ => rfl) r.toList (i := i) (by simpa using inside)
  rw [Vector.getElem_toList] at word
  have range : -1000 ≤ r[i] ∧ r[i] ≤ 1000 := ok ⟨i, inside⟩
  have entry : intAt r.bytes (2 * i) = r[i] := by
    rw [intAt, Curve.bytes, word]
    exact int_join range.1 range.2
  simp only [Curve.read, Vector.getElem_ofFn]
  rw [entry, clampInt_eq_self range.1 range.2]

/-- PROFILE. -/
theorem Profile.read_bytes {r : Profile} (ok : r.Ok) : Profile.read r.bytes = r := by
  obtain ⟨rearRatio, speedLimit, reverseDelay, dragBrake, slew⟩ := ok
  exact (Profile.mk.injEq ..).mpr ⟨fin4_byte _, fin4_byte _, clampNat_word (Nat.zero_le _) rearRatio,
    clampNat_word speedLimit.1 speedLimit.2, clampNat_word (Nat.zero_le _) reverseDelay,
    clampNat_word (Nat.zero_le _) dragBrake, byte_join slew⟩

/-- SERVO_END. -/
theorem ServoEnd.read_bytes {r : ServoEnd} (ok : r.Ok) : ServoEnd.read r.bytes = r := by
  obtain ⟨low, left, right, high⟩ := ok
  exact (ServoEnd.mk.injEq ..).mpr ⟨clampNat_word low (by omega), clampNat_word (by omega) (by omega),
    clampNat_word (by omega) high⟩

/-- DRIVE_CFG. -/
theorem DriveCfg.read_bytes {r : DriveCfg} (ok : r.Ok) : DriveCfg.read r.bytes = r := by
  obtain ⟨front, rear, arming, failsafe, cap, hold, turn⟩ := ok
  exact (DriveCfg.mk.injEq ..).mpr ⟨clampNat_byte front.1 front.2, clampNat_byte rear.1 rear.2,
    clampNat_word arming.1 arming.2, clampNat_word (Nat.zero_le _) failsafe, clampNat_word (Nat.zero_le _) cap,
    clampNat_word (Nat.zero_le _) hold, clampNat_word (Nat.zero_le _) turn⟩

/-- WINCH_CFG. -/
theorem WinchCfg.read_bytes {r : WinchCfg} (ok : r.Ok) : WinchCfg.read r.bytes = r := by
  obtain ⟨ifs, pmax, threshold, jog, window, floor, creep, aMax⟩ := ok
  exact (WinchCfg.mk.injEq ..).mpr ⟨clampNat_byte ifs.1 ifs.2, clampNat_word pmax.1 pmax.2,
    clampNat_word threshold.1 threshold.2, clampNat_word jog.1 jog.2, clampNat_byte window.1 window.2,
    clampNat_word (Nat.zero_le _) floor, clampNat_byte creep.1 creep.2, byte_join aMax⟩

/-- PATTERN 0 to 3. -/
theorem Pattern.read_bytes {r : Pattern} (ok : r.Ok) : Pattern.read r.bytes = r := by
  obtain ⟨period, onTime⟩ := ok
  have limit : clampNat 10 200 (byteAt r.bytes 0) = r.period := clampNat_byte period.1 period.2
  refine (Pattern.mk.injEq ..).mpr ⟨limit, ?_⟩
  rw [limit]
  exact clampNat_byte onTime.1 onTime.2 (period.2.trans (by decide))

/-- The fields of PROTECT, one after another. -/
theorem Protect.bytes_eq (r : Protect) : r.bytes = byteOf r.cellCount ++ (byteOf r.rint ++ (wordOf r.vLow ++ (wordOf r.vCrit
    ++ (wordOf r.vCut ++ (wordOf r.hysteresis ++ (wordOf r.capacity ++ (byteOf r.percent ++ (wordOf r.lowCap
    ++ (wordOf r.critCap ++ (wordOf r.iTrip ++ (wordOf r.foldbackTime ++ (wordOf r.iFold ++ (wordOf r.bNormal
    ++ (wordOf r.bLow ++ wordOf r.bCrit)))))))))))))) := by
  simp only [Protect.bytes, List.append_assoc]

/-- PROTECT. -/
theorem Protect.read_bytes {r : Protect} (ok : r.Ok) : Protect.read r.bytes = r := by
  obtain ⟨cells, rint, cut, below, above, low, hysteresis, capacity, percent, lowCap, critCap, iTrip, time, iFold, normal, bLow,
    bCrit⟩ := ok
  have count : clampCells (byteAt r.bytes 0) = r.cellCount := by
    have byte : byteAt r.bytes 0 = r.cellCount := by
      rw [Protect.bytes_eq]
      exact byte_join (by omega)
    rw [byte, clampCells]
    split
    · next zero => exact zero.symm
    · next some =>
      have range := cells.resolve_left some
      exact clampNat_eq_self range.1 range.2
  rw [Protect.bytes_eq] at count ⊢
  exact (Protect.mk.injEq ..).mpr ⟨count, clampNat_byte (Nat.zero_le _) rint, clampNat_word (by omega) low,
    clampNat_word (by omega) (by omega), clampNat_word cut (by omega), clampNat_word (Nat.zero_le _) hysteresis,
    word_join capacity, clampNat_byte percent.1 percent.2, clampNat_word (Nat.zero_le _) lowCap,
    clampNat_word (Nat.zero_le _) critCap, clampNat_word iTrip.1 iTrip.2, clampNat_word time.1 time.2,
    clampNat_word (Nat.zero_le _) iFold, clampNat_word (Nat.zero_le _) normal, clampNat_word (Nat.zero_le _) bLow,
    clampNat_word (Nat.zero_le _) bCrit⟩

/-- BUDGET. -/
theorem Budget.read_bytes {r : Budget} (ok : r.Ok) : Budget.read r.bytes = r := by
  obtain ⟨reservation, drive, winch, light⟩ := ok
  exact (Budget.mk.injEq ..).mpr ⟨clampNat_word (Nat.zero_le _) reservation, clampNat_byte drive.1 drive.2,
    clampNat_byte winch.1 winch.2, clampNat_byte light.1 light.2⟩

/-- LINK. -/
theorem LinkCfg.read_bytes {r : LinkCfg} (ok : r.Ok) : LinkCfg.read r.bytes = r := by
  obtain ⟨hold, failsafe, status, park, mask, window⟩ := ok
  have unit : (⟨min 15 (byteAt r.bytes 0), by omega⟩ : Fin 16) = r.unitAddress := by
    have byte : byteAt r.bytes 0 = r.unitAddress.val := byte_join (by omega)
    refine Fin.ext ?_
    dsimp only
    omega
  exact (LinkCfg.mk.injEq ..).mpr ⟨unit, clampNat_word hold.1 hold.2, clampNat_word failsafe.1 failsafe.2,
    clampNat_byte status.1 status.2, clampNat_word park.1 park.2, clampNat_byte mask.1 mask.2,
    clampNat_word (Nat.zero_le _) window⟩

/-- PATTERN 4. -/
theorem alertMapRead_bytes (m : Vector (Fin 4) 3) : alertMapRead (alertMapBytes m) = m := by
  refine Vector.ext fun i inside => ?_
  have byte := byteAt_flatMap (f := fun p : Fin 4 => byteOf p.val) (k := 1) (fun _ => rfl) m.toList (i := i) (j := 0)
    (by simpa using inside) (by decide)
  rw [Vector.getElem_toList, Nat.one_mul, Nat.add_zero] at byte
  simp only [alertMapRead, alertMapBytes, Vector.getElem_ofFn, fin4At]
  refine Fin.ext ?_
  dsimp only
  rw [byte]
  exact congrArg Fin.val (fin4_byte m[i])

/-- FAILSAFE. -/
theorem failsafeRead_bytes (f : Vector (Option Raw) 12) : failsafeRead (failsafeBytes f) = f := by
  refine Vector.ext fun i inside => ?_
  have word := wordAt_flatMap (f := entryBytes) (fun e => by cases e <;> rfl) f.toList (i := i) (by simpa using inside)
  rw [Vector.getElem_toList] at word
  have entry : entryAt (failsafeBytes f) (2 * i) = entryAt (entryBytes f[i]) 0 := by
    unfold entryAt failsafeBytes
    rw [word]
  simp only [failsafeRead, Vector.getElem_ofFn]
  rw [entry, entryAt]
  cases f[i] with
  | none => rfl
  | some raw =>
    have small : raw.toNat ≤ 4095 := Nat.le_of_lt_succ raw.isLt
    have value : wordAt (entryBytes (some raw)) 0 = raw.toNat := word_join (by omega)
    rw [value, if_neg (by omega), Nat.min_eq_right small, BitVec.ofNat_toNat, BitVec.setWidth_eq]

/-- The first byte of an action carries its code and its side. -/
theorem Action.read_bytes {bs : List Byte} {i : Nat} {a : Action} (code : byteAt bs i = byteAt a.bytes 0)
    (pattern : byteAt bs (i + 1) = byteAt a.bytes 1) (level : bs.getD (i + 2) 0#8 = a.level) : Action.read bs i = a := by
  have which : actionCodeAt bs i = a.code := by
    rw [actionCodeAt, code]
    cases code : a.code <;> cases side : a.side <;> simp [Action.bytes, byteAt, byteOf, ActionCode.code, code, side]
  have side : (if byteAt bs i / 128 = 1 then Side.right else .left) = a.side := by
    rw [code]
    cases code : a.code <;> cases side : a.side <;> simp [Action.bytes, byteAt, byteOf, ActionCode.code, code, side]
  have blink : fin4At bs (i + 1) = a.pattern := by
    rw [← fin4_byte a.pattern]
    refine Fin.ext ?_
    change min 3 (byteAt bs (i + 1)) = _
    rw [pattern]
    rfl
  exact (Action.mk.injEq ..).mpr ⟨which, side, blink, level⟩

end Sys2Proof.Machine
end

section
/-! The table records as bytes: every record comes back, in the layout of 12, section 12.6 (R183, R204). -/

namespace Sys2Proof.Machine

/-! ### Scenes -/

/-- The bytes of a scene after its priority. -/
theorem byteAt_scene (r : Scene) (k : Nat) : byteAt r.bytes (1 + k) = byteAt (r.actions.toList.flatMap Action.bytes) k := by
  rw [Scene.bytes, Nat.add_comm]
  rfl

/-- A byte of an action of a scene. -/
theorem byteAt_action (r : Scene) {i j : Nat} (inside : i < 8) (hj : j < 3) :
    byteAt r.bytes (1 + 3 * i + j) = byteAt (r.actions[i]).bytes j := by
  have byte := byteAt_flatMap (f := Action.bytes) (k := 3) (fun _ => rfl) r.actions.toList (i := i) (by simpa using inside) hj
  rw [Vector.getElem_toList] at byte
  rw [Nat.add_assoc, byteAt_scene, byte]

/-- LIGHT_SCENE. -/
theorem Scene.read_bytes {r : Scene} (ok : r.Ok) : Scene.read r.bytes = r := by
  have action (i : Nat) (inside : i < 8) : Action.read r.bytes (1 + 3 * i) = r.actions[i] := by
    refine Action.read_bytes (byteAt_action r (j := 0) inside (by decide)) (byteAt_action r (j := 1) inside (by decide))
      (BitVec.eq_of_toNat_eq ?_)
    exact byteAt_action r (j := 2) inside (by decide)
  refine (Scene.mk.injEq ..).mpr ⟨clampNat_byte ok.1 ok.2, Vector.ext fun i inside => ?_⟩
  rw [Vector.getElem_ofFn]
  exact action i inside

/-- The length of a scene. -/
theorem Scene.length_bytes (r : Scene) : r.bytes.length = 25 := by
  rw [Scene.bytes, List.length_append, length_flatMap_const (k := 3) fun _ => rfl]
  simp [byteOf]

/-- Bits 2 to 6 of the first byte of an action are 0. -/
theorem Action.head_masked (a : Action) : byteAt a.bytes 0 &&& 0x83 = byteAt a.bytes 0 := by
  cases code : a.code <;> cases side : a.side <;> simp [Action.bytes, byteAt, byteOf, ActionCode.code, code, side]

/-- A record of a scene is read whole. -/
theorem Scene.readBytes_bytes (r : Scene) : readBytes 10 r.bytes = r.bytes := by
  refine List.ext_getElem (by simp [readBytes]) fun k _ inside => ?_
  have short : k < 25 := by rw [← r.length_bytes]; exact inside
  have entry : (readBytes 10 r.bytes)[k]'(by simpa [readBytes] using inside)
      = if k % 3 = 1 then r.bytes[k] &&& 0x83#8 else r.bytes[k] := by simp [readBytes]
  rw [entry]
  split
  · next head =>
    obtain ⟨i, rfl⟩ : ∃ i, k = 1 + 3 * i + 0 := ⟨k / 3, by omega⟩
    have byte := byteAt_action r (i := i) (j := 0) (by omega) (by decide)
    have value : (r.bytes[1 + 3 * i + 0]).toNat = byteAt (r.actions[i]).bytes 0 := by
      rw [← byte, byteAt, List.getD_eq_getElem _ _ inside]
    refine BitVec.eq_of_toNat_eq ?_
    rw [BitVec.toNat_and, value]
    exact Action.head_masked _
  · rfl

/-- An endpoint record passes its structural check. -/
theorem ServoEnd.ordered_of_ok {r : ServoEnd} (ok : r.Ok) : r.ordered = true := by
  simp [ServoEnd.ordered, ok.2.1, ok.2.2.1]

/-! ### Records by id and index -/

namespace Tables
variable (t : Tables)

/-- The record of a table that holds several. -/
theorem recordBytes_at {α : Type} {m : Nat} (v : Vector α m) (f : α → List Byte) (i : Fin m) :
    (v[i.val]?.map f).getD [] = f v[i] := by
  rw [Vector.getElem?_eq_getElem i.isLt]
  rfl

/-- Writing an entry as it stands. -/
theorem setIfInBounds_stands {α : Type} {m : Nat} (v : Vector α m) (i : Fin m) {x : α} (stands : x = v[i]) :
    v.setIfInBounds i.val x = v := by
  refine Vector.ext fun k inside => ?_
  rw [Vector.getElem_setIfInBounds]
  split
  · next here =>
    rw [stands]
    simp [here]
  · rfl

/-- What writing the record that stands at an id and index leaves and passes (R183). -/
def RoundTrips (id index : Nat) : Prop :=
  t.writeRecord id index (t.recordBytes id index) = t
    ∧ (t.recordBytes id index).length = recordLength id index
    ∧ structureHolds id index (t.recordBytes id index) = true
    ∧ readBytes id (t.recordBytes id index) = t.recordBytes id index

/-- Bytes of any table but LIGHT_SCENE are read whole. -/
theorem readBytes_whole {id : Nat} (other : id ≠ 10) (bs : List Byte) : readBytes id bs = bs := if_neg other

/-- CHANNEL_CAL. -/
theorem roundTrips_channelCal {t : Tables} (ok : t.Ok) (i : Fin 12) : t.RoundTrips 1 i.val := by
  have bytes : t.recordBytes 1 i.val = (t.channelCal[i]).bytes := recordBytes_at ..
  have back := setIfInBounds_stands t.channelCal i (ChannelCal.read_bytes (ok.channelCal i))
  rw [RoundTrips, bytes]
  exact ⟨congrArg (fun v => { t with channelCal := v }) back, rfl, rfl, rfl⟩

/-- ROLE_MAP. -/
theorem roundTrips_roleMap : t.RoundTrips 2 0 := by
  have length : (t.recordBytes 2 0).length = 8 := by
    simp [recordBytes, RoleMap.bytes, roleByte_eq, byteOf]
  exact ⟨congrArg (fun m => { t with roleMap := m }) t.roleMap.read_bytes, length, rfl, rfl⟩

/-- SWITCH_DEF. -/
theorem roundTrips_switchDef {t : Tables} (ok : t.Ok) (i : Fin 5) : t.RoundTrips 3 i.val := by
  have bytes : t.recordBytes 3 i.val = (t.switchDef[i]).bytes := recordBytes_at ..
  have read := SwitchDef.read_bytes (ok.switchDef i)
  have back := setIfInBounds_stands t.switchDef i read
  rw [RoundTrips, bytes]
  refine ⟨congrArg (fun v => { t with switchDef := v }) back, rfl, ?_, rfl⟩
  rw [structureHolds, read]
  exact (ok.switchDef i).2.2.2.2

/-- CURVE. -/
theorem roundTrips_curve {t : Tables} (ok : t.Ok) (i : Fin 4) : t.RoundTrips 4 i.val := by
  have bytes : t.recordBytes 4 i.val = Curve.bytes t.curve[i] := recordBytes_at ..
  have back := setIfInBounds_stands t.curve i (Curve.read_bytes (ok.curve i))
  rw [RoundTrips, bytes]
  refine ⟨congrArg (fun v => { t with curve := v }) back, ?_, rfl, rfl⟩
  rw [Curve.bytes, length_flatMap_const (k := 2) (f := intOf) fun _ => rfl, Vector.length_toList]
  rfl

/-- PROFILE. -/
theorem roundTrips_profile {t : Tables} (ok : t.Ok) (i : Fin 3) : t.RoundTrips 5 i.val := by
  have bytes : t.recordBytes 5 i.val = (t.profile[i]).bytes := recordBytes_at ..
  have back := setIfInBounds_stands t.profile i (Profile.read_bytes (ok.profile i))
  rw [RoundTrips, bytes]
  exact ⟨congrArg (fun v => { t with profile := v }) back, rfl, rfl, rfl⟩

/-- SERVO_END. -/
theorem roundTrips_servo {t : Tables} (ok : t.Ok) (i : Fin 2) : t.RoundTrips 6 i.val := by
  have front := ServoEnd.read_bytes ok.servoFront
  have rear := ServoEnd.read_bytes ok.servoRear
  match i with
  | 0 =>
    refine ⟨congrArg (fun e => { t with servoFront := e }) front, rfl, ?_, rfl⟩
    exact (congrArg ServoEnd.ordered front).trans (ServoEnd.ordered_of_ok ok.servoFront)
  | 1 =>
    refine ⟨congrArg (fun e => { t with servoRear := e }) rear, rfl, ?_, rfl⟩
    exact (congrArg ServoEnd.ordered rear).trans (ServoEnd.ordered_of_ok ok.servoRear)

/-- LIGHT_OUT. -/
theorem roundTrips_lightOut {t : Tables} (ok : t.Ok) (i : Fin 8) : t.RoundTrips 9 i.val := by
  have bytes : t.recordBytes 9 i.val = wordOf t.lightOut[i] := recordBytes_at ..
  have read : clampNat 0 2000 (wordAt (wordOf t.lightOut[i]) 0) = t.lightOut[i] := clampNat_word (Nat.zero_le _) (ok.lightOut i)
  have back := setIfInBounds_stands t.lightOut i read
  rw [RoundTrips, bytes]
  exact ⟨congrArg (fun v => { t with lightOut := v }) back, rfl, rfl, rfl⟩

/-- LIGHT_SCENE. -/
theorem roundTrips_scene {t : Tables} (ok : t.Ok) (i : Fin 10) : t.RoundTrips 10 i.val := by
  have bytes : t.recordBytes 10 i.val = (t.scene[i]).bytes := recordBytes_at ..
  have back := setIfInBounds_stands t.scene i (Scene.read_bytes (ok.scene i))
  rw [RoundTrips, bytes]
  exact ⟨congrArg (fun v => { t with scene := v }) back, Scene.length_bytes _, rfl, Scene.readBytes_bytes _⟩

/-- PATTERN 0 to 3. -/
theorem roundTrips_pattern {t : Tables} (ok : t.Ok) (i : Fin 4) : t.RoundTrips 11 i.val := by
  have other : i.val ≠ 4 := i.isLt.ne
  have bytes : t.recordBytes 11 i.val = (t.pattern[i]).bytes := (if_neg other).trans (recordBytes_at ..)
  have back := setIfInBounds_stands t.pattern i (Pattern.read_bytes (ok.pattern i))
  rw [RoundTrips, bytes]
  exact ⟨(if_neg other).trans (congrArg (fun v => { t with pattern := v }) back), (if_neg other).symm, rfl, rfl⟩

/-- PATTERN 4. -/
theorem roundTrips_alertMap : t.RoundTrips 11 4 := by
  have length : (t.recordBytes 11 4).length = 3 :=
    (length_flatMap_const (k := 1) (f := fun p : Fin 4 => byteOf p.val) (fun _ => rfl) t.alertMap.toList).trans (by simp)
  exact ⟨congrArg (fun m => { t with alertMap := m }) (alertMapRead_bytes t.alertMap), length, rfl, rfl⟩

/-- PROTECT. -/
theorem roundTrips_protect {t : Tables} (ok : t.Ok) : t.RoundTrips 12 0 := by
  have read := Protect.read_bytes ok.protect
  obtain ⟨-, -, -, low, high, -⟩ := ok.protect
  have length : (t.recordBytes 12 0).length = 29 := by simp [recordBytes, Protect.bytes, byteOf, wordOf]
  refine ⟨congrArg (fun r => { t with protect := r }) read, length, (congrArg Protect.ordered read).trans ?_, rfl⟩
  simp [Protect.ordered, low, high]

/-- FAILSAFE. -/
theorem roundTrips_failsafe : t.RoundTrips 15 0 := by
  have length : (t.recordBytes 15 0).length = 24 :=
    (length_flatMap_const (k := 2) (f := entryBytes) (fun e => by cases e <;> rfl) t.failsafe.toList).trans (by simp)
  exact ⟨congrArg (fun f => { t with failsafe := f }) (failsafeRead_bytes t.failsafe), length, rfl, rfl⟩

/-- Every record comes back. -/
theorem roundTrips {t : Tables} (ok : t.Ok) {id index : Nat} (low : 1 ≤ id) (high : id ≤ 15) (inside : index < recordCount id) :
    t.RoundTrips id index := by
  have alone (single : index < 1) : index = 0 := Nat.lt_one_iff.1 single
  interval_cases id
  · exact roundTrips_channelCal ok ⟨index, inside⟩
  · exact alone inside ▸ t.roundTrips_roleMap
  · exact roundTrips_switchDef ok ⟨index, inside⟩
  · exact roundTrips_curve ok ⟨index, inside⟩
  · exact roundTrips_profile ok ⟨index, inside⟩
  · exact roundTrips_servo ok ⟨index, inside⟩
  · exact alone inside ▸ ⟨congrArg (fun r => { t with driveCfg := r }) (DriveCfg.read_bytes ok.driveCfg), rfl, rfl, rfl⟩
  · exact alone inside ▸ ⟨congrArg (fun r => { t with winchCfg := r }) (WinchCfg.read_bytes ok.winchCfg), rfl, rfl, rfl⟩
  · exact roundTrips_lightOut ok ⟨index, inside⟩
  · exact roundTrips_scene ok ⟨index, inside⟩
  · by_cases last : index = 4
    · exact last ▸ t.roundTrips_alertMap
    · have few : index < 5 := inside
      exact roundTrips_pattern ok ⟨index, by omega⟩
  · exact alone inside ▸ roundTrips_protect ok
  · exact alone inside ▸ ⟨congrArg (fun r => { t with budget := r }) (Budget.read_bytes ok.budget), rfl, rfl, rfl⟩
  · exact alone inside ▸ ⟨congrArg (fun r => { t with link := r }) (LinkCfg.read_bytes ok.link), rfl, rfl, rfl⟩
  · exact alone inside ▸ t.roundTrips_failsafe

/-- A record that comes back whole was not clamped. -/
theorem RoundTrips.unclamped {t : Tables} {id index : Nat} (trip : t.RoundTrips id index) :
    wasClamped t id index (t.recordBytes id index) = false := by
  obtain ⟨back, -, -, whole⟩ := trip
  rw [wasClamped, back, whole]
  exact decide_eq_false (not_not.2 rfl)

end Tables

end Sys2Proof.Machine
end

section
/-! The layout of the table records, and what a write reads of one (R183, R184, R204; 12, section 12.6). -/

namespace Sys2Proof.Machine

/-! ### Fields as they are written -/

/-- A signed field is the word of its value modulo 65536. -/
theorem intOf_eq (x : Int) : intOf x = wordOf (x % 65536).toNat := by
  rw [intOf, BitVec.toNat_ofInt]
  rfl

/-- The entries of a vector, one after another. -/
theorem flatMap_toList {α β : Type} {m : Nat} (v : Vector α m) (f : α → List β) :
    v.toList.flatMap f = (List.finRange m).flatMap fun i => f v[i] := by
  have entries : v.toList = (List.finRange m).map fun i => v[i] := by
    refine List.ext_getElem (by simp) fun i _ _ => ?_
    simp
  rw [entries, List.flatMap_map]

/-- A flag. -/
theorem boolByte_eq (v : Bool) : [boolByte v] = byteOf (if v = true then 1 else 0) := by
  cases v <;> rfl

/-- The bytes of an action. -/
theorem Action.bytes_eq (a : Action) : a.bytes
    = byteOf ((if a.code = .none then 0 else if a.code = .steady then 1 else 2) + (if a.side = .right then 128 else 0))
      ++ byteOf a.pattern.val ++ [a.level] := by
  unfold Action.bytes
  cases a.code <;> cases a.side <;> rfl

/-- The bytes of a failsafe entry. -/
theorem entryBytes_eq (e : Option Raw) : entryBytes e = wordOf ((e.map BitVec.toNat).getD 65535) := by
  cases e <;> rfl

/-! ### Fields as they are read -/

/-- A clamp without a lower end. -/
theorem clampNat_zero (hi x : Nat) : clampNat 0 hi x = min hi x := Nat.zero_max _

/-- A flag other than 0 is on. -/
theorem flagAt_eq (bs : List Byte) (i : Nat) : flagAt bs i = decide (byteAt bs i ≠ 0) := by
  unfold flagAt
  cases byteAt bs i <;> rfl

/-- A field of the values 0 to 3. -/
theorem fin4At_eq (bs : List Byte) (i : Nat) : fin4At bs i = Fin.ofNat 4 (min 3 (byteAt bs i)) := by
  refine Fin.ext ?_
  simp only [fin4At, Fin.ofNat]
  omega

/-- The highest map entry of a switch. -/
theorem mapLimit_eq (n : Nat) : mapLimit n = if n = 0 then 3 else if n = 4 then 1 else 2 := by
  unfold mapLimit
  split
  · rfl
  · rfl
  · next first last => rw [if_neg first, if_neg last]

/-- A light action code. -/
theorem actionCodeAt_eq (bs : List Byte) (i : Nat) : actionCodeAt bs i
    = if byteAt bs i % 4 = 1 then .steady else if byteAt bs i % 4 = 2 then .blink else .none := by
  unfold actionCodeAt
  split
  · next one => rw [if_pos one]
  · next two => rw [two]; rfl
  · next notOne notTwo => rw [if_neg notOne, if_neg notTwo]

/-- The side of an action. -/
theorem sideAt_eq (bs : List Byte) (i : Nat) : (if byteAt bs i / 128 = 1 then Side.right else .left)
    = if 128 ≤ byteAt bs i then .right else .left := by
  have small := byteAt_lt bs i
  refine if_congr ?_ rfl rfl
  omega

/-- P's upper end is that of its field. -/
theorem clampNat_wordTop (bs : List Byte) (i : Nat) : clampNat 100 65535 (wordAt bs i) = max 100 (wordAt bs i) := by
  have small := wordAt_lt bs i
  unfold clampNat
  omega

/-- So is that of a byte. -/
theorem clampNat_byteTop (lo : Nat) (bs : List Byte) (i : Nat) : clampNat lo 255 (byteAt bs i) = max lo (byteAt bs i) := by
  have small := byteAt_lt bs i
  unfold clampNat
  omega

/-! ### Records as they are read -/

/-- CHANNEL_CAL. -/
theorem ChannelCal.read_eq (bs : List Byte) : ChannelCal.read bs
    = { centre := clampNat 1024 3072 (wordAt bs 0), halfSpan := clampNat 256 2047 (wordAt bs 2)
        deadband := min 200 (wordAt bs 4), reverse := decide (byteAt bs 6 ≠ 0) } := by
  rw [ChannelCal.read, clampNat_zero, flagAt_eq]

/-- SWITCH_DEF. -/
theorem SwitchDef.read_eq (n : Nat) (bs : List Byte) : SwitchDef.read n bs
    = { kind := if byteAt bs 0 < 3 then .two else .three
        t1 := clampInt (-1000) 1000 (if wordAt bs 1 < 32768 then (wordAt bs 1 : Int) else (wordAt bs 1 : Int) - 65536)
        t2 := clampInt (-1000) 1000 (if wordAt bs 3 < 32768 then (wordAt bs 3 : Int) else (wordAt bs 3 : Int) - 65536)
        hyst := min 100 (byteAt bs 5)
        map0 := min (if n = 0 then 3 else if n = 4 then 1 else 2) (byteAt bs 6)
        map1 := min (if n = 0 then 3 else if n = 4 then 1 else 2) (byteAt bs 7)
        map2 := min (if n = 0 then 3 else if n = 4 then 1 else 2) (byteAt bs 8) } := by
  rw [SwitchDef.read]
  simp only [intAt_eq, clampNat_zero, mapLimit_eq]

/-- CURVE. -/
theorem Curve.read_eq (bs : List Byte) : Curve.read bs = Vector.ofFn fun k : Fin 9 => clampInt (-1000) 1000
    (if wordAt bs (2 * k.val) < 32768 then (wordAt bs (2 * k.val) : Int) else (wordAt bs (2 * k.val) : Int) - 65536) := by
  rw [Curve.read]
  simp only [intAt_eq]

/-- PROFILE. -/
theorem Profile.read_eq (bs : List Byte) : Profile.read bs
    = { throttleCurve := Fin.ofNat 4 (min 3 (byteAt bs 0)), steeringCurve := Fin.ofNat 4 (min 3 (byteAt bs 1))
        rearRatio := min 1000 (wordAt bs 2), speedLimit := clampNat 100 1000 (wordAt bs 4)
        reverseDelay := min 500 (wordAt bs 6), dragBrake := min 1000 (wordAt bs 8), slew := byteAt bs 10 } := by
  rw [Profile.read]
  simp only [fin4At_eq, clampNat_zero]

/-- DRIVE_CFG. -/
theorem DriveCfg.read_eq (bs : List Byte) : DriveCfg.read bs
    = { ifsFront := clampNat 1 30 (byteAt bs 0), ifsRear := clampNat 1 30 (byteAt bs 1)
        armingTime := clampNat 100 2000 (wordAt bs 2), failsafeBrake := min 1000 (wordAt bs 4), winchCap := min 1000 (wordAt bs 6)
        brakeHold := min 2000 (wordAt bs 8), turnThreshold := min 1000 (wordAt bs 10) } := by
  rw [DriveCfg.read]
  simp only [clampNat_zero]

/-- WINCH_CFG. -/
theorem WinchCfg.read_eq (bs : List Byte) : WinchCfg.read bs
    = { ifs := clampNat 1 30 (byteAt bs 0), pmax := max 100 (wordAt bs 1), jogThreshold := clampNat 50 500 (wordAt bs 3)
        jogMax := clampNat 100 1000 (wordAt bs 5), stallWindow := max 5 (byteAt bs 7), stallFloor := min 1000 (wordAt bs 8)
        creepLimit := max 1 (byteAt bs 10), aMax := byteAt bs 11 } := by
  rw [WinchCfg.read, clampNat_wordTop, clampNat_byteTop, clampNat_byteTop, clampNat_zero]

/-- LIGHT_SCENE. -/
theorem Scene.read_eq (bs : List Byte) : Scene.read bs
    = { priority := clampNat 1 7 (byteAt bs 0)
        actions := Vector.ofFn fun o : Fin 8 =>
          { code := if byteAt bs (1 + 3 * o.val) % 4 = 1 then .steady else if byteAt bs (1 + 3 * o.val) % 4 = 2 then .blink else .none
            side := if 128 ≤ byteAt bs (1 + 3 * o.val) then .right else .left
            pattern := Fin.ofNat 4 (min 3 (byteAt bs (2 + 3 * o.val))), level := bs.getD (3 + 3 * o.val) 0#8 } } := by
  have pattern (k : Nat) : 1 + k + 1 = 2 + k := by omega
  have level (k : Nat) : 1 + k + 2 = 3 + k := by omega
  rw [Scene.read]
  simp only [Action.read, actionCodeAt_eq, sideAt_eq, fin4At_eq, pattern, level]

/-- PATTERN 4. -/
theorem alertMapRead_eq (bs : List Byte) :
    alertMapRead bs = Vector.ofFn fun i : Fin 3 => Fin.ofNat 4 (min 3 (byteAt bs i.val)) := by
  rw [alertMapRead]
  simp only [fin4At_eq]

/-- PROTECT. -/
theorem Protect.read_eq (bs : List Byte) : Protect.read bs
    = { cellCount := if byteAt bs 0 = 0 then 0 else clampNat 2 4 (byteAt bs 0), rint := min 100 (byteAt bs 1)
        vLow := clampNat 2500 4200 (wordAt bs 2), vCrit := clampNat 2500 4200 (wordAt bs 4)
        vCut := clampNat 2500 4200 (wordAt bs 6), hysteresis := min 500 (wordAt bs 8), capacity := wordAt bs 10
        percent := clampNat 1 100 (byteAt bs 12), lowCap := min 1000 (wordAt bs 13), critCap := min 1000 (wordAt bs 15)
        iTrip := clampNat 1000 60000 (wordAt bs 17), foldbackTime := clampNat 100 10000 (wordAt bs 19)
        iFold := min 60000 (wordAt bs 21), bNormal := min 60000 (wordAt bs 23), bLow := min 60000 (wordAt bs 25)
        bCrit := min 60000 (wordAt bs 27) } := by
  rw [Protect.read]
  simp only [clampNat_zero, clampCells]

/-- BUDGET. -/
theorem Budget.read_eq (bs : List Byte) : Budget.read bs
    = { reservation := min 10000 (wordAt bs 0), driveWeight := clampNat 1 6 (byteAt bs 2)
        winchWeight := clampNat 1 6 (byteAt bs 3), lightWeight := clampNat 1 6 (byteAt bs 4) } := by
  rw [Budget.read, clampNat_zero]

/-- LINK. -/
theorem LinkCfg.read_eq (bs : List Byte) : LinkCfg.read bs
    = { unitAddress := Fin.ofNat 16 (min 15 (byteAt bs 0)), tHold := clampNat 20 1000 (wordAt bs 1)
        tFs := clampNat 100 5000 (wordAt bs 3), statusN := clampNat 1 50 (byteAt bs 5)
        parkDelay := clampNat 5 600 (wordAt bs 6), maskLevel := clampNat 1 6 (byteAt bs 8), window := min 300 (wordAt bs 9) } := by
  have unit : (⟨min 15 (byteAt bs 0), by omega⟩ : Fin 16) = Fin.ofNat 16 (min 15 (byteAt bs 0)) := by
    refine Fin.ext ?_
    simp only [Fin.ofNat]
    omega
  rw [LinkCfg.read, unit, clampNat_zero]

/-! ### The structural checks -/

/-- SWITCH_DEF's check. -/
theorem SwitchDef.ordered_iff (r : SwitchDef) : r.ordered = true ↔ r.kind = .two ∨ r.t1 < r.t2 := by
  unfold SwitchDef.ordered
  cases r.kind <;> simp

/-- SERVO_END's check. -/
theorem ServoEnd.ordered_iff (r : ServoEnd) : r.ordered = true ↔ r.left ≤ r.centre ∧ r.centre ≤ r.right := by
  simp [ServoEnd.ordered]

/-- PROTECT's check. -/
theorem Protect.ordered_iff (r : Protect) : r.ordered = true ↔ r.vCut < r.vCrit ∧ r.vCrit < r.vLow := by
  simp [Protect.ordered]

/-- The other tables have none. -/
theorem structureHolds_others {id : Nat} (n : Nat) (bs : List Byte) (notSwitch : id ≠ 3) (notServo : id ≠ 6)
    (notProtect : id ≠ 12) : structureHolds id n bs = true := by
  unfold structureHolds
  split
  · exact absurd rfl notSwitch
  · exact absurd rfl notServo
  · exact absurd rfl notProtect
  · rfl

/-- The length of a record depends on the index in PATTERN alone. -/
theorem recordLength_eq (id n : Nat) : recordLength id n = if id = 11 ∧ n = 4 then 3 else recordLength id 0 := by
  by_cases pattern : id = 11
  · subst pattern
    by_cases last : n = 4
    · rw [if_pos ⟨rfl, last⟩, last]
      rfl
    · rw [if_neg fun both => last both.2]
      exact if_neg last
  · rw [if_neg fun both => pattern both.1]
    unfold recordLength
    split
    case h_11 => exact absurd rfl pattern
    all_goals rfl

/-- Settles O51. -/
theorem recordsRoundTrip : Obligations.RecordsRoundTrip := by
  refine ⟨fun t id index ok low high inside => ?trip, rfl, rfl, recordLength_eq, fun t => ?layout, fun t bs n => ?reads⟩
  case trip =>
    have trip := Tables.roundTrips ok low high inside
    have unclamped := trip.unclamped
    obtain ⟨back, length, holds, -⟩ := trip
    exact ⟨back, length, holds, unclamped⟩
  case layout =>
    intro b w z role m servo d v p l
    have int (x : Int) : z x = intOf x := (intOf_eq x).symm
    refine ⟨fun i => ?cal, ?roles, fun i => ?switch, fun i => ?curve, fun i => ?profile, rfl, rfl, rfl, rfl, fun i => ?light,
      fun i => ?scene, fun i => ?pattern, ?alerts, rfl, rfl, rfl, ?failsafe⟩
    case cal =>
      refine (Tables.recordBytes_at t.channelCal ChannelCal.bytes i).trans ?_
      rw [ChannelCal.bytes, boolByte_eq]
      rfl
    case roles =>
      change t.roleMap.bytes = _
      rw [RoleMap.bytes]
      simp only [roleByte_eq]
      rfl
    case switch =>
      refine (Tables.recordBytes_at t.switchDef SwitchDef.bytes i).trans ?_
      rw [SwitchDef.bytes, int, int]
      cases (t.switchDef[i]).kind <;> rfl
    case curve =>
      refine (Tables.recordBytes_at t.curve Curve.bytes i).trans ?_
      rw [Curve.bytes, flatMap_toList]
      simp only [int]
    case profile => exact Tables.recordBytes_at t.profile Profile.bytes i
    case light => exact Tables.recordBytes_at t.lightOut wordOf i
    case scene =>
      refine (Tables.recordBytes_at t.scene Scene.bytes i).trans ?_
      rw [Scene.bytes, flatMap_toList]
      simp only [Action.bytes_eq]
      rfl
    case pattern => exact (if_neg i.isLt.ne).trans (Tables.recordBytes_at t.pattern Pattern.bytes i)
    case alerts =>
      change alertMapBytes t.alertMap = _
      rw [alertMapBytes, flatMap_toList]
      rfl
    case failsafe =>
      change failsafeBytes t.failsafe = _
      rw [failsafeBytes, flatMap_toList]
      simp only [entryBytes_eq]
      rfl
  case reads =>
    intro b w z cl clz role top sw servo protect cal profile drive winch action pattern budget link entry d m
    have switch : SwitchDef.read n bs = sw := SwitchDef.read_eq n bs
    have guard : Protect.read bs = protect := Protect.read_eq bs
    refine ⟨congrArg (fun r => { t with channelCal := t.channelCal.setIfInBounds n r }) (ChannelCal.read_eq bs),
      ⟨rfl, roleAt_spec bs 0, roleAt_spec bs 1, roleAt_spec bs 2, roleAt_spec bs 3, roleAt_spec bs 4, roleAt_spec bs 5,
        roleAt_spec bs 6, roleAt_spec bs 7⟩,
      congrArg (fun r => { t with switchDef := t.switchDef.setIfInBounds n r }) switch,
      congrArg (fun r => { t with curve := t.curve.setIfInBounds n r }) (Curve.read_eq bs),
      congrArg (fun r => { t with profile := t.profile.setIfInBounds n r }) (Profile.read_eq bs), rfl,
      congrArg (fun r => { t with driveCfg := r }) (DriveCfg.read_eq bs),
      congrArg (fun r => { t with winchCfg := r }) (WinchCfg.read_eq bs),
      congrArg (fun r => { t with lightOut := t.lightOut.setIfInBounds n r }) (clampNat_zero 2000 (wordAt bs 0)),
      ?scene, ?pattern, congrArg (fun r => { t with protect := r }) guard,
      congrArg (fun r => { t with budget := r }) (Budget.read_eq bs), congrArg (fun r => { t with link := r }) (LinkCfg.read_eq bs),
      rfl, ?switchHolds, ServoEnd.ordered_iff _, ?protectHolds, fun id => structureHolds_others n bs,
      fun id other => Tables.readBytes_whole other bs, fun i => List.getElem?_mapIdx⟩
    case scene =>
      exact congrArg (fun r => { t with scene := t.scene.setIfInBounds n r }) (Scene.read_eq bs)
    case pattern =>
      exact congrArg (fun v => if n = 4 then { t with alertMap := v } else { t with pattern := t.pattern.setIfInBounds n pattern })
        (alertMapRead_eq bs)
    case switchHolds =>
      rw [← switch]
      exact SwitchDef.ordered_iff _
    case protectHolds =>
      rw [← guard]
      exact Protect.ordered_iff _

end Sys2Proof.Machine
end

section
/-! The channels: normalization, curves, target and commanded widths, switches and the decode (R22, R24, R28 to R36, R46 to
R49). -/

namespace Sys2Proof.Machine

/-! ### Division rounded to nearest -/

/-- A quotient that divides out is exact. -/
theorem divNearest_exact {den : Nat} (some : 0 < den) (d : Int) : divNearest (d * den) den = d := by
  have quotient (n : Nat) : (2 * (n * den) + den) / (2 * den) = n := by
    rw [show 2 * (n * den) + den = den + 2 * den * n by ring, Nat.add_mul_div_left _ _ (by omega), Nat.div_eq_of_lt (by omega)]
    omega
  have value : ((2 * (d * den).natAbs + den) / (2 * den) : Nat) = d.natAbs := by
    rw [Int.natAbs_mul, Int.natAbs_natCast]
    exact quotient _
  have positive : (0 : Int) < den := by exact_mod_cast some
  unfold divNearest
  rw [value]
  split
  · next up =>
    have := nonneg_of_mul_nonneg_left up positive
    omega
  · next down =>
    have := neg_of_mul_neg_left (not_le.1 down) positive.le
    omega

/-- Rounding a dividend between 0 and d times the divisor gives a value between 0 and d. -/
theorem divNearest_up {num d : Int} {den : Nat} (some : 0 < den) (low : 0 ≤ num) (high : num ≤ d * den) :
    0 ≤ divNearest num den ∧ divNearest num den ≤ d := by
  have positive : (0 : Int) < den := by exact_mod_cast some
  have up : 0 ≤ d := nonneg_of_mul_nonneg_left (low.trans high) positive
  have bound : num.natAbs ≤ d.natAbs * den := by
    zify
    rw [abs_of_nonneg low, abs_of_nonneg up]
    exact high
  have quotient : (2 * num.natAbs + den) / (2 * den) ≤ d.natAbs := by
    refine Nat.le_of_lt_succ ((Nat.div_lt_iff_lt_mul (by omega)).2 ?_)
    nlinarith
  unfold divNearest
  rw [if_pos low]
  exact ⟨Int.natCast_nonneg _, (Int.ofNat_le.2 quotient).trans (Int.natAbs_of_nonneg up).le⟩

/-- The same below 0. -/
theorem divNearest_down {num d : Int} {den : Nat} (some : 0 < den) (low : d * den ≤ num) (high : num ≤ 0) :
    d ≤ divNearest num den ∧ divNearest num den ≤ 0 := by
  have mirrored : divNearest num den = -divNearest (-num) den := by
    by_cases zero : num = 0
    · subst zero
      simp [divNearest, Nat.div_eq_of_lt (show den < 2 * den by omega)]
    · simp [divNearest, show ¬0 ≤ num by omega, high]
  obtain ⟨above, below⟩ := divNearest_up (num := -num) (d := -d) some (by omega) (by rw [Int.neg_mul]; omega)
  omega

/-- Rounding a share of d gives a value between 0 and d. -/
theorem divNearest_share {d t : Int} {den : Nat} (some : 0 < den) (low : 0 ≤ t) (high : t ≤ den) :
    min 0 d ≤ divNearest (d * t) den ∧ divNearest (d * t) den ≤ max 0 d := by
  rcases le_total 0 d with up | down
  · have between := divNearest_up some (mul_nonneg up low) (mul_le_mul_of_nonneg_left high up)
    omega
  · have between := divNearest_down some (mul_le_mul_of_nonpos_left high down) (mul_nonpos_of_nonpos_of_nonneg down low)
    omega

/-! ### Curves -/

/-- The segment of an input within −1000 to 1000, and where in it the input lies. -/
theorem curveSegment_spec {u : Int} (low : -1000 ≤ u) (high : u ≤ 1000) :
    ((curveSegment u).val : Int) = min 7 ((u + 1000) / 250)
      ∧ 0 ≤ u + 1000 - 250 * ((curveSegment u).val : Int) ∧ u + 1000 - 250 * ((curveSegment u).val : Int) ≤ 250 := by
  have value : ((curveSegment u).val : Int) = min 7 ((u + 1000) / 250) := by
    simp only [curveSegment]
    omega
  rw [value]
  omega

/-- A curve's output lies between the two points of its segment (R36). -/
theorem Curve.eval_between (y : Curve) {u : Int} (low : -1000 ≤ u) (high : u ≤ 1000) :
    min y[(curveSegment u).val] y[(curveSegment u).val + 1] ≤ y.eval u
      ∧ y.eval u ≤ max y[(curveSegment u).val] y[(curveSegment u).val + 1] := by
  obtain ⟨-, inside, within⟩ := curveSegment_spec low high
  have share := divNearest_share (d := y[(curveSegment u).val + 1] - y[(curveSegment u).val]) (den := 250) (by decide) inside within
  unfold Curve.eval
  dsimp only
  omega

/-- The output in a segment that is known. -/
theorem Curve.eval_segment (y : Curve) {u : Int} {k : Nat} (inside : k < 8) (segment : (curveSegment u).val = k) :
    y.eval u = y[k] + divNearest ((y[k + 1] - y[k]) * (u + 1000 - 250 * (k : Int))) 250 := by
  subst segment
  rfl

/-- Each point stands at its own input. -/
theorem Curve.eval_point (y : Curve) (k : Fin 9) : y.eval (250 * (k.val : Int) - 1000) = y[k] := by
  obtain ⟨k, inside⟩ := k
  dsimp only
  by_cases last : k = 8
  · subst last
    have segment : (curveSegment (250 * ((8 : Nat) : Int) - 1000)).val = 7 := rfl
    have whole : divNearest ((y[7 + 1] - y[7]) * (250 * ((8 : Nat) : Int) - 1000 + 1000 - 250 * ((7 : Nat) : Int))) 250
        = y[7 + 1] - y[7] := divNearest_exact (by decide) _
    rw [y.eval_segment (by decide) segment, whole]
    exact add_sub_cancel _ _
  · have segment : (curveSegment (250 * (k : Int) - 1000)).val = k := by
      simp only [curveSegment]
      omega
    have start : 250 * (k : Int) - 1000 + 1000 - 250 * (k : Int) = 0 := by omega
    rw [y.eval_segment (by omega) segment, start, Int.mul_zero]
    exact add_zero _

/-! ### Normalization -/

/-- The deadband leaves values within −1000 to 1000 there. -/
theorem ChannelCal.deaden_within {cal : ChannelCal} (ok : cal.Ok) {u : Int} (low : -1000 ≤ u) (high : u ≤ 1000) :
    -1000 ≤ cal.deaden u ∧ cal.deaden u ≤ 1000 := by
  have narrow : cal.deadband ≤ 200 := ok.2.2
  unfold ChannelCal.deaden
  split
  · decide
  · next out =>
    have sign : u.sign.natAbs ≤ 1 := by
      rcases Int.sign_trichotomy u with one | zero | minus
      · rw [one]; decide
      · rw [zero]; decide
      · rw [minus]; decide
    have rest : ((u.natAbs : Int) - cal.deadband).natAbs ≤ (1000 - (cal.deadband : Int)).natAbs := by omega
    have magnitude : (u.sign * ((u.natAbs : Int) - cal.deadband) * 1000).natAbs ≤ (1000 - (cal.deadband : Int)).natAbs * 1000 := by
      rw [Int.natAbs_mul, Int.natAbs_mul]
      exact Nat.mul_le_mul_right 1000 ((Nat.mul_le_mul sign rest).trans (Nat.one_mul _).le)
    have quotient : ((u.sign * ((u.natAbs : Int) - cal.deadband) * 1000).tdiv (1000 - (cal.deadband : Int))).natAbs ≤ 1000 := by
      rw [Int.natAbs_tdiv]
      exact Nat.div_le_of_le_mul magnitude
    omega

/-- A normalized value is within −1000 to 1000 (R24). -/
theorem ChannelCal.normalize_within (cal : ChannelCal) (ok : cal.Ok) (raw : Raw) :
    -1000 ≤ cal.normalize raw ∧ cal.normalize raw ≤ 1000 := by
  have scaled := cal.deaden_within ok (u := cal.scale raw) (clampInt_ge ..) (clampInt_le _ _ _ (by decide))
  unfold ChannelCal.normalize
  dsimp only
  split <;> omega

/-! ### Widths -/

/-- A target width of an input within −1000 to 1000 lies within the endpoints (R46). -/
theorem ServoEnd.width_within (e : ServoEnd) (ok : e.Ok) {x : Int} (low : -1000 ≤ x) (high : x ≤ 1000) :
    (e.left : Int) ≤ e.width x ∧ e.width x ≤ e.right := by
  obtain ⟨-, left, right, -⟩ := ok
  unfold ServoEnd.width
  split
  · next up =>
    have share := divNearest_share (d := (e.right : Int) - e.centre) (den := 1000) (by decide) up high
    rw [Int.mul_comm] at share
    omega
  · next down =>
    have share := divNearest_share (d := -((e.centre : Int) - e.left)) (t := -x) (den := 1000) (by decide) (by omega) (by omega)
    rw [Int.neg_mul_neg, Int.mul_comm] at share
    omega

/-- The widths of the centre and of the two ends. -/
theorem ServoEnd.width_points (e : ServoEnd) : e.width 0 = e.centre ∧ e.width 1000 = e.right ∧ e.width (-1000) = e.left := by
  have up : divNearest (1000 * ((e.right : Int) - e.centre)) 1000 = e.right - e.centre := by
    rw [Int.mul_comm]
    exact divNearest_exact (by decide) _
  have down : divNearest (-1000 * ((e.centre : Int) - e.left)) 1000 = -((e.centre : Int) - e.left) := by
    rw [← Int.neg_mul_neg, Int.mul_comm]
    exact divNearest_exact (by decide) _
  have rest : divNearest (0 * ((e.right : Int) - e.centre)) 1000 = 0 := by
    rw [Int.zero_mul]
    rfl
  refine ⟨(if_pos (by decide)).trans ?_, (if_pos (by decide)).trans ?_, (if_neg (by decide)).trans ?_⟩
  · rw [rest]
    omega
  · rw [up]
    omega
  · rw [down]
    omega

/-- A commanded width lies within the endpoints (R48, R49). -/
theorem ServoEnd.slewed_within (e : ServoEnd) (ok : e.Ok) (slew : Nat) (before : Option Nat) {target : Int}
    (low : (e.left : Int) ≤ target) (high : target ≤ e.right) :
    e.left ≤ e.slewed slew before target ∧ e.slewed slew before target ≤ e.right := by
  obtain ⟨-, left, right, -⟩ := ok
  cases before with
  | none =>
    change e.left ≤ target.toNat ∧ target.toNat ≤ e.right
    omega
  | some w =>
    have below := clampInt_ge e.left e.right (if slew = 0 then target else (w : Int) + clampInt (-(slew : Int)) slew (target - w))
    have above := clampInt_le e.left e.right (if slew = 0 then target else (w : Int) + clampInt (-(slew : Int)) slew (target - w))
      (by omega)
    unfold ServoEnd.slewed
    dsimp only
    omega

/-- A commanded width with one before it, as a signed value. -/
theorem ServoEnd.slewed_some (e : ServoEnd) (slew w : Nat) (target : Int) : (e.slewed slew (some w) target : Int)
    = clampInt e.left e.right (if slew = 0 then target else (w : Int) + clampInt (-(slew : Int)) slew (target - w)) := by
  have below := clampInt_ge e.left e.right (if slew = 0 then target else (w : Int) + clampInt (-(slew : Int)) slew (target - w))
  exact Int.toNat_of_nonneg ((Int.natCast_nonneg _).trans below)

/-! ### Switches and the decode -/

/-- The entry of a position (R33). -/
theorem SwitchDef.entry_eq (d : SwitchDef) (p : Fin 3) : (match p with | 0 => d.map0 | 1 => d.map1 | 2 => d.map2) = d.entry p := by
  match p with
  | 0 | 1 | 2 => rfl

/-- A switch decodes plainly after its ordered flag was cleared (R31). -/
theorem SwitchDef.plain_spec (d : SwitchDef) (u : Int) : (d.kind = .two → d.plain u = if u < d.t1 then 0 else 1)
    ∧ (d.kind = .three → d.plain u = if u < d.t1 then 0 else if u < d.t2 then 1 else 2) := by
  unfold SwitchDef.plain
  exact ⟨fun kind => by rw [kind], fun kind => by rw [kind]⟩

/-- And with hysteresis afterwards (R32). -/
theorem SwitchDef.move_spec (d : SwitchDef) (p : Fin 3) (u : Int) :
    (d.kind = .two →
      (p = 0 → d.move p u = if d.t1 + d.hyst ≤ u then 1 else 0)
      ∧ (p = 1 → d.move p u = if u < d.t1 - d.hyst then 0 else 1))
    ∧ (d.kind = .three →
      (p = 0 → d.move p u = if d.t2 + d.hyst ≤ u then 2 else if d.t1 + d.hyst ≤ u then 1 else 0)
      ∧ (p = 1 → d.move p u = if d.t2 + d.hyst ≤ u then 2 else if u < d.t1 - d.hyst then 0 else 1)
      ∧ (p = 2 → d.move p u = if u < d.t1 - d.hyst then 0 else if u < d.t2 - d.hyst then 1 else 2)) := by
  unfold SwitchDef.move
  refine ⟨fun kind => ?_, fun kind => ?_⟩
  · rw [kind]
    exact ⟨fun at0 => by rw [at0], fun at1 => by rw [at1]⟩
  · rw [kind]
    exact ⟨fun at0 => by rw [at0], fun at1 => by rw [at1], fun at2 => by rw [at2]⟩

/-- u of a role (R28, R30). -/
theorem Chip.roleU_some (c : Chip) (ch : Fin 12) : ((c.slots[ch]).tag = .empty → c.roleU (some ch) = none)
    ∧ ∀ raw, (c.slots[ch]).raw = some raw → c.roleU (some ch) = some ((c.tables.channelCal[ch]).normalize raw) := by
  unfold Chip.roleU
  refine ⟨fun tag => ?_, fun raw value => by simp only [value, Option.map_some]⟩
  cases slot : c.slots[ch] with
  | empty =>
    change (c.slots[ch]).raw.map _ = none
    rw [slot]
    rfl
  | fresh r | held r | failsafe r => rw [slot] at tag; cases tag

/-- Settles O29. -/
theorem curvesChannelsAndWidthsStayInRange : Obligations.CurvesChannelsAndWidthsStayInRange := by
  refine ⟨⟨fun y u ok low high => ?curve, fun y k => y.eval_point k, fun cal raw ok => cal.normalize_within ok raw⟩,
    fun e x slew before ok low high => ?widths, ?formulas, ⟨rfl, rfl, rfl, rfl, rfl⟩,
    fun r => ⟨rfl, rfl, rfl, rfl, rfl, rfl, rfl, rfl⟩, fun d before u => ?switch, fun c => ?decode⟩
  case curve =>
    obtain ⟨above, below⟩ := y.eval_between low high
    have first := ok ⟨(curveSegment u).val, by omega⟩
    have second := ok ⟨(curveSegment u).val + 1, by omega⟩
    simp only [Fin.getElem_fin] at first second
    exact ⟨by omega, by omega, above, below⟩
  case widths =>
    have target := e.width_within ok low high
    exact ⟨target, e.slewed_within ok slew before target.1 target.2, e.width_points⟩
  case formulas =>
    intro nearest
    refine ⟨fun cal raw => rfl, fun y u low high => ⟨(curveSegment_spec low high).1, rfl⟩,
      fun e x => ⟨fun up => if_pos up, fun down => if_neg (not_le.2 down)⟩, fun e slew w target => ⟨rfl, ?_, fun moves => ?_⟩,
      fun lo hi x => rfl⟩
    · exact e.slewed_some 0 w target
    · refine (e.slewed_some slew w target).trans ?_
      rw [if_neg moves.ne']
      rfl
  case switch =>
    obtain ⟨two, three⟩ := d.plain_spec u
    refine ⟨rfl, rfl, fun unordered => ?_, fun ordered => ?_⟩
    · simp only [SwitchDef.decode, unordered]
      exact ⟨two, three⟩
    · simp only [SwitchDef.decode, ordered]
      exact d.move_spec before.pos u
  case decode =>
    intro d m entry
    have mapped (i : Fin 5) : entry i = (c.tables.switchDef[i]).entry (d.switches[i]).pos := SwitchDef.entry_eq _ _
    have steer : d.steerSel = SteerMode.ofEntry (entry 0) := by rw [mapped]; rfl
    have drive : d.driveSel = DriveMode.ofEntry (entry 1) := by rw [mapped]; rfl
    have profile : d.profile = profileOfEntry (entry 2) := by rw [mapped]; rfl
    have light : d.mainLight = MainLight.ofEntry (entry 3) := by rw [mapped]; rfl
    have beacon : d.beacon = beaconOfEntry (entry 4) := by rw [mapped]; rfl
    refine ⟨⟨rfl, c.roleU_some⟩, ⟨rfl, rfl, rfl⟩, fun i => ?switches, ?steers, ?drives, fun known => ?profiles, ?lights, ?beacons⟩
    case switches =>
      match i with
      | 0 | 1 | 2 | 3 | 4 => rfl
    case steers =>
      rw [steer]
      exact ⟨fun code => by rw [code]; rfl, fun code => by rw [code]; rfl, fun code => by rw [code]; rfl,
        fun code => by rw [code]; rfl⟩
    case drives =>
      rw [drive]
      exact ⟨fun code => by rw [code]; rfl, fun code => by rw [code]; rfl, fun code => by rw [code]; rfl⟩
    case profiles =>
      rw [profile]
      exact Nat.min_eq_right known
    case lights =>
      rw [light]
      exact ⟨fun code => by rw [code]; rfl, fun code => by rw [code]; rfl, fun code => by rw [code]; rfl⟩
    case beacons =>
      rw [beacon]
      exact ⟨fun code => by rw [code]; rfl, fun code => by rw [code]; rfl⟩

end Sys2Proof.Machine
end
